-- ==== Sys2Proof/Word.lean ====
section
/-! DEFINITION. The words of the block: levels, bytes, register addresses (spec/00_scope.md R9). -/

namespace Sys2Proof

/-- A value of eight bits, bit 0 least significant (R9). -/
abbrev Byte := BitVec 8

/-- The level of a line: `false` is 0 (low), `true` is 1 (high). -/
abbrev Level := Bool

/-- An address of the controller's register space 0x00 to 0x7F (20_memory.md R50). -/
abbrev RegAddr := BitVec 7

end Sys2Proof
end

