-- ==== Sys2Proof/Data.lean ====
section
/-! DEFINITION. The entities of the data model (spec/10_state.md R30, R31, R43) and the moves of the
environment (spec/49_environment_controller_model.md R166, R175 to R178), as plain data. -/

namespace Sys2Proof

/-- The status an operation returns: exactly five values (R30). -/
inductive Status where
  | ok | error | busy | noMessage | timeout
deriving DecidableEq, Repr

/-- The operating mode of the controller (R31). -/
inductive ControllerMode where
  | configuration | normal | loopback
deriving DecidableEq, Repr, Inhabited

/-- A CAN frame (R43): an 11-bit identifier, a data-length code of 0 to 8 and that many payload bytes.
The shape allows more; `CanFrame.wf` is the invariant. -/
structure CanFrame where
  id : BitVec 11
  dlc : BitVec 4
  data : List Byte
deriving DecidableEq, Repr, Inhabited

/-- R43: "data-length-code never exceeds 8", and the payload is exactly that many bytes. -/
abbrev CanFrame.wf (f : CanFrame) : Prop := f.dlc.toNat ≤ 8 ∧ f.data.length = f.dlc.toNat

/-- A frame as a host hands it over: wide enough to carry values outside the domain of R43, which the
block refuses (30_encoding.md R90, 60_exceptions.md R199). -/
structure FrameOperand where
  id : BitVec 16
  dlc : Byte
  data : List Byte
deriving DecidableEq, Repr

/-- What the environment of the reference controller may do between two bytes, between two commands or
during a delay. A move that is not enabled when it is fired does nothing.
`receive` carries the frame image the bus delivers, in the order of the receive buffer (R178). -/
inductive EnvMove where
  | finishReset
  | changeMode
  | deliverLoopback
  | sendNormal
  | receive (image : Vector Byte 13)
deriving DecidableEq, Repr

end Sys2Proof
end

