-- ==== Sys2Proof/Config.lean ====
section
/-! DEFINITION. What an implementation fixes (spec/00_scope.md R7, R8) and the free values: constants
without a body, of which nothing can be proved. -/

namespace Sys2Proof

/-- R8: what the receive path does with a DLC byte above 8. -/
inductive RxDlcGuard where
  | clamp | strict
deriving DecidableEq, Repr

/-- The configuration record of R8. A machine has one and no step changes it; a statement over all
states is a statement over all configurations. -/
structure Cfg where
  opReset : Byte
  opRead : Byte
  opWrite : Byte
  opBitModify : Byte
  opLoadTx0 : Byte
  opRtsTx0 : Byte
  opReadRx0 : Byte
  addrCanstat : Byte
  addrCanctrl : Byte
  addrCnf1 : Byte
  addrCnf2 : Byte
  addrCnf3 : Byte
  addrCanintf : Byte
  addrTxb0ctrl : Byte
  modeCodeNormal : BitVec 3
  modeCodeLoopback : BitVec 3
  modeCodeConfig : BitVec 3
  maskReqop : Byte
  maskTxreq : Byte
  maskRx0if : Byte
  cnf1Val : Byte
  cnf2Val : Byte
  cnf3Val : Byte
  dummyByte : Byte
  txReservedByte : Byte
  /-- W_BOUND, the width of `bound_ms` in bits (D20; log 16). -/
  wBound : Nat
  rxDlcGuard : RxDlcGuard
  pinSck : Nat
  pinCs : Nat
  pinMosi : Nat
  pinMiso : Nat
deriving DecidableEq, Repr

/-- FRAME_BITS: bits per transfer (R7). -/
def Config.frameBits : Nat := 8
/-- RESET_SETTLE_MS: the wait of the reset command (R7, R110). -/
def Config.resetSettleMs : Nat := 10
/-- POLL_STEP_MS: the wait between two polls (R7, R144). -/
def Config.pollStepMs : Nat := 1
/-- OBD_TIMEOUT_MS: informative, the layer above the block (R7, R152). -/
def Config.obdTimeoutMs : Nat := 100

/-- CNF1_VAL, OPEN in R8 (D16; log 15). -/
opaque Config.cnf1Val : Byte
/-- CNF2_VAL, OPEN in R8 (D16; log 15). -/
opaque Config.cnf2Val : Byte
/-- CNF3_VAL, OPEN in R8 (D16; log 15). -/
opaque Config.cnf3Val : Byte
/-- PIN_SCK, OPEN in R8 (D1; log 15): no rule depends on it. -/
opaque Config.pinSck : Nat
/-- PIN_CS, OPEN in R8 (D1; log 15). -/
opaque Config.pinCs : Nat
/-- PIN_MOSI, OPEN in R8 (D1; log 15). -/
opaque Config.pinMosi : Nat
/-- PIN_MISO, OPEN in R8 (D1; log 15). -/
opaque Config.pinMiso : Nat

/-- The defaults of R8. The controller-facing ones are the spec's own, marked there as general knowledge;
the OPEN ones are constants nothing can be proved of (log 15). -/
def Cfg.default : Cfg where
  opReset := 0xC0
  opRead := 0x03
  opWrite := 0x02
  opBitModify := 0x05
  opLoadTx0 := 0x40
  opRtsTx0 := 0x81
  opReadRx0 := 0x90
  addrCanstat := 0x0E
  addrCanctrl := 0x0F
  addrCnf1 := 0x2A
  addrCnf2 := 0x29
  addrCnf3 := 0x28
  addrCanintf := 0x2C
  addrTxb0ctrl := 0x30
  modeCodeNormal := 0b000
  modeCodeLoopback := 0b010
  modeCodeConfig := 0b100
  maskReqop := 0xE0
  maskTxreq := 0x08
  maskRx0if := 0x01
  cnf1Val := Config.cnf1Val
  cnf2Val := Config.cnf2Val
  cnf3Val := Config.cnf3Val
  dummyByte := 0x00
  txReservedByte := 0x00
  wBound := 16
  rxDlcGuard := .clamp
  pinSck := Config.pinSck
  pinCs := Config.pinCs
  pinMosi := Config.pinMosi
  pinMiso := Config.pinMiso

/-! ## Free values -/

/-- The sample of a MISO line that nobody drives: a draw (R24, R78, D28; log 6). -/
opaque Config.misoDraw : Nat → Level

/-- An unspecified byte of the controller: the n-th free value, at an address (R166, R176; log 9). -/
opaque Config.unspecByte : Nat → Nat → Byte

/-- The moves the environment fires at its n-th opportunity (R175 to R178; log 10). -/
opaque Config.envMoves : Nat → List EnvMove

/-- An unspecified scratch byte (R26, R28; log 5). -/
opaque Config.freeByte : Nat → Byte
/-- An unspecified bit counter (R26; log 5). -/
opaque Config.freeBit : Nat → Fin 8
/-- An unspecified frame buffer (R27; log 5). -/
opaque Config.freeFrame : Nat → CanFrame
/-- An unspecified timeout counter, before it is cut to W_BOUND bits (R28; log 5). -/
opaque Config.freeBound : Nat → Nat
/-- An unspecified target register (R28; log 5). -/
opaque Config.freeMode : Nat → ControllerMode

/-- The engine speed the layer above the block reports when 4 does not divide A·256+B (R155, N20; log 27). -/
opaque Config.rpmInexact : Nat → Rat

/-- The relative error that the unstated floating-point format and rounding of the battery voltage make for A·256+B
thousandths of a volt, before it is limited to `obdRoundoff` (R155, N20; log 27). -/
opaque Config.voltsError : Nat → Rat

end Sys2Proof
end

