-- ==== Sys2Proof/Syntax.lean ====
section
/-! DEFINITION. The seventeen operations a host can invoke (spec/30_encoding.md R75, R91): one constructor
per row of spec/opcode_table.json. Operands are as a host interface can carry them: wider than their domains. -/

namespace Sys2Proof

/-- An operation with its operands. -/
inductive Instr where
  /-- OPSEL 0x00 (40_spi_transport.md R101). -/
  | spiInit
  /-- OPSEL 0x01 (R102). -/
  | assertSelect
  /-- OPSEL 0x02 (R103). -/
  | deassertSelect
  /-- OPSEL 0x03 (R104). -/
  | transfer (tx : Byte)
  /-- OPSEL 0x10 (41_controller_commands.md R110). -/
  | cmdReset
  /-- OPSEL 0x11 (R111). -/
  | cmdReadRegister (addr : Byte)
  /-- OPSEL 0x12 (R112). -/
  | cmdWriteRegister (addr val : Byte)
  /-- OPSEL 0x13 (R113). -/
  | cmdBitModify (addr mask val : Byte)
  /-- OPSEL 0x14 (R114). -/
  | cmdLoadTxBuffer (id : BitVec 16) (dlc : Byte) (data : List Byte)
  /-- OPSEL 0x15 (R115). -/
  | cmdRequestToSend
  /-- OPSEL 0x16 (R116). -/
  | cmdReadRxBuffer
  /-- OPSEL 0x20 (42_frame_codec.md R126). -/
  | encodeTxBuffer (frame : FrameOperand)
  /-- OPSEL 0x21 (R127). -/
  | decodeRxBuffer (bytes : List Byte)
  /-- OPSEL 0x30 (43_driver_operations.md R136). -/
  | init (target : ControllerMode)
  /-- OPSEL 0x31 (R140). -/
  | transmit (frame : FrameOperand)
  /-- OPSEL 0x32 (R142). -/
  | receive
  /-- OPSEL 0x33 (R144). -/
  | receiveWithTimeout (bound : Nat)
deriving DecidableEq, Repr

end Sys2Proof
end

