-- ==== Sys2Proof/Machine/State.lean ====
section
/-! DEFINITION. The state of the machine as plain data (spec/10_state.md; the controller's part:
spec/49_environment_controller_model.md R161, R162), its faults and refusals, and the state after
hardware reset. -/

namespace Sys2Proof.Machine

/-! ## Lines and events -/

/-- The direction of a GPIO line (R20). -/
inductive Dir where
  | input | output
deriving DecidableEq, Repr

/-- The four lines the block owns (R20). -/
inductive Line where
  | sck | cs | mosi | miso
deriving DecidableEq, Repr

/-- The three lines the block drives (R21 to R23). -/
inductive OutLine where
  | sck | cs | mosi
deriving DecidableEq, Repr

/-- What the block does to the outside (00_scope.md R10, R11). -/
inductive Event where
  | pinDir (line : Line) (d : Dir)
  | pinWrite (line : OutLine) (v : Level)
  | pinRead (v : Level)
  | delayMs (n : Nat)
deriving DecidableEq, Repr

/-- The value an operation delivers to the host (30_encoding.md R91). -/
inductive Result where
  /-- No value. -/
  | nothing
  | byte (b : Byte)
  | bytes (bs : List Byte)
  | frame (f : CanFrame)
  | status (st : Status)
  /-- `(Ok, frame)` of the two receive operations (R142, R144). -/
  | okFrame (f : CanFrame)
deriving DecidableEq, Repr

/-! ## The block -/

/-- The step of the running operation (R29). The labels of `Init`, `Transmit`, `Receive` and
`ReceiveWithTimeout` are the spec's; an operation the spec gives no label has one label of its own
(log 18). -/
inductive Seq where
  | idle
  | spiInit | assertSelect | deassertSelect | transfer
  | cmdReset | cmdReadRegister | cmdWriteRegister | cmdBitModify | cmdLoadTxBuffer | cmdRequestToSend
  | cmdReadRxBuffer
  | encodeTxBuffer | decodeRxBuffer
  | poweredOn | settle | verifyConfig | programTiming | clearFlags | requestMode | verifyMode
  | doneOk | doneError
  | checkPending | load | send
  | poll | readFrame | clearFlag
  | loop
deriving DecidableEq, Repr

/-- The registers that are live only inside one operation (R26 to R28). -/
structure Scratch where
  /-- TXSR: the byte being sent. -/
  txsr : Byte
  /-- RXSR: the byte being received. -/
  rxsr : Byte
  /-- BITCNT: the bit being transferred. -/
  bitcnt : Fin 8
  /-- FB: the frame buffer. -/
  fb : CanFrame
  /-- REGVAL: the byte the last register read returned. -/
  regval : Byte
  /-- TMO: the milliseconds still to wait, a number of W_BOUND bits (R28); W_BOUND is a field of the configuration,
  so the width is an invariant (`State.Inv`) and not the type. -/
  tmo : Nat
  /-- TARGET: the mode operand of `Init`. -/
  target : ControllerMode
deriving DecidableEq, Repr

/-! ## The reference controller -/

/-- Bytes of the register space by address, in one canonical form (`Memory.wf`). -/
abbrev Memory := List Host.Cell

/-- What an address that the list does not hold reads as: the power-on contents of R166, and 0x00 where
the spec gives none (log 8). -/
def Memory.unlisted (a : Nat) : Byte :=
  if a = 0x0E then 0x80 else if a = 0x0F then 0x87 else 0x00

/-- The canonical form: addresses strictly rising and inside 0x00 to 0x7F (R50), and no entry equal to
what an unlisted address reads as. -/
abbrev Memory.wf (m : Memory) : Prop :=
  m.Pairwise (fun c d => c.1 < d.1) ∧ ∀ c ∈ m, c.1 < 128 ∧ c.2 ≠ Memory.unlisted c.1

/-- PST, the command parser (R161). -/
inductive Parser where
  | deselected
  | waitOpcode
  | rdAddr
  | rdData (ptr : RegAddr)
  | wrAddr
  | wrData (ptr : RegAddr)
  | bmAddr
  | bmMask (addr : RegAddr)
  | bmData (addr : RegAddr) (mask : Byte)
  | done
  | unknown
deriving DecidableEq, Repr

/-- What a run has done that the reference controller gives no meaning to (log 12). -/
inductive Outside where
  /-- An opcode that R164 does not list (U17). -/
  | unknownOpcode (opcode : Byte)
  /-- A register address above 0x7F (U7). -/
  | addressAbove7F (addr : Byte)
  /-- A write to the transmit buffer while the pending bit is set (U3). -/
  | loadWhilePending
  /-- A mode request for Sleep, Listen-only or a code above 0b100 (R175). -/
  | modeRequest (code : BitVec 3)
  /-- The abort bit of CANCTRL set (R181). -/
  | abort
  /-- The one-shot bit of CANCTRL set (R181). -/
  | oneShot
  /-- A transmit buffer with its extended-identifier bit set goes to the bus (R83, R181). -/
  | extendedFrame
  /-- A transmit buffer with its remote-request bit set goes to the bus (R85, R181). -/
  | remoteFrame
deriving DecidableEq, Repr

/-- The reference controller (R161, R162). -/
structure Controller where
  /-- REG[0x00 .. 0x7F]. -/
  reg : Memory
  /-- PST. -/
  pst : Parser
  /-- RXCLR: the open bracket is a read-receive-buffer command. -/
  rxclr : Bool
  /-- SETTLING: a reset opcode has come and the settle time has not passed. -/
  settling : Bool
  /-- The milliseconds after which the reset has completed at the latest (R166; log 11). -/
  settleLeft : Nat
  /-- The input byte as far as it is shifted in (R162). -/
  shiftIn : Byte
  /-- The rising clock edges of the running byte, 0 to 8 (R162). -/
  edges : Nat
  /-- The byte driven on MISO, or none when MISO is not driven (R162, R163). -/
  outByte : Option Byte
  /-- The first thing outside the model that the run did, if any (log 12). -/
  outside : Option Outside
deriving DecidableEq, Repr

/-- The controller right after power-on (R166; log 8). -/
def Controller.powerOn : Controller where
  reg := []
  pst := .deselected
  rxclr := false
  settling := false
  settleLeft := 0
  shiftIn := 0
  edges := 0
  outByte := none
  outside := none

/-- Who answers at MISO (R160, R180; log 7). -/
inductive Env where
  /-- Any bit at every sample: the block alone. -/
  | oracle
  /-- The reference controller under a free schedule. -/
  | reference
  /-- The reference controller under the eager schedule: the deterministic simulator. -/
  | simulator
deriving DecidableEq, Repr

/-! ## The whole -/

/-- The state of the machine. -/
structure State where
  dirSck : Dir
  dirCs : Dir
  dirMosi : Dir
  dirMiso : Dir
  /-- PIN.SCK (R21). -/
  pinSck : Level
  /-- PIN.CS, active low (R22). -/
  pinCs : Level
  /-- PIN.MOSI (R23). -/
  pinMosi : Level
  /-- INITED (R25). -/
  inited : Bool
  /-- SEQ (R29). -/
  seq : Seq
  /-- TXSR, RXSR, BITCNT, FB, REGVAL, TMO, TARGET (R26 to R28). -/
  scratch : Scratch
  /-- The events emitted since hardware reset, oldest first (R11; log 21). -/
  trace : List Event
  /-- The value last delivered to the host (R11, R30; log 21). -/
  ret : Result
  /-- The request bytes the host has put at the command port (R91; log 1). -/
  port : List Byte
  /-- The configuration record; no step writes it (R8, R13; log 15). -/
  cfg : Cfg
  /-- Who answers at MISO (log 7). -/
  env : Env
  /-- The answers prepared for the next samples that no controller drives (R11; log 6). -/
  samples : List Level
  /-- The moves the environment fires at its next opportunities, in order (R175 to R180; log 10). -/
  moves : List (List EnvMove)
  /-- The controller; it takes part when `env` is not `oracle`. -/
  ctl : Controller
  /-- The number of the next free value (log 23). -/
  freeIx : Nat
deriving DecidableEq, Repr

/-! ## Outcomes -/

/-- The faults of the model. -/
inductive Fault where
  /-- A command of 41_controller_commands.md or an operation of 43_driver_operations.md was started while
  PIN.CS = 0 (60_exceptions.md R198). Raised by those eleven meanings before their first event. Safe:
  the real block goes on, clocking bytes the controller reads as data of the open command. -/
  | overlappingCommand
deriving DecidableEq, Repr

/-- The refusals of the model. -/
inductive Refusal where
  /-- An instruction without a meaning; no arm answers it. Safe. -/
  | notModelled (mnemonic : String)
  /-- INITED = 0 and the operation is not SpiInit (60_exceptions.md R199 (a)). Raised by every other
  meaning. Safe. -/
  | notInitialised
  /-- SEQ is not Idle (R199 (b)). Raised by every meaning. Safe. -/
  | operationInProgress
  /-- An operand outside its domain (R199 (c)). Raised by the meanings that take a frame, a byte list, a target or a
  bound, and by the port for a target byte that is no mode code, there before (a) and (b) are checked (log 13).
  Safe. -/
  | operandOutOfDomain
  /-- An OPSEL value that R91 does not list (R199 (d)). Raised by the port, before (a) and (b) are checked
  (log 13). Safe. -/
  | reservedSelector (opsel : Byte)
  /-- A received DLC byte above 8 with RX_DLC_GUARD = strict (R199 (e)). Raised by RxCount. Safe. -/
  | strictDlc
  /-- A request that ends before its operands do (log 24). Raised by the port, before R199 (a) and (b) are
  checked (log 13). Safe. -/
  | truncatedRequest
  /-- With the reference controller attached, the run has left what that model gives a meaning to
  (49_environment_controller_model.md R164, R175, R181; U3, U7, U17; log 12). Raised at the return of the
  operation. Safe. -/
  | outsideController (why : Outside)
deriving DecidableEq, Repr

/-- The three outcomes of an operation. -/
abbrev Out := Host.Outcome State Fault Refusal

/-! ## Hardware reset -/

/-- The scratch registers at reset: the spec gives no value (R41); zero is the model's (log 4). -/
def Scratch.reset : Scratch where
  txsr := 0
  rxsr := 0
  bitcnt := 0
  fb := ⟨0, 0, []⟩
  regval := 0
  tmo := 0
  target := .normal

/-- The machine right after hardware reset (10_state.md R41, 70_reset_and_hazards.md R215): INITED = 0 and
SEQ = Idle are the spec's; the lines and the scratch registers are unspecified there and hold the values
of log 3 and log 4; the environment is the most general one (log 7). -/
def State.reset : State where
  dirSck := .input
  dirCs := .input
  dirMosi := .input
  dirMiso := .input
  pinSck := false
  pinCs := false
  pinMosi := false
  inited := false
  seq := .idle
  scratch := Scratch.reset
  trace := []
  ret := .nothing
  port := []
  cfg := Cfg.default
  env := .oracle
  samples := []
  moves := []
  ctl := Controller.powerOn
  freeIx := 0

end Sys2Proof.Machine
end

