-- ==== Sys2Proof/Machine/Operands.lean ====
section
/-! DEFINITION. Operands a host hands over, brought into their domains or refused
(spec/10_state.md R43, 30_encoding.md R90, 60_exceptions.md R199 (c)). -/

namespace Sys2Proof.Machine

/-- The frame a frame operand stands for; none outside the domain of R43. -/
def toFrame (f : FrameOperand) : Option CanFrame :=
  if f.id.toNat ≤ 0x7FF ∧ f.dlc.toNat ≤ 8 ∧ f.data.length = f.dlc.toNat then
    some ⟨f.id.setWidth 11, f.dlc.setWidth 4, f.data⟩
  else none

/-- The target of `Init`: Normal or Loopback; none for any other mode (R90, D19). -/
def toTarget (m : ControllerMode) : Option ControllerMode :=
  match m with
  | .normal => some .normal
  | .loopback => some .loopback
  | .configuration => none

/-- The bound of `ReceiveWithTimeout`: a number of `width` bits, W_BOUND of R8 (43_driver_operations.md R144); a wider
one is refused like every operand outside its type (R90; log 16). -/
def toBound (width bound : Nat) : Option Nat := if bound < 2 ^ width then some bound else none

end Sys2Proof.Machine
end

