-- ==== Sys2Proof/Machine/Controller.lean ====
section
/-! DEFINITION. The reference controller (spec/49_environment_controller_model.md): its registers, its
command parser, its bit-level wire side and its internal steps, as functions on `Controller`. -/

namespace Sys2Proof.Machine

/-! ## The register space -/

/-- The byte at an address. -/
def Memory.read (m : Memory) (a : Nat) : Byte :=
  match m with
  | [] => Memory.unlisted a
  | (b, v) :: m => if a = b then v else Memory.read m a

/-- An entry in front of a list, unless it holds what an unlisted address reads as. -/
def Memory.cell (a : Nat) (v : Byte) (m : Memory) : Memory :=
  if v = Memory.unlisted a then m else (a, v) :: m

/-- The byte at an address replaced; keeps the canonical form. -/
def Memory.write (m : Memory) (a : Nat) (v : Byte) : Memory :=
  match m with
  | [] => Memory.cell a v []
  | (b, w) :: m =>
    if a < b then Memory.cell a v ((b, w) :: m)
    else if a = b then Memory.cell a v m
    else (b, w) :: Memory.write m a v

/-- The register space whose byte at each address 0x00 to 0x7F is given. -/
def Memory.ofFn (f : Nat → Byte) : Memory :=
  (List.range 128).filterMap fun a => if f a = Memory.unlisted a then none else some (a, f a)

/-- REG[a]. -/
def Controller.rd (c : Controller) (a : Nat) : Byte := c.reg.read a

/-- REG[a] <- v. -/
def Controller.wr (c : Controller) (a : Nat) (v : Byte) : Controller := { c with reg := c.reg.write a v }

/-- Bytes into successive ascending addresses (R53). -/
def Controller.wrSeq (c : Controller) (a : Nat) (vs : List Byte) : Controller :=
  match vs with
  | [] => c
  | v :: vs => (c.wr a v).wrSeq (a + 1) vs

/-! ## Fields -/

/-- The operating mode REG[0x0E][7:5] (R161). -/
def Controller.mode (c : Controller) : BitVec 3 := (c.rd 0x0E).extractLsb' 5 3

/-- The requested mode REG[0x0F][7:5] (R169). -/
def Controller.request (c : Controller) : BitVec 3 := (c.rd 0x0F).extractLsb' 5 3

/-- The pending bit REG[0x30][3]. -/
def Controller.pending (c : Controller) : Bool := (c.rd 0x30).getLsbD 3

/-- The receive flag REG[0x2C][0]. -/
def Controller.rxFlag (c : Controller) : Bool := (c.rd 0x2C).getLsbD 0

/-- `reg <- (reg & ~mask) | (v & mask)` (30_encoding.md R80). -/
def mergeByte (old mask v : Byte) : Byte := (old &&& ~~~mask) ||| (v &&& mask)

/-- The first thing outside the model that a run does is kept (log 12). -/
def Controller.note (c : Controller) (why : Outside) : Controller :=
  { c with outside := c.outside <|> some why }

/-! ## Writes (R169) -/

/-- What a write of CANCTRL asks for that the model gives no meaning to (R175, R181; log 12). -/
def Controller.noteCanctrl (c : Controller) : Controller :=
  if c.request ≠ 0b000 ∧ c.request ≠ 0b010 ∧ c.request ≠ 0b100 then c.note (.modeRequest c.request)
  else if (c.rd 0x0F).getLsbD 4 then c.note .abort
  else if (c.rd 0x0F).getLsbD 3 then c.note .oneShot
  else c

/-- What is outside the model in a write of the register at `a` that has just been made (log 12). -/
def Controller.noteWrite (c : Controller) (a : RegAddr) : Controller :=
  if a = 0x0F then c.noteCanctrl
  else if 0x31 ≤ a ∧ a ≤ 0x3D ∧ c.pending then c.note .loadWhilePending
  else c

/-- RegWrite of R169: the one place where registers change under the master's control. -/
def Controller.regWrite (c : Controller) (a : RegAddr) (mask v : Byte) : Controller :=
  if c.settling then c
  else if a = 0x0E then c
  else if (a = 0x28 ∨ a = 0x29 ∨ a = 0x2A) ∧ c.mode ≠ 0b100 then c
  else if a = 0x30 then c.wr 0x30 (mergeByte (c.rd 0x30) (mask &&& 0x0B) v)
  else (c.wr a.toNat (mergeByte (c.rd a.toNat) mask v)).noteWrite a

/-! ## Commands (R164 to R173) -/

/-- The request to send (R173): pending set, abort, lost-arbitration and error flags cleared. -/
def Controller.requestToSend (c : Controller) : Controller :=
  if c.settling then c else c.wr 0x30 (c.rd 0x30 &&& 0x8F ||| 0x08)

/-- The reset opcode (R166): settling starts; it ends within 10 ms (log 11). A reset opcode that comes while
settling starts the count anew: the model's choice, for R166 speaks of one reset only (log 11). -/
def Controller.startReset (c : Controller) : Controller :=
  { c with settling := true, settleLeft := Config.resetSettleMs }

/-- The first byte of a bracket (R164). -/
def Controller.opcode (c : Controller) (ib : Byte) : Controller :=
  if ib = 0xC0 then { c.startReset with pst := .done }
  else if ib = 0x03 then { c with pst := .rdAddr }
  else if ib = 0x02 then { c with pst := .wrAddr }
  else if ib = 0x05 then { c with pst := .bmAddr }
  else if ib = 0x40 then { c with pst := .wrData 0x31 }
  else if ib = 0x81 then { c.requestToSend with pst := .done }
  else if ib = 0x90 then { c with pst := .rdData 0x61, rxclr := true }
  else { c.note (.unknownOpcode ib) with pst := .unknown }

/-- An address byte: masked with 0x7F (R165), and noted when it is above (U7; log 12). -/
def Controller.address (c : Controller) (ib : Byte) (next : Parser) : Controller :=
  if ib.getLsbD 7 then { c.note (.addressAbove7F ib) with pst := next } else { c with pst := next }

/-- One byte step (R163): the parser takes the input byte. -/
def Controller.byteStep (c : Controller) (ib : Byte) : Controller :=
  match c.pst with
  | .deselected => c
  | .waitOpcode => c.opcode ib
  | .rdAddr => c.address ib (.rdData (ib.setWidth 7))
  | .rdData ptr => { c with pst := .rdData (ptr + 1) }
  | .wrAddr => c.address ib (.wrData (ib.setWidth 7))
  | .wrData ptr => { c.regWrite ptr 0xFF ib with pst := .wrData (ptr + 1) }
  | .bmAddr => c.address ib (.bmMask (ib.setWidth 7))
  | .bmMask a => { c with pst := .bmData a ib }
  | .bmData a m => { c.regWrite a m ib with pst := .done }
  | .done => c
  | .unknown => c

/-- The output byte the controller fixes for the next byte of the bracket (R163, R165); none when MISO is
not driven, and while settling, when what it outputs is a draw (R166). -/
def Controller.output (c : Controller) : Option Byte :=
  match c.pst with
  | .rdData ptr => if c.settling then none else some (c.rd ptr.toNat)
  | .deselected => none
  | .waitOpcode => none
  | .rdAddr => none
  | .wrAddr => none
  | .wrData _ => none
  | .bmAddr => none
  | .bmMask _ => none
  | .bmData _ _ => none
  | .done => none
  | .unknown => none

/-! ## The wire (R162) -/

/-- The falling edge of CS. -/
def Controller.select (c : Controller) : Controller :=
  { c with pst := .waitOpcode, rxclr := false, shiftIn := 0, edges := 0, outByte := none }

/-- The rising edge of CS: deselected, the receive flag cleared after a read-receive-buffer command, an
incomplete input byte discarded. -/
def Controller.release (c : Controller) : Controller :=
  { (if c.rxclr then c.wr 0x2C (c.rd 0x2C &&& 0xFE) else c) with
    pst := .deselected, shiftIn := 0, edges := 0, outByte := none }

/-- A rising edge of SCK: the MOSI level is shifted in; the eighth completes the input byte. -/
def Controller.clockRise (c : Controller) (mosi : Level) : Controller :=
  let c := { c with shiftIn := c.shiftIn <<< 1 ||| BitVec.ofNat 8 mosi.toNat, edges := c.edges + 1 }
  if c.edges = 8 then c.byteStep c.shiftIn else c

/-- The start of the next byte of a bracket: its output byte is fixed (R163). -/
def Controller.nextByte (c : Controller) : Controller :=
  { c with shiftIn := 0, edges := 0, outByte := c.output }

/-- The level driven on MISO: the bit `i` of the output byte whose clock pulse is the running one (SCK
high) or the coming one (SCK low). -/
def Controller.drive (c : Controller) (sck : Level) : Option Level :=
  match c.outByte with
  | some ob => some (ob.getLsbD (if sck then 8 - c.edges else 7 - c.edges))
  | none => none

/-! ## Internal steps (R166, R175 to R178)

`fill` gives the byte an unspecified register takes (log 9). -/

/-- The registers after the reset (R166). -/
def resetReg (fill : Nat → Byte) (a : Nat) : Byte :=
  if a = 0x0E then 0x80
  else if a = 0x0F then 0x87
  else if a = 0x28 ∨ a = 0x29 ∨ a = 0x2A ∨ a = 0x2B ∨ a = 0x2C ∨ a = 0x2D ∨ a = 0x30 ∨ a = 0x60 then 0x00
  else fill a

/-- The reset completes (R166). -/
def Controller.finishReset (fill : Nat → Byte) (c : Controller) : Controller :=
  if c.settling then { c with reg := Memory.ofFn (resetReg fill), settling := false, settleLeft := 0 } else c

/-- `n` milliseconds pass: a reset completes at the latest when its settle time is over (R166). -/
def Controller.elapse (fill : Nat → Byte) (n : Nat) (c : Controller) : Controller :=
  if c.settleLeft ≤ n then c.finishReset fill else { c with settleLeft := c.settleLeft - n }

/-- The mode change (R175). -/
def Controller.changeMode (c : Controller) : Controller :=
  if c.settling = false ∧ c.request ≠ c.mode ∧ (c.request = 0b000 ∨ c.request = 0b010 ∨ c.request = 0b100) then
    c.wr 0x0E (c.rd 0x0E &&& 0x1F ||| c.request.setWidth 8 <<< 5)
  else c

/-- The transmission is over: pending cleared, transmit-done flag set (R176, R177). -/
def Controller.sent (c : Controller) : Controller :=
  let c := c.wr 0x30 (c.rd 0x30 &&& 0xF7)
  c.wr 0x2C (c.rd 0x2C ||| 0x04)

/-- A frame arrives at receive buffer 0: stored and flagged, or lost with the overflow bit set when the
buffer still holds an unread frame (R176, R178). -/
def Controller.arrive (c : Controller) (image : List Byte) : Controller :=
  if c.rxFlag then c.wr 0x2D (c.rd 0x2D ||| 0x40)
  else
    let c := c.wrSeq 0x61 image
    c.wr 0x2C (c.rd 0x2C ||| 0x01)

/-- The image that loopback delivers: the transmit buffer, masked as R176 says. -/
def Controller.loopImage (fill : Nat → Byte) (c : Controller) : List Byte :=
  let n := min ((c.rd 0x35).toNat % 16) 8
  [c.rd 0x31, c.rd 0x32 &&& 0xEB, c.rd 0x33, c.rd 0x34, c.rd 0x35 &&& 0x4F] ++
    (List.range 8).map fun k => if k < n then c.rd (0x36 + k) else fill (0x66 + k)

/-- Loopback delivery (R176). -/
def Controller.deliverLoopback (fill : Nat → Byte) (c : Controller) : Controller :=
  if c.mode = 0b010 ∧ c.pending then (c.arrive (c.loopImage fill)).sent else c

/-- What goes to the bus in a transmission and has no meaning in the model: an extended or a remote frame (R83, R85,
R181; log 12). -/
def Controller.noteBus (c : Controller) : Controller :=
  if (c.rd 0x32).getLsbD 3 then c.note .extendedFrame
  else if (c.rd 0x35).getLsbD 6 then c.note .remoteFrame
  else c

/-- Normal-mode transmission (R177). -/
def Controller.sendNormal (c : Controller) : Controller :=
  if c.mode = 0b000 ∧ c.pending then c.noteBus.sent else c

/-- Normal-mode reception (R178). -/
def Controller.receiveNormal (c : Controller) (image : List Byte) : Controller :=
  if c.mode = 0b000 then c.arrive image else c

/-- A move of the environment; one that is not enabled does nothing. -/
def Controller.fire (fill : Nat → Byte) (m : EnvMove) (c : Controller) : Controller :=
  match m with
  | .finishReset => c.finishReset fill
  | .changeMode => c.changeMode
  | .deliverLoopback => c.deliverLoopback fill
  | .sendNormal => c.sendNormal
  | .receive image => c.receiveNormal image.toList

end Sys2Proof.Machine
end

