-- ==== Sys2Proof/Machine/Ops.lean ====
section
/-! DEFINITION. The named operations over the lines, the registers and the environment
(spec/00_scope.md R10, R11), and the one shared way an operation starts and returns
(spec/60_exceptions.md R190, R197 to R199). The block has no exception: what an exception entry and
return are elsewhere is here the status an operation returns with, `State.finish`. -/

namespace Sys2Proof.Machine

/-! ## Registers of the block -/

/-- SEQ <- label (R29). -/
def State.enter (s : State) (label : Seq) : State := { s with seq := label }

/-- TXSR <- v. -/
def State.setTxsr (s : State) (v : Byte) : State := { s with scratch := { s.scratch with txsr := v } }

/-- RXSR before the first sample of a transfer: unspecified (R104); every bit of it is overwritten, so the
zeros put here are never seen (log 29). -/
def State.clearRxsr (s : State) : State := { s with scratch := { s.scratch with rxsr := 0 } }

/-- BITCNT <- i. -/
def State.setBitcnt (s : State) (i : Fin 8) : State := { s with scratch := { s.scratch with bitcnt := i } }

/-- A byte with bit `i` replaced. -/
def setBit (v : Byte) (i : Nat) (b : Bool) : Byte :=
  if b then v ||| BitVec.twoPow 8 i else v &&& ~~~BitVec.twoPow 8 i

/-- RXSR[i] <- b. -/
def State.setRxsrBit (s : State) (i : Fin 8) (b : Level) : State :=
  { s with scratch := { s.scratch with rxsr := setBit s.scratch.rxsr i.val b } }

/-- REGVAL <- v. -/
def State.setRegval (s : State) (v : Byte) : State := { s with scratch := { s.scratch with regval := v } }

/-- FB <- f. -/
def State.setFb (s : State) (f : CanFrame) : State := { s with scratch := { s.scratch with fb := f } }

/-- TMO <- n. -/
def State.setTmo (s : State) (n : Nat) : State := { s with scratch := { s.scratch with tmo := n } }

/-- TARGET <- m. -/
def State.setTarget (s : State) (m : ControllerMode) : State :=
  { s with scratch := { s.scratch with target := m } }

/-- The scratch registers when no rule says what they hold: free values (R26 to R28, R197; log 5); TMO is still a
number of W_BOUND bits. -/
def State.freeScratch (s : State) : State :=
  { s with
    scratch :=
      { txsr := Config.freeByte s.freeIx
        rxsr := Config.freeByte (s.freeIx + 1)
        bitcnt := Config.freeBit s.freeIx
        fb := Config.freeFrame s.freeIx
        regval := Config.freeByte (s.freeIx + 2)
        tmo := Config.freeBound s.freeIx % 2 ^ s.cfg.wBound
        target := Config.freeMode s.freeIx }
    freeIx := s.freeIx + 3 }

/-! ## Events and lines -/

/-- An event of the block is added to the trace (R11). -/
def State.emit (s : State) (e : Event) : State := { s with trace := s.trace ++ [e] }

/-- The level the block drives on a line. -/
def State.level (s : State) (p : OutLine) : Level :=
  match p with
  | .sck => s.pinSck
  | .cs => s.pinCs
  | .mosi => s.pinMosi

/-- PIN.X <- v. -/
def State.setLevel (s : State) (p : OutLine) (v : Level) : State :=
  match p with
  | .sck => { s with pinSck := v }
  | .cs => { s with pinCs := v }
  | .mosi => { s with pinMosi := v }

/-- DIR.X <- d. -/
def State.setDir (s : State) (l : Line) (d : Dir) : State :=
  match l with
  | .sck => { s with dirSck := d }
  | .cs => { s with dirCs := d }
  | .mosi => { s with dirMosi := d }
  | .miso => { s with dirMiso := d }

/-! ## The environment -/

/-- What an unspecified register of the controller takes: 0x00 in the simulator (R166), else a free value
(log 9). -/
def State.fill (s : State) : Nat → Byte :=
  match s.env with
  | .simulator => fun _ => 0x00
  | .oracle => fun a => Config.unspecByte s.freeIx a
  | .reference => fun a => Config.unspecByte s.freeIx a

/-- The controller is replaced. -/
def State.setCtl (s : State) (c : Controller) : State := { s with ctl := c }

/-- A move of the environment fires. -/
def State.fire (s : State) (m : EnvMove) : State :=
  { s with ctl := s.ctl.fire s.fill m, freeIx := s.freeIx + 1 }

/-- Moves fire one after the other. -/
def State.fireAll (s : State) (ms : List EnvMove) : State := ms.foldl State.fire s

/-- A move is a reception, the only one a test of the simulator chooses (R180). -/
def isReception (m : EnvMove) : Bool :=
  match m with
  | .receive _ => true
  | .finishReset => false
  | .changeMode => false
  | .deliverLoopback => false
  | .sendNormal => false

/-- An opportunity for the controller's internal steps: between two bytes, at an edge of CS, during a
delay, while the block waits (R175, R208; log 10). -/
def State.opportunity (s : State) : State :=
  match s.env with
  | .oracle => s
  | .reference =>
    match s.moves with
    | [] => { s with freeIx := s.freeIx + 1 }.fireAll (Config.envMoves s.freeIx)
    | ms :: rest => { s with moves := rest }.fireAll ms
  | .simulator =>
    match s.moves with
    | [] => s
    | ms :: rest => { s with moves := rest }.fireAll (ms.filter isReception)

/-- The eager schedule: every enabled step of R166 and R175 to R177 fires at the rising edge of CS (R180). -/
def State.eager (s : State) : State :=
  s.fireAll [.finishReset, .changeMode, .deliverLoopback, .sendNormal]

/-- The rising edge of CS at the controller (R162, R180). -/
def State.afterRelease (s : State) : State :=
  match s.env with
  | .oracle => s
  | .reference => (s.setCtl s.ctl.release).opportunity
  | .simulator => (s.setCtl s.ctl.release).eager.opportunity

/-- The falling edge of CS at the controller (R162). -/
def State.afterSelect (s : State) : State :=
  match s.env with
  | .oracle => s
  | .reference => let s := s.opportunity; s.setCtl s.ctl.select
  | .simulator => let s := s.opportunity; s.setCtl s.ctl.select

/-- A rising edge of SCK at the controller, which ignores it while CS is high (R162). -/
def State.afterClockRise (s : State) : State :=
  match s.env with
  | .oracle => s
  | .reference => if s.pinCs then s else s.setCtl (s.ctl.clockRise s.pinMosi)
  | .simulator => if s.pinCs then s else s.setCtl (s.ctl.clockRise s.pinMosi)

/-- The end of a byte: internal steps may fire, then the next output byte is fixed (R163, R175). -/
def State.byteEnd (s : State) : State :=
  let s := s.opportunity
  s.setCtl s.ctl.nextByte

/-- A falling edge of SCK at the controller (R162). -/
def State.afterClockFall (s : State) : State :=
  match s.env with
  | .oracle => s
  | .reference => if s.pinCs = false ∧ s.ctl.edges = 8 then s.byteEnd else s
  | .simulator => if s.pinCs = false ∧ s.ctl.edges = 8 then s.byteEnd else s

/-- What a change of a line does at the controller: an edge of CS or of SCK. -/
def State.notify (s : State) (p : OutLine) (old v : Level) : State :=
  match p, old, v with
  | .cs, true, false => s.afterSelect
  | .cs, false, true => s.afterRelease
  | .cs, false, false => s
  | .cs, true, true => s
  | .sck, false, true => s.afterClockRise
  | .sck, true, false => s.afterClockFall
  | .sck, false, false => s
  | .sck, true, true => s
  | .mosi, _, _ => s

/-- A sample of a line nobody drives: the oracle's next answer, or a free value (R11, R24; log 6). -/
def State.draw (s : State) : Level × State :=
  match s.samples with
  | b :: rest => (b, { s with samples := rest })
  | [] => (Config.misoDraw s.freeIx, { s with freeIx := s.freeIx + 1 })

/-- The level the controller drives on MISO, if it does (R162). -/
def State.driven (s : State) : Option Level := if s.pinCs then none else s.ctl.drive s.pinSck

/-- The level of MISO at this moment. -/
def State.sample (s : State) : Level × State :=
  match s.env with
  | .oracle => s.draw
  | .reference =>
    match s.driven with
    | some b => (b, s)
    | none => s.draw
  | .simulator =>
    match s.driven with
    | some b => (b, s)
    | none => (false, s)

/-! ## The primitives of R10 -/

/-- PinWrite(X, v). -/
def State.pinWrite (s : State) (p : OutLine) (v : Level) : State :=
  ((s.setLevel p v).emit (.pinWrite p v)).notify p (s.level p) v

/-- PinRead(MISO). -/
def State.pinRead (s : State) : Level × State :=
  let r := s.sample
  (r.1, r.2.emit (.pinRead r.1))

/-- PinDir(X, d). -/
def State.pinDir (s : State) (l : Line) (d : Dir) : State := (s.setDir l d).emit (.pinDir l d)

/-- The controller and the bus go on during a delay (R166, R208). -/
def State.afterDelay (s : State) (n : Nat) : State :=
  match s.env with
  | .oracle => s
  | .reference =>
    let s := s.opportunity
    { s with ctl := s.ctl.elapse s.fill n, freeIx := s.freeIx + 1 }
  | .simulator =>
    let s := s.opportunity
    { s with ctl := s.ctl.elapse s.fill n, freeIx := s.freeIx + 1 }

/-- DelayMs(n): an event; it returns after at least n ms (R208, D31). -/
def State.delayMs (s : State) (n : Nat) : State := (s.emit (.delayMs n)).afterDelay n

/-! ## Start and return of an operation -/

/-- R199 (a), (b): an operation other than SpiInit runs only after SpiInit and when none runs. -/
def State.whenReady (s : State) (k : Out) : Out :=
  if s.inited = false then .refused .notInitialised
  else if s.seq ≠ .idle then .refused .operationInProgress
  else k

/-- R198: a command or driver operation does not start inside an open bracket. -/
def State.whenReleased (s : State) (k : Out) : Out :=
  if s.pinCs = false then .fault .overlappingCommand else k

/-- The run has left the reference controller's model (log 12). -/
def State.left (s : State) : Option Outside :=
  match s.env with
  | .oracle => none
  | .reference => s.ctl.outside
  | .simulator => s.ctl.outside

/-- The return of an operation (R29, R197): SEQ <- Idle, the value is delivered, the scratch registers
are unspecified. -/
def State.finish (s : State) (r : Result) : Out :=
  match s.left with
  | some why => .refused (.outsideController why)
  | none => .next { (s.enter .idle).freeScratch with ret := r }

end Sys2Proof.Machine
end

