-- ==== Sys2Proof/Machine/FrameCodec.lean ====
section
/-! DEFINITION. The CAN frame codec (spec/42_frame_codec.md; layout: spec/30_encoding.md R83 to R87). -/

namespace Sys2Proof.Machine

/-- ID-high: `id[10:3]` (R83). -/
def idHighByte (id : BitVec 11) : Byte := id.extractLsb' 3 8

/-- ID-low: `id[2:0]` in bits 7:5, zeros below (R83). -/
def idLowByte (id : BitVec 11) : Byte := id.extractLsb' 0 3 ++ 0b00000#5

/-- `EncodeTxBuffer`: the transmit buffer image of a frame (R126); `reserved` is TX_RESERVED_BYTE. -/
def encodeTx (reserved : Byte) (f : CanFrame) : List Byte :=
  [idHighByte f.id, idLowByte f.id, reserved, reserved, f.dlc.setWidth 8] ++ f.data

/-- `RxCount`: the number of payload bytes a received DLC byte asks for (R128); none is the refusal
StrictDlc of RX_DLC_GUARD = strict (log 17). -/
def rxCount (guard : RxDlcGuard) (dlcb : Byte) : Option (BitVec 4) :=
  match guard with
  | .clamp => some (if dlcb.extractLsb' 0 4 > 8 then 8 else dlcb.extractLsb' 0 4)
  | .strict => if dlcb > 8 then none else some (dlcb.extractLsb' 0 4)

/-- The identifier of a received image: `(ID-high << 3) | (ID-low >> 5)` at 11 bits (R83, R127). -/
def rxId (idh idl : Byte) : BitVec 11 := idh.setWidth 11 <<< 3 ||| (idl.extractLsb' 5 3).setWidth 11

/-- `DecodeRxBuffer`: the frame of a receive buffer image (R127). -/
def decodeRx (guard : RxDlcGuard) (bytes : List Byte) : Except Refusal CanFrame :=
  match bytes with
  | idh :: idl :: _ :: _ :: dlcb :: payload =>
    match rxCount guard dlcb with
    | none => .error .strictDlc
    | some n => if payload.length = n.toNat then .ok ⟨rxId idh idl, n, payload⟩ else .error .operandOutOfDomain
  | _ => .error .operandOutOfDomain

/-- EncodeTxBuffer (R126). -/
def execEncodeTxBuffer (frame : FrameOperand) (s : State) : Out :=
  s.whenReady
    (match toFrame frame with
     | none => .refused .operandOutOfDomain
     | some f => (s.enter .encodeTxBuffer).finish (.bytes (encodeTx s.cfg.txReservedByte f)))

/-- DecodeRxBuffer (R127). -/
def execDecodeRxBuffer (bytes : List Byte) (s : State) : Out :=
  s.whenReady
    (match decodeRx s.cfg.rxDlcGuard bytes with
     | .error why => .refused why
     | .ok f => (s.enter .decodeRxBuffer).finish (.frame f))

end Sys2Proof.Machine
end

