-- ==== Sys2Proof/Machine/SpiTransport.lean ====
section
/-! DEFINITION. The SPI transport primitives (spec/40_spi_transport.md). -/

namespace Sys2Proof.Machine

/-- One bit of `Transfer` (R104): drive MOSI, raise the clock, sample MISO, lower the clock. -/
def State.transferBit (s : State) (i : Fin 8) : State :=
  let s := s.setBitcnt i
  let s := s.pinWrite .mosi (s.scratch.txsr.getLsbD i.val)
  let s := s.pinWrite .sck true
  let r := s.pinRead
  let s := r.2.setRxsrBit i r.1
  s.pinWrite .sck false

/-- `Transfer(tx) -> byte` (R104): eight bits, most significant first. -/
def State.transfer (s : State) (tx : Byte) : Byte × State :=
  let s := (s.setTxsr tx).clearRxsr
  let s := [7, 6, 5, 4, 3, 2, 1, 0].foldl State.transferBit s
  (s.scratch.rxsr, s)

/-- A transfer whose result is discarded. -/
def State.sendByte (s : State) (tx : Byte) : State := (s.transfer tx).2

/-- Transfers whose results are discarded, one after the other. -/
def State.sendBytes (s : State) (txs : List Byte) : State := txs.foldl State.sendByte s

/-- `n` transfers of the dummy byte, with the bytes received (30_encoding.md R76, R78). -/
def State.receiveBytes (s : State) (n : Nat) : List Byte × State :=
  match n with
  | 0 => ([], s)
  | n + 1 =>
    let r := s.transfer s.cfg.dummyByte
    let rs := r.2.receiveBytes n
    (r.1 :: rs.1, rs.2)

/-- `AssertSelect()` (R102). -/
def State.assertSelect (s : State) : State := s.pinWrite .cs false

/-- `DeassertSelect()` (R103). -/
def State.deassertSelect (s : State) : State := s.pinWrite .cs true

/-- The seven events of `SpiInit()` and INITED <- 1 (R101). -/
def State.spiInit (s : State) : State :=
  let s := s.pinDir .sck .output
  let s := s.pinDir .cs .output
  let s := s.pinDir .mosi .output
  let s := s.pinDir .miso .input
  let s := s.pinWrite .cs true
  let s := s.pinWrite .sck false
  let s := s.pinWrite .mosi false
  { s with inited := true }

/-- SpiInit (R101): refused only while another operation runs. -/
def execSpiInit (s : State) : Out :=
  if s.seq ≠ .idle then .refused .operationInProgress
  else (s.enter .spiInit).spiInit.finish .nothing

/-- AssertSelect (R102). -/
def execAssertSelect (s : State) : Out :=
  s.whenReady ((s.enter .assertSelect).assertSelect.finish .nothing)

/-- DeassertSelect (R103). -/
def execDeassertSelect (s : State) : Out :=
  s.whenReady ((s.enter .deassertSelect).deassertSelect.finish .nothing)

/-- Transfer (R104). -/
def execTransfer (tx : Byte) (s : State) : Out :=
  s.whenReady
    (let r := (s.enter .transfer).transfer tx
     r.2.finish (.byte r.1))

end Sys2Proof.Machine
end

