-- ==== Sys2Proof/Machine/ControllerCommands.lean ====
section
/-! DEFINITION. The controller commands (spec/41_controller_commands.md; wire formats:
spec/30_encoding.md R76): each is one select bracket. -/

namespace Sys2Proof.Machine

/-- A bracket that only sends: select, the bytes with every result discarded, release (R117). -/
def State.bracket (s : State) (txs : List Byte) : State := (s.assertSelect.sendBytes txs).deassertSelect

/-- The bracket of the reset command (R110). -/
def State.resetBracket (s : State) : State := s.bracket [s.cfg.opReset]

/-- The wait of the reset command (R110). -/
def State.resetSettle (s : State) : State := s.delayMs Config.resetSettleMs

/-- Format RD (R111): REGVAL takes the byte of the third transfer. -/
def State.readRegister (s : State) (addr : Byte) : Byte × State :=
  let s := s.assertSelect.sendBytes [s.cfg.opRead, addr]
  let r := s.transfer s.cfg.dummyByte
  let s := (r.2.setRegval r.1).deassertSelect
  (s.scratch.regval, s)

/-- Format WR (R112). -/
def State.writeRegister (s : State) (addr val : Byte) : State := s.bracket [s.cfg.opWrite, addr, val]

/-- Format BM (R113). -/
def State.bitModify (s : State) (addr mask val : Byte) : State :=
  s.bracket [s.cfg.opBitModify, addr, mask, val]

/-- Format LD (R114): the load opcode and the image of the frame. -/
def State.loadTxBuffer (s : State) (f : CanFrame) : State :=
  s.bracket (s.cfg.opLoadTx0 :: encodeTx s.cfg.txReservedByte f)

/-- Format OP with OP_RTS_TX0 (R115). -/
def State.requestToSend (s : State) : State := s.bracket [s.cfg.opRtsTx0]

/-- Format RB (R116): the length of the burst depends on the DLC byte received inside it; the received
reserved bytes are thrown away, zeros stand in for them. -/
def State.readRxBuffer (s : State) : Except Refusal (CanFrame × State) :=
  let s := s.assertSelect.sendBytes [s.cfg.opReadRx0]
  let idh := s.transfer s.cfg.dummyByte
  let idl := idh.2.transfer s.cfg.dummyByte
  let skipped := (idl.2.sendByte s.cfg.dummyByte).sendByte s.cfg.dummyByte
  let dlcb := skipped.transfer s.cfg.dummyByte
  match rxCount s.cfg.rxDlcGuard dlcb.1 with
  | none => .error .strictDlc
  | some n =>
    let payload := dlcb.2.receiveBytes n.toNat
    match decodeRx s.cfg.rxDlcGuard ([idh.1, idl.1, 0, 0, dlcb.1] ++ payload.1) with
    | .error why => .error why
    | .ok f => .ok (f, payload.2.deassertSelect)

/-- CmdReset (R110). -/
def execCmdReset (s : State) : Out :=
  s.whenReady (s.whenReleased ((s.enter .cmdReset).resetBracket.resetSettle.finish .nothing))

/-- CmdReadRegister (R111). -/
def execCmdReadRegister (addr : Byte) (s : State) : Out :=
  s.whenReady (s.whenReleased
    (let r := (s.enter .cmdReadRegister).readRegister addr
     r.2.finish (.byte r.1)))

/-- CmdWriteRegister (R112). -/
def execCmdWriteRegister (addr val : Byte) (s : State) : Out :=
  s.whenReady (s.whenReleased (((s.enter .cmdWriteRegister).writeRegister addr val).finish .nothing))

/-- CmdBitModify (R113). -/
def execCmdBitModify (addr mask val : Byte) (s : State) : Out :=
  s.whenReady (s.whenReleased (((s.enter .cmdBitModify).bitModify addr mask val).finish .nothing))

/-- CmdLoadTxBuffer (R114). -/
def execCmdLoadTxBuffer (id : BitVec 16) (dlc : Byte) (data : List Byte) (s : State) : Out :=
  s.whenReady
    (match toFrame ⟨id, dlc, data⟩ with
     | none => .refused .operandOutOfDomain
     | some f => s.whenReleased (((s.enter .cmdLoadTxBuffer).loadTxBuffer f).finish .nothing))

/-- CmdRequestToSend (R115). -/
def execCmdRequestToSend (s : State) : Out :=
  s.whenReady (s.whenReleased ((s.enter .cmdRequestToSend).requestToSend.finish .nothing))

/-- CmdReadRxBuffer (R116). -/
def execCmdReadRxBuffer (s : State) : Out :=
  s.whenReady (s.whenReleased
    (match (s.enter .cmdReadRxBuffer).readRxBuffer with
     | .error why => .refused why
     | .ok r => r.2.finish (.frame r.1)))

end Sys2Proof.Machine
end

