-- ==== Sys2Proof/Machine/Flags.lean ====
section
/-! DEFINITION. The conditions the block computes from the bytes it reads (spec/30_encoding.md R88, R90;
spec/43_driver_operations.md R136, R140, R142) and the numbers of the statuses (10_state.md R30). -/

namespace Sys2Proof.Machine

/-- MODE_FIELD_STATUS: bits 7:5 of the status register (R7, R33). -/
def modeField (v : Byte) : BitVec 3 := v.extractLsb' 5 3

/-- The mode code of a mode (R8). -/
def modeCode (cfg : Cfg) (m : ControllerMode) : BitVec 3 :=
  match m with
  | .configuration => cfg.modeCodeConfig
  | .normal => cfg.modeCodeNormal
  | .loopback => cfg.modeCodeLoopback

/-- The mode request byte `code(m) << 5`, shifted at 8 bits (R88). -/
def modeRequestByte (cfg : Cfg) (m : ControllerMode) : Byte := (modeCode cfg m).setWidth 8 <<< 5

/-- The status byte reports mode `m`: only bits 7:5 decide (R33, R88). -/
def modeReported (cfg : Cfg) (m : ControllerMode) (v : Byte) : Bool := modeField v == modeCode cfg m

/-- The pending bit of the transmit buffer's control byte (R37, R140). -/
def pendingBit (cfg : Cfg) (c : Byte) : Bool := c &&& cfg.maskTxreq != 0

/-- The receive-buffer-0 bit of the interrupt-flag byte (R36, R142). -/
def receiveFlag (cfg : Cfg) (f : Byte) : Bool := f &&& cfg.maskRx0if != 0

/-- The numeric rendering of a status (R30, D22). -/
def statusCode (st : Status) : Nat :=
  match st with
  | .ok => 0
  | .error => 1
  | .busy => 2
  | .noMessage => 3
  | .timeout => 4

end Sys2Proof.Machine
end

