-- ==== Sys2Proof/Machine/Driver.lean ====
section
/-! DEFINITION. The driver operations (spec/43_driver_operations.md). -/

namespace Sys2Proof.Machine

/-- Steps PoweredOn and Settle of `Init` (R136): the reset command. -/
def State.initReset (s : State) : State := ((s.enter .poweredOn).resetBracket.enter .settle).resetSettle

/-- Steps ProgramTiming, ClearFlags and RequestMode of `Init` (R136). -/
def State.initProgram (s : State) : State :=
  let s := s.enter .programTiming
  let s := s.writeRegister s.cfg.addrCnf1 s.cfg.cnf1Val
  let s := s.writeRegister s.cfg.addrCnf2 s.cfg.cnf2Val
  let s := s.writeRegister s.cfg.addrCnf3 s.cfg.cnf3Val
  let s := (s.enter .clearFlags).writeRegister s.cfg.addrCanintf 0x00
  let s := s.enter .requestMode
  s.bitModify s.cfg.addrCanctrl s.cfg.maskReqop (modeRequestByte s.cfg s.scratch.target)

/-- `Init` from TARGET <- target to its return (R136). -/
def State.initRun (s : State) (target : ControllerMode) : Out :=
  let s := (s.setTarget target).initReset
  let v := (s.enter .verifyConfig).readRegister s.cfg.addrCanstat
  if modeReported s.cfg .configuration v.1 = false then (v.2.enter .doneError).finish (.status .error)
  else
    let s := v.2.initProgram
    let v := (s.enter .verifyMode).readRegister s.cfg.addrCanstat
    if modeReported s.cfg v.2.scratch.target v.1 = false then (v.2.enter .doneError).finish (.status .error)
    else (v.2.enter .doneOk).finish (.status .ok)

/-- `Transmit` from FB <- frame to its return (R140). -/
def State.transmitRun (s : State) (f : CanFrame) : Out :=
  let s := s.setFb f
  let c := (s.enter .checkPending).readRegister s.cfg.addrTxb0ctrl
  if pendingBit s.cfg c.1 then c.2.finish (.status .busy)
  else
    let s := c.2.enter .load
    let s := s.loadTxBuffer s.scratch.fb
    ((s.enter .send).requestToSend).finish (.status .ok)

/-- One poll of `Receive` (R142): the frame, or none for NoMessage, and the state before the return. -/
def State.receivePoll (s : State) : Except Refusal (Option CanFrame × State) :=
  let f := (s.enter .poll).readRegister s.cfg.addrCanintf
  if receiveFlag s.cfg f.1 = false then .ok (none, f.2)
  else
    match (f.2.enter .readFrame).readRxBuffer with
    | .error why => .error why
    | .ok r =>
      let s := (r.2.setFb r.1).enter .clearFlag
      let s := s.bitModify s.cfg.addrCanintf s.cfg.maskRx0if 0x00
      .ok (some s.scratch.fb, s)

/-- The loop of `ReceiveWithTimeout` (R144): `n` iterations are left, which is what TMO holds. -/
def State.receiveLoop (s : State) (n : Nat) : Out :=
  match n with
  | 0 => s.finish (.status .timeout)
  | n + 1 =>
    match s.receivePoll with
    | .error why => .refused why
    | .ok (some f, s) => s.finish (.okFrame f)
    | .ok (none, s) =>
      let s := (s.enter .loop).delayMs Config.pollStepMs
      (s.setTmo (s.scratch.tmo - 1)).receiveLoop n

/-- Init (R136). -/
def execInit (target : ControllerMode) (s : State) : Out :=
  s.whenReady
    (match toTarget target with
     | none => .refused .operandOutOfDomain
     | some m => s.whenReleased (s.initRun m))

/-- Transmit (R140). -/
def execTransmit (frame : FrameOperand) (s : State) : Out :=
  s.whenReady
    (match toFrame frame with
     | none => .refused .operandOutOfDomain
     | some f => s.whenReleased (s.transmitRun f))

/-- Receive (R142). -/
def execReceive (s : State) : Out :=
  s.whenReady (s.whenReleased
    (match s.receivePoll with
     | .error why => .refused why
     | .ok (some f, s) => s.finish (.okFrame f)
     | .ok (none, s) => s.finish (.status .noMessage)))

/-- ReceiveWithTimeout (R144). -/
def execReceiveWithTimeout (bound : Nat) (s : State) : Out :=
  s.whenReady
    (match toBound s.cfg.wBound bound with
     | none => .refused .operandOutOfDomain
     | some n => s.whenReleased (((s.enter .loop).setTmo n).receiveLoop n))

end Sys2Proof.Machine
end

