-- ==== Sys2Proof/Machine/Dispatch.lean ====
section
/-! DEFINITION. One arm per operation of spec/opcode_table.json. -/

namespace Sys2Proof.Machine

def exec (i : Instr) (s : State) : Host.Outcome State Fault Refusal :=
  match i with
  | .spiInit => Sys2Proof.Machine.execSpiInit s
  | .assertSelect => Sys2Proof.Machine.execAssertSelect s
  | .deassertSelect => Sys2Proof.Machine.execDeassertSelect s
  | .transfer tx => Sys2Proof.Machine.execTransfer tx s
  | .cmdReset => Sys2Proof.Machine.execCmdReset s
  | .cmdReadRegister addr => Sys2Proof.Machine.execCmdReadRegister addr s
  | .cmdWriteRegister addr val => Sys2Proof.Machine.execCmdWriteRegister addr val s
  | .cmdBitModify addr mask val => Sys2Proof.Machine.execCmdBitModify addr mask val s
  | .cmdLoadTxBuffer id dlc data => Sys2Proof.Machine.execCmdLoadTxBuffer id dlc data s
  | .cmdRequestToSend => Sys2Proof.Machine.execCmdRequestToSend s
  | .cmdReadRxBuffer => Sys2Proof.Machine.execCmdReadRxBuffer s
  | .encodeTxBuffer frame => Sys2Proof.Machine.execEncodeTxBuffer frame s
  | .decodeRxBuffer bytes => Sys2Proof.Machine.execDecodeRxBuffer bytes s
  | .init target => Sys2Proof.Machine.execInit target s
  | .transmit frame => Sys2Proof.Machine.execTransmit frame s
  | .receive => Sys2Proof.Machine.execReceive s
  | .receiveWithTimeout bound => Sys2Proof.Machine.execReceiveWithTimeout bound s

end Sys2Proof.Machine
end

