-- ==== Sys2Proof/WellFormed.lean ====
section
/-! DEFINITION. The operand domains of the operations (spec/10_state.md R43, 30_encoding.md R90): what an
operand outside of them is called. The machine refuses such an operand itself (60_exceptions.md R199);
this file is the domain as a check on syntax. -/

namespace Sys2Proof

/-- Why an operand is outside its domain. -/
inductive IllFormed where
  /-- An identifier above 0x7FF (R90). -/
  | idAbove7FF
  /-- A data-length code above 8 (R90). -/
  | dlcAbove8
  /-- A payload whose length is not the data-length code (R199). -/
  | payloadLength
  /-- `Init` takes Normal or Loopback only (R90, D19). -/
  | targetConfiguration
  /-- A byte list shorter than the five bytes of the buffer header (R127). -/
  | imageTooShort
  /-- A byte list whose length is not 5 + RxCount(DLCB) (R127). -/
  | imageLength
  /-- A bound of more than W_BOUND bits (43_driver_operations.md R144; log 16). -/
  | boundTooWide
deriving DecidableEq, Repr

/-- The domain of a frame operand (R43). -/
def FrameOperand.check (f : FrameOperand) : Option IllFormed :=
  if f.id.toNat > 0x7FF then some .idAbove7FF
  else if f.dlc.toNat > 8 then some .dlcAbove8
  else if f.data.length ≠ f.dlc.toNat then some .payloadLength
  else none

/-- The domain of a received buffer image (R127, R128). -/
def checkImage (bytes : List Byte) : Option IllFormed :=
  match bytes with
  | _ :: _ :: _ :: _ :: dlcb :: payload =>
    if payload.length = min (dlcb.toNat % 16) 8 then none else some .imageLength
  | _ => some .imageTooShort

/-- The first thing wrong with an operation's operands, if anything is; `width` is W_BOUND. -/
def Instr.check (width : Nat) (i : Instr) : Option IllFormed :=
  match i with
  | .spiInit => none
  | .assertSelect => none
  | .deassertSelect => none
  | .transfer _ => none
  | .cmdReset => none
  | .cmdReadRegister _ => none
  | .cmdWriteRegister _ _ => none
  | .cmdBitModify _ _ _ => none
  | .cmdLoadTxBuffer id dlc data => FrameOperand.check ⟨id, dlc, data⟩
  | .cmdRequestToSend => none
  | .cmdReadRxBuffer => none
  | .encodeTxBuffer frame => frame.check
  | .decodeRxBuffer bytes => checkImage bytes
  | .init target => if target = .configuration then some .targetConfiguration else none
  | .transmit frame => frame.check
  | .receive => none
  | .receiveWithTimeout bound => if bound < 2 ^ width then none else some .boundTooWide

/-- An operation whose operands are in their domains; `width` is W_BOUND. -/
abbrev Instr.wf (width : Nat) (i : Instr) : Prop := i.check width = none

end Sys2Proof
end

