-- ==== Sys2Proof/Decode.lean ====
section
/-! DEFINITION. The host's binary command port (spec/30_encoding.md R91): an OPSEL byte followed by the
operands. The selector values are the spec's; the layout of an operand of more than one byte is the
model's own (log 2): most significant byte first, and a list is preceded by the number of its bytes. `width` is
W_BOUND of R8, which says how many bytes `bound_ms` takes. -/

namespace Sys2Proof

/-- Why the bytes at the port are no request. -/
inductive DecodeError where
  /-- Nothing waits at the port. -/
  | empty
  /-- A selector value that R91 does not list. -/
  | reservedSelector (opsel : Byte)
  /-- The request ends before its operands do (log 24). -/
  | truncated
  /-- A target byte that is no mode code (R90). -/
  | operandOutOfDomain
deriving DecidableEq, Repr

/-- A request read from the port, with the bytes that follow it. -/
abbrev Decoded := Except DecodeError (Instr × List Byte)

/-- The list of `n` bytes that stands at the head of `bs`. -/
def takeBytes (n : Nat) (bs : List Byte) : Option (List Byte × List Byte) :=
  if bs.length < n then none else some (bs.take n, bs.drop n)

/-- A list preceded by the number of its bytes (log 2). -/
def takeList (bs : List Byte) : Option (List Byte × List Byte) :=
  match bs with
  | [] => none
  | n :: bs => takeBytes n.toNat bs

/-- A frame operand: identifier (two bytes), data-length code, payload list (log 2). -/
def takeFrame (bs : List Byte) : Option (FrameOperand × List Byte) :=
  match bs with
  | idHigh :: idLow :: dlc :: bs =>
    match takeList bs with
    | some (data, rest) => some (⟨idHigh ++ idLow, dlc, data⟩, rest)
    | none => none
  | _ => none

/-- The number of bytes that carry a value of `width` bits (log 2). -/
def boundBytes (width : Nat) : Nat := (width + 7) / 8

/-- The number that bytes stand for, most significant first (log 2). -/
def natOfBytes (bs : List Byte) : Nat := bs.foldl (fun n b => 256 * n + b.toNat) 0

/-- The mode a target byte stands for: the default mode codes of R8, in a byte (log 2). -/
def targetOfByte (b : Byte) : Option ControllerMode :=
  if b = 0b000 then some .normal
  else if b = 0b010 then some .loopback
  else if b = 0b100 then some .configuration
  else none

/-- The byte that stands for a mode at the port. -/
def targetToByte (m : ControllerMode) : Byte :=
  match m with
  | .normal => 0b000
  | .loopback => 0b010
  | .configuration => 0b100

/-- The request at the head of the port, total on any bytes. What is no request is refused here, before INITED and
SEQ are looked at: the model's choice, for no rule orders these refusals (R196, R199; log 13). -/
def decode (width : Nat) (bs : List Byte) : Decoded :=
  match bs with
  | [] => .error .empty
  | opsel :: bs =>
    match opsel.toNat with
    | 0x00 => .ok (.spiInit, bs)
    | 0x01 => .ok (.assertSelect, bs)
    | 0x02 => .ok (.deassertSelect, bs)
    | 0x03 =>
      match bs with
      | tx :: bs => .ok (.transfer tx, bs)
      | _ => .error .truncated
    | 0x10 => .ok (.cmdReset, bs)
    | 0x11 =>
      match bs with
      | addr :: bs => .ok (.cmdReadRegister addr, bs)
      | _ => .error .truncated
    | 0x12 =>
      match bs with
      | addr :: val :: bs => .ok (.cmdWriteRegister addr val, bs)
      | _ => .error .truncated
    | 0x13 =>
      match bs with
      | addr :: mask :: val :: bs => .ok (.cmdBitModify addr mask val, bs)
      | _ => .error .truncated
    | 0x14 =>
      match takeFrame bs with
      | some (f, bs) => .ok (.cmdLoadTxBuffer f.id f.dlc f.data, bs)
      | none => .error .truncated
    | 0x15 => .ok (.cmdRequestToSend, bs)
    | 0x16 => .ok (.cmdReadRxBuffer, bs)
    | 0x20 =>
      match takeFrame bs with
      | some (f, bs) => .ok (.encodeTxBuffer f, bs)
      | none => .error .truncated
    | 0x21 =>
      match takeList bs with
      | some (l, bs) => .ok (.decodeRxBuffer l, bs)
      | none => .error .truncated
    | 0x30 =>
      match bs with
      | b :: bs =>
        match targetOfByte b with
        | some m => .ok (.init m, bs)
        | none => .error .operandOutOfDomain
      | _ => .error .truncated
    | 0x31 =>
      match takeFrame bs with
      | some (f, bs) => .ok (.transmit f, bs)
      | none => .error .truncated
    | 0x32 => .ok (.receive, bs)
    | 0x33 =>
      match takeBytes (boundBytes width) bs with
      | some (l, bs) => .ok (.receiveWithTimeout (natOfBytes l), bs)
      | none => .error .truncated
    | _ => .error (.reservedSelector opsel)

/-! ## The encoder -/

/-- A list preceded by the number of its bytes. -/
def putList (l : List Byte) : List Byte := BitVec.ofNat 8 l.length :: l

/-- A number in `k` bytes, most significant first (log 2). -/
def bytesOfNat (k n : Nat) : List Byte :=
  match k with
  | 0 => []
  | k + 1 => BitVec.ofNat 8 (n / 256 ^ k) :: bytesOfNat k n

/-- A frame operand at the port. -/
def putFrame (f : FrameOperand) : List Byte :=
  f.id.extractLsb' 8 8 :: f.id.extractLsb' 0 8 :: f.dlc :: putList f.data

/-- The OPSEL value of an operation (R91). -/
def Instr.opsel (i : Instr) : Byte :=
  match i with
  | .spiInit => 0x00
  | .assertSelect => 0x01
  | .deassertSelect => 0x02
  | .transfer _ => 0x03
  | .cmdReset => 0x10
  | .cmdReadRegister _ => 0x11
  | .cmdWriteRegister _ _ => 0x12
  | .cmdBitModify _ _ _ => 0x13
  | .cmdLoadTxBuffer _ _ _ => 0x14
  | .cmdRequestToSend => 0x15
  | .cmdReadRxBuffer => 0x16
  | .encodeTxBuffer _ => 0x20
  | .decodeRxBuffer _ => 0x21
  | .init _ => 0x30
  | .transmit _ => 0x31
  | .receive => 0x32
  | .receiveWithTimeout _ => 0x33

/-- The operand bytes of an operation, in the order of R91. -/
def Instr.operandBytes (width : Nat) (i : Instr) : List Byte :=
  match i with
  | .spiInit => []
  | .assertSelect => []
  | .deassertSelect => []
  | .transfer tx => [tx]
  | .cmdReset => []
  | .cmdReadRegister addr => [addr]
  | .cmdWriteRegister addr val => [addr, val]
  | .cmdBitModify addr mask val => [addr, mask, val]
  | .cmdLoadTxBuffer id dlc data => putFrame ⟨id, dlc, data⟩
  | .cmdRequestToSend => []
  | .cmdReadRxBuffer => []
  | .encodeTxBuffer frame => putFrame frame
  | .decodeRxBuffer bytes => putList bytes
  | .init target => [targetToByte target]
  | .transmit frame => putFrame frame
  | .receive => []
  | .receiveWithTimeout bound => bytesOfNat (boundBytes width) bound

/-- The request bytes of an operation. -/
def encode (width : Nat) (i : Instr) : List Byte := i.opsel :: i.operandBytes width

/-- The operands of the operation fit the port: a list at most 255 bytes, a bound the bytes of W_BOUND bits.
Every well-formed operation does. -/
def Instr.portable (width : Nat) (i : Instr) : Prop :=
  match i with
  | .spiInit => True
  | .assertSelect => True
  | .deassertSelect => True
  | .transfer _ => True
  | .cmdReset => True
  | .cmdReadRegister _ => True
  | .cmdWriteRegister _ _ => True
  | .cmdBitModify _ _ _ => True
  | .cmdLoadTxBuffer _ _ data => data.length < 256
  | .cmdRequestToSend => True
  | .cmdReadRxBuffer => True
  | .encodeTxBuffer frame => frame.data.length < 256
  | .decodeRxBuffer bytes => bytes.length < 256
  | .init _ => True
  | .transmit frame => frame.data.length < 256
  | .receive => True
  | .receiveWithTimeout bound => bound < 256 ^ boundBytes width

/-! ## The table's numbering of a request's bits -/

/-- The most bytes a request can have: OPSEL, identifier, data-length code, count, 255 payload bytes; or OPSEL and
the bound. -/
def maxRequestBytes (width : Nat) : Nat := max 260 (1 + boundBytes width)

/-- A request whose bits are `w`, bit 0 the least significant bit of the first byte, `nbits` of them
given and every later bit 0. -/
def tableBytes (width nbits w : Nat) : List Byte :=
  (List.range (maxRequestBytes width)).map fun k => if 8 * k < nbits then BitVec.ofNat 8 (w / 2 ^ (8 * k)) else 0

/-- The operation the decoder reads from a request numbered as spec/opcode_table.json numbers it, with W_BOUND at
its default (R8). -/
def decodeTableWord (nbits w : Nat) : Option Instr :=
  match decode Cfg.default.wBound (tableBytes Cfg.default.wBound nbits w) with
  | .ok (i, _) => some i
  | .error _ => none

end Sys2Proof
end

