-- ==== Sys2Proof/Machine/HostPort.lean ====
section
/-! DEFINITION. The host's command port (spec/30_encoding.md R91; log 1): the request a step takes, and
what a step does when there is none. -/

namespace Sys2Proof.Machine

/-- What a step finds at the port. -/
inductive Fetched where
  /-- Nothing waits: the block does nothing until the host invokes an operation (R215). -/
  | none
  /-- An operation, with the state whose port holds what follows it. -/
  | request (i : Instr) (s : State)
  /-- No operation. -/
  | bad (why : Refusal)

/-- The refusal that bytes which are no request meet (R199; log 24). -/
def refusalOf (e : DecodeError) : Refusal :=
  match e with
  | .empty => .truncatedRequest
  | .reservedSelector opsel => .reservedSelector opsel
  | .truncated => .truncatedRequest
  | .operandOutOfDomain => .operandOutOfDomain

/-- The request at the head of the port. Bytes that are no request (a reserved selector, an end before the operands
are complete, an `Init` target byte that is no mode code) are refused here, before INITED and SEQ are looked at: the
model's choice, for R196 and R199 order none of these refusals (log 13). -/
def State.fetch (s : State) : Fetched :=
  match s.port with
  | [] => .none
  | b :: bs =>
    match decode s.cfg.wBound (b :: bs) with
    | .ok (i, rest) => .request i { s with port := rest }
    | .error e => .bad (refusalOf e)

/-- The block waits; the environment goes on (R215, R208; log 1). -/
def State.wait (s : State) : State := s.opportunity

end Sys2Proof.Machine
end

