-- ==== Sys2Proof/Machine/Step.lean ====
section
/-! DEFINITION. One step: the first request at the host's port runs from its first event to its return
(spec/70_reset_and_hazards.md R234; log 1, 19). -/

namespace Sys2Proof.Machine

/-- One step of the machine. -/
def step (s : State) : Host.Outcome State Fault Refusal :=
  match s.fetch with
  | .none => .next s.wait
  | .request i s => exec i s
  | .bad why => .refused why

/-- The state with a request, numbered as spec/opcode_table.json numbers it, at the host's port. -/
def State.withFetchWord (s : State) (nbits w : Nat) : State := { s with port := tableBytes s.cfg.wBound nbits w }

end Sys2Proof.Machine
end

