-- ==== Sys2Proof/Safety.lean ====
section
/-! DEFINITION. The terms that claims use: an idle bus, the invariant of a machine, the wire formats and
their events, what an operation leaves alone. -/

namespace Sys2Proof.Machine

/-! ## States -/

/-- The bus is idle: select released, clock low (spec/40_spi_transport.md R106). -/
abbrev State.busIdle (s : State) : Prop := s.pinCs = true ∧ s.pinSck = false

/-- The host may invoke an operation: SpiInit has run and none is running (spec/60_exceptions.md R199). -/
abbrev State.ready (s : State) : Prop := s.inited = true ∧ s.seq = .idle

/-- REG[a] of the controller. -/
abbrev State.reg (s : State) (a : Nat) : Byte := s.ctl.rd a

/-- The directions SpiInit sets (spec/10_state.md R20). -/
abbrev State.dirsSet (s : State) : Prop :=
  s.dirSck = .output ∧ s.dirCs = .output ∧ s.dirMosi = .output ∧ s.dirMiso = .input

/-- What holds between two operations: none runs (R29); after SpiInit the clock is low and the directions
are set (R20, R21); TMO is a number of W_BOUND bits (R28); the register space is in its canonical form. -/
abbrev State.Inv (s : State) : Prop :=
  s.seq = .idle ∧ (s.inited = true → s.pinSck = false ∧ s.dirsSet) ∧ s.scratch.tmo < 2 ^ s.cfg.wBound ∧
  s.ctl.reg.wf

/-- The transmit buffer holds a standard data frame: neither its extended-identifier bit nor its remote-request bit is
set (30_encoding.md R83, R85). -/
abbrev Controller.standardFrame (c : Controller) : Prop :=
  (c.rd 0x32).getLsbD 3 = false ∧ (c.rd 0x35).getLsbD 6 = false

/-- The run is inside the reference controller's model, and nothing the controller may do on its own leads out of it:
always so with the oracle (49_environment_controller_model.md R181; log 12). -/
abbrev State.staysInside (s : State) : Prop :=
  s.env = .oracle ∨ s.ctl.outside = none ∧ s.ctl.standardFrame

/-- The controller-facing parameters have the defaults of 00_scope.md R8, which are what the reference
controller understands. -/
abbrev forController (cfg : Cfg) : Prop :=
  cfg.opReset = 0xC0 ∧ cfg.opRead = 0x03 ∧ cfg.opWrite = 0x02 ∧ cfg.opBitModify = 0x05 ∧
  cfg.opLoadTx0 = 0x40 ∧ cfg.opRtsTx0 = 0x81 ∧ cfg.opReadRx0 = 0x90 ∧
  cfg.addrCanstat = 0x0E ∧ cfg.addrCanctrl = 0x0F ∧ cfg.addrCnf1 = 0x2A ∧ cfg.addrCnf2 = 0x29 ∧
  cfg.addrCnf3 = 0x28 ∧ cfg.addrCanintf = 0x2C ∧ cfg.addrTxb0ctrl = 0x30 ∧
  cfg.modeCodeNormal = 0b000 ∧ cfg.modeCodeLoopback = 0b010 ∧ cfg.modeCodeConfig = 0b100 ∧
  cfg.maskReqop = 0xE0 ∧ cfg.maskTxreq = 0x08 ∧ cfg.maskRx0if = 0x01

/-- The block between two operations in front of the deterministic simulator (49_environment_controller_model.md
R162, R180), with no reception chosen by a test. -/
abbrev State.simIdle (s : State) : Prop :=
  s.ready ∧ s.busIdle ∧ s.env = .simulator ∧ forController s.cfg ∧ s.moves = [] ∧
  s.ctl.settling = false ∧ s.ctl.outside = none

/-! ## Events -/

/-- The bits of a byte in the order of the wire: most significant first (20_memory.md R52). -/
def wireBits (b : Byte) : List Level :=
  [b.getLsbD 7, b.getLsbD 6, b.getLsbD 5, b.getLsbD 4, b.getLsbD 3, b.getLsbD 2, b.getLsbD 1, b.getLsbD 0]

/-- The four events of one bit (40_spi_transport.md R104). -/
def bitEvents (out sampled : Level) : List Event :=
  [.pinWrite .mosi out, .pinWrite .sck true, .pinRead sampled, .pinWrite .sck false]

/-- The 32 events of one `Transfer` that sends `tx` and receives `rx` (R104). -/
def byteEvents (tx rx : Byte) : List Event :=
  ((wireBits tx).zip (wireBits rx)).flatMap fun b => bitEvents b.1 b.2

/-- The events of a sequence of transfers, each given as the byte sent and the byte received. -/
def bytesEvents (xs : List (Byte × Byte)) : List Event := xs.flatMap fun x => byteEvents x.1 x.2

/-- The events of one select bracket (30_encoding.md R76). -/
def bracketEvents (xs : List (Byte × Byte)) : List Event :=
  [.pinWrite .cs false] ++ bytesEvents xs ++ [.pinWrite .cs true]

/-- The seven events of `SpiInit` (40_spi_transport.md R101). -/
def spiInitEvents : List Event :=
  [.pinDir .sck .output, .pinDir .cs .output, .pinDir .mosi .output, .pinDir .miso .input,
   .pinWrite .cs true, .pinWrite .sck false, .pinWrite .mosi false]

/-- The milliseconds of delay in a trace: a lower bound of the time it takes (60_exceptions.md R208). -/
def traceMs (es : List Event) : Nat :=
  match es with
  | [] => 0
  | .delayMs n :: es => n + traceMs es
  | .pinDir _ _ :: es => traceMs es
  | .pinWrite _ _ :: es => traceMs es
  | .pinRead _ :: es => traceMs es

/-- The events of several brackets, one after the other: the bytes sent are given bracket by bracket, the
bytes received in one list. -/
def bracketsEvents (txss : List (List Byte)) (rxs : List Byte) : List Event :=
  match txss with
  | [] => []
  | txs :: txss => bracketEvents (txs.zip (rxs.take txs.length)) ++ bracketsEvents txss (rxs.drop txs.length)

/-- The events of a register read, given the three bytes received (30_encoding.md R76, format RD). -/
def readEvents (cfg : Cfg) (addr : Byte) (r : Byte × Byte × Byte) : List Event :=
  bracketEvents [(cfg.opRead, r.1), (addr, r.2.1), (cfg.dummyByte, r.2.2)]

/-- The events of a burst that receives `r0` with the opcode and then `rxs` (format RB). -/
def burstEvents (cfg : Cfg) (r0 : Byte) (rxs : List Byte) : List Event :=
  bracketEvents ((cfg.opReadRx0, r0) :: rxs.map fun r => (cfg.dummyByte, r))

/-- The bytes `Init` sends after its first verification, bracket by bracket (43_driver_operations.md R136). -/
def initCommands (cfg : Cfg) (m : ControllerMode) : List (List Byte) :=
  [[cfg.opWrite, cfg.addrCnf1, cfg.cnf1Val], [cfg.opWrite, cfg.addrCnf2, cfg.cnf2Val],
   [cfg.opWrite, cfg.addrCnf3, cfg.cnf3Val], [cfg.opWrite, cfg.addrCanintf, 0x00],
   [cfg.opBitModify, cfg.addrCanctrl, cfg.maskReqop, modeRequestByte cfg m],
   [cfg.opRead, cfg.addrCanstat, cfg.dummyByte]]

/-- The bytes a poll that finds a frame sends after the poll: the flag is cleared (R142). -/
def clearFlagBytes (cfg : Cfg) : List Byte := [cfg.opBitModify, cfg.addrCanintf, cfg.maskRx0if, 0x00]

/-- The events of the empty iterations of `ReceiveWithTimeout`, given what their polls received (R144). -/
def emptyPollEvents (cfg : Cfg) (ps : List (Byte × Byte × Byte)) : List Event :=
  ps.flatMap fun p => readEvents cfg cfg.addrCanintf p ++ [.delayMs Config.pollStepMs]

/-- The three bytes a register read receives, in order. -/
def triple (r : Byte × Byte × Byte) : List Byte := [r.1, r.2.1, r.2.2]

/-- What the block does to its lines and to time: the events without the samples. -/
def outputs (es : List Event) : List Event :=
  es.filter fun e =>
    match e with
    | .pinRead _ => false
    | .pinDir _ _ => true
    | .pinWrite _ _ => true
    | .delayMs _ => true

/-- The bytes a controller command sends, given the bytes it receives: they matter only to the length of
the receive burst (41_controller_commands.md R118, 30_encoding.md R76). -/
def commandBytes (cfg : Cfg) (i : Instr) (rxs : List Byte) : Option (List Byte) :=
  match i with
  | .cmdReset => some [cfg.opReset]
  | .cmdReadRegister addr => some [cfg.opRead, addr, cfg.dummyByte]
  | .cmdWriteRegister addr val => some [cfg.opWrite, addr, val]
  | .cmdBitModify addr mask val => some [cfg.opBitModify, addr, mask, val]
  | .cmdLoadTxBuffer id dlc data =>
    some (cfg.opLoadTx0 :: encodeTx cfg.txReservedByte ⟨id.setWidth 11, dlc.setWidth 4, data⟩)
  | .cmdRequestToSend => some [cfg.opRtsTx0]
  | .cmdReadRxBuffer =>
    (rxCount cfg.rxDlcGuard (rxs.getD 5 0)).map fun n => cfg.opReadRx0 :: List.replicate (5 + n.toNat) cfg.dummyByte
  | .spiInit => none
  | .assertSelect => none
  | .deassertSelect => none
  | .transfer _ => none
  | .encodeTxBuffer _ => none
  | .decodeRxBuffer _ => none
  | .init _ => none
  | .transmit _ => none
  | .receive => none
  | .receiveWithTimeout _ => none

/-- What a controller command returns, given the bytes it receives (R118): `rx(2)` of a register read, the
frame of `rx(1), rx(2), rx(5), rx(6) ..` of a receive burst, nothing else. -/
def commandResult (cfg : Cfg) (i : Instr) (rxs : List Byte) : Result :=
  match i with
  | .cmdReadRegister _ => .byte (rxs.getD 2 0)
  | .cmdReadRxBuffer =>
    .frame ⟨rxId (rxs.getD 1 0) (rxs.getD 2 0), (rxCount cfg.rxDlcGuard (rxs.getD 5 0)).getD 0, rxs.drop 6⟩
  | .cmdReset => .nothing
  | .cmdWriteRegister _ _ => .nothing
  | .cmdBitModify _ _ _ => .nothing
  | .cmdLoadTxBuffer _ _ _ => .nothing
  | .cmdRequestToSend => .nothing
  | .spiInit => .nothing
  | .assertSelect => .nothing
  | .deassertSelect => .nothing
  | .transfer _ => .nothing
  | .encodeTxBuffer _ => .nothing
  | .decodeRxBuffer _ => .nothing
  | .init _ => .nothing
  | .transmit _ => .nothing
  | .receive => .nothing
  | .receiveWithTimeout _ => .nothing

/-! ## Frames of statements -/

/-- An operation of files 41 and 43 may start, and the oracle answers (43_driver_operations.md R135). -/
abbrev State.oracleReady (s : State) : Prop := s.env = .oracle ∧ s.ready ∧ s.pinCs = true

/-- Nothing is about to happen in the controller: no mode change asked for, no frame waiting to go. -/
abbrev State.quiet (s : State) : Prop := s.ctl.request = s.ctl.mode ∧ s.ctl.pending = false

/-- In Configuration mode, no other mode asked for, with a frame pending: it stays there, for nothing is sent in this
mode (49_environment_controller_model.md R179). -/
abbrev State.stuckPending (s : State) : Prop :=
  s.simIdle ∧ s.ctl.request = s.ctl.mode ∧ s.ctl.mode = 0b100 ∧ s.ctl.pending = true

/-- The oracle's prepared answers are what the samples of the received bytes `rxs` were, as far as they go,
and those that remain are kept (00_scope.md R11). -/
abbrev State.fed (s t : State) (rxs : List Byte) : Prop :=
  s.samples.take (8 * rxs.length) <+: rxs.flatMap wireBits ∧ t.samples = s.samples.drop (8 * rxs.length)

/-- What every return leaves: no operation runs; directions, INITED, the port, the configuration and the
choice of environment are as before (10_state.md R20, R44). -/
abbrev State.keeps (s t : State) : Prop :=
  t.dirSck = s.dirSck ∧ t.dirCs = s.dirCs ∧ t.dirMosi = s.dirMosi ∧ t.dirMiso = s.dirMiso ∧
  t.inited = s.inited ∧ t.seq = .idle ∧ t.port = s.port ∧ t.cfg = s.cfg ∧ t.env = s.env

/-- Nothing of the environment but the prepared answers changes: no move is taken, the controller and every
byte of its register space stay. -/
abbrev State.keepsController (s t : State) : Prop :=
  t.moves = s.moves ∧ t.ctl = s.ctl ∧ ∀ a, t.reg a = s.reg a

/-- The lines after an operation that ended a bracket whose last byte was `last` (60_exceptions.md R197). -/
abbrev State.linesAfter (t : State) (last : Byte) : Prop :=
  t.pinCs = true ∧ t.pinSck = false ∧ t.pinMosi = last.getLsbD 0

/-- The lines stay. -/
abbrev State.sameLines (s t : State) : Prop := t.pinCs = s.pinCs ∧ t.pinSck = s.pinSck ∧ t.pinMosi = s.pinMosi

/-- An operation of the block alone has returned `r`: it added the events `es`, received the bytes `rxs`, sent
`last` last, and left everything else as it was. -/
abbrev State.did (s t : State) (r : Result) (es : List Event) (rxs : List Byte) (last : Byte) : Prop :=
  t.ret = r ∧ t.trace = s.trace ++ es ∧ t.linesAfter last ∧ s.fed t rxs ∧ s.keeps t ∧ s.keepsController t

/-- An operation that touches no line has returned `r`. -/
abbrev State.didNothingBut (s t : State) (r : Result) : Prop :=
  t.ret = r ∧ t.trace = s.trace ∧ s.sameLines t ∧ t.samples = s.samples ∧ s.keeps t ∧ s.keepsController t

/-- A state that differs from another only in what no operation may depend on: the scratch registers, the
value last delivered, the past events and the bytes that wait at the port (10_state.md R44). -/
abbrev State.withPast (s : State) (scratch : Scratch) (ret : Result) (trace : List Event) (port : List Byte) :
    State :=
  { s with scratch := scratch, ret := ret, trace := trace, port := port }

/-- The results an operation may deliver (60_exceptions.md R191; 30_encoding.md R91). -/
def resultAllowed (i : Instr) (r : Result) : Prop :=
  match i with
  | .spiInit => r = .nothing
  | .assertSelect => r = .nothing
  | .deassertSelect => r = .nothing
  | .transfer _ => ∃ b, r = .byte b
  | .cmdReset => r = .nothing
  | .cmdReadRegister _ => ∃ b, r = .byte b
  | .cmdWriteRegister _ _ => r = .nothing
  | .cmdBitModify _ _ _ => r = .nothing
  | .cmdLoadTxBuffer _ _ _ => r = .nothing
  | .cmdRequestToSend => r = .nothing
  | .cmdReadRxBuffer => ∃ f, r = .frame f ∧ f.wf
  | .encodeTxBuffer f => ∃ bs, r = .bytes bs ∧ bs.length = 5 + f.dlc.toNat
  | .decodeRxBuffer _ => ∃ f, r = .frame f ∧ f.wf
  | .init _ => r = .status .ok ∨ r = .status .error
  | .transmit _ => r = .status .ok ∨ r = .status .busy
  | .receive => r = .status .noMessage ∨ ∃ f, r = .okFrame f ∧ f.wf
  | .receiveWithTimeout _ => r = .status .timeout ∨ ∃ f, r = .okFrame f ∧ f.wf

/-- A command of 41_controller_commands.md or an operation of 43_driver_operations.md (60_exceptions.md R198). -/
def usesBracket (i : Instr) : Bool :=
  match i with
  | .spiInit => false
  | .assertSelect => false
  | .deassertSelect => false
  | .transfer _ => false
  | .cmdReset => true
  | .cmdReadRegister _ => true
  | .cmdWriteRegister _ _ => true
  | .cmdBitModify _ _ _ => true
  | .cmdLoadTxBuffer _ _ _ => true
  | .cmdRequestToSend => true
  | .cmdReadRxBuffer => true
  | .encodeTxBuffer _ => false
  | .decodeRxBuffer _ => false
  | .init _ => true
  | .transmit _ => true
  | .receive => true
  | .receiveWithTimeout _ => true

/-- An operation that reads a received DLC byte, on which RX_DLC_GUARD has its effect (42_frame_codec.md R128). -/
def readsLength (i : Instr) : Bool :=
  match i with
  | .spiInit => false
  | .assertSelect => false
  | .deassertSelect => false
  | .transfer _ => false
  | .cmdReset => false
  | .cmdReadRegister _ => false
  | .cmdWriteRegister _ _ => false
  | .cmdBitModify _ _ _ => false
  | .cmdLoadTxBuffer _ _ _ => false
  | .cmdRequestToSend => false
  | .cmdReadRxBuffer => true
  | .encodeTxBuffer _ => false
  | .decodeRxBuffer _ => true
  | .init _ => false
  | .transmit _ => false
  | .receive => true
  | .receiveWithTimeout _ => true

/-- An operation that emits events and delivers its value: what an observer sees (00_scope.md R11). -/
def observed (before : State) (o : Out) : Option (List Event × Result) :=
  match o with
  | .next t => some (t.trace.drop before.trace.length, t.ret)
  | .fault _ => none
  | .refused _ => none

/-- A safe run ends neither in a fault nor in a refusal (60_exceptions.md R198, R199). -/
def runsOn (o : Out) : Bool :=
  match o with
  | .next _ => true
  | .fault _ => false
  | .refused _ => false

end Sys2Proof.Machine
end

