-- ==== Sys2Proof/Certificates/Slice0/Obligations.lean ====
section
/-! DEFINITION. The statements for the provers. Each docstring names the rule of spec/ it formalises; a
statement that rests on a choice of the model says so and names the log entry. -/

section Slice0

open Sys2Proof Sys2Proof.Machine

/-! ## The host's port -/

/-- One request of every operation, and `bound_ms` at three widths W_BOUND: the selectors are those of the table of
R91; the layout of operands of more than one byte is the model's (log 2). -/
def Obligations.DecodeSampleRequests : Prop :=
  decode 16 [0x00] = .ok (.spiInit, []) ∧
  decode 16 [0x01] = .ok (.assertSelect, []) ∧
  decode 16 [0x02] = .ok (.deassertSelect, []) ∧
  decode 16 [0x03, 0xA5] = .ok (.transfer 0xA5, []) ∧
  decode 16 [0x10] = .ok (.cmdReset, []) ∧
  decode 16 [0x11, 0x0E] = .ok (.cmdReadRegister 0x0E, []) ∧
  decode 16 [0x12, 0x2C, 0x00] = .ok (.cmdWriteRegister 0x2C 0x00, []) ∧
  decode 16 [0x13, 0x0F, 0xE0, 0x40] = .ok (.cmdBitModify 0x0F 0xE0 0x40, []) ∧
  decode 16 [0x14, 0x01, 0x23, 0x02, 0x02, 0xDE, 0xAD] = .ok (.cmdLoadTxBuffer 0x123 2 [0xDE, 0xAD], []) ∧
  decode 16 [0x15] = .ok (.cmdRequestToSend, []) ∧
  decode 16 [0x16] = .ok (.cmdReadRxBuffer, []) ∧
  decode 16 [0x20, 0x07, 0xFF, 0x00, 0x00] = .ok (.encodeTxBuffer ⟨0x7FF, 0, []⟩, []) ∧
  decode 16 [0x21, 0x05, 0xFB, 0xF8, 0xAA, 0xBB, 0x00] = .ok (.decodeRxBuffer [0xFB, 0xF8, 0xAA, 0xBB, 0x00], []) ∧
  decode 16 [0x30, 0x02] = .ok (.init .loopback, []) ∧
  decode 16 [0x31, 0x01, 0x23, 0x02, 0x02, 0xDE, 0xAD] = .ok (.transmit ⟨0x123, 2, [0xDE, 0xAD]⟩, []) ∧
  decode 16 [0x32] = .ok (.receive, []) ∧
  decode 16 [0x33, 0x00, 0x05] = .ok (.receiveWithTimeout 5, []) ∧
  decode 8 [0x33, 0x05] = .ok (.receiveWithTimeout 5, []) ∧
  decode 20 [0x33, 0x01, 0x00, 0x05] = .ok (.receiveWithTimeout 0x10005, [])

/-- No bit of a request is dropped: every operation whose operands the port can carry, the well-formed ones
among them, is read back from its encoding, whatever follows it at the port and whatever W_BOUND is (R91; layout:
log 2). -/
def Obligations.DecodeEncodeRoundTrip : Prop :=
  (∀ (width : Nat) (i : Instr), i.wf width → i.portable width) ∧
  ∀ (width : Nat) (i : Instr) (rest : List Byte), i.portable width →
    decode width (encode width i ++ rest) = .ok (i, rest)

/-- R91: "Every other selector value is reserved and refused." (R199 (d).) That INITED and SEQ are not looked at
before is the model's choice (log 13). -/
def Obligations.ReservedSelectorsRefused : Prop :=
  ∀ (s : State) (opsel : Byte) (rest : List Byte), s.port = opsel :: rest →
    opsel ∉ ([0x00, 0x01, 0x02, 0x03, 0x10, 0x11, 0x12, 0x13, 0x14, 0x15, 0x16, 0x20, 0x21, 0x30, 0x31, 0x32,
      0x33] : List Byte) →
    step s = .refused (.reservedSelector opsel)

/-- A step runs the request at the head of the port and leaves what follows it there (R91, R234; log 1). -/
def Obligations.StepRunsDecodedRequest : Prop :=
  ∀ (s : State) (i : Instr) (rest : List Byte), decode s.cfg.wBound s.port = .ok (i, rest) →
    step s = exec i { s with port := rest }

/-- R215: after hardware reset, and whenever no request waits, the block does nothing: no event, no change of
its own state. The environment may go on; the oracle does not. -/
def Obligations.EmptyPortWaits : Prop :=
  ∀ s : State, s.port = [] →
    (∃ samples moves ctl freeIx,
      step s = .next { s with samples := samples, moves := moves, ctl := ctl, freeIx := freeIx }) ∧
    (s.env = .oracle → step s = .next s)

/-! ## Reset and INITED -/

/-- R41: INITED = 0 and SEQ = Idle after hardware reset, no vector: the block waits; after `SpiInit` from
there the lines are idle, MOSI is low, the directions are set and INITED = 1. The lines and scratch registers,
which R41 leaves unspecified, are not stated. That the whole state stays while the block waits is the oracle at reset
(log 7), and the request byte is the model's port (log 1, 2). -/
def Obligations.HardwareReset : Prop :=
  State.reset.inited = false ∧ State.reset.seq = .idle ∧ step State.reset = .next State.reset ∧
  ∃ t, step { State.reset with port := [0x00] } = .next t ∧
    t.pinSck = false ∧ t.pinCs = true ∧ t.pinMosi = false ∧ t.dirsSet ∧ t.inited = true ∧ t.seq = .idle

/-- R25: INITED is 0 after hardware reset, set by `SpiInit`, cleared by nothing; every other operation needs
it and is refused without it. That the refusal is NotInitialised also where an operand is outside its domain, an
operation is running or CS is low is the model's order of checks (log 13). -/
def Obligations.InitedGuardsEveryOperation : Prop :=
  State.reset.inited = false ∧
  (∀ s t, exec .spiInit s = .next t → t.inited = true) ∧
  (∀ i s t, i ≠ .spiInit → exec i s = .next t → s.inited = true ∧ t.inited = true) ∧
  (∀ i s, i ≠ .spiInit → s.inited = false → exec i s = .refused .notInitialised)

/-! ## SPI transport -/

/-- R101: the seven events, the end state, and the refusal while another operation runs; in every
environment in which nothing leads out of the reference model (log 12). The oracle's part of the state and the
controller behind it stay. -/
def Obligations.SpiInitSetsLines : Prop :=
  (∀ width, encode width .spiInit = [0x00]) ∧
  (∀ s : State, s.seq = .idle → s.staysInside → ∃ t, exec .spiInit s = .next t ∧
    t.ret = .nothing ∧ t.trace = s.trace ++ spiInitEvents ∧
    t.pinSck = false ∧ t.pinCs = true ∧ t.pinMosi = false ∧ t.dirsSet ∧ t.inited = true ∧ t.seq = .idle ∧
    t.port = s.port ∧ t.cfg = s.cfg ∧ t.env = s.env ∧ t.samples = s.samples ∧
    (s.env = .oracle ∨ s.pinCs = true ∧ s.pinSck = false → s.keepsController t)) ∧
  (∀ s : State, s.seq ≠ .idle → exec .spiInit s = .refused .operationInProgress)

/-- R102: `PinWrite(CS, 0)` and nothing else, in every environment in which nothing leads out of the reference model
(log 12); with CS low already the controller sees no edge; the two refusals. -/
def Obligations.AssertSelectDrivesLow : Prop :=
  (∀ width, encode width .assertSelect = [0x01]) ∧
  (∀ s : State, s.ready → s.staysInside → ∃ t, exec .assertSelect s = .next t ∧
    t.ret = .nothing ∧ t.trace = s.trace ++ [.pinWrite .cs false] ∧
    t.pinCs = false ∧ t.pinSck = s.pinSck ∧ t.pinMosi = s.pinMosi ∧ t.samples = s.samples ∧ s.keeps t ∧
    (s.env = .oracle ∨ s.pinCs = false → s.keepsController t)) ∧
  (∀ s : State, s.inited = false → exec .assertSelect s = .refused .notInitialised) ∧
  (∀ s : State, s.inited = true → s.seq ≠ .idle → exec .assertSelect s = .refused .operationInProgress)

/-- R103: `PinWrite(CS, 1)` and nothing else, in every environment in which nothing leads out of the reference model
(log 12); with CS high already nothing changes; the refusals of R102. -/
def Obligations.DeassertSelectDrivesHigh : Prop :=
  (∀ width, encode width .deassertSelect = [0x02]) ∧
  (∀ s : State, s.ready → s.staysInside → ∃ t, exec .deassertSelect s = .next t ∧
    t.ret = .nothing ∧ t.trace = s.trace ++ [.pinWrite .cs true] ∧
    t.pinCs = true ∧ t.pinSck = s.pinSck ∧ t.pinMosi = s.pinMosi ∧ t.samples = s.samples ∧ s.keeps t ∧
    (s.env = .oracle ∨ s.pinCs = true → s.keepsController t)) ∧
  (∀ s : State, s.inited = false → exec .deassertSelect s = .refused .notInitialised) ∧
  (∀ s : State, s.inited = true → s.seq ≠ .idle → exec .deassertSelect s = .refused .operationInProgress)

/-- R104: 32 events, most significant bit first, the result made of the eight samples, the lines after it; CS
is not touched. The first clause is the block alone, the second every environment. -/
def Obligations.TransferExchangesByte : Prop :=
  (∀ width tx, encode width (.transfer tx) = [0x03, tx]) ∧
  (∀ (s : State) (tx : Byte), s.env = .oracle → s.ready → ∃ (rx : Byte) (t : State), exec (.transfer tx) s = .next t ∧
    t.ret = .byte rx ∧ t.trace = s.trace ++ byteEvents tx rx ∧
    t.pinCs = s.pinCs ∧ t.pinSck = false ∧ t.pinMosi = tx.getLsbD 0 ∧
    s.fed t [rx] ∧ s.keeps t ∧ s.keepsController t) ∧
  (∀ (s t : State) (tx : Byte), exec (.transfer tx) s = .next t → ∃ rx,
    t.ret = .byte rx ∧ t.trace = s.trace ++ byteEvents tx rx ∧
    t.pinCs = s.pinCs ∧ t.pinSck = false ∧ t.pinMosi = tx.getLsbD 0 ∧ s.keeps t) ∧
  (∀ tx rx, (byteEvents tx rx).length = 32) ∧
  (∀ (s : State) (tx : Byte), s.inited = false → exec (.transfer tx) s = .refused .notInitialised) ∧
  (∀ (s : State) (tx : Byte), s.inited = true → s.seq ≠ .idle →
    exec (.transfer tx) s = .refused .operationInProgress)

/-- R105, which the spec derives from R104: the byte received in a transfer cannot depend on the byte sent in the same transfer, in any
environment, between two bytes of the controller. -/
def Obligations.TransferResultIgnoresOperand : Prop :=
  ∀ (s t t' : State) (tx tx' : Byte), s.ctl.edges = 0 →
    exec (.transfer tx) s = .next t → exec (.transfer tx') s = .next t' → t.ret = t'.ret

/-! ## Controller commands, the block alone -/

/-- R110: one bracket with the reset opcode, then the 10 ms wait. -/
def Obligations.CmdResetSendsOpcodeAndWaits : Prop :=
  ∀ s : State, s.oracleReady → ∃ (rx : Byte) (t : State), exec .cmdReset s = .next t ∧
    s.did t .nothing (bracketEvents [(s.cfg.opReset, rx)] ++ [.delayMs 10]) [rx] s.cfg.opReset

/-- R111, R79: format RD with the address sent unchanged; the result is the byte of the third transfer. -/
def Obligations.CmdReadRegisterReturnsThirdByte : Prop :=
  ∀ (s : State) (addr : Byte), s.oracleReady → ∃ (r0 r1 v : Byte) (t : State), exec (.cmdReadRegister addr) s = .next t ∧
    s.did t (.byte v) (bracketEvents [(s.cfg.opRead, r0), (addr, r1), (s.cfg.dummyByte, v)]) [r0, r1, v]
      s.cfg.dummyByte

/-- R112, R79: format WR. -/
def Obligations.CmdWriteRegisterSendsThreeBytes : Prop :=
  ∀ (s : State) (addr val : Byte), s.oracleReady → ∃ (r0 r1 r2 : Byte) (t : State), exec (.cmdWriteRegister addr val) s = .next t ∧
    s.did t .nothing (bracketEvents [(s.cfg.opWrite, r0), (addr, r1), (val, r2)]) [r0, r1, r2] val

/-- R113, R79: format BM. -/
def Obligations.CmdBitModifySendsFourBytes : Prop :=
  ∀ (s : State) (addr mask val : Byte), s.oracleReady → ∃ (r0 r1 r2 r3 : Byte) (t : State),
    exec (.cmdBitModify addr mask val) s = .next t ∧
    s.did t .nothing (bracketEvents [(s.cfg.opBitModify, r0), (addr, r1), (mask, r2), (val, r3)]) [r0, r1, r2, r3]
      val

/-- R114: format LD, 6 + dlc transfers, for every frame of the domain of R43. -/
def Obligations.CmdLoadTxBufferSendsImage : Prop :=
  ∀ (s : State) (id : BitVec 16) (dlc : Byte) (data : List Byte), s.oracleReady →
    id.toNat ≤ 0x7FF → dlc.toNat ≤ 8 → data.length = dlc.toNat →
    ∃ (rxs : List Byte) (t : State), exec (.cmdLoadTxBuffer id dlc data) s = .next t ∧ rxs.length = 6 + dlc.toNat ∧
      s.did t .nothing
        (bracketEvents (([s.cfg.opLoadTx0, (id >>> 3).setWidth 8, ((id &&& 7) <<< 5).setWidth 8,
          s.cfg.txReservedByte, s.cfg.txReservedByte, dlc] ++ data).zip rxs)) rxs (data.getLastD dlc)

/-- R115: one bracket with the request-to-send opcode. -/
def Obligations.CmdRequestToSendSendsOpcode : Prop :=
  ∀ s : State, s.oracleReady → ∃ (rx : Byte) (t : State), exec .cmdRequestToSend s = .next t ∧
    s.did t .nothing (bracketEvents [(s.cfg.opRtsTx0, rx)]) [rx] s.cfg.opRtsTx0

/-- R116, R128, with RX_DLC_GUARD = clamp: a burst of 6 + n transfers, n taken from the low nibble of the sixth
byte and limited to 8; the frame is made of the bytes received. -/
def Obligations.CmdReadRxBufferReadsFrame : Prop :=
  ∀ s : State, s.oracleReady → s.cfg.rxDlcGuard = .clamp →
    ∃ (r0 idh idl x y dlcb : Byte) (payload : List Byte) (t : State), exec .cmdReadRxBuffer s = .next t ∧
      payload.length = min (dlcb.toNat % 16) 8 ∧
      s.did t (.frame ⟨idh.setWidth 11 <<< 3 ||| (idl >>> 5).setWidth 11, BitVec.ofNat 4 payload.length, payload⟩)
        (burstEvents s.cfg r0 ([idh, idl, x, y, dlcb] ++ payload)) (r0 :: [idh, idl, x, y, dlcb] ++ payload)
        s.cfg.dummyByte

/-- R128, R199 (e), with RX_DLC_GUARD = strict, for the answers prepared in the state: a DLC byte above 8 is
refused by the three operations that read a frame; up to 8 the burst reads that many bytes (log 17). -/
def Obligations.StrictGuardOnReceivedLength : Prop :=
  ∀ (s : State) (q0 q1 f r0 idh idl x y dlcb : Byte) (payload : List Byte) (rest : List Level)
    (bound : Nat),
    s.oracleReady → s.cfg.rxDlcGuard = .strict → f &&& s.cfg.maskRx0if ≠ 0 → bound ≠ 0 →
    bound < 2 ^ s.cfg.wBound →
    (s.samples = ([r0, idh, idl, x, y, dlcb] ++ payload).flatMap wireBits ++ rest →
      (dlcb > 8 → exec .cmdReadRxBuffer s = .refused .strictDlc) ∧
      (dlcb.toNat ≤ 8 → payload.length = dlcb.toNat → ∃ t, exec .cmdReadRxBuffer s = .next t ∧
        t.ret = .frame ⟨idh.setWidth 11 <<< 3 ||| (idl >>> 5).setWidth 11, dlcb.setWidth 4, payload⟩ ∧
        t.samples = rest)) ∧
    (s.samples = ([q0, q1, f, r0, idh, idl, x, y, dlcb] ++ payload).flatMap wireBits ++ rest →
      (dlcb > 8 → exec .receive s = .refused .strictDlc ∧
        exec (.receiveWithTimeout bound) s = .refused .strictDlc) ∧
      (dlcb.toNat ≤ 8 → payload.length = dlcb.toNat → ∃ t u, exec .receive s = .next t ∧
        exec (.receiveWithTimeout bound) s = .next u ∧
        t.ret = .okFrame ⟨idh.setWidth 11 <<< 3 ||| (idl >>> 5).setWidth 11, dlcb.setWidth 4, payload⟩ ∧
        u.ret = t.ret))

/-- R118, which the spec derives from R110 to R116, in every environment: the bytes on MOSI and what each command returns, as functions of the operands
and of the bytes received; only the length of the receive burst depends on a received byte. -/
def Obligations.CommandSummary : Prop :=
  ∀ (i : Instr) (s t : State), exec i s = .next t → commandBytes s.cfg i [] ≠ none ∨ i = .cmdReadRxBuffer →
    ∃ txs rxs : List Byte, commandBytes s.cfg i rxs = some txs ∧ rxs.length = txs.length ∧
      t.trace = s.trace ++ bracketEvents (txs.zip rxs) ++ (if i = .cmdReset then [.delayMs 10] else []) ∧
      t.ret = commandResult s.cfg i rxs

/-! ## Frame codec -/

/-- R126: the image of a frame of the domain, and the refusal outside of it; no event and no other change. -/
def Obligations.EncodeTxBufferImage : Prop :=
  ∀ (s : State) (f : FrameOperand), s.ready → s.left = none →
    (f.id.toNat ≤ 0x7FF → f.dlc.toNat ≤ 8 → f.data.length = f.dlc.toNat →
      ∃ t, exec (.encodeTxBuffer f) s = .next t ∧
        s.didNothingBut t (.bytes ([(f.id >>> 3).setWidth 8, ((f.id &&& 7) <<< 5).setWidth 8,
          s.cfg.txReservedByte, s.cfg.txReservedByte, f.dlc] ++ f.data))) ∧
    (¬ (f.id.toNat ≤ 0x7FF ∧ f.dlc.toNat ≤ 8 ∧ f.data.length = f.dlc.toNat) →
      exec (.encodeTxBuffer f) s = .refused .operandOutOfDomain)

/-- R127: the frame of an image of length 5 + RxCount(DLCB); every other length is refused. The second clause, that
with RX_DLC_GUARD = strict a host's list with a DLC byte above 8 is refused as StrictDlc, is the model's reading of
R128 and R199 (e), not in R127 (log 17). -/
def Obligations.DecodeRxBufferFrame : Prop :=
  (∀ (s : State) (idh idl r1 r2 dlcb : Byte) (payload : List Byte) (n : BitVec 4), s.ready → s.left = none →
    rxCount s.cfg.rxDlcGuard dlcb = some n →
    (payload.length = n.toNat → ∃ t, exec (.decodeRxBuffer ([idh, idl, r1, r2, dlcb] ++ payload)) s = .next t ∧
      s.didNothingBut t (.frame ⟨idh.setWidth 11 <<< 3 ||| (idl >>> 5).setWidth 11, n, payload⟩)) ∧
    (payload.length ≠ n.toNat →
      exec (.decodeRxBuffer ([idh, idl, r1, r2, dlcb] ++ payload)) s = .refused .operandOutOfDomain)) ∧
  (∀ (s : State) (idh idl r1 r2 dlcb : Byte) (payload : List Byte), s.ready →
    rxCount s.cfg.rxDlcGuard dlcb = none →
    exec (.decodeRxBuffer ([idh, idl, r1, r2, dlcb] ++ payload)) s = .refused .strictDlc) ∧
  (∀ (s : State) (bytes : List Byte), s.ready → bytes.length < 5 →
    exec (.decodeRxBuffer bytes) s = .refused .operandOutOfDomain)

/-- R128: the low nibble, limited to 8; with RX_DLC_GUARD = strict a byte above 8 is refused; up to 8 both
readings return the byte itself. -/
def Obligations.RxCountLimitsToEight : Prop :=
  ∀ dlcb : Byte,
    rxCount .clamp dlcb = some (if dlcb.setWidth 4 > (8 : BitVec 4) then 8 else dlcb.setWidth 4) ∧
    (dlcb.toNat ≤ 8 → rxCount .clamp dlcb = some (dlcb.setWidth 4) ∧ rxCount .strict dlcb = some (dlcb.setWidth 4)) ∧
    (dlcb.toNat > 8 → rxCount .strict dlcb = none)

/-- R129, which the spec derives from R126 to R128: decoding an encoded frame gives the frame back, as two operations of a host; the converse holds up
to the ignored bits. -/
def Obligations.CodecRoundTrip : Prop :=
  (∀ (s : State) (f : FrameOperand), s.ready → s.left = none → f.check = none →
    ∃ (t : State) (image : List Byte) (u : State), exec (.encodeTxBuffer f) s = .next t ∧ t.ret = .bytes image ∧
      exec (.decodeRxBuffer image) t = .next u ∧ u.ret = .frame ⟨f.id.setWidth 11, f.dlc.setWidth 4, f.data⟩) ∧
  (∀ (idh idl r1 r2 dlcb reserved : Byte) (payload : List Byte) (f : CanFrame),
    decodeRx .clamp ([idh, idl, r1, r2, dlcb] ++ payload) = .ok f →
    encodeTx reserved f =
      [idh, idl &&& 0xE0, reserved, reserved, BitVec.ofNat 8 (min (dlcb.toNat % 16) 8)] ++ payload)

/-! ## Driver operations, the block alone -/

/-- R136: the commands of `Init` for both targets, the two verifications and the status; the Error of the first
verification comes before any configuration write. -/
def Obligations.InitVerifiesTwice : Prop :=
  ∀ (s : State) (m : ControllerMode), m ≠ .configuration → s.oracleReady →
    ∃ (t : State) (r0 q0 q1 v : Byte), exec (.init m) s = .next t ∧
      if modeField v ≠ s.cfg.modeCodeConfig then
        s.did t (.status .error)
          (bracketEvents [(s.cfg.opReset, r0)] ++ [.delayMs 10] ++ readEvents s.cfg s.cfg.addrCanstat (q0, q1, v))
          [r0, q0, q1, v] s.cfg.dummyByte
      else
        ∃ (rxs : List Byte) (v' : Byte), rxs.length = 18 ∧
          s.did t (.status (if modeField v' = modeCode s.cfg m then .ok else .error))
            (bracketEvents [(s.cfg.opReset, r0)] ++ [.delayMs 10] ++ readEvents s.cfg s.cfg.addrCanstat (q0, q1, v) ++
              bracketsEvents (initCommands s.cfg m) (rxs ++ [v']))
            ([r0, q0, q1, v] ++ (rxs ++ [v'])) s.cfg.dummyByte

/-- R137 (1), (2), in every environment: Ok only after the requested mode's code has been read back; and two
calls send the same, as far as the shorter goes, whatever happened before. -/
def Obligations.InitDiscipline : Prop :=
  (∀ (m : ControllerMode) (s t : State), exec (.init m) s = .next t → t.ret = .status .ok →
    ∃ (before : List Event) (q0 q1 v : Byte), t.trace = before ++ readEvents s.cfg s.cfg.addrCanstat (q0, q1, v) ∧
      modeField v = modeCode s.cfg m) ∧
  (∀ (m : ControllerMode) (s s' t t' : State), s.cfg = s'.cfg →
    exec (.init m) s = .next t → exec (.init m) s' = .next t' →
    (outputs (t.trace.drop s.trace.length) <+: outputs (t'.trace.drop s'.trace.length) ∨
      outputs (t'.trace.drop s'.trace.length) <+: outputs (t.trace.drop s.trace.length)) ∧
    (t.ret = .status .ok → t'.ret = .status .ok →
      outputs (t.trace.drop s.trace.length) = outputs (t'.trace.drop s'.trace.length)))

/-- R140: `Transmit` reads the pending bit once; Busy touches nothing else; Ok has loaded the frame's image and
requested sending. -/
def Obligations.TransmitLoadsOrReportsBusy : Prop :=
  ∀ (s : State) (f : FrameOperand), s.oracleReady →
    f.id.toNat ≤ 0x7FF → f.dlc.toNat ≤ 8 → f.data.length = f.dlc.toNat →
    ∃ (t : State) (q0 q1 c : Byte), exec (.transmit f) s = .next t ∧
      if c &&& s.cfg.maskTxreq ≠ 0 then
        s.did t (.status .busy) (readEvents s.cfg s.cfg.addrTxb0ctrl (q0, q1, c)) [q0, q1, c] s.cfg.dummyByte
      else
        ∃ (ls : List Byte) (r : Byte), ls.length = 6 + f.dlc.toNat ∧
          s.did t (.status .ok)
            (readEvents s.cfg s.cfg.addrTxb0ctrl (q0, q1, c) ++
              bracketEvents (([s.cfg.opLoadTx0, (f.id >>> 3).setWidth 8, ((f.id &&& 7) <<< 5).setWidth 8,
                s.cfg.txReservedByte, s.cfg.txReservedByte, f.dlc] ++ f.data).zip ls) ++
              bracketEvents [(s.cfg.opRtsTx0, r)])
            ([q0, q1, c] ++ ls ++ [r]) s.cfg.opRtsTx0

/-- R142, with RX_DLC_GUARD = clamp: one poll; NoMessage after it, or the burst, then the flag cleared, then the
frame. -/
def Obligations.ReceivePollsOnce : Prop :=
  ∀ s : State, s.oracleReady → s.cfg.rxDlcGuard = .clamp →
    ∃ (t : State) (q0 q1 f : Byte), exec .receive s = .next t ∧
      if f &&& s.cfg.maskRx0if = 0 then
        s.did t (.status .noMessage) (readEvents s.cfg s.cfg.addrCanintf (q0, q1, f)) [q0, q1, f] s.cfg.dummyByte
      else
        ∃ (r0 idh idl x y dlcb : Byte) (payload es : List Byte), payload.length = min (dlcb.toNat % 16) 8 ∧ es.length = 4 ∧
          s.did t
            (.okFrame ⟨idh.setWidth 11 <<< 3 ||| (idl >>> 5).setWidth 11, BitVec.ofNat 4 payload.length, payload⟩)
            (readEvents s.cfg s.cfg.addrCanintf (q0, q1, f) ++
              burstEvents s.cfg r0 ([idh, idl, x, y, dlcb] ++ payload) ++
              bracketEvents ((clearFlagBytes s.cfg).zip es))
            ([q0, q1, f] ++ (r0 :: [idh, idl, x, y, dlcb] ++ payload) ++ es) 0x00

/-- R144, with RX_DLC_GUARD = clamp: empty polls, each followed by a wait of 1 ms, until `bound` of them have
passed (Timeout) or a poll finds a frame (Ok, with no wait after it). -/
def Obligations.ReceiveWithTimeoutPollsUntilBound : Prop :=
  ∀ (s : State) (bound : Nat), s.oracleReady → s.cfg.rxDlcGuard = .clamp → bound < 2 ^ s.cfg.wBound →
    ∃ (t : State) (ps : List (Byte × Byte × Byte)), exec (.receiveWithTimeout bound) s = .next t ∧
      (∀ p ∈ ps, p.2.2 &&& s.cfg.maskRx0if = 0) ∧ s.keeps t ∧ s.keepsController t ∧
      ((ps.length = bound ∧ t.ret = .status .timeout ∧
          t.trace = s.trace ++ emptyPollEvents s.cfg ps ∧ s.fed t (ps.flatMap triple) ∧
          (bound = 0 → s.sameLines t) ∧ (bound ≠ 0 → t.linesAfter s.cfg.dummyByte)) ∨
        (ps.length < bound ∧ ∃ (q0 q1 f r0 idh idl x y dlcb : Byte) (payload es : List Byte),
          f &&& s.cfg.maskRx0if ≠ 0 ∧ payload.length = min (dlcb.toNat % 16) 8 ∧ es.length = 4 ∧
          s.did t
            (.okFrame ⟨idh.setWidth 11 <<< 3 ||| (idl >>> 5).setWidth 11, BitVec.ofNat 4 payload.length, payload⟩)
            (emptyPollEvents s.cfg ps ++ readEvents s.cfg s.cfg.addrCanintf (q0, q1, f) ++
              burstEvents s.cfg r0 ([idh, idl, x, y, dlcb] ++ payload) ++
              bracketEvents ((clearFlagBytes s.cfg).zip es))
            (ps.flatMap triple ++ ([q0, q1, f] ++ (r0 :: [idh, idl, x, y, dlcb] ++ payload) ++ es)) 0x00))

/-- R136, R140, R142, R144 with RX_DLC_GUARD = clamp: where the four driver operations do all they are for, said
by the answers prepared in the state: both verifications pass; the pending bit is clear; the receive flag is set
at once, or after fewer empty polls than the bound. -/
def Obligations.DriverOperationsComplete : Prop :=
  ∀ (s : State) (rest : List Level), s.oracleReady → s.cfg.rxDlcGuard = .clamp →
    (∀ (m : ControllerMode) (r0 q0 q1 v v' : Byte) (rxs : List Byte), m ≠ .configuration → rxs.length = 18 →
      modeField v = s.cfg.modeCodeConfig → modeField v' = modeCode s.cfg m →
      s.samples = ([r0, q0, q1, v] ++ (rxs ++ [v'])).flatMap wireBits ++ rest →
      ∃ t, exec (.init m) s = .next t ∧
        s.did t (.status .ok)
          (bracketEvents [(s.cfg.opReset, r0)] ++ [.delayMs 10] ++ readEvents s.cfg s.cfg.addrCanstat (q0, q1, v) ++
            bracketsEvents (initCommands s.cfg m) (rxs ++ [v']))
          ([r0, q0, q1, v] ++ (rxs ++ [v'])) s.cfg.dummyByte) ∧
    (∀ (f : FrameOperand) (q0 q1 c r : Byte) (ls : List Byte), f.check = none → c &&& s.cfg.maskTxreq = 0 →
      ls.length = 6 + f.dlc.toNat → s.samples = ([q0, q1, c] ++ ls ++ [r]).flatMap wireBits ++ rest →
      ∃ t, exec (.transmit f) s = .next t ∧
        s.did t (.status .ok)
          (readEvents s.cfg s.cfg.addrTxb0ctrl (q0, q1, c) ++
            bracketEvents (([s.cfg.opLoadTx0, (f.id >>> 3).setWidth 8, ((f.id &&& 7) <<< 5).setWidth 8,
              s.cfg.txReservedByte, s.cfg.txReservedByte, f.dlc] ++ f.data).zip ls) ++
            bracketEvents [(s.cfg.opRtsTx0, r)])
          ([q0, q1, c] ++ ls ++ [r]) s.cfg.opRtsTx0) ∧
    (∀ (bound : Nat) (ps : List (Byte × Byte × Byte)) (q0 q1 f r0 idh idl x y dlcb : Byte)
        (payload es : List Byte), ps.length < bound → bound < 2 ^ s.cfg.wBound → (∀ p ∈ ps, p.2.2 &&& s.cfg.maskRx0if = 0) →
      f &&& s.cfg.maskRx0if ≠ 0 → payload.length = min (dlcb.toNat % 16) 8 → es.length = 4 →
      s.samples = (ps.flatMap triple ++ ([q0, q1, f] ++ (r0 :: [idh, idl, x, y, dlcb] ++ payload) ++ es)).flatMap
        wireBits ++ rest →
      (∃ t, exec (.receiveWithTimeout bound) s = .next t ∧
        s.did t
          (.okFrame ⟨idh.setWidth 11 <<< 3 ||| (idl >>> 5).setWidth 11, BitVec.ofNat 4 payload.length, payload⟩)
          (emptyPollEvents s.cfg ps ++ readEvents s.cfg s.cfg.addrCanintf (q0, q1, f) ++
            burstEvents s.cfg r0 ([idh, idl, x, y, dlcb] ++ payload) ++
            bracketEvents ((clearFlagBytes s.cfg).zip es))
          (ps.flatMap triple ++ ([q0, q1, f] ++ (r0 :: [idh, idl, x, y, dlcb] ++ payload) ++ es)) 0x00) ∧
      (ps = [] → ∃ t, exec .receive s = .next t ∧
        s.did t
          (.okFrame ⟨idh.setWidth 11 <<< 3 ||| (idl >>> 5).setWidth 11, BitVec.ofNat 4 payload.length, payload⟩)
          (readEvents s.cfg s.cfg.addrCanintf (q0, q1, f) ++
            burstEvents s.cfg r0 ([idh, idl, x, y, dlcb] ++ payload) ++
            bracketEvents ((clearFlagBytes s.cfg).zip es))
          ([q0, q1, f] ++ (r0 :: [idh, idl, x, y, dlcb] ++ payload) ++ es) 0x00))

/-- R144, 95_test_vectors.md S3: "`ReceiveWithTimeout(0)` returns `Timeout` without performing any bus poll",
in every environment. -/
def Obligations.ReceiveWithTimeoutZero : Prop :=
  ∀ s : State, s.ready → s.pinCs = true → s.left = none →
    ∃ t, exec (.receiveWithTimeout 0) s = .next t ∧ s.didNothingBut t (.status .timeout)

/-! ## Stops -/

/-- R199 (b), R100: no operation starts while another runs. -/
def Obligations.OperationInProgressRefused : Prop :=
  ∀ (i : Instr) (s : State), s.seq ≠ .idle → s.inited = true ∨ i = .spiInit →
    exec i s = .refused .operationInProgress

/-- R198: a command or driver operation inside an open bracket is the fault OverlappingCommand, and nothing
else is a fault. -/
def Obligations.OverlappingCommandFaults : Prop :=
  (∀ (i : Instr) (s : State), s.ready → s.pinCs = false → usesBracket i = true → i.wf s.cfg.wBound →
    exec i s = .fault .overlappingCommand) ∧
  (∀ (i : Instr) (s : State) (f : Fault), exec i s = .fault f → s.pinCs = false ∧ usesBracket i = true)

/-- R199 (c), R90: an operand outside its domain is refused before anything else that could stop the operation once it
may run (order of the checks: log 13; the bound of more than W_BOUND bits: log 16). Only of a host's list for
`DecodeRxBuffer` RX_DLC_GUARD = clamp is asked; with strict it may be refused as StrictDlc first (log 17). -/
def Obligations.OperandOutOfDomainRefused : Prop :=
  ∀ (i : Instr) (s : State), s.ready → ¬ i.wf s.cfg.wBound →
    (∀ bytes, i = .decodeRxBuffer bytes → s.cfg.rxDlcGuard = .clamp) →
    exec i s = .refused .operandOutOfDomain

/-- No other stop: with its operands in their domains, and the bus released where it opens a bracket, an operation
returns in every environment and with both values of RX_DLC_GUARD, unless the run leaves the reference controller's
model (R145, R181; log 12) or, with strict, a DLC byte above 8 is read (R199 (e); log 17). -/
def Obligations.EveryEnvironmentReturns : Prop :=
  ∀ (i : Instr) (s : State), i.wf s.cfg.wBound → s.ready → (usesBracket i = true → s.pinCs = true) →
    (∃ t, exec i s = .next t) ∨
    (s.env ≠ .oracle ∧ ∃ why, exec i s = .refused (.outsideController why)) ∨
    (s.cfg.rxDlcGuard = .strict ∧ readsLength i = true ∧ exec i s = .refused .strictDlc)

/-! ## Invariants -/

/-- The state after hardware reset meets the invariant (its lines are the model's choice: log 3). -/
def Obligations.ResetMeetsInvariant : Prop := State.reset.Inv

/-- R29, R20, R21, R28, R50: between two operations none runs, the clock is low and the directions are set once
`SpiInit` has run, TMO is a number of W_BOUND bits, and the register space is in its canonical form; every step keeps
this. -/
def Obligations.StepKeepsInvariant : Prop :=
  ∀ s t : State, s.Inv → step s = .next t → t.Inv

/-- R20: after `SpiInit` the directions are set; no other operation writes a direction. -/
def Obligations.DirectionsOnlyBySpiInit : Prop :=
  (∀ s t : State, exec .spiInit s = .next t → t.dirsSet) ∧
  (∀ (i : Instr) (s t : State), i ≠ .spiInit → exec i s = .next t →
    t.dirSck = s.dirSck ∧ t.dirCs = s.dirCs ∧ t.dirMosi = s.dirMosi ∧ t.dirMiso = s.dirMiso ∧
    ∀ (l : Line) (d : Dir), Event.pinDir l d ∉ t.trace.drop s.trace.length)

/-- R106, which the spec derives from R101 to R104 and R117: the bus is idle between operations as long as the host does not use `AssertSelect` on its own; every
operation of files 41 and 43 starts from a released bus and restores it on every path. -/
def Obligations.IdleBusRestored : Prop :=
  (∀ (i : Instr) (s t : State), i ≠ .assertSelect → (s.inited = true → s.busIdle) → exec i s = .next t →
    t.inited = true ∧ t.busIdle) ∧
  (∀ (i : Instr) (s t : State), usesBracket i = true → exec i s = .next t → s.pinCs = true ∧ t.pinCs = true)

/-- R191, R30: which operation may return which status, in every environment, and the numbers of the statuses. -/
def Obligations.StatusTable : Prop :=
  (∀ (i : Instr) (s t : State), exec i s = .next t → resultAllowed i t.ret) ∧
  [Status.ok, .error, .busy, .noMessage, .timeout].map statusCode = [0, 1, 2, 3, 4]

/-- R233, R208: the delays of the operations that wait, in every environment. -/
def Obligations.DelaysOfOperations : Prop :=
  (∀ s t : State, exec .cmdReset s = .next t → traceMs (t.trace.drop s.trace.length) = 10) ∧
  (∀ (m : ControllerMode) (s t : State), exec (.init m) s = .next t →
    traceMs (t.trace.drop s.trace.length) = 10) ∧
  (∀ (n : Nat) (s t : State), exec (.receiveWithTimeout n) s = .next t →
    traceMs (t.trace.drop s.trace.length) ≤ n ∧
    (t.ret = .status .timeout → traceMs (t.trace.drop s.trace.length) = n))

/-- R13, R61: no step changes the configuration or unsays an event. That the past events are kept in the state is the
model's (log 21), as are the port, at which no step puts a request (log 1), and the choice of environment, which no
step changes (log 7). -/
def Obligations.StepOnlyAddsEvents : Prop :=
  ∀ s t : State, step s = .next t →
    s.trace <+: t.trace ∧ t.cfg = s.cfg ∧ t.env = s.env ∧ t.port <:+ s.port

/-! ## Noninterference -/

/-- R44: nothing survives from one operation to the next but INITED, the lines and the directions (the
environment and the numbering of free values apart): the scratch registers, the value last delivered, the past
events and the waiting requests change nothing of what an operation does. -/
def Obligations.NothingElseSurvives : Prop :=
  ∀ (i : Instr) (s : State) (scratch : Scratch) (ret : Result) (trace : List Event) (port : List Byte),
    exec i (s.withPast scratch ret trace port) =
      match exec i s with
      | .next t => .next { t with trace := trace ++ t.trace.drop s.trace.length, port := port }
      | .fault f => .fault f
      | .refused why => .refused why

/-! ## The reference controller

File 49 marks each of its rules as general knowledge, not in the source: what these statements say of the
controller is the spec's own reference model, not the document's. -/

/-- R169, R164: `RegWrite` at every address; the opcodes 0x02 and 0x40 and the two parser states they lead to. -/
def Obligations.RegWriteRule : Prop :=
  (∀ (c : Controller) (a : RegAddr) (mask v : Byte) (b : Nat), c.reg.wf →
    (c.regWrite a mask v).rd b =
      if b ≠ a.toNat ∨ c.settling = true ∨ a = 0x0E ∨
          ((a = 0x28 ∨ a = 0x29 ∨ a = 0x2A) ∧ (c.rd 0x0E).extractLsb' 5 3 ≠ 0b100) then c.rd b
      else if a = 0x30 then (c.rd b &&& ~~~(mask &&& 0x0B)) ||| (v &&& mask &&& 0x0B)
      else (c.rd b &&& ~~~mask) ||| (v &&& mask)) ∧
  (∀ c : Controller, c.pst = .waitOpcode →
    c.output = none ∧ c.byteStep 0x02 = { c with pst := .wrAddr } ∧ c.byteStep 0x40 = { c with pst := .wrData 0x31 }) ∧
  (∀ (c : Controller) (ib : Byte), c.pst = .wrAddr →
    c.output = none ∧ (c.byteStep ib).pst = .wrData (ib.setWidth 7) ∧ (c.byteStep ib).reg = c.reg) ∧
  (∀ (c : Controller) (ib : Byte) (ptr : RegAddr), c.pst = .wrData ptr →
    c.output = none ∧ (c.byteStep ib).pst = .wrData (ptr + 1) ∧
    (c.byteStep ib).reg = (c.regWrite ptr 0xFF ib).reg)

/-- R170, R164: the opcode 0x05 and the three parser states of the bit-modify command. -/
def Obligations.BitModifyRule : Prop :=
  (∀ c : Controller, c.pst = .waitOpcode → c.output = none ∧ c.byteStep 0x05 = { c with pst := .bmAddr }) ∧
  (∀ (c : Controller) (ib : Byte), c.pst = .bmAddr →
    c.output = none ∧ (c.byteStep ib).pst = .bmMask (ib.setWidth 7) ∧ (c.byteStep ib).reg = c.reg) ∧
  (∀ (c : Controller) (ib : Byte) (a : RegAddr), c.pst = .bmMask a →
    c.output = none ∧ (c.byteStep ib).pst = .bmData a ib ∧ (c.byteStep ib).reg = c.reg) ∧
  (∀ (c : Controller) (ib m : Byte) (a : RegAddr), c.pst = .bmData a m →
    c.output = none ∧ (c.byteStep ib).pst = .done ∧ (c.byteStep ib).reg = (c.regWrite a m ib).reg)

/-- R165, R164: the opcodes 0x03 and 0x90, the second of which remembers to clear the receive flag; reading advances
the pointer modulo 128, outputs the register and changes none. -/
def Obligations.ReadRule : Prop :=
  (∀ c : Controller, c.pst = .waitOpcode →
    c.output = none ∧ c.byteStep 0x03 = { c with pst := .rdAddr } ∧
    c.byteStep 0x90 = { c with pst := .rdData 0x61, rxclr := true }) ∧
  (∀ (c : Controller) (ib : Byte), c.pst = .rdAddr →
    c.output = none ∧ (c.byteStep ib).pst = .rdData (ib.setWidth 7) ∧ (c.byteStep ib).reg = c.reg) ∧
  (∀ (c : Controller) (ib : Byte) (ptr : RegAddr), c.pst = .rdData ptr → c.settling = false →
    c.output = some (c.rd ptr.toNat) ∧ (c.byteStep ib).pst = .rdData (ptr + 1) ∧ (c.byteStep ib).reg = c.reg)

/-- R173, R164: the opcode 0x81 and the request to send. -/
def Obligations.RequestToSendRule : Prop :=
  (∀ c : Controller, c.pst = .waitOpcode →
    c.output = none ∧ c.byteStep 0x81 = { c.requestToSend with pst := .done }) ∧
  (∀ (c : Controller) (b : Nat), c.reg.wf →
    (c.requestToSend).rd b =
      if b = 0x30 ∧ c.settling = false then c.rd 0x30 &&& 0x8F ||| 0x08 else c.rd b)

/-- R166, R164: the opcode 0xC0, also while a reset is settling; the registers after the reset, what the others hold (free, or 0x00 in the simulator: log 9), the end
of settling within 10 ms of delays (log 11); while settling nothing is written and nothing is output. -/
def Obligations.ResetRegisters : Prop :=
  (∀ (c : Controller) (fill : Nat → Byte), c.settling = true →
    let d := c.finishReset fill
    d.settling = false ∧ d.rd 0x0E = 0x80 ∧ d.rd 0x0F = 0x87 ∧ d.rd 0x28 = 0 ∧ d.rd 0x29 = 0 ∧ d.rd 0x2A = 0 ∧
    d.rd 0x2B = 0 ∧ d.rd 0x2C = 0 ∧ d.rd 0x2D = 0 ∧ d.rd 0x30 = 0 ∧ d.rd 0x60 = 0 ∧
    ∀ a, a < 128 →
      a ∉ ([0x0E, 0x0F, 0x28, 0x29, 0x2A, 0x2B, 0x2C, 0x2D, 0x30, 0x60] : List Nat) → d.rd a = fill a) ∧
  (∀ c : Controller, c.pst = .waitOpcode →
    c.output = none ∧ c.byteStep 0xC0 = { c with settling := true, settleLeft := 10, pst := .done } ∧
    ∀ fill, ((c.byteStep 0xC0).elapse fill 10).settling = false) ∧
  (∀ (c : Controller) (a : RegAddr) (mask v : Byte), c.settling = true →
    c.regWrite a mask v = c ∧ c.requestToSend = c ∧ c.output = none)

/-- R162, R163, R164: the edges of CS; the eight rising edges of SCK that make a byte; the output byte, fixed before the
next byte and driven bit by bit; the bytes that no command takes; and the opcodes that the model gives no meaning to, whose transfer is refused whatever
the schedule does after it (log 12). That the receive flag is cleared also while settling is the model's reading
(log 28), as is when the output byte is fixed and which bit is driven when (log 25). -/
def Obligations.BracketAndBytes : Prop :=
  (∀ c : Controller, c.select = { c with pst := .waitOpcode, rxclr := false, shiftIn := 0, edges := 0, outByte := none }) ∧
  (∀ c : Controller, c.reg.wf →
    c.release.pst = .deselected ∧ c.release.shiftIn = 0 ∧ c.release.edges = 0 ∧ c.release.outByte = none ∧
    ∀ a, c.release.rd a = if a = 0x2C ∧ c.rxclr = true then c.rd 0x2C &&& 0xFE else c.rd a) ∧
  (∀ (c : Controller) (ib : Byte), c.edges = 0 →
    (wireBits ib).foldl Controller.clockRise c = ({ c with shiftIn := ib, edges := 8 } : Controller).byteStep ib) ∧
  (∀ c : Controller, c.nextByte = { c with shiftIn := 0, edges := 0, outByte := c.output }) ∧
  (∀ c : Controller, c.outByte = none → c.drive true = none ∧ c.drive false = none) ∧
  (∀ (c : Controller) (ob : Byte) (i : Fin 8), c.outByte = some ob → c.edges = 8 - i.val →
    c.drive true = some (ob.getLsbD i.val)) ∧
  (∀ (c : Controller) (ib : Byte), c.pst = .done ∨ c.pst = .unknown → c.output = none ∧ c.byteStep ib = c) ∧
  (∀ (c : Controller) (ib : Byte), c.pst = .waitOpcode →
    ib ∉ ([0xC0, 0x03, 0x02, 0x05, 0x40, 0x81, 0x90] : List Byte) →
    (c.byteStep ib).pst = .unknown ∧ (c.byteStep ib).reg = c.reg) ∧
  (∀ (s : State) (ib : Byte), s.ready → s.env ≠ .oracle → s.pinCs = false → s.pinSck = false →
    s.ctl.pst = .waitOpcode → s.ctl.edges = 0 → s.ctl.outside = none →
    ib ∉ ([0xC0, 0x03, 0x02, 0x05, 0x40, 0x81, 0x90] : List Byte) →
    exec (.transfer ib) s = .refused (.outsideController (.unknownOpcode ib)))

/-- R175: the mode change, when it is enabled and when it is not. -/
def Obligations.ModeChangeStep : Prop :=
  ∀ (c : Controller) (b : Nat), c.reg.wf →
    (c.changeMode).rd b =
      if b = 0x0E ∧ c.settling = false ∧
          ((c.rd 0x0F).extractLsb' 5 3 = 0b000 ∨ (c.rd 0x0F).extractLsb' 5 3 = 0b010 ∨
            (c.rd 0x0F).extractLsb' 5 3 = 0b100)
      then c.rd 0x0E &&& 0x1F ||| c.rd 0x0F &&& 0xE0 else c.rd b

/-- R176: loopback delivery: the image copied under the masks, or the overflow bit; pending cleared and the
transmit-done flag set; slots from the count on take what `fill` gives (log 31). -/
def Obligations.LoopbackDeliveryStep : Prop :=
  ∀ (c : Controller) (fill : Nat → Byte), c.reg.wf → (c.rd 0x0E).extractLsb' 5 3 = 0b010 →
    (c.rd 0x30).getLsbD 3 = true →
    let d := c.deliverLoopback fill
    let n := min ((c.rd 0x35).toNat % 16) 8
    d.rd 0x30 = c.rd 0x30 &&& 0xF7 ∧
    ((c.rd 0x2C).getLsbD 0 = false →
      d.rd 0x61 = c.rd 0x31 ∧ d.rd 0x62 = c.rd 0x32 &&& 0xEB ∧ d.rd 0x63 = c.rd 0x33 ∧ d.rd 0x64 = c.rd 0x34 ∧
      d.rd 0x65 = c.rd 0x35 &&& 0x4F ∧ (∀ k, k < 8 → d.rd (0x66 + k) = if k < n then c.rd (0x36 + k) else fill (0x66 + k)) ∧
      d.rd 0x2C = c.rd 0x2C ||| 0x05 ∧
      ∀ a, a ≠ 0x30 → a ≠ 0x2C → ¬ (0x61 ≤ a ∧ a ≤ 0x6D) → d.rd a = c.rd a) ∧
    ((c.rd 0x2C).getLsbD 0 = true →
      d.rd 0x2D = c.rd 0x2D ||| 0x40 ∧ d.rd 0x2C = c.rd 0x2C ||| 0x04 ∧
      ∀ a, a ≠ 0x30 → a ≠ 0x2C → a ≠ 0x2D → d.rd a = c.rd a)

/-- R177, R178: transmission and reception in Normal mode. A buffer with the extended-identifier or the remote-request
bit set leaves the model when it is sent (R83, R85, R181; log 12). -/
def Obligations.NormalModeSteps : Prop :=
  ∀ c : Controller, c.reg.wf → (c.rd 0x0E).extractLsb' 5 3 = 0b000 →
    ((c.rd 0x30).getLsbD 3 = true → ∀ a, (c.sendNormal).rd a =
      if a = 0x30 then c.rd 0x30 &&& 0xF7 else if a = 0x2C then c.rd 0x2C ||| 0x04 else c.rd a) ∧
    ((c.rd 0x30).getLsbD 3 = true → c.outside = none → c.sendNormal.outside =
      if (c.rd 0x32).getLsbD 3 = true then some .extendedFrame
      else if (c.rd 0x35).getLsbD 6 = true then some .remoteFrame else none) ∧
    (∀ image : Vector Byte 13,
      ((c.rd 0x2C).getLsbD 0 = false → ∀ a, (c.receiveNormal image.toList).rd a =
        if 0x61 ≤ a ∧ a ≤ 0x6D then image.toList.getD (a - 0x61) 0
        else if a = 0x2C then c.rd 0x2C ||| 0x01 else c.rd a) ∧
      ((c.rd 0x2C).getLsbD 0 = true → ∀ a, (c.receiveNormal image.toList).rd a =
        if a = 0x2D then c.rd 0x2D ||| 0x40 else c.rd a))

/-- R179: in Configuration mode nothing is sent and nothing is received, whatever moves the environment makes
there; a pending bit stays set. -/
def Obligations.ConfigurationModeIsInert : Prop :=
  ∀ (c : Controller) (fill : Nat → Byte) (m : EnvMove), (c.rd 0x0E).extractLsb' 5 3 = 0b100 →
    m = .deliverLoopback ∨ m = .sendNormal ∨ (∃ image, m = .receive image) → c.fire fill m = c

/-! ## The block and the deterministic simulator together -/

/-- R111, R165, R180: a register read returns the register and changes none, at every address of the register
space. -/
def Obligations.SimulatorReadsRegister : Prop :=
  ∀ (s : State) (addr : Byte), s.simIdle → s.quiet → addr.toNat < 128 →
    ∃ t, exec (.cmdReadRegister addr) s = .next t ∧ t.ret = .byte (s.reg addr.toNat) ∧
      (∀ a, t.reg a = s.reg a) ∧ t.simIdle ∧ t.quiet

/-- R112, R113, R80, R169, R180: a register write and a bit-modify change the one register they address, as
far as its write restriction allows, and no other; the status, control and transmit-control registers, whose
writes start more, apart. -/
def Obligations.SimulatorWritesRegister : Prop :=
  ∀ (s : State) (addr mask val : Byte), s.simIdle → s.quiet → s.ctl.reg.wf → addr.toNat < 128 →
    addr ≠ 0x0F → addr ≠ 0x30 →
    let kept := addr = 0x0E ∨ ((addr = 0x28 ∨ addr = 0x29 ∨ addr = 0x2A) ∧ s.ctl.mode ≠ 0b100)
    (∃ t, exec (.cmdWriteRegister addr val) s = .next t ∧ t.simIdle ∧ t.quiet ∧
      ∀ a, t.reg a = if a = addr.toNat ∧ ¬ kept then val else s.reg a) ∧
    (∃ t, exec (.cmdBitModify addr mask val) s = .next t ∧ t.simIdle ∧ t.quiet ∧
      ∀ a, t.reg a = if a = addr.toNat ∧ ¬ kept then (s.reg a &&& ~~~mask) ||| (val &&& mask) else s.reg a)

/-- R88, R175, R180: the mode request of each of the three modes; the controller reports the mode when the
command has ended and nothing else changes. Bits 4 and 3 of the control register (abort, one-shot) are clear,
else the run leaves the model (R181; log 12). -/
def Obligations.SimulatorChangesMode : Prop :=
  ∀ (s : State) (m : ControllerMode), s.simIdle → s.quiet → s.ctl.reg.wf → s.reg 0x0F &&& 0x18 = 0 →
    ∃ t, exec (.cmdBitModify 0x0F 0xE0 (modeRequestByte s.cfg m)) s = .next t ∧ t.simIdle ∧ t.quiet ∧
      ∀ a, t.reg a =
        if a = 0x0E ∨ a = 0x0F then s.reg a &&& 0x1F ||| modeRequestByte s.cfg m else s.reg a

/-- R180, R137 (3): `Init` returns Ok for both targets, twice in a row, from any register contents; the
controller is then in the requested mode with the timing registers programmed, the flags clear and nothing
pending, and the second call leaves it as the first did. -/
def Obligations.SimulatorInitTwiceOk : Prop :=
  ∀ (s : State) (m : ControllerMode), m ≠ .configuration → s.simIdle → s.ctl.reg.wf →
    ∃ t u, exec (.init m) s = .next t ∧ t.ret = .status .ok ∧ exec (.init m) t = .next u ∧ u.ret = .status .ok ∧
      t.simIdle ∧ t.quiet ∧ u.ctl = t.ctl ∧
      t.reg 0x0E = modeRequestByte s.cfg m ∧ t.reg 0x0F = 0x07 ||| modeRequestByte s.cfg m ∧
      t.reg 0x2A = s.cfg.cnf1Val ∧ t.reg 0x29 = s.cfg.cnf2Val ∧ t.reg 0x28 = s.cfg.cnf3Val ∧
      t.reg 0x2C = 0x00 ∧ t.reg 0x30 = 0x00

/-- R180, R129, R176, 95_test_vectors.md S5: in Loopback mode, a frame transmitted is the frame received, for
every identifier, every length 0 to 8, every payload and both values of RX_DLC_GUARD; a second poll is empty. -/
def Obligations.LoopbackRoundTrip : Prop :=
  ∀ (s : State) (f : FrameOperand), s.simIdle → s.quiet → s.ctl.reg.wf → s.ctl.mode = 0b010 →
    s.ctl.rxFlag = false → f.check = none →
    ∃ t u v, exec (.transmit f) s = .next t ∧ t.ret = .status .ok ∧
      exec .receive t = .next u ∧ u.ret = .okFrame ⟨f.id.setWidth 11, f.dlc.setWidth 4, f.data⟩ ∧
      exec .receive u = .next v ∧ v.ret = .status .noMessage

/-- R140 corner case 4, R179: in Configuration mode the first frame is accepted and never leaves; from there every
`Transmit` returns Busy, changes no register and leaves the state so, so every later one does the same. -/
def Obligations.ConfigurationModeKeepsPending : Prop :=
  (∀ (s : State) (f : FrameOperand), s.simIdle → s.quiet → s.ctl.reg.wf → s.ctl.mode = 0b100 → f.check = none →
    ∃ t, exec (.transmit f) s = .next t ∧ t.ret = .status .ok ∧ t.stuckPending) ∧
  (∀ (s : State) (g : FrameOperand), s.stuckPending → g.check = none →
    ∃ t, exec (.transmit g) s = .next t ∧ t.ret = .status .busy ∧ t.stuckPending ∧ ∀ a, t.reg a = s.reg a)

end Slice0
end

