-- ==== Sys2Proof/Laws/Memory.lean ====
section
/-! SUPPORT. The register space: reads after writes, the canonical form, and equality of equal memories. -/

namespace Sys2Proof.Machine

theorem Memory.read_cell (a : Nat) (v : Byte) (m : Memory) (b : Nat)
    (h : b = a → Memory.read m a = Memory.unlisted a ∨ v ≠ Memory.unlisted a) :
    Memory.read (Memory.cell a v m) b = if b = a then v else Memory.read m b := by
  unfold Memory.cell
  split <;> rename_i hv
  · split
    · rename_i hb; subst hb
      rcases h rfl with h | h
      · rw [h, hv]
      · exact absurd hv h
    · rfl
  · simp only [Memory.read]

/-- In a list whose addresses all lie above `a`, the byte at `a` is unlisted. -/
theorem Memory.read_below {a : Nat} : {m : Memory} → (∀ c ∈ m, a < c.1) → Memory.read m a = Memory.unlisted a
  | [], _ => rfl
  | (b, v) :: m, h => by
    have hb : a < b := h (b, v) (by simp)
    simp only [Memory.read, if_neg (Nat.ne_of_lt hb)]
    exact Memory.read_below fun c hc => h c (by simp [hc])

/-- A read after a write: the byte written at its address, every other byte as before. -/
theorem Memory.read_write {m : Memory} (h : m.wf) (a : Nat) (v : Byte) (b : Nat) :
    (m.write a v).read b = if b = a then v else m.read b := by
  obtain ⟨hs, hv⟩ := h
  induction m with
  | nil =>
    rw [Memory.write, Memory.read_cell]
    exact fun _ => .inl rfl
  | cons c m ih =>
    obtain ⟨k, w⟩ := c
    rw [List.pairwise_cons] at hs
    simp only [Memory.write]
    split
    · rename_i hk
      refine Memory.read_cell a v _ b fun _ => .inl (Memory.read_below ?_)
      intro c hc
      rcases List.mem_cons.1 hc with rfl | hc
      · exact hk
      · exact lt_trans hk (hs.1 c hc)
    · split
      · rename_i hk; subst hk
        rw [Memory.read_cell]
        · simp only [Memory.read]
          split <;> rfl
        · exact fun _ => .inl (Memory.read_below hs.1)
      · rename_i hk hk'
        simp only [Memory.read, ih hs.2 fun c hc => hv c (by simp [hc])]
        split
        · rename_i hb; rw [if_neg (by omega)]
        · rfl

/-- A write leaves every other address alone, in any list. -/
theorem Memory.read_write_of_ne (m : Memory) {a b : Nat} (hb : b ≠ a) (v : Byte) :
    (m.write a v).read b = m.read b := by
  have hc : ∀ n : Memory, Memory.read (Memory.cell a v n) b = Memory.read n b := by
    intro n
    unfold Memory.cell
    split
    · rfl
    · simp [Memory.read, hb]
  induction m with
  | nil => exact hc []
  | cons d m ih =>
    obtain ⟨e, w⟩ := d
    simp only [Memory.write]
    split
    · exact hc _
    · split
      · rename_i h; subst h
        rw [hc]; simp [Memory.read, hb]
      · simp only [Memory.read, ih]

theorem Memory.mem_cell {a : Nat} {v : Byte} {m : Memory} {c : Host.Cell} (h : c ∈ Memory.cell a v m) :
    (c = (a, v) ∧ v ≠ Memory.unlisted a) ∨ c ∈ m := by
  unfold Memory.cell at h
  split at h
  · exact .inr h
  · rcases List.mem_cons.1 h with h | h
    · exact .inl ⟨h, ‹_›⟩
    · exact .inr h

theorem Memory.cell_wf {a : Nat} {v : Byte} {m : Memory} (ha : a < 128) (hm : m.wf) (h : ∀ c ∈ m, a < c.1) :
    (Memory.cell a v m).wf := by
  unfold Memory.cell
  split
  · exact hm
  · refine ⟨List.pairwise_cons.2 ⟨h, hm.1⟩, fun c hc => ?_⟩
    rcases List.mem_cons.1 hc with rfl | hc
    · exact ⟨ha, ‹_›⟩
    · exact hm.2 c hc

theorem Memory.mem_write {m : Memory} {a : Nat} {v : Byte} {c : Host.Cell} (h : c ∈ m.write a v) :
    c.1 = a ∨ c ∈ m := by
  induction m with
  | nil =>
    rcases Memory.mem_cell h with ⟨rfl, _⟩ | h
    · exact .inl rfl
    · exact .inr h
  | cons d m ih =>
    simp only [Memory.write] at h
    split at h
    · rcases Memory.mem_cell h with ⟨rfl, _⟩ | h
      · exact .inl rfl
      · exact .inr h
    · split at h
      · rcases Memory.mem_cell h with ⟨rfl, _⟩ | h
        · exact .inl rfl
        · exact .inr (List.mem_cons_of_mem _ h)
      · rcases List.mem_cons.1 h with rfl | h
        · exact .inr (by simp)
        · rcases ih h with h | h
          · exact .inl h
          · exact .inr (List.mem_cons_of_mem _ h)

/-- A write inside the address space keeps the canonical form. -/
theorem Memory.write_wf {m : Memory} (h : m.wf) {a : Nat} (ha : a < 128) (v : Byte) : (m.write a v).wf := by
  induction m with
  | nil => exact Memory.cell_wf ha h (by simp)
  | cons d m ih =>
    have hs := List.pairwise_cons.1 h.1
    have hm : Memory.wf m := ⟨hs.2, fun c hc => h.2 c (List.mem_cons_of_mem _ hc)⟩
    simp only [Memory.write]
    split
    · rename_i hk
      refine Memory.cell_wf ha h fun c hc => ?_
      rcases List.mem_cons.1 hc with rfl | hc
      · exact hk
      · exact lt_trans hk (hs.1 c hc)
    · split
      · rename_i hk
        exact Memory.cell_wf ha hm fun c hc => hk ▸ hs.1 c hc
      · rename_i hk hk'
        refine ⟨List.pairwise_cons.2 ⟨fun c hc => ?_, (ih hm).1⟩, fun c hc => ?_⟩
        · rcases Memory.mem_write hc with hc | hc
          · rw [hc]; omega
          · exact hs.1 c hc
        · rcases List.mem_cons.1 hc with rfl | hc
          · exact h.2 _ (by simp)
          · exact (ih hm).2 c hc

/-- The bytes of a register space given by a function. -/
theorem Memory.read_filterMap (f : Nat → Byte) (l : List Nat) (hl : l.Pairwise (· < ·)) (a : Nat) :
    Memory.read (l.filterMap fun a => if f a = Memory.unlisted a then none else some (a, f a)) a =
      if a ∈ l then f a else Memory.unlisted a := by
  induction l with
  | nil => simp [Memory.read]
  | cons b l ih =>
    have hs := List.pairwise_cons.1 hl
    by_cases hb : f b = Memory.unlisted b
    · rw [List.filterMap_cons_none (by simp [hb]), ih hs.2]
      by_cases hab : a = b
      · subst hab; simp [hb]
      · simp [hab]
    · rw [List.filterMap_cons_some (b := (b, f b)) (by simp [hb])]
      simp only [Memory.read, ih hs.2, List.mem_cons]
      by_cases hab : a = b
      · subst hab; simp
      · simp [hab]

@[simp] theorem Memory.read_ofFn (f : Nat → Byte) {a : Nat} (ha : a < 128) : (Memory.ofFn f).read a = f a := by
  rw [Memory.ofFn, Memory.read_filterMap f _ List.pairwise_lt_range, if_pos (by simpa using ha)]

theorem Memory.ofFn_wf (f : Nat → Byte) : (Memory.ofFn f).wf := by
  constructor
  · refine List.Pairwise.filterMap (R := (· < ·)) _ ?_ List.pairwise_lt_range
    intro a b hab c hc d hd
    simp only [ite_eq_iff, reduceCtorEq, and_false, false_or, Option.some.injEq] at hc hd
    rw [← hc.2, ← hd.2]; exact hab
  · intro c hc
    obtain ⟨a, ha, hc⟩ := List.mem_filterMap.1 hc
    simp only [ite_eq_iff, reduceCtorEq, and_false, false_or, Option.some.injEq] at hc
    obtain ⟨hne, rfl⟩ := hc
    exact ⟨by simpa using ha, hne⟩

/-- Two register spaces in canonical form that read alike are the same data. -/
theorem Memory.ext {m n : Memory} (hm : m.wf) (hn : n.wf) (h : ∀ a, m.read a = n.read a) : m = n := by
  induction m generalizing n with
  | nil =>
    cases n with
    | nil => rfl
    | cons d n =>
      have := h d.1
      simp only [Memory.read, if_true] at this
      exact absurd this.symm (hn.2 d (by simp)).2
  | cons c m ih =>
    have hsm := List.pairwise_cons.1 hm.1
    have wm : Memory.wf m := ⟨hsm.2, fun x hx => hm.2 x (List.mem_cons_of_mem _ hx)⟩
    cases n with
    | nil =>
      have := h c.1
      simp only [Memory.read, if_true] at this
      exact absurd this (hm.2 c (by simp)).2
    | cons d n =>
      have hsn := List.pairwise_cons.1 hn.1
      have wn : Memory.wf n := ⟨hsn.2, fun x hx => hn.2 x (List.mem_cons_of_mem _ hx)⟩
      have hcd : c.1 = d.1 := by
        rcases lt_trichotomy c.1 d.1 with hlt | heq | hgt
        · have h1 := h c.1
          rw [Memory.read_below (m := d :: n) (by
            intro x hx
            rcases List.mem_cons.1 hx with rfl | hx
            · exact hlt
            · exact lt_trans hlt (hsn.1 x hx))] at h1
          simp only [Memory.read, if_true] at h1
          exact absurd h1 (hm.2 c (by simp)).2
        · exact heq
        · have h1 := h d.1
          rw [Memory.read_below (m := c :: m) (by
            intro x hx
            rcases List.mem_cons.1 hx with rfl | hx
            · exact hgt
            · exact lt_trans hgt (hsm.1 x hx))] at h1
          simp only [Memory.read, if_true] at h1
          exact absurd h1.symm (hn.2 d (by simp)).2
      obtain ⟨k, v⟩ := c
      obtain ⟨k', w⟩ := d
      simp only at hcd; subst hcd
      have hvw := h k
      simp only [Memory.read, if_true] at hvw
      rw [hvw, ih wm wn]
      intro a
      by_cases hak : a = k
      · subst hak; rw [Memory.read_below hsm.1, Memory.read_below hsn.1]
      · have := h a
        simpa only [Memory.read, if_neg hak] using this

end Sys2Proof.Machine
end

