-- ==== Sys2Proof/Laws/Controller.lean ====
section
/-! SUPPORT. The reference controller: registers after a write, and every operation of the controller keeps
the register space in its canonical form. -/

namespace Sys2Proof.Machine

/-! ## wr -/

@[simp] theorem Controller.wr_pst (c : Controller) (a : Nat) (v : Byte) : (c.wr a v).pst = c.pst := rfl
@[simp] theorem Controller.wr_rxclr (c : Controller) (a : Nat) (v : Byte) : (c.wr a v).rxclr = c.rxclr := rfl
@[simp] theorem Controller.wr_settling (c : Controller) (a : Nat) (v : Byte) :
    (c.wr a v).settling = c.settling := rfl
@[simp] theorem Controller.wr_settleLeft (c : Controller) (a : Nat) (v : Byte) :
    (c.wr a v).settleLeft = c.settleLeft := rfl
@[simp] theorem Controller.wr_shiftIn (c : Controller) (a : Nat) (v : Byte) :
    (c.wr a v).shiftIn = c.shiftIn := rfl
@[simp] theorem Controller.wr_edges (c : Controller) (a : Nat) (v : Byte) : (c.wr a v).edges = c.edges := rfl
@[simp] theorem Controller.wr_outByte (c : Controller) (a : Nat) (v : Byte) :
    (c.wr a v).outByte = c.outByte := rfl
@[simp] theorem Controller.wr_outside (c : Controller) (a : Nat) (v : Byte) :
    (c.wr a v).outside = c.outside := rfl

/-- A register after a write. -/
theorem Controller.rd_wr {c : Controller} (h : c.reg.wf) (a : Nat) (v : Byte) (b : Nat) :
    (c.wr a v).rd b = if b = a then v else c.rd b := Memory.read_write h a v b

theorem Controller.rd_wr_of_ne (c : Controller) {a b : Nat} (hb : b ≠ a) (v : Byte) : (c.wr a v).rd b = c.rd b :=
  Memory.read_write_of_ne c.reg hb v

theorem Controller.wr_wf {c : Controller} (h : c.reg.wf) {a : Nat} (ha : a < 128) (v : Byte) :
    (c.wr a v).reg.wf := Memory.write_wf h ha v

theorem Controller.wrSeq_wf {c : Controller} (h : c.reg.wf) {a : Nat} {vs : List Byte}
    (ha : a + vs.length ≤ 128) : (c.wrSeq a vs).reg.wf := by
  induction vs generalizing c a with
  | nil => exact h
  | cons v vs ih =>
    rw [List.length_cons] at ha
    exact ih (Controller.wr_wf h (by omega) v) (by omega)

/-- Only the registers change in a sequence of writes. -/
theorem Controller.wrSeq_eq (c : Controller) (a : Nat) (vs : List Byte) :
    c.wrSeq a vs = { c with reg := (c.wrSeq a vs).reg } := by
  induction vs generalizing c a with
  | nil => rfl
  | cons v vs ih => rw [Controller.wrSeq, ih]; rfl

/-- A register after a sequence of writes to ascending addresses. -/
theorem Controller.rd_wrSeq {c : Controller} (h : c.reg.wf) {a : Nat} {vs : List Byte}
    (ha : a + vs.length ≤ 128) (b : Nat) :
    (c.wrSeq a vs).rd b = if hb : a ≤ b ∧ b - a < vs.length then vs[b - a] else c.rd b := by
  induction vs generalizing c a with
  | nil => simp [Controller.wrSeq]
  | cons v vs ih =>
    rw [List.length_cons] at ha
    rw [Controller.wrSeq, ih (Controller.wr_wf h (by omega) v) (by omega), Controller.rd_wr h]
    by_cases hab : b = a
    · subst hab; simp
    · by_cases hle : a ≤ b
      · have e : b - a = (b - (a + 1)) + 1 := by omega
        have hle' : a + 1 ≤ b := by omega
        simp only [hle, hle', true_and, List.length_cons, e, Nat.add_lt_add_iff_right, if_neg hab,
          List.getElem_cons_succ]
      · have hle' : ¬ a + 1 ≤ b := by omega
        simp [hle, hle', hab]

/-! ## note -/

@[simp] theorem Controller.note_reg (c : Controller) (w : Outside) : (c.note w).reg = c.reg := rfl
@[simp] theorem Controller.note_rd (c : Controller) (w : Outside) (a : Nat) : (c.note w).rd a = c.rd a := rfl
@[simp] theorem Controller.note_pst (c : Controller) (w : Outside) : (c.note w).pst = c.pst := rfl
@[simp] theorem Controller.note_settling (c : Controller) (w : Outside) :
    (c.note w).settling = c.settling := rfl

@[simp] theorem Controller.noteWrite_reg (c : Controller) (a : RegAddr) : (c.noteWrite a).reg = c.reg := by
  unfold Controller.noteWrite Controller.noteCanctrl
  repeat' split
  all_goals rfl

/-! ## Every operation keeps the canonical form -/

theorem Controller.regWrite_wf {c : Controller} (h : c.reg.wf) (a : RegAddr) (mask v : Byte) :
    (c.regWrite a mask v).reg.wf := by
  unfold Controller.regWrite
  split
  · exact h
  · split
    · exact h
    · split
      · exact h
      · split
        · exact Controller.wr_wf h (by decide) _
        · rw [Controller.noteWrite_reg]; exact Controller.wr_wf h a.isLt _

theorem Controller.requestToSend_wf {c : Controller} (h : c.reg.wf) : c.requestToSend.reg.wf := by
  unfold Controller.requestToSend
  split
  · exact h
  · exact Controller.wr_wf h (by decide) _

theorem Controller.opcode_wf {c : Controller} (h : c.reg.wf) (ib : Byte) : (c.opcode ib).reg.wf := by
  unfold Controller.opcode
  repeat' split
  all_goals first | exact h | exact Controller.requestToSend_wf h

theorem Controller.address_wf {c : Controller} (h : c.reg.wf) (ib : Byte) (p : Parser) :
    (c.address ib p).reg.wf := by
  unfold Controller.address
  split <;> exact h

theorem Controller.byteStep_wf {c : Controller} (h : c.reg.wf) (ib : Byte) : (c.byteStep ib).reg.wf := by
  unfold Controller.byteStep
  split
  all_goals first
    | exact h
    | exact Controller.opcode_wf h ib
    | exact Controller.address_wf h ib _
    | exact Controller.regWrite_wf h _ _ _

theorem Controller.select_wf {c : Controller} (h : c.reg.wf) : c.select.reg.wf := h

theorem Controller.release_wf {c : Controller} (h : c.reg.wf) : c.release.reg.wf := by
  unfold Controller.release
  split
  · exact Controller.wr_wf h (by decide) _
  · exact h

theorem Controller.clockRise_wf {c : Controller} (h : c.reg.wf) (b : Level) : (c.clockRise b).reg.wf := by
  unfold Controller.clockRise
  simp only
  split
  · refine Controller.byteStep_wf ?_ _
    exact h
  · exact h

theorem Controller.nextByte_wf {c : Controller} (h : c.reg.wf) : c.nextByte.reg.wf := h

theorem Controller.finishReset_wf {c : Controller} (h : c.reg.wf) (fill : Nat → Byte) :
    (c.finishReset fill).reg.wf := by
  unfold Controller.finishReset
  split
  · exact Memory.ofFn_wf _
  · exact h

theorem Controller.elapse_wf {c : Controller} (h : c.reg.wf) (fill : Nat → Byte) (n : Nat) :
    (c.elapse fill n).reg.wf := by
  unfold Controller.elapse
  split
  · exact Controller.finishReset_wf h fill
  · exact h

theorem Controller.changeMode_wf {c : Controller} (h : c.reg.wf) : c.changeMode.reg.wf := by
  unfold Controller.changeMode
  split
  · exact Controller.wr_wf h (by decide) _
  · exact h

theorem Controller.sent_wf {c : Controller} (h : c.reg.wf) : c.sent.reg.wf :=
  Controller.wr_wf (Controller.wr_wf h (by decide) _) (by decide) _

@[simp] theorem Controller.noteBus_reg (c : Controller) : c.noteBus.reg = c.reg := by
  unfold Controller.noteBus
  split
  · rfl
  · split <;> rfl

theorem Controller.arrive_wf {c : Controller} (h : c.reg.wf) {image : List Byte} (hl : image.length = 13) :
    (c.arrive image).reg.wf := by
  unfold Controller.arrive
  split
  · exact Controller.wr_wf h (by decide) _
  · exact Controller.wr_wf (Controller.wrSeq_wf h (by omega)) (by decide) _

@[simp] theorem Controller.loopImage_length (fill : Nat → Byte) (c : Controller) :
    (c.loopImage fill).length = 13 := by simp [Controller.loopImage]

theorem Controller.fire_wf {c : Controller} (h : c.reg.wf) (fill : Nat → Byte) (m : EnvMove) :
    (c.fire fill m).reg.wf := by
  cases m with
  | finishReset => exact Controller.finishReset_wf h fill
  | changeMode => exact Controller.changeMode_wf h
  | deliverLoopback =>
    show (c.deliverLoopback fill).reg.wf
    unfold Controller.deliverLoopback
    split
    · exact Controller.sent_wf (Controller.arrive_wf h (by simp))
    · exact h
  | sendNormal =>
    show c.sendNormal.reg.wf
    unfold Controller.sendNormal
    split
    · exact Controller.sent_wf (by simpa using h)
    · exact h
  | receive image =>
    show (c.receiveNormal image.toList).reg.wf
    unfold Controller.receiveNormal
    split
    · exact Controller.arrive_wf h (by simp)
    · exact h

end Sys2Proof.Machine
end

