-- ==== Sys2Proof/Laws/State.lean ====
section
/-! SUPPORT. One lemma per field per update of `State`, so that no later proof unfolds a record update. -/

namespace Sys2Proof.Machine

/-! ## enter -/

@[simp] theorem State.enter_dirSck (s : State) (l : Seq) : (s.enter l).dirSck = s.dirSck := rfl
@[simp] theorem State.enter_dirCs (s : State) (l : Seq) : (s.enter l).dirCs = s.dirCs := rfl
@[simp] theorem State.enter_dirMosi (s : State) (l : Seq) : (s.enter l).dirMosi = s.dirMosi := rfl
@[simp] theorem State.enter_dirMiso (s : State) (l : Seq) : (s.enter l).dirMiso = s.dirMiso := rfl
@[simp] theorem State.enter_pinSck (s : State) (l : Seq) : (s.enter l).pinSck = s.pinSck := rfl
@[simp] theorem State.enter_pinCs (s : State) (l : Seq) : (s.enter l).pinCs = s.pinCs := rfl
@[simp] theorem State.enter_pinMosi (s : State) (l : Seq) : (s.enter l).pinMosi = s.pinMosi := rfl
@[simp] theorem State.enter_inited (s : State) (l : Seq) : (s.enter l).inited = s.inited := rfl
@[simp] theorem State.enter_seq (s : State) (l : Seq) : (s.enter l).seq = l := rfl
@[simp] theorem State.enter_scratch (s : State) (l : Seq) : (s.enter l).scratch = s.scratch := rfl
@[simp] theorem State.enter_trace (s : State) (l : Seq) : (s.enter l).trace = s.trace := rfl
@[simp] theorem State.enter_ret (s : State) (l : Seq) : (s.enter l).ret = s.ret := rfl
@[simp] theorem State.enter_port (s : State) (l : Seq) : (s.enter l).port = s.port := rfl
@[simp] theorem State.enter_cfg (s : State) (l : Seq) : (s.enter l).cfg = s.cfg := rfl
@[simp] theorem State.enter_env (s : State) (l : Seq) : (s.enter l).env = s.env := rfl
@[simp] theorem State.enter_samples (s : State) (l : Seq) : (s.enter l).samples = s.samples := rfl
@[simp] theorem State.enter_moves (s : State) (l : Seq) : (s.enter l).moves = s.moves := rfl
@[simp] theorem State.enter_ctl (s : State) (l : Seq) : (s.enter l).ctl = s.ctl := rfl
@[simp] theorem State.enter_freeIx (s : State) (l : Seq) : (s.enter l).freeIx = s.freeIx := rfl

/-! ## setTxsr -/

@[simp] theorem State.setTxsr_dirSck (s : State) (v : Byte) : (s.setTxsr v).dirSck = s.dirSck := rfl
@[simp] theorem State.setTxsr_dirCs (s : State) (v : Byte) : (s.setTxsr v).dirCs = s.dirCs := rfl
@[simp] theorem State.setTxsr_dirMosi (s : State) (v : Byte) : (s.setTxsr v).dirMosi = s.dirMosi := rfl
@[simp] theorem State.setTxsr_dirMiso (s : State) (v : Byte) : (s.setTxsr v).dirMiso = s.dirMiso := rfl
@[simp] theorem State.setTxsr_pinSck (s : State) (v : Byte) : (s.setTxsr v).pinSck = s.pinSck := rfl
@[simp] theorem State.setTxsr_pinCs (s : State) (v : Byte) : (s.setTxsr v).pinCs = s.pinCs := rfl
@[simp] theorem State.setTxsr_pinMosi (s : State) (v : Byte) : (s.setTxsr v).pinMosi = s.pinMosi := rfl
@[simp] theorem State.setTxsr_inited (s : State) (v : Byte) : (s.setTxsr v).inited = s.inited := rfl
@[simp] theorem State.setTxsr_seq (s : State) (v : Byte) : (s.setTxsr v).seq = s.seq := rfl
@[simp] theorem State.setTxsr_txsr (s : State) (v : Byte) : (s.setTxsr v).scratch.txsr = v := rfl
@[simp] theorem State.setTxsr_rxsr (s : State) (v : Byte) : (s.setTxsr v).scratch.rxsr = s.scratch.rxsr := rfl
@[simp] theorem State.setTxsr_bitcnt (s : State) (v : Byte) : (s.setTxsr v).scratch.bitcnt = s.scratch.bitcnt := rfl
@[simp] theorem State.setTxsr_fb (s : State) (v : Byte) : (s.setTxsr v).scratch.fb = s.scratch.fb := rfl
@[simp] theorem State.setTxsr_regval (s : State) (v : Byte) : (s.setTxsr v).scratch.regval = s.scratch.regval := rfl
@[simp] theorem State.setTxsr_tmo (s : State) (v : Byte) : (s.setTxsr v).scratch.tmo = s.scratch.tmo := rfl
@[simp] theorem State.setTxsr_target (s : State) (v : Byte) : (s.setTxsr v).scratch.target = s.scratch.target := rfl
@[simp] theorem State.setTxsr_trace (s : State) (v : Byte) : (s.setTxsr v).trace = s.trace := rfl
@[simp] theorem State.setTxsr_ret (s : State) (v : Byte) : (s.setTxsr v).ret = s.ret := rfl
@[simp] theorem State.setTxsr_port (s : State) (v : Byte) : (s.setTxsr v).port = s.port := rfl
@[simp] theorem State.setTxsr_cfg (s : State) (v : Byte) : (s.setTxsr v).cfg = s.cfg := rfl
@[simp] theorem State.setTxsr_env (s : State) (v : Byte) : (s.setTxsr v).env = s.env := rfl
@[simp] theorem State.setTxsr_samples (s : State) (v : Byte) : (s.setTxsr v).samples = s.samples := rfl
@[simp] theorem State.setTxsr_moves (s : State) (v : Byte) : (s.setTxsr v).moves = s.moves := rfl
@[simp] theorem State.setTxsr_ctl (s : State) (v : Byte) : (s.setTxsr v).ctl = s.ctl := rfl
@[simp] theorem State.setTxsr_freeIx (s : State) (v : Byte) : (s.setTxsr v).freeIx = s.freeIx := rfl

/-! ## clearRxsr -/

@[simp] theorem State.clearRxsr_dirSck (s : State) : (s.clearRxsr).dirSck = s.dirSck := rfl
@[simp] theorem State.clearRxsr_dirCs (s : State) : (s.clearRxsr).dirCs = s.dirCs := rfl
@[simp] theorem State.clearRxsr_dirMosi (s : State) : (s.clearRxsr).dirMosi = s.dirMosi := rfl
@[simp] theorem State.clearRxsr_dirMiso (s : State) : (s.clearRxsr).dirMiso = s.dirMiso := rfl
@[simp] theorem State.clearRxsr_pinSck (s : State) : (s.clearRxsr).pinSck = s.pinSck := rfl
@[simp] theorem State.clearRxsr_pinCs (s : State) : (s.clearRxsr).pinCs = s.pinCs := rfl
@[simp] theorem State.clearRxsr_pinMosi (s : State) : (s.clearRxsr).pinMosi = s.pinMosi := rfl
@[simp] theorem State.clearRxsr_inited (s : State) : (s.clearRxsr).inited = s.inited := rfl
@[simp] theorem State.clearRxsr_seq (s : State) : (s.clearRxsr).seq = s.seq := rfl
@[simp] theorem State.clearRxsr_txsr (s : State) : (s.clearRxsr).scratch.txsr = s.scratch.txsr := rfl
@[simp] theorem State.clearRxsr_rxsr (s : State) : (s.clearRxsr).scratch.rxsr = 0 := rfl
@[simp] theorem State.clearRxsr_bitcnt (s : State) : (s.clearRxsr).scratch.bitcnt = s.scratch.bitcnt := rfl
@[simp] theorem State.clearRxsr_fb (s : State) : (s.clearRxsr).scratch.fb = s.scratch.fb := rfl
@[simp] theorem State.clearRxsr_regval (s : State) : (s.clearRxsr).scratch.regval = s.scratch.regval := rfl
@[simp] theorem State.clearRxsr_tmo (s : State) : (s.clearRxsr).scratch.tmo = s.scratch.tmo := rfl
@[simp] theorem State.clearRxsr_target (s : State) : (s.clearRxsr).scratch.target = s.scratch.target := rfl
@[simp] theorem State.clearRxsr_trace (s : State) : (s.clearRxsr).trace = s.trace := rfl
@[simp] theorem State.clearRxsr_ret (s : State) : (s.clearRxsr).ret = s.ret := rfl
@[simp] theorem State.clearRxsr_port (s : State) : (s.clearRxsr).port = s.port := rfl
@[simp] theorem State.clearRxsr_cfg (s : State) : (s.clearRxsr).cfg = s.cfg := rfl
@[simp] theorem State.clearRxsr_env (s : State) : (s.clearRxsr).env = s.env := rfl
@[simp] theorem State.clearRxsr_samples (s : State) : (s.clearRxsr).samples = s.samples := rfl
@[simp] theorem State.clearRxsr_moves (s : State) : (s.clearRxsr).moves = s.moves := rfl
@[simp] theorem State.clearRxsr_ctl (s : State) : (s.clearRxsr).ctl = s.ctl := rfl
@[simp] theorem State.clearRxsr_freeIx (s : State) : (s.clearRxsr).freeIx = s.freeIx := rfl

/-! ## setBitcnt -/

@[simp] theorem State.setBitcnt_dirSck (s : State) (i : Fin 8) : (s.setBitcnt i).dirSck = s.dirSck := rfl
@[simp] theorem State.setBitcnt_dirCs (s : State) (i : Fin 8) : (s.setBitcnt i).dirCs = s.dirCs := rfl
@[simp] theorem State.setBitcnt_dirMosi (s : State) (i : Fin 8) : (s.setBitcnt i).dirMosi = s.dirMosi := rfl
@[simp] theorem State.setBitcnt_dirMiso (s : State) (i : Fin 8) : (s.setBitcnt i).dirMiso = s.dirMiso := rfl
@[simp] theorem State.setBitcnt_pinSck (s : State) (i : Fin 8) : (s.setBitcnt i).pinSck = s.pinSck := rfl
@[simp] theorem State.setBitcnt_pinCs (s : State) (i : Fin 8) : (s.setBitcnt i).pinCs = s.pinCs := rfl
@[simp] theorem State.setBitcnt_pinMosi (s : State) (i : Fin 8) : (s.setBitcnt i).pinMosi = s.pinMosi := rfl
@[simp] theorem State.setBitcnt_inited (s : State) (i : Fin 8) : (s.setBitcnt i).inited = s.inited := rfl
@[simp] theorem State.setBitcnt_seq (s : State) (i : Fin 8) : (s.setBitcnt i).seq = s.seq := rfl
@[simp] theorem State.setBitcnt_txsr (s : State) (i : Fin 8) : (s.setBitcnt i).scratch.txsr = s.scratch.txsr := rfl
@[simp] theorem State.setBitcnt_rxsr (s : State) (i : Fin 8) : (s.setBitcnt i).scratch.rxsr = s.scratch.rxsr := rfl
@[simp] theorem State.setBitcnt_bitcnt (s : State) (i : Fin 8) : (s.setBitcnt i).scratch.bitcnt = i := rfl
@[simp] theorem State.setBitcnt_fb (s : State) (i : Fin 8) : (s.setBitcnt i).scratch.fb = s.scratch.fb := rfl
@[simp] theorem State.setBitcnt_regval (s : State) (i : Fin 8) : (s.setBitcnt i).scratch.regval = s.scratch.regval := rfl
@[simp] theorem State.setBitcnt_tmo (s : State) (i : Fin 8) : (s.setBitcnt i).scratch.tmo = s.scratch.tmo := rfl
@[simp] theorem State.setBitcnt_target (s : State) (i : Fin 8) : (s.setBitcnt i).scratch.target = s.scratch.target := rfl
@[simp] theorem State.setBitcnt_trace (s : State) (i : Fin 8) : (s.setBitcnt i).trace = s.trace := rfl
@[simp] theorem State.setBitcnt_ret (s : State) (i : Fin 8) : (s.setBitcnt i).ret = s.ret := rfl
@[simp] theorem State.setBitcnt_port (s : State) (i : Fin 8) : (s.setBitcnt i).port = s.port := rfl
@[simp] theorem State.setBitcnt_cfg (s : State) (i : Fin 8) : (s.setBitcnt i).cfg = s.cfg := rfl
@[simp] theorem State.setBitcnt_env (s : State) (i : Fin 8) : (s.setBitcnt i).env = s.env := rfl
@[simp] theorem State.setBitcnt_samples (s : State) (i : Fin 8) : (s.setBitcnt i).samples = s.samples := rfl
@[simp] theorem State.setBitcnt_moves (s : State) (i : Fin 8) : (s.setBitcnt i).moves = s.moves := rfl
@[simp] theorem State.setBitcnt_ctl (s : State) (i : Fin 8) : (s.setBitcnt i).ctl = s.ctl := rfl
@[simp] theorem State.setBitcnt_freeIx (s : State) (i : Fin 8) : (s.setBitcnt i).freeIx = s.freeIx := rfl

/-! ## setRxsrBit -/

@[simp] theorem State.setRxsrBit_dirSck (s : State) (i : Fin 8) (b : Level) : (s.setRxsrBit i b).dirSck = s.dirSck := rfl
@[simp] theorem State.setRxsrBit_dirCs (s : State) (i : Fin 8) (b : Level) : (s.setRxsrBit i b).dirCs = s.dirCs := rfl
@[simp] theorem State.setRxsrBit_dirMosi (s : State) (i : Fin 8) (b : Level) : (s.setRxsrBit i b).dirMosi = s.dirMosi := rfl
@[simp] theorem State.setRxsrBit_dirMiso (s : State) (i : Fin 8) (b : Level) : (s.setRxsrBit i b).dirMiso = s.dirMiso := rfl
@[simp] theorem State.setRxsrBit_pinSck (s : State) (i : Fin 8) (b : Level) : (s.setRxsrBit i b).pinSck = s.pinSck := rfl
@[simp] theorem State.setRxsrBit_pinCs (s : State) (i : Fin 8) (b : Level) : (s.setRxsrBit i b).pinCs = s.pinCs := rfl
@[simp] theorem State.setRxsrBit_pinMosi (s : State) (i : Fin 8) (b : Level) : (s.setRxsrBit i b).pinMosi = s.pinMosi := rfl
@[simp] theorem State.setRxsrBit_inited (s : State) (i : Fin 8) (b : Level) : (s.setRxsrBit i b).inited = s.inited := rfl
@[simp] theorem State.setRxsrBit_seq (s : State) (i : Fin 8) (b : Level) : (s.setRxsrBit i b).seq = s.seq := rfl
@[simp] theorem State.setRxsrBit_txsr (s : State) (i : Fin 8) (b : Level) : (s.setRxsrBit i b).scratch.txsr = s.scratch.txsr := rfl
@[simp] theorem State.setRxsrBit_rxsr (s : State) (i : Fin 8) (b : Level) : (s.setRxsrBit i b).scratch.rxsr = setBit s.scratch.rxsr i.val b := rfl
@[simp] theorem State.setRxsrBit_bitcnt (s : State) (i : Fin 8) (b : Level) : (s.setRxsrBit i b).scratch.bitcnt = s.scratch.bitcnt := rfl
@[simp] theorem State.setRxsrBit_fb (s : State) (i : Fin 8) (b : Level) : (s.setRxsrBit i b).scratch.fb = s.scratch.fb := rfl
@[simp] theorem State.setRxsrBit_regval (s : State) (i : Fin 8) (b : Level) : (s.setRxsrBit i b).scratch.regval = s.scratch.regval := rfl
@[simp] theorem State.setRxsrBit_tmo (s : State) (i : Fin 8) (b : Level) : (s.setRxsrBit i b).scratch.tmo = s.scratch.tmo := rfl
@[simp] theorem State.setRxsrBit_target (s : State) (i : Fin 8) (b : Level) : (s.setRxsrBit i b).scratch.target = s.scratch.target := rfl
@[simp] theorem State.setRxsrBit_trace (s : State) (i : Fin 8) (b : Level) : (s.setRxsrBit i b).trace = s.trace := rfl
@[simp] theorem State.setRxsrBit_ret (s : State) (i : Fin 8) (b : Level) : (s.setRxsrBit i b).ret = s.ret := rfl
@[simp] theorem State.setRxsrBit_port (s : State) (i : Fin 8) (b : Level) : (s.setRxsrBit i b).port = s.port := rfl
@[simp] theorem State.setRxsrBit_cfg (s : State) (i : Fin 8) (b : Level) : (s.setRxsrBit i b).cfg = s.cfg := rfl
@[simp] theorem State.setRxsrBit_env (s : State) (i : Fin 8) (b : Level) : (s.setRxsrBit i b).env = s.env := rfl
@[simp] theorem State.setRxsrBit_samples (s : State) (i : Fin 8) (b : Level) : (s.setRxsrBit i b).samples = s.samples := rfl
@[simp] theorem State.setRxsrBit_moves (s : State) (i : Fin 8) (b : Level) : (s.setRxsrBit i b).moves = s.moves := rfl
@[simp] theorem State.setRxsrBit_ctl (s : State) (i : Fin 8) (b : Level) : (s.setRxsrBit i b).ctl = s.ctl := rfl
@[simp] theorem State.setRxsrBit_freeIx (s : State) (i : Fin 8) (b : Level) : (s.setRxsrBit i b).freeIx = s.freeIx := rfl

/-! ## setRegval -/

@[simp] theorem State.setRegval_dirSck (s : State) (v : Byte) : (s.setRegval v).dirSck = s.dirSck := rfl
@[simp] theorem State.setRegval_dirCs (s : State) (v : Byte) : (s.setRegval v).dirCs = s.dirCs := rfl
@[simp] theorem State.setRegval_dirMosi (s : State) (v : Byte) : (s.setRegval v).dirMosi = s.dirMosi := rfl
@[simp] theorem State.setRegval_dirMiso (s : State) (v : Byte) : (s.setRegval v).dirMiso = s.dirMiso := rfl
@[simp] theorem State.setRegval_pinSck (s : State) (v : Byte) : (s.setRegval v).pinSck = s.pinSck := rfl
@[simp] theorem State.setRegval_pinCs (s : State) (v : Byte) : (s.setRegval v).pinCs = s.pinCs := rfl
@[simp] theorem State.setRegval_pinMosi (s : State) (v : Byte) : (s.setRegval v).pinMosi = s.pinMosi := rfl
@[simp] theorem State.setRegval_inited (s : State) (v : Byte) : (s.setRegval v).inited = s.inited := rfl
@[simp] theorem State.setRegval_seq (s : State) (v : Byte) : (s.setRegval v).seq = s.seq := rfl
@[simp] theorem State.setRegval_txsr (s : State) (v : Byte) : (s.setRegval v).scratch.txsr = s.scratch.txsr := rfl
@[simp] theorem State.setRegval_rxsr (s : State) (v : Byte) : (s.setRegval v).scratch.rxsr = s.scratch.rxsr := rfl
@[simp] theorem State.setRegval_bitcnt (s : State) (v : Byte) : (s.setRegval v).scratch.bitcnt = s.scratch.bitcnt := rfl
@[simp] theorem State.setRegval_fb (s : State) (v : Byte) : (s.setRegval v).scratch.fb = s.scratch.fb := rfl
@[simp] theorem State.setRegval_regval (s : State) (v : Byte) : (s.setRegval v).scratch.regval = v := rfl
@[simp] theorem State.setRegval_tmo (s : State) (v : Byte) : (s.setRegval v).scratch.tmo = s.scratch.tmo := rfl
@[simp] theorem State.setRegval_target (s : State) (v : Byte) : (s.setRegval v).scratch.target = s.scratch.target := rfl
@[simp] theorem State.setRegval_trace (s : State) (v : Byte) : (s.setRegval v).trace = s.trace := rfl
@[simp] theorem State.setRegval_ret (s : State) (v : Byte) : (s.setRegval v).ret = s.ret := rfl
@[simp] theorem State.setRegval_port (s : State) (v : Byte) : (s.setRegval v).port = s.port := rfl
@[simp] theorem State.setRegval_cfg (s : State) (v : Byte) : (s.setRegval v).cfg = s.cfg := rfl
@[simp] theorem State.setRegval_env (s : State) (v : Byte) : (s.setRegval v).env = s.env := rfl
@[simp] theorem State.setRegval_samples (s : State) (v : Byte) : (s.setRegval v).samples = s.samples := rfl
@[simp] theorem State.setRegval_moves (s : State) (v : Byte) : (s.setRegval v).moves = s.moves := rfl
@[simp] theorem State.setRegval_ctl (s : State) (v : Byte) : (s.setRegval v).ctl = s.ctl := rfl
@[simp] theorem State.setRegval_freeIx (s : State) (v : Byte) : (s.setRegval v).freeIx = s.freeIx := rfl

/-! ## setFb -/

@[simp] theorem State.setFb_dirSck (s : State) (f : CanFrame) : (s.setFb f).dirSck = s.dirSck := rfl
@[simp] theorem State.setFb_dirCs (s : State) (f : CanFrame) : (s.setFb f).dirCs = s.dirCs := rfl
@[simp] theorem State.setFb_dirMosi (s : State) (f : CanFrame) : (s.setFb f).dirMosi = s.dirMosi := rfl
@[simp] theorem State.setFb_dirMiso (s : State) (f : CanFrame) : (s.setFb f).dirMiso = s.dirMiso := rfl
@[simp] theorem State.setFb_pinSck (s : State) (f : CanFrame) : (s.setFb f).pinSck = s.pinSck := rfl
@[simp] theorem State.setFb_pinCs (s : State) (f : CanFrame) : (s.setFb f).pinCs = s.pinCs := rfl
@[simp] theorem State.setFb_pinMosi (s : State) (f : CanFrame) : (s.setFb f).pinMosi = s.pinMosi := rfl
@[simp] theorem State.setFb_inited (s : State) (f : CanFrame) : (s.setFb f).inited = s.inited := rfl
@[simp] theorem State.setFb_seq (s : State) (f : CanFrame) : (s.setFb f).seq = s.seq := rfl
@[simp] theorem State.setFb_txsr (s : State) (f : CanFrame) : (s.setFb f).scratch.txsr = s.scratch.txsr := rfl
@[simp] theorem State.setFb_rxsr (s : State) (f : CanFrame) : (s.setFb f).scratch.rxsr = s.scratch.rxsr := rfl
@[simp] theorem State.setFb_bitcnt (s : State) (f : CanFrame) : (s.setFb f).scratch.bitcnt = s.scratch.bitcnt := rfl
@[simp] theorem State.setFb_fb (s : State) (f : CanFrame) : (s.setFb f).scratch.fb = f := rfl
@[simp] theorem State.setFb_regval (s : State) (f : CanFrame) : (s.setFb f).scratch.regval = s.scratch.regval := rfl
@[simp] theorem State.setFb_tmo (s : State) (f : CanFrame) : (s.setFb f).scratch.tmo = s.scratch.tmo := rfl
@[simp] theorem State.setFb_target (s : State) (f : CanFrame) : (s.setFb f).scratch.target = s.scratch.target := rfl
@[simp] theorem State.setFb_trace (s : State) (f : CanFrame) : (s.setFb f).trace = s.trace := rfl
@[simp] theorem State.setFb_ret (s : State) (f : CanFrame) : (s.setFb f).ret = s.ret := rfl
@[simp] theorem State.setFb_port (s : State) (f : CanFrame) : (s.setFb f).port = s.port := rfl
@[simp] theorem State.setFb_cfg (s : State) (f : CanFrame) : (s.setFb f).cfg = s.cfg := rfl
@[simp] theorem State.setFb_env (s : State) (f : CanFrame) : (s.setFb f).env = s.env := rfl
@[simp] theorem State.setFb_samples (s : State) (f : CanFrame) : (s.setFb f).samples = s.samples := rfl
@[simp] theorem State.setFb_moves (s : State) (f : CanFrame) : (s.setFb f).moves = s.moves := rfl
@[simp] theorem State.setFb_ctl (s : State) (f : CanFrame) : (s.setFb f).ctl = s.ctl := rfl
@[simp] theorem State.setFb_freeIx (s : State) (f : CanFrame) : (s.setFb f).freeIx = s.freeIx := rfl

/-! ## setTmo -/

@[simp] theorem State.setTmo_dirSck (s : State) (n : Nat) : (s.setTmo n).dirSck = s.dirSck := rfl
@[simp] theorem State.setTmo_dirCs (s : State) (n : Nat) : (s.setTmo n).dirCs = s.dirCs := rfl
@[simp] theorem State.setTmo_dirMosi (s : State) (n : Nat) : (s.setTmo n).dirMosi = s.dirMosi := rfl
@[simp] theorem State.setTmo_dirMiso (s : State) (n : Nat) : (s.setTmo n).dirMiso = s.dirMiso := rfl
@[simp] theorem State.setTmo_pinSck (s : State) (n : Nat) : (s.setTmo n).pinSck = s.pinSck := rfl
@[simp] theorem State.setTmo_pinCs (s : State) (n : Nat) : (s.setTmo n).pinCs = s.pinCs := rfl
@[simp] theorem State.setTmo_pinMosi (s : State) (n : Nat) : (s.setTmo n).pinMosi = s.pinMosi := rfl
@[simp] theorem State.setTmo_inited (s : State) (n : Nat) : (s.setTmo n).inited = s.inited := rfl
@[simp] theorem State.setTmo_seq (s : State) (n : Nat) : (s.setTmo n).seq = s.seq := rfl
@[simp] theorem State.setTmo_txsr (s : State) (n : Nat) : (s.setTmo n).scratch.txsr = s.scratch.txsr := rfl
@[simp] theorem State.setTmo_rxsr (s : State) (n : Nat) : (s.setTmo n).scratch.rxsr = s.scratch.rxsr := rfl
@[simp] theorem State.setTmo_bitcnt (s : State) (n : Nat) : (s.setTmo n).scratch.bitcnt = s.scratch.bitcnt := rfl
@[simp] theorem State.setTmo_fb (s : State) (n : Nat) : (s.setTmo n).scratch.fb = s.scratch.fb := rfl
@[simp] theorem State.setTmo_regval (s : State) (n : Nat) : (s.setTmo n).scratch.regval = s.scratch.regval := rfl
@[simp] theorem State.setTmo_tmo (s : State) (n : Nat) : (s.setTmo n).scratch.tmo = n := rfl
@[simp] theorem State.setTmo_target (s : State) (n : Nat) : (s.setTmo n).scratch.target = s.scratch.target := rfl
@[simp] theorem State.setTmo_trace (s : State) (n : Nat) : (s.setTmo n).trace = s.trace := rfl
@[simp] theorem State.setTmo_ret (s : State) (n : Nat) : (s.setTmo n).ret = s.ret := rfl
@[simp] theorem State.setTmo_port (s : State) (n : Nat) : (s.setTmo n).port = s.port := rfl
@[simp] theorem State.setTmo_cfg (s : State) (n : Nat) : (s.setTmo n).cfg = s.cfg := rfl
@[simp] theorem State.setTmo_env (s : State) (n : Nat) : (s.setTmo n).env = s.env := rfl
@[simp] theorem State.setTmo_samples (s : State) (n : Nat) : (s.setTmo n).samples = s.samples := rfl
@[simp] theorem State.setTmo_moves (s : State) (n : Nat) : (s.setTmo n).moves = s.moves := rfl
@[simp] theorem State.setTmo_ctl (s : State) (n : Nat) : (s.setTmo n).ctl = s.ctl := rfl
@[simp] theorem State.setTmo_freeIx (s : State) (n : Nat) : (s.setTmo n).freeIx = s.freeIx := rfl

/-! ## setTarget -/

@[simp] theorem State.setTarget_dirSck (s : State) (m : ControllerMode) : (s.setTarget m).dirSck = s.dirSck := rfl
@[simp] theorem State.setTarget_dirCs (s : State) (m : ControllerMode) : (s.setTarget m).dirCs = s.dirCs := rfl
@[simp] theorem State.setTarget_dirMosi (s : State) (m : ControllerMode) : (s.setTarget m).dirMosi = s.dirMosi := rfl
@[simp] theorem State.setTarget_dirMiso (s : State) (m : ControllerMode) : (s.setTarget m).dirMiso = s.dirMiso := rfl
@[simp] theorem State.setTarget_pinSck (s : State) (m : ControllerMode) : (s.setTarget m).pinSck = s.pinSck := rfl
@[simp] theorem State.setTarget_pinCs (s : State) (m : ControllerMode) : (s.setTarget m).pinCs = s.pinCs := rfl
@[simp] theorem State.setTarget_pinMosi (s : State) (m : ControllerMode) : (s.setTarget m).pinMosi = s.pinMosi := rfl
@[simp] theorem State.setTarget_inited (s : State) (m : ControllerMode) : (s.setTarget m).inited = s.inited := rfl
@[simp] theorem State.setTarget_seq (s : State) (m : ControllerMode) : (s.setTarget m).seq = s.seq := rfl
@[simp] theorem State.setTarget_txsr (s : State) (m : ControllerMode) : (s.setTarget m).scratch.txsr = s.scratch.txsr := rfl
@[simp] theorem State.setTarget_rxsr (s : State) (m : ControllerMode) : (s.setTarget m).scratch.rxsr = s.scratch.rxsr := rfl
@[simp] theorem State.setTarget_bitcnt (s : State) (m : ControllerMode) : (s.setTarget m).scratch.bitcnt = s.scratch.bitcnt := rfl
@[simp] theorem State.setTarget_fb (s : State) (m : ControllerMode) : (s.setTarget m).scratch.fb = s.scratch.fb := rfl
@[simp] theorem State.setTarget_regval (s : State) (m : ControllerMode) : (s.setTarget m).scratch.regval = s.scratch.regval := rfl
@[simp] theorem State.setTarget_tmo (s : State) (m : ControllerMode) : (s.setTarget m).scratch.tmo = s.scratch.tmo := rfl
@[simp] theorem State.setTarget_target (s : State) (m : ControllerMode) : (s.setTarget m).scratch.target = m := rfl
@[simp] theorem State.setTarget_trace (s : State) (m : ControllerMode) : (s.setTarget m).trace = s.trace := rfl
@[simp] theorem State.setTarget_ret (s : State) (m : ControllerMode) : (s.setTarget m).ret = s.ret := rfl
@[simp] theorem State.setTarget_port (s : State) (m : ControllerMode) : (s.setTarget m).port = s.port := rfl
@[simp] theorem State.setTarget_cfg (s : State) (m : ControllerMode) : (s.setTarget m).cfg = s.cfg := rfl
@[simp] theorem State.setTarget_env (s : State) (m : ControllerMode) : (s.setTarget m).env = s.env := rfl
@[simp] theorem State.setTarget_samples (s : State) (m : ControllerMode) : (s.setTarget m).samples = s.samples := rfl
@[simp] theorem State.setTarget_moves (s : State) (m : ControllerMode) : (s.setTarget m).moves = s.moves := rfl
@[simp] theorem State.setTarget_ctl (s : State) (m : ControllerMode) : (s.setTarget m).ctl = s.ctl := rfl
@[simp] theorem State.setTarget_freeIx (s : State) (m : ControllerMode) : (s.setTarget m).freeIx = s.freeIx := rfl

/-! ## emit -/

@[simp] theorem State.emit_dirSck (s : State) (e : Event) : (s.emit e).dirSck = s.dirSck := rfl
@[simp] theorem State.emit_dirCs (s : State) (e : Event) : (s.emit e).dirCs = s.dirCs := rfl
@[simp] theorem State.emit_dirMosi (s : State) (e : Event) : (s.emit e).dirMosi = s.dirMosi := rfl
@[simp] theorem State.emit_dirMiso (s : State) (e : Event) : (s.emit e).dirMiso = s.dirMiso := rfl
@[simp] theorem State.emit_pinSck (s : State) (e : Event) : (s.emit e).pinSck = s.pinSck := rfl
@[simp] theorem State.emit_pinCs (s : State) (e : Event) : (s.emit e).pinCs = s.pinCs := rfl
@[simp] theorem State.emit_pinMosi (s : State) (e : Event) : (s.emit e).pinMosi = s.pinMosi := rfl
@[simp] theorem State.emit_inited (s : State) (e : Event) : (s.emit e).inited = s.inited := rfl
@[simp] theorem State.emit_seq (s : State) (e : Event) : (s.emit e).seq = s.seq := rfl
@[simp] theorem State.emit_scratch (s : State) (e : Event) : (s.emit e).scratch = s.scratch := rfl
@[simp] theorem State.emit_trace (s : State) (e : Event) : (s.emit e).trace = s.trace ++ [e] := rfl
@[simp] theorem State.emit_ret (s : State) (e : Event) : (s.emit e).ret = s.ret := rfl
@[simp] theorem State.emit_port (s : State) (e : Event) : (s.emit e).port = s.port := rfl
@[simp] theorem State.emit_cfg (s : State) (e : Event) : (s.emit e).cfg = s.cfg := rfl
@[simp] theorem State.emit_env (s : State) (e : Event) : (s.emit e).env = s.env := rfl
@[simp] theorem State.emit_samples (s : State) (e : Event) : (s.emit e).samples = s.samples := rfl
@[simp] theorem State.emit_moves (s : State) (e : Event) : (s.emit e).moves = s.moves := rfl
@[simp] theorem State.emit_ctl (s : State) (e : Event) : (s.emit e).ctl = s.ctl := rfl
@[simp] theorem State.emit_freeIx (s : State) (e : Event) : (s.emit e).freeIx = s.freeIx := rfl

/-! ## setCtl -/

@[simp] theorem State.setCtl_dirSck (s : State) (c : Controller) : (s.setCtl c).dirSck = s.dirSck := rfl
@[simp] theorem State.setCtl_dirCs (s : State) (c : Controller) : (s.setCtl c).dirCs = s.dirCs := rfl
@[simp] theorem State.setCtl_dirMosi (s : State) (c : Controller) : (s.setCtl c).dirMosi = s.dirMosi := rfl
@[simp] theorem State.setCtl_dirMiso (s : State) (c : Controller) : (s.setCtl c).dirMiso = s.dirMiso := rfl
@[simp] theorem State.setCtl_pinSck (s : State) (c : Controller) : (s.setCtl c).pinSck = s.pinSck := rfl
@[simp] theorem State.setCtl_pinCs (s : State) (c : Controller) : (s.setCtl c).pinCs = s.pinCs := rfl
@[simp] theorem State.setCtl_pinMosi (s : State) (c : Controller) : (s.setCtl c).pinMosi = s.pinMosi := rfl
@[simp] theorem State.setCtl_inited (s : State) (c : Controller) : (s.setCtl c).inited = s.inited := rfl
@[simp] theorem State.setCtl_seq (s : State) (c : Controller) : (s.setCtl c).seq = s.seq := rfl
@[simp] theorem State.setCtl_scratch (s : State) (c : Controller) : (s.setCtl c).scratch = s.scratch := rfl
@[simp] theorem State.setCtl_trace (s : State) (c : Controller) : (s.setCtl c).trace = s.trace := rfl
@[simp] theorem State.setCtl_ret (s : State) (c : Controller) : (s.setCtl c).ret = s.ret := rfl
@[simp] theorem State.setCtl_port (s : State) (c : Controller) : (s.setCtl c).port = s.port := rfl
@[simp] theorem State.setCtl_cfg (s : State) (c : Controller) : (s.setCtl c).cfg = s.cfg := rfl
@[simp] theorem State.setCtl_env (s : State) (c : Controller) : (s.setCtl c).env = s.env := rfl
@[simp] theorem State.setCtl_samples (s : State) (c : Controller) : (s.setCtl c).samples = s.samples := rfl
@[simp] theorem State.setCtl_moves (s : State) (c : Controller) : (s.setCtl c).moves = s.moves := rfl
@[simp] theorem State.setCtl_ctl (s : State) (c : Controller) : (s.setCtl c).ctl = c := rfl
@[simp] theorem State.setCtl_freeIx (s : State) (c : Controller) : (s.setCtl c).freeIx = s.freeIx := rfl

/-! ## freeScratch -/

@[simp] theorem State.freeScratch_dirSck (s : State) : s.freeScratch.dirSck = s.dirSck := rfl
@[simp] theorem State.freeScratch_dirCs (s : State) : s.freeScratch.dirCs = s.dirCs := rfl
@[simp] theorem State.freeScratch_dirMosi (s : State) : s.freeScratch.dirMosi = s.dirMosi := rfl
@[simp] theorem State.freeScratch_dirMiso (s : State) : s.freeScratch.dirMiso = s.dirMiso := rfl
@[simp] theorem State.freeScratch_pinSck (s : State) : s.freeScratch.pinSck = s.pinSck := rfl
@[simp] theorem State.freeScratch_pinCs (s : State) : s.freeScratch.pinCs = s.pinCs := rfl
@[simp] theorem State.freeScratch_pinMosi (s : State) : s.freeScratch.pinMosi = s.pinMosi := rfl
@[simp] theorem State.freeScratch_inited (s : State) : s.freeScratch.inited = s.inited := rfl
@[simp] theorem State.freeScratch_seq (s : State) : s.freeScratch.seq = s.seq := rfl
@[simp] theorem State.freeScratch_trace (s : State) : s.freeScratch.trace = s.trace := rfl
@[simp] theorem State.freeScratch_ret (s : State) : s.freeScratch.ret = s.ret := rfl
@[simp] theorem State.freeScratch_port (s : State) : s.freeScratch.port = s.port := rfl
@[simp] theorem State.freeScratch_cfg (s : State) : s.freeScratch.cfg = s.cfg := rfl
@[simp] theorem State.freeScratch_env (s : State) : s.freeScratch.env = s.env := rfl
@[simp] theorem State.freeScratch_samples (s : State) : s.freeScratch.samples = s.samples := rfl
@[simp] theorem State.freeScratch_moves (s : State) : s.freeScratch.moves = s.moves := rfl
@[simp] theorem State.freeScratch_ctl (s : State) : s.freeScratch.ctl = s.ctl := rfl
@[simp] theorem State.freeScratch_freeIx (s : State) : s.freeScratch.freeIx = s.freeIx + 3 := rfl

/-! ## setLevel and setDir -/

@[simp] theorem State.setLevel_sck (s : State) (v : Level) : s.setLevel .sck v = { s with pinSck := v } := rfl
@[simp] theorem State.level_sck (s : State) : s.level .sck = s.pinSck := rfl
@[simp] theorem State.setLevel_cs (s : State) (v : Level) : s.setLevel .cs v = { s with pinCs := v } := rfl
@[simp] theorem State.level_cs (s : State) : s.level .cs = s.pinCs := rfl
@[simp] theorem State.setLevel_mosi (s : State) (v : Level) : s.setLevel .mosi v = { s with pinMosi := v } := rfl
@[simp] theorem State.level_mosi (s : State) : s.level .mosi = s.pinMosi := rfl
@[simp] theorem State.setDir_sck (s : State) (d : Dir) : s.setDir .sck d = { s with dirSck := d } := rfl
@[simp] theorem State.setDir_cs (s : State) (d : Dir) : s.setDir .cs d = { s with dirCs := d } := rfl
@[simp] theorem State.setDir_mosi (s : State) (d : Dir) : s.setDir .mosi d = { s with dirMosi := d } := rfl
@[simp] theorem State.setDir_miso (s : State) (d : Dir) : s.setDir .miso d = { s with dirMiso := d } := rfl

end Sys2Proof.Machine
end

