-- ==== Sys2Proof/Laws/Block.lean ====
section
/-! SUPPORT. What an operation over the lines does to the block, whatever the environment does: the
environment's part of the state is all that the environment changes. -/

namespace Sys2Proof.Machine

/-- Only the environment's part of the state differs, and it keeps the canonical form of the register space. -/
def State.envStep (s t : State) : Prop :=
  ∃ sm mv c n, (s.ctl.reg.wf → c.reg.wf) ∧ t = { s with samples := sm, moves := mv, ctl := c, freeIx := n }

theorem State.envStep_refl (s : State) : s.envStep s := ⟨_, _, _, _, id, rfl⟩

theorem State.envStep.trans {s t u : State} (h : s.envStep t) (h' : t.envStep u) : s.envStep u := by
  obtain ⟨_, _, _, _, hw, rfl⟩ := h
  obtain ⟨_, _, _, _, hw', rfl⟩ := h'
  exact ⟨_, _, _, _, fun h => hw' (hw h), rfl⟩

/-! ## An update of the block's own part goes through a step of the environment -/

theorem State.enter_envStep_congr {s t : State} (h : s.envStep t) (l : Seq) :
    (s.enter l).envStep (t.enter l) := by
  obtain ⟨_, _, _, _, hw, rfl⟩ := h; exact ⟨_, _, _, _, hw, rfl⟩

theorem State.setTxsr_envStep_congr {s t : State} (h : s.envStep t) (v : Byte) :
    (s.setTxsr v).envStep (t.setTxsr v) := by
  obtain ⟨_, _, _, _, hw, rfl⟩ := h; exact ⟨_, _, _, _, hw, rfl⟩

theorem State.clearRxsr_envStep_congr {s t : State} (h : s.envStep t) :
    s.clearRxsr.envStep t.clearRxsr := by
  obtain ⟨_, _, _, _, hw, rfl⟩ := h; exact ⟨_, _, _, _, hw, rfl⟩

theorem State.setBitcnt_envStep_congr {s t : State} (h : s.envStep t) (i : Fin 8) :
    (s.setBitcnt i).envStep (t.setBitcnt i) := by
  obtain ⟨_, _, _, _, hw, rfl⟩ := h; exact ⟨_, _, _, _, hw, rfl⟩

theorem State.setRxsrBit_envStep_congr {s t : State} (h : s.envStep t) (i : Fin 8) (b : Level) :
    (s.setRxsrBit i b).envStep (t.setRxsrBit i b) := by
  obtain ⟨_, _, _, _, hw, rfl⟩ := h; exact ⟨_, _, _, _, hw, rfl⟩

theorem State.setRegval_envStep_congr {s t : State} (h : s.envStep t) (v : Byte) :
    (s.setRegval v).envStep (t.setRegval v) := by
  obtain ⟨_, _, _, _, hw, rfl⟩ := h; exact ⟨_, _, _, _, hw, rfl⟩

theorem State.setFb_envStep_congr {s t : State} (h : s.envStep t) (f : CanFrame) :
    (s.setFb f).envStep (t.setFb f) := by
  obtain ⟨_, _, _, _, hw, rfl⟩ := h; exact ⟨_, _, _, _, hw, rfl⟩

theorem State.setTmo_envStep_congr {s t : State} (h : s.envStep t) (n : Nat) :
    (s.setTmo n).envStep (t.setTmo n) := by
  obtain ⟨_, _, _, _, hw, rfl⟩ := h; exact ⟨_, _, _, _, hw, rfl⟩

theorem State.setTarget_envStep_congr {s t : State} (h : s.envStep t) (m : ControllerMode) :
    (s.setTarget m).envStep (t.setTarget m) := by
  obtain ⟨_, _, _, _, hw, rfl⟩ := h; exact ⟨_, _, _, _, hw, rfl⟩

theorem State.emit_envStep_congr {s t : State} (h : s.envStep t) (e : Event) :
    (s.emit e).envStep (t.emit e) := by
  obtain ⟨_, _, _, _, hw, rfl⟩ := h; exact ⟨_, _, _, _, hw, rfl⟩

theorem State.setLevel_envStep_congr {s t : State} (h : s.envStep t) (p : OutLine) (v : Level) :
    (s.setLevel p v).envStep (t.setLevel p v) := by
  obtain ⟨_, _, _, _, hw, rfl⟩ := h
  cases p <;> exact ⟨_, _, _, _, hw, rfl⟩

/-! ## The environment's own operations -/

theorem State.setCtl_envStep (s : State) {c : Controller} (h : s.ctl.reg.wf → c.reg.wf) :
    s.envStep (s.setCtl c) := ⟨_, _, _, _, h, rfl⟩

theorem State.fire_envStep (s : State) (m : EnvMove) : s.envStep (s.fire m) :=
  ⟨_, _, _, _, fun h => Controller.fire_wf h _ m, rfl⟩

theorem State.fireAll_envStep (s : State) (ms : List EnvMove) : s.envStep (s.fireAll ms) := by
  induction ms generalizing s with
  | nil => exact s.envStep_refl
  | cons m ms ih => exact (s.fire_envStep m).trans (ih _)

theorem State.opportunity_envStep (s : State) : s.envStep s.opportunity := by
  unfold State.opportunity
  split
  · exact s.envStep_refl
  · split
    · exact State.envStep.trans ⟨_, _, _, _, id, rfl⟩ (State.fireAll_envStep _ _)
    · exact State.envStep.trans ⟨_, _, _, _, id, rfl⟩ (State.fireAll_envStep _ _)
  · split
    · exact s.envStep_refl
    · exact State.envStep.trans ⟨_, _, _, _, id, rfl⟩ (State.fireAll_envStep _ _)

theorem State.afterRelease_envStep (s : State) : s.envStep s.afterRelease := by
  unfold State.afterRelease
  split
  · exact s.envStep_refl
  · exact (s.setCtl_envStep Controller.release_wf).trans (State.opportunity_envStep _)
  · exact ((s.setCtl_envStep Controller.release_wf).trans (State.fireAll_envStep _ _)).trans
      (State.opportunity_envStep _)

theorem State.afterSelect_envStep (s : State) : s.envStep s.afterSelect := by
  unfold State.afterSelect
  split
  · exact s.envStep_refl
  all_goals exact s.opportunity_envStep.trans (State.setCtl_envStep _ Controller.select_wf)

theorem State.afterClockRise_envStep (s : State) : s.envStep s.afterClockRise := by
  unfold State.afterClockRise
  split
  · exact s.envStep_refl
  all_goals
    split
    · exact s.envStep_refl
    · exact s.setCtl_envStep fun h => Controller.clockRise_wf h _

theorem State.byteEnd_envStep (s : State) : s.envStep s.byteEnd :=
  s.opportunity_envStep.trans (State.setCtl_envStep _ Controller.nextByte_wf)

theorem State.afterClockFall_envStep (s : State) : s.envStep s.afterClockFall := by
  unfold State.afterClockFall
  split
  · exact s.envStep_refl
  all_goals
    split
    · exact s.byteEnd_envStep
    · exact s.envStep_refl

theorem State.notify_envStep (s : State) (p : OutLine) (old v : Level) : s.envStep (s.notify p old v) := by
  unfold State.notify
  split
  all_goals first
    | exact s.envStep_refl
    | exact s.afterSelect_envStep
    | exact s.afterRelease_envStep
    | exact s.afterClockRise_envStep
    | exact s.afterClockFall_envStep

theorem State.draw_envStep (s : State) : s.envStep s.draw.2 := by
  unfold State.draw
  split <;> exact ⟨_, _, _, _, id, rfl⟩

theorem State.sample_envStep (s : State) : s.envStep s.sample.2 := by
  unfold State.sample
  split
  · exact s.draw_envStep
  all_goals
    split
    · exact s.envStep_refl
    · first | exact s.draw_envStep | exact s.envStep_refl

theorem State.afterDelay_envStep (s : State) (n : Nat) : s.envStep (s.afterDelay n) := by
  unfold State.afterDelay
  split
  · exact s.envStep_refl
  all_goals
    exact s.opportunity_envStep.trans ⟨_, _, _, _, fun h => Controller.elapse_wf h _ n, rfl⟩

/-! ## The primitives -/

/-- PinWrite: the level, the event, and whatever the environment does. -/
theorem State.pinWrite_envStep (s : State) (p : OutLine) (v : Level) :
    ((s.setLevel p v).emit (.pinWrite p v)).envStep (s.pinWrite p v) := State.notify_envStep _ _ _ _

/-- PinRead: the event. -/
theorem State.pinRead_envStep (s : State) : (s.emit (.pinRead s.pinRead.1)).envStep s.pinRead.2 := by
  obtain ⟨_, _, _, _, hw, h⟩ := s.sample_envStep
  exact ⟨_, _, _, _, hw, by simp only [State.pinRead, h]; rfl⟩

/-- DelayMs: the event, and whatever the environment does. -/
theorem State.delayMs_envStep (s : State) (n : Nat) : (s.emit (.delayMs n)).envStep (s.delayMs n) :=
  State.afterDelay_envStep _ _

end Sys2Proof.Machine
end

