-- ==== Sys2Proof/Laws/Codec.lean ====
section
/-! SUPPORT. The byte layout of a frame (spec/30_encoding.md R83, R85) and the operand checks, as equations. -/

namespace Sys2Proof.Machine

theorem toFrame_of {f : FrameOperand} (h1 : f.id.toNat ≤ 0x7FF) (h2 : f.dlc.toNat ≤ 8)
    (h3 : f.data.length = f.dlc.toNat) :
    toFrame f = some ⟨f.id.setWidth 11, f.dlc.setWidth 4, f.data⟩ := by
  rw [toFrame, if_pos ⟨h1, h2, h3⟩]

/-- The check of a frame operand is the domain of R43. -/
theorem check_none_iff (f : FrameOperand) :
    f.check = none ↔ f.id.toNat ≤ 0x7FF ∧ f.dlc.toNat ≤ 8 ∧ f.data.length = f.dlc.toNat := by
  unfold FrameOperand.check
  split <;> rename_i h1
  · simp; omega
  · split <;> rename_i h2
    · simp; omega
    · split <;> rename_i h3
      · simp [h3]
      · simp only [true_iff]
        exact ⟨by omega, by omega, not_not.1 h3⟩

theorem toFrame_none {f : FrameOperand} (h : f.check ≠ none) : toFrame f = none := by
  rw [Ne, check_none_iff] at h
  rw [toFrame, if_neg h]

theorem rxId_eq (idh idl : Byte) : rxId idh idl = idh.setWidth 11 <<< 3 ||| (idl >>> 5).setWidth 11 := by
  have : (idl.extractLsb' 5 3).setWidth 11 = (idl >>> 5).setWidth 11 := by
    revert idl; decide
  rw [rxId, this]

theorem idHigh_eq (id : BitVec 16) : idHighByte (id.setWidth 11) = (id >>> 3).setWidth 8 := by
  apply BitVec.eq_of_getLsbD_eq
  intro i hi
  simp [idHighByte, hi]; omega

theorem idLow_getLsbD (id : BitVec 11) (j : Nat) :
    (idLowByte id).getLsbD j = if j < 5 then false else (decide (j - 5 < 3) && id.getLsbD (j - 5)) := by
  have e : (idLowByte id).getLsbD j = (id.extractLsb' 0 3 ++ 0b00000#5 : BitVec (3 + 5)).getLsbD j := rfl
  rw [e, BitVec.getLsbD_append]
  split <;> simp

theorem idLow_eq (id : BitVec 16) : idLowByte (id.setWidth 11) = ((id &&& 7) <<< 5).setWidth 8 := by
  apply BitVec.eq_of_getLsbD_eq
  intro i hi
  rw [idLow_getLsbD]
  interval_cases i <;> simp

theorem dlc_eq {d : Byte} (h : d.toNat ≤ 8) : (d.setWidth 4).setWidth 8 = d := by
  apply BitVec.eq_of_toNat_eq
  simp; omega

theorem dlc_toNat {d : Byte} (h : d.toNat ≤ 8) : (d.setWidth 4).toNat = d.toNat := by
  simp; omega

/-- The image of a frame operand of the domain, byte by byte (R126). -/
theorem encodeTx_eq (reserved : Byte) (id : BitVec 16) {dlc : Byte} (data : List Byte) (h : dlc.toNat ≤ 8) :
    encodeTx reserved ⟨id.setWidth 11, dlc.setWidth 4, data⟩ =
      [(id >>> 3).setWidth 8, ((id &&& 7) <<< 5).setWidth 8, reserved, reserved, dlc] ++ data := by
  simp only [encodeTx, idHigh_eq, idLow_eq, dlc_eq h]

/-- The identifier comes back from its two bytes (R83, R129). -/
theorem rxId_bytes (id : BitVec 11) : rxId (idHighByte id) (idLowByte id) = id := by
  apply BitVec.eq_of_getLsbD_eq
  intro i hi
  have hl : ∀ j, ((idLowByte id).extractLsb' 5 3).getLsbD j = (decide (j < 3) && id.getLsbD j) := by
    intro j
    rw [BitVec.getLsbD_extractLsb', idLow_getLsbD]
    simp
  simp only [rxId, BitVec.getLsbD_or, BitVec.getLsbD_shiftLeft, BitVec.getLsbD_setWidth, hl, idHighByte,
    BitVec.getLsbD_extractLsb']
  interval_cases i <;> simp

/-- The number of payload bytes under RX_DLC_GUARD = clamp (R128). -/
theorem rxCount_clamp (dlcb : Byte) :
    rxCount .clamp dlcb = some (BitVec.ofNat 4 (min (dlcb.toNat % 16) 8)) := by
  revert dlcb; decide +kernel

theorem rxCount_small (guard : RxDlcGuard) {dlcb : Byte} (h : dlcb.toNat ≤ 8) :
    rxCount guard dlcb = some (dlcb.setWidth 4) := by
  revert guard dlcb
  have : ∀ dlcb : Byte, dlcb.toNat ≤ 8 → rxCount .clamp dlcb = some (dlcb.setWidth 4) ∧
      rxCount .strict dlcb = some (dlcb.setWidth 4) := by decide +kernel
  intro guard dlcb h
  cases guard
  · exact (this dlcb h).1
  · exact (this dlcb h).2

theorem rxCount_strict_none {dlcb : Byte} (h : dlcb > 8) : rxCount .strict dlcb = none := by
  simp only [rxCount, if_pos h]

theorem ofNat_min_toNat (n : Nat) : (BitVec.ofNat 4 (min n 8)).toNat = min n 8 := by
  simp

end Sys2Proof.Machine
end

