-- ==== Sys2Proof/Laws/Transfer.lean ====
section
/-! SUPPORT. What the SPI transport primitives do: for every environment (the block's part), and for the
oracle, where the answers come from the prepared samples. -/

namespace Sys2Proof.Machine

/-- The state after one bit whose sample was `r`. -/
def State.bitMoved (s : State) (i : Fin 8) (r : Level) : State :=
  { s with
    pinSck := false
    pinMosi := s.scratch.txsr.getLsbD i.val
    scratch := { s.scratch with bitcnt := i, rxsr := setBit s.scratch.rxsr i.val r }
    trace := s.trace ++ bitEvents (s.scratch.txsr.getLsbD i.val) r }

/-- The state after several bits, each given with its sample. -/
def State.bitsMoved (s : State) (l : List (Fin 8 × Level)) : State := l.foldl (fun s x => s.bitMoved x.1 x.2) s

/-- The block's part of the state after a transfer that sent `tx` and received `rx`. -/
def State.moved (s : State) (tx rx : Byte) : State :=
  { s with
    pinSck := false
    pinMosi := tx.getLsbD 0
    scratch := { s.scratch with txsr := tx, rxsr := rx, bitcnt := 0 }
    trace := s.trace ++ byteEvents tx rx }

/-- The answers `bits` have been drawn: they agree with the prepared samples as far as these go. -/
def State.drawn (s t : State) (bits : List Level) : Prop :=
  s.samples.take bits.length <+: bits ∧ ∃ n, t = { s with samples := s.samples.drop bits.length, freeIx := n }

theorem State.bitMoved_envStep_congr {s t : State} (h : s.envStep t) (i : Fin 8) (r : Level) :
    (s.bitMoved i r).envStep (t.bitMoved i r) := by
  obtain ⟨_, _, _, _, hw, rfl⟩ := h
  exact ⟨_, _, _, _, hw, rfl⟩

theorem State.bitsMoved_envStep_congr {s t : State} (h : s.envStep t) (l : List (Fin 8 × Level)) :
    (s.bitsMoved l).envStep (t.bitsMoved l) := by
  induction l generalizing s t with
  | nil => exact h
  | cons x l ih => exact ih (State.bitMoved_envStep_congr h x.1 x.2)

/-- The updates of one bit, put together. -/
theorem State.bitMoved_eq (s : State) (i : Fin 8) (r : Level) :
    (((((((((s.setBitcnt i).setLevel .mosi (s.scratch.txsr.getLsbD i.val)).emit
      (.pinWrite .mosi (s.scratch.txsr.getLsbD i.val))).setLevel .sck true).emit (.pinWrite .sck true)).emit
      (.pinRead r)).setRxsrBit i r).setLevel .sck false).emit (.pinWrite .sck false)) = s.bitMoved i r := by
  simp [State.bitMoved, State.setRxsrBit, State.emit, State.setBitcnt, bitEvents]

/-- One bit, in every environment. -/
theorem State.transferBit_envStep (s : State) (i : Fin 8) : ∃ r, (s.bitMoved i r).envStep (s.transferBit i) := by
  let s1 := (s.setBitcnt i).pinWrite .mosi (s.scratch.txsr.getLsbD i.val)
  let s2 := s1.pinWrite .sck true
  have h1 : (((s.setBitcnt i).setLevel .mosi (s.scratch.txsr.getLsbD i.val)).emit
      (.pinWrite .mosi (s.scratch.txsr.getLsbD i.val))).envStep s1 := State.pinWrite_envStep _ _ _
  have e1 : s1.scratch.txsr = s.scratch.txsr := by
    obtain ⟨_, _, _, _, _, h⟩ := h1
    exact (congrArg (·.scratch.txsr) h).trans rfl
  have h2 := (State.emit_envStep_congr (State.setLevel_envStep_congr h1 .sck true) (.pinWrite .sck true)).trans
    (State.pinWrite_envStep s1 .sck true)
  have h3 := (State.emit_envStep_congr h2 (.pinRead s2.pinRead.1)).trans (State.pinRead_envStep s2)
  have h4 := State.setRxsrBit_envStep_congr h3 i s2.pinRead.1
  have h5 := (State.emit_envStep_congr (State.setLevel_envStep_congr h4 .sck false) (.pinWrite .sck false)).trans
    (State.pinWrite_envStep (s2.pinRead.2.setRxsrBit i s2.pinRead.1) .sck false)
  rw [State.bitMoved_eq] at h5
  exact ⟨_, h5⟩

theorem State.transferBits_envStep (s : State) (l : List (Fin 8)) :
    ∃ rs, rs.length = l.length ∧ (s.bitsMoved (l.zip rs)).envStep (l.foldl State.transferBit s) := by
  induction l generalizing s with
  | nil => exact ⟨[], rfl, s.envStep_refl⟩
  | cons i l ih =>
    obtain ⟨r, hr⟩ := s.transferBit_envStep i
    obtain ⟨rs, hl, hrs⟩ := ih (s.transferBit i)
    exact ⟨r :: rs, by simp [hl], (State.bitsMoved_envStep_congr hr _).trans hrs⟩

/-! ## The byte eight samples make -/

/-- The byte that eight samples make, the first of them bit 7. -/
def byteOfWire (r7 r6 r5 r4 r3 r2 r1 r0 : Level) : Byte :=
  setBit (setBit (setBit (setBit (setBit (setBit (setBit (setBit 0 7 r7) 6 r6) 5 r5) 4 r4) 3 r3) 2 r2) 1 r1) 0 r0

theorem wireBits_byteOfWire : ∀ r7 r6 r5 r4 r3 r2 r1 r0 : Level,
    wireBits (byteOfWire r7 r6 r5 r4 r3 r2 r1 r0) = [r7, r6, r5, r4, r3, r2, r1, r0] := by decide +kernel

theorem byteEvents_byteOfWire (tx : Byte) (r7 r6 r5 r4 r3 r2 r1 r0 : Level) :
    byteEvents tx (byteOfWire r7 r6 r5 r4 r3 r2 r1 r0) =
      bitEvents (tx.getLsbD 7) r7 ++ bitEvents (tx.getLsbD 6) r6 ++ bitEvents (tx.getLsbD 5) r5 ++
      bitEvents (tx.getLsbD 4) r4 ++ bitEvents (tx.getLsbD 3) r3 ++ bitEvents (tx.getLsbD 2) r2 ++
      bitEvents (tx.getLsbD 1) r1 ++ bitEvents (tx.getLsbD 0) r0 := by
  rw [byteEvents, wireBits_byteOfWire]
  simp [wireBits]

theorem State.bitsMoved_eq (s : State) (tx : Byte) (r7 r6 r5 r4 r3 r2 r1 r0 : Level) :
    (s.setTxsr tx).clearRxsr.bitsMoved
        [(7, r7), (6, r6), (5, r5), (4, r4), (3, r3), (2, r2), (1, r1), (0, r0)] =
      s.moved tx (byteOfWire r7 r6 r5 r4 r3 r2 r1 r0) := by
  rw [State.moved, byteEvents_byteOfWire]
  simp [State.bitsMoved, State.bitMoved, State.setTxsr, State.clearRxsr, byteOfWire]

theorem length_eq_eight {α : Type} {l : List α} (h : l.length = 8) :
    ∃ a b c d e f g k, l = [a, b, c, d, e, f, g, k] := by
  match l, h with
  | [a, b, c, d, e, f, g, k], _ => exact ⟨a, b, c, d, e, f, g, k, rfl⟩

/-- `Transfer`, in every environment: the byte returned is what RXSR holds, and the events are the 32 of
that byte (R104). -/
theorem State.transfer_envStep (s : State) (tx : Byte) :
    (s.moved tx (s.transfer tx).1).envStep (s.transfer tx).2 := by
  obtain ⟨rs, hl, h⟩ := (s.setTxsr tx).clearRxsr.transferBits_envStep [7, 6, 5, 4, 3, 2, 1, 0]
  obtain ⟨r7, r6, r5, r4, r3, r2, r1, r0, rfl⟩ := length_eq_eight hl
  simp only [List.zip_cons_cons, List.zip_nil_right] at h
  rw [State.bitsMoved_eq] at h
  have hr : (s.transfer tx).1 = byteOfWire r7 r6 r5 r4 r3 r2 r1 r0 := by
    obtain ⟨_, _, _, _, _, h⟩ := h
    exact (congrArg (·.scratch.rxsr) h).trans rfl
  rw [hr]
  exact h

/-! ## The oracle -/

theorem State.pinWrite_oracle {s : State} (h : s.env = .oracle) (p : OutLine) (v : Level) :
    s.pinWrite p v = (s.setLevel p v).emit (.pinWrite p v) := by
  unfold State.pinWrite
  have he : ((s.setLevel p v).emit (.pinWrite p v)).env = .oracle := by cases p <;> exact h
  generalize (s.setLevel p v).emit (.pinWrite p v) = t at he
  unfold State.notify
  split <;> simp only [State.afterSelect, State.afterRelease, State.afterClockRise, State.afterClockFall, he]

theorem State.delayMs_oracle {s : State} (h : s.env = .oracle) (n : Nat) :
    s.delayMs n = s.emit (.delayMs n) := by
  simp only [State.delayMs, State.afterDelay, State.emit_env, h]

theorem State.opportunity_oracle {s : State} (h : s.env = .oracle) : s.opportunity = s := by
  simp only [State.opportunity, h]

theorem State.sample_oracle {s : State} (h : s.env = .oracle) : s.drawn s.sample.2 [s.sample.1] := by
  have e : s.sample = s.draw := by simp only [State.sample, h]
  rw [e]
  unfold State.draw
  rcases hs : s.samples with _ | ⟨b, rest⟩
  · exact ⟨by simp [hs], s.freeIx + 1, by simp [hs]⟩
  · exact ⟨by simp [hs], s.freeIx, by simp [hs]⟩

/-- An update of the block's own part goes through a draw. -/
theorem State.drawn_map {s t : State} {bits : List Level} (h : s.drawn t bits) (f : State → State)
    (hf : ∀ s sm n, f { s with samples := sm, freeIx := n } = { f s with samples := sm, freeIx := n })
    (hs : (f s).samples = s.samples) : (f s).drawn (f t) bits := by
  obtain ⟨hp, n, rfl⟩ := h
  exact ⟨hs.symm ▸ hp, n, by rw [hf, hs]⟩

theorem State.drawn_env {s t : State} {bits : List Level} (h : s.drawn t bits) : t.env = s.env := by
  obtain ⟨_, n, rfl⟩ := h; rfl

theorem State.drawn_nil (s : State) : s.drawn s [] := ⟨by simp, s.freeIx, by simp⟩

theorem State.drawn.trans {s t u : State} {bits bits' : List Level} (h : s.drawn t bits)
    (h' : t.drawn u bits') : s.drawn u (bits ++ bits') := by
  obtain ⟨hp, n, rfl⟩ := h
  obtain ⟨hp', n', rfl⟩ := h'
  refine ⟨?_, n', by simp⟩
  rw [List.length_append, List.take_add]
  by_cases hl : bits.length ≤ s.samples.length
  · have : s.samples.take bits.length = bits := hp.eq_of_length (by simp [hl])
    rw [this]
    exact (List.prefix_append_right_inj bits).2 hp'
  · have h0 : s.samples.drop bits.length = [] := List.drop_eq_nil_of_le (by omega)
    rw [h0, List.take_nil, List.append_nil]
    exact hp.trans (List.prefix_append _ _)

theorem State.transferBit_oracle {s : State} (h : s.env = .oracle) (i : Fin 8) :
    ∃ r, (s.bitMoved i r).drawn (s.transferBit i) [r] := by
  have e1 : (s.setBitcnt i).pinWrite .mosi (s.scratch.txsr.getLsbD i.val) = _ :=
    State.pinWrite_oracle (s := s.setBitcnt i) h _ _
  let s1 := ((s.setBitcnt i).setLevel .mosi (s.scratch.txsr.getLsbD i.val)).emit
    (.pinWrite .mosi (s.scratch.txsr.getLsbD i.val))
  let s2 := (s1.setLevel .sck true).emit (.pinWrite .sck true)
  have h2 : s2.env = .oracle := h
  have hd := State.sample_oracle h2
  have he : s2.sample.2.env = .oracle := (State.drawn_env hd).trans h2
  refine ⟨s2.sample.1, ?_⟩
  have e : s.transferBit i = ((((s2.sample.2.emit (.pinRead s2.sample.1)).setRxsrBit i s2.sample.1).setLevel
      .sck false).emit (.pinWrite .sck false)) := by
    rw [← State.pinWrite_oracle (s := (s2.sample.2.emit (.pinRead s2.sample.1)).setRxsrBit i s2.sample.1) he]
    have e2 : s1.pinWrite .sck true = s2 := State.pinWrite_oracle (s := s1) h _ _
    show ((((((s.setBitcnt i).pinWrite .mosi (s.scratch.txsr.getLsbD i.val)).pinWrite .sck true).pinRead.2).setRxsrBit
      i (((s.setBitcnt i).pinWrite .mosi (s.scratch.txsr.getLsbD i.val)).pinWrite .sck true).pinRead.1).pinWrite
      .sck false) = _
    rw [e1, e2]
    rfl
  rw [e, ← State.bitMoved_eq]
  exact State.drawn_map hd (fun u => (((u.emit (.pinRead s2.sample.1)).setRxsrBit i s2.sample.1).setLevel
      .sck false).emit (.pinWrite .sck false)) (fun _ _ _ => rfl) rfl

theorem State.transferBits_oracle {s : State} (h : s.env = .oracle) (l : List (Fin 8)) :
    ∃ rs, rs.length = l.length ∧ (s.bitsMoved (l.zip rs)).drawn (l.foldl State.transferBit s) rs := by
  induction l generalizing s with
  | nil => exact ⟨[], rfl, s.drawn_nil⟩
  | cons i l ih =>
    obtain ⟨r, hr⟩ := State.transferBit_oracle h i
    obtain ⟨rs, hl, hrs⟩ := ih ((State.drawn_env hr).trans h)
    refine ⟨r :: rs, by simp [hl], ?_⟩
    have hm : ∀ (l : List (Fin 8 × Level)) {s t : State}, s.drawn t [r] →
        (s.bitsMoved l).drawn (t.bitsMoved l) [r] := by
      intro l
      induction l with
      | nil => exact fun h => h
      | cons x l ih => exact fun h => ih (State.drawn_map h (fun u => u.bitMoved x.1 x.2) (fun _ _ _ => rfl) rfl)
    exact (hm (l.zip rs) hr).trans hrs

/-- `Transfer` in front of the oracle: the byte is what the next eight answers make (R11, R104). -/
theorem State.transfer_oracle {s : State} (h : s.env = .oracle) (tx : Byte) :
    (s.moved tx (s.transfer tx).1).drawn (s.transfer tx).2 (wireBits (s.transfer tx).1) := by
  obtain ⟨rs, hl, hd⟩ := State.transferBits_oracle (s := (s.setTxsr tx).clearRxsr) h [7, 6, 5, 4, 3, 2, 1, 0]
  obtain ⟨r7, r6, r5, r4, r3, r2, r1, r0, rfl⟩ := length_eq_eight hl
  simp only [List.zip_cons_cons, List.zip_nil_right] at hd
  rw [State.bitsMoved_eq] at hd
  have hr : (s.transfer tx).1 = byteOfWire r7 r6 r5 r4 r3 r2 r1 r0 := by
    obtain ⟨_, _, h⟩ := hd
    exact (congrArg (·.scratch.rxsr) h).trans rfl
  rw [hr, wireBits_byteOfWire]
  exact hd

end Sys2Proof.Machine
end

