-- ==== Sys2Proof/Laws/EnvLaw.lean ====
section
/-! SUPPORT. What every operation is built from, once for all environments: a relation between the state the
block alone would reach and the state it does reach, with the bits it sampled on the way. -/

namespace Sys2Proof.Machine

/-- An update of the block's own part: it neither reads nor writes the environment's part. -/
structure BlockUpdate (f : State → State) : Prop where
  comm : ∀ s sm mv c n, f { s with samples := sm, moves := mv, ctl := c, freeIx := n } =
    { f s with samples := sm, moves := mv, ctl := c, freeIx := n }
  samples : ∀ s, (f s).samples = s.samples
  moves : ∀ s, (f s).moves = s.moves
  ctl : ∀ s, (f s).ctl = s.ctl
  freeIx : ∀ s, (f s).freeIx = s.freeIx
  env : ∀ s, (f s).env = s.env

theorem BlockUpdate.comp {f g : State → State} (hf : BlockUpdate f) (hg : BlockUpdate g) :
    BlockUpdate fun s => f (g s) where
  comm s sm mv c n := by rw [hg.comm, hf.comm]
  samples s := by rw [hf.samples, hg.samples]
  moves s := by rw [hf.moves, hg.moves]
  ctl s := by rw [hf.ctl, hg.ctl]
  freeIx s := by rw [hf.freeIx, hg.freeIx]
  env s := by rw [hf.env, hg.env]

theorem blockUpdate_id : BlockUpdate fun s => s where
  comm _ _ _ _ _ := rfl
  samples _ := rfl
  moves _ := rfl
  ctl _ := rfl
  freeIx _ := rfl
  env _ := rfl

theorem blockUpdate_enter (l : Seq) : BlockUpdate fun s => s.enter l :=
  ⟨fun _ _ _ _ _ => rfl, fun _ => rfl, fun _ => rfl, fun _ => rfl, fun _ => rfl, fun _ => rfl⟩
theorem blockUpdate_emit (e : Event) : BlockUpdate fun s => s.emit e :=
  ⟨fun _ _ _ _ _ => rfl, fun _ => rfl, fun _ => rfl, fun _ => rfl, fun _ => rfl, fun _ => rfl⟩
theorem blockUpdate_setRegval (v : Byte) : BlockUpdate fun s => s.setRegval v :=
  ⟨fun _ _ _ _ _ => rfl, fun _ => rfl, fun _ => rfl, fun _ => rfl, fun _ => rfl, fun _ => rfl⟩
theorem blockUpdate_setFb (v : CanFrame) : BlockUpdate fun s => s.setFb v :=
  ⟨fun _ _ _ _ _ => rfl, fun _ => rfl, fun _ => rfl, fun _ => rfl, fun _ => rfl, fun _ => rfl⟩
theorem blockUpdate_setTmo (v : Nat) : BlockUpdate fun s => s.setTmo v :=
  ⟨fun _ _ _ _ _ => rfl, fun _ => rfl, fun _ => rfl, fun _ => rfl, fun _ => rfl, fun _ => rfl⟩
theorem blockUpdate_setTarget (v : ControllerMode) : BlockUpdate fun s => s.setTarget v :=
  ⟨fun _ _ _ _ _ => rfl, fun _ => rfl, fun _ => rfl, fun _ => rfl, fun _ => rfl, fun _ => rfl⟩
theorem blockUpdate_moved (tx rx : Byte) : BlockUpdate fun s => s.moved tx rx :=
  ⟨fun _ _ _ _ _ => rfl, fun _ => rfl, fun _ => rfl, fun _ => rfl, fun _ => rfl, fun _ => rfl⟩
theorem blockUpdate_setLevel (p : OutLine) (v : Level) : BlockUpdate fun s => s.setLevel p v := by
  cases p <;>
  exact ⟨fun _ _ _ _ _ => rfl, fun _ => rfl, fun _ => rfl, fun _ => rfl, fun _ => rfl, fun _ => rfl⟩

/-- A line written: the level and the event. -/
def State.lineSet (s : State) (p : OutLine) (v : Level) : State := (s.setLevel p v).emit (.pinWrite p v)

theorem blockUpdate_lineSet (p : OutLine) (v : Level) : BlockUpdate fun s => s.lineSet p v :=
  (blockUpdate_emit _).comp (blockUpdate_setLevel p v)

/-- The state after transfers given as bytes sent and received. -/
def State.movedSeq (s : State) (xs : List (Byte × Byte)) : State := xs.foldl (fun s x => s.moved x.1 x.2) s

theorem blockUpdate_movedSeq (xs : List (Byte × Byte)) : BlockUpdate fun s => s.movedSeq xs := by
  induction xs with
  | nil => exact blockUpdate_id
  | cons x xs ih => exact ih.comp (blockUpdate_moved x.1 x.2)

/-- The state after a select bracket with these transfers. -/
def State.bracketed (s : State) (xs : List (Byte × Byte)) : State :=
  ((s.lineSet .cs false).movedSeq xs).lineSet .cs true

theorem blockUpdate_bracketed (xs : List (Byte × Byte)) : BlockUpdate fun s => s.bracketed xs :=
  (blockUpdate_lineSet _ _).comp ((blockUpdate_movedSeq xs).comp (blockUpdate_lineSet _ _))

/-- `R s t bits`: an environment that `P` allows turns the state `s` of the block alone into `t`, having
answered `bits`. -/
structure EnvLaw (P : State → Prop) (R : State → State → List Level → Prop) : Prop where
  nil : ∀ s, R s s []
  trans : ∀ {s t u a b}, R s t a → R t u b → R s u (a ++ b)
  map : ∀ {s t a f}, BlockUpdate f → R s t a → R (f s) (f t) a
  keep : ∀ {s t a}, R s t a → P s → P t
  keepMap : ∀ {s f}, BlockUpdate f → P s → P (f s)
  pinWrite : ∀ {s} p v, P s → R (s.lineSet p v) (s.pinWrite p v) []
  transfer : ∀ {s} tx, P s → R (s.moved tx (s.transfer tx).1) (s.transfer tx).2 (wireBits (s.transfer tx).1)
  delayMs : ∀ {s} n, P s → R (s.emit (.delayMs n)) (s.delayMs n) []

/-- Every environment. -/
theorem envLaw_any : EnvLaw (fun _ => True) (fun s t _ => s.envStep t) where
  nil := State.envStep_refl
  trans := State.envStep.trans
  map := by
    rintro s t _ f hf ⟨sm, mv, c, n, hw, rfl⟩
    exact ⟨sm, mv, c, n, hf.ctl s ▸ hw, hf.comm _ _ _ _ _⟩
  keep _ _ := trivial
  keepMap _ _ := trivial
  pinWrite p v _ := State.pinWrite_envStep _ p v
  transfer tx _ := State.transfer_envStep _ tx
  delayMs n _ := State.delayMs_envStep _ n

/-- The oracle: only the prepared answers and the number of free values move. -/
theorem envLaw_oracle : EnvLaw (fun s => s.env = .oracle) State.drawn where
  nil := State.drawn_nil
  trans := State.drawn.trans
  map := by
    rintro s t a f hf ⟨hp, n, rfl⟩
    refine ⟨(hf.samples s).symm ▸ hp, n, ?_⟩
    have h := hf.comm s (s.samples.drop a.length) s.moves s.ctl n
    rw [show ({ s with samples := s.samples.drop a.length, freeIx := n } : State) =
      { s with samples := s.samples.drop a.length, moves := s.moves, ctl := s.ctl, freeIx := n } from rfl, h,
      hf.samples]
    have hm := hf.moves s
    have hc := hf.ctl s
    revert hm hc
    generalize f s = u
    rintro hm hc
    rw [← hm, ← hc]
  keep h hs := (State.drawn_env h).trans hs
  keepMap hf hs := (hf.env _).trans hs
  pinWrite p v h := by rw [State.pinWrite_oracle h]; exact State.drawn_nil _
  transfer tx h := State.transfer_oracle h tx
  delayMs n h := by rw [State.delayMs_oracle h]; exact State.drawn_nil _

end Sys2Proof.Machine
end

