-- ==== Sys2Proof/Laws/Commands.lean ====
section
/-! SUPPORT. What the controller commands do, once for all environments (spec/41_controller_commands.md R118). -/

namespace Sys2Proof.Machine

variable {P : State → Prop} {R : State → State → List Level → Prop}

/-! ## The block alone -/

@[simp] theorem State.movedSeq_nil (s : State) : s.movedSeq [] = s := rfl
@[simp] theorem State.movedSeq_cons (s : State) (x : Byte × Byte) (xs : List (Byte × Byte)) :
    s.movedSeq (x :: xs) = (s.moved x.1 x.2).movedSeq xs := rfl
theorem State.movedSeq_append (s : State) (xs ys : List (Byte × Byte)) :
    s.movedSeq (xs ++ ys) = (s.movedSeq xs).movedSeq ys := List.foldl_append

/-- Transfers change the clock and data lines, the transfer registers and the trace, nothing else. -/
theorem State.movedSeq_eq (s : State) (xs : List (Byte × Byte)) :
    s.movedSeq xs = { s with
      pinSck := (s.movedSeq xs).pinSck
      pinMosi := (s.movedSeq xs).pinMosi
      scratch := { s.scratch with
        txsr := (s.movedSeq xs).scratch.txsr
        rxsr := (s.movedSeq xs).scratch.rxsr
        bitcnt := (s.movedSeq xs).scratch.bitcnt }
      trace := s.trace ++ bytesEvents xs } := by
  induction xs generalizing s with
  | nil => simp [bytesEvents]
  | cons x xs ih =>
    rw [State.movedSeq_cons, ih]
    simp [State.moved, bytesEvents]

@[simp] theorem State.movedSeq_trace (s : State) (xs : List (Byte × Byte)) :
    (s.movedSeq xs).trace = s.trace ++ bytesEvents xs := by rw [State.movedSeq_eq]
@[simp] theorem State.movedSeq_cfg (s : State) (xs : List (Byte × Byte)) : (s.movedSeq xs).cfg = s.cfg := by
  rw [State.movedSeq_eq]
@[simp] theorem State.movedSeq_pinCs (s : State) (xs : List (Byte × Byte)) :
    (s.movedSeq xs).pinCs = s.pinCs := by rw [State.movedSeq_eq]

/-- After at least one transfer the clock is low and MOSI carries bit 0 of the last byte sent. -/
theorem State.movedSeq_lines (s : State) {xs : List (Byte × Byte)} (h : xs ≠ []) :
    (s.movedSeq xs).pinSck = false ∧ (s.movedSeq xs).pinMosi = (xs.getLast h).1.getLsbD 0 := by
  induction xs generalizing s with
  | nil => exact absurd rfl h
  | cons x xs ih =>
    cases xs with
    | nil => exact ⟨rfl, rfl⟩
    | cons y ys =>
      rw [State.movedSeq_cons]
      simpa using ih (s.moved x.1 x.2) (by simp)

/-- A bracket of at least one transfer: the bus is idle after it (R106, R117). -/
theorem State.bracketed_eq (s : State) {xs : List (Byte × Byte)} (h : xs ≠ []) :
    s.bracketed xs = { s with
      pinCs := true
      pinSck := false
      pinMosi := (xs.getLast h).1.getLsbD 0
      scratch := { s.scratch with
        txsr := (s.bracketed xs).scratch.txsr
        rxsr := (s.bracketed xs).scratch.rxsr
        bitcnt := (s.bracketed xs).scratch.bitcnt }
      trace := s.trace ++ bracketEvents xs } := by
  obtain ⟨h1, h2⟩ := State.movedSeq_lines (s.lineSet .cs false) h
  have e := State.movedSeq_eq (s.lineSet .cs false) xs
  rw [h1, h2] at e
  refine (congrArg (fun u => State.lineSet u .cs true) e).trans ?_
  simp only [State.lineSet, State.setLevel_cs, State.emit, bracketEvents, List.append_assoc, State.bracketed]

/-! ## Transfers -/

/-- A relation of an environment law fixes the block's part. -/
structure EnvLaw.Fixes (R : State → State → List Level → Prop) : Prop where
  fixes : ∀ {s t a}, R s t a →
    ∃ sm mv c n, t = { s with samples := sm, moves := mv, ctl := c, freeIx := n }

theorem EnvLaw.fixes_any : EnvLaw.Fixes fun s t _ => s.envStep t :=
  ⟨fun ⟨sm, mv, c, n, _, h⟩ => ⟨sm, mv, c, n, h⟩⟩

theorem EnvLaw.fixes_oracle : EnvLaw.Fixes State.drawn :=
  ⟨fun {s _ _} ⟨_, n, h⟩ => ⟨_, s.moves, s.ctl, n, h⟩⟩

theorem EnvLaw.Fixes.cfg (F : EnvLaw.Fixes R) {s t : State} {a : List Level} (h : R s t a) : t.cfg = s.cfg := by
  obtain ⟨_, _, _, _, rfl⟩ := F.fixes h; rfl

theorem EnvLaw.Fixes.scratch (F : EnvLaw.Fixes R) {s t : State} {a : List Level} (h : R s t a) :
    t.scratch = s.scratch := by
  obtain ⟨_, _, _, _, rfl⟩ := F.fixes h; rfl

theorem EnvLaw.sendBytes (L : EnvLaw P R) {s : State} (h : P s) (txs : List Byte) :
    ∃ rxs, rxs.length = txs.length ∧ R (s.movedSeq (txs.zip rxs)) (s.sendBytes txs) (rxs.flatMap wireBits) := by
  induction txs generalizing s with
  | nil => exact ⟨[], rfl, L.nil s⟩
  | cons tx txs ih =>
    have ht := L.transfer tx h
    have hp : P (s.transfer tx).2 := L.keep ht (L.keepMap (blockUpdate_moved tx _) h)
    obtain ⟨rxs, hl, hr⟩ := ih hp
    exact ⟨(s.transfer tx).1 :: rxs, by simp [hl], L.trans (L.map (blockUpdate_movedSeq (txs.zip rxs)) ht) hr⟩

theorem EnvLaw.receiveBytes (L : EnvLaw P R) (F : EnvLaw.Fixes R) {s : State} (h : P s) (n : Nat) :
    (s.receiveBytes n).1.length = n ∧
    R (s.movedSeq ((s.receiveBytes n).1.map fun r => (s.cfg.dummyByte, r))) (s.receiveBytes n).2
      ((s.receiveBytes n).1.flatMap wireBits) := by
  induction n generalizing s with
  | zero => exact ⟨rfl, L.nil s⟩
  | succ n ih =>
    have ht := L.transfer s.cfg.dummyByte h
    have hp : P (s.transfer s.cfg.dummyByte).2 := L.keep ht (L.keepMap (blockUpdate_moved _ _) h)
    have hc : (s.transfer s.cfg.dummyByte).2.cfg = s.cfg := by
      have e := F.cfg ht; exact e
    obtain ⟨hl, hr⟩ := ih hp
    rw [hc] at hr
    exact ⟨by simp [State.receiveBytes, hl], L.trans (L.map (blockUpdate_movedSeq
      ((((s.transfer s.cfg.dummyByte).2.receiveBytes n).1.map fun r => (s.cfg.dummyByte, r)))) ht) hr⟩

/-! ## Brackets -/

theorem EnvLaw.bracket (L : EnvLaw P R) {s : State} (h : P s) (txs : List Byte) :
    ∃ rxs, rxs.length = txs.length ∧ R (s.bracketed (txs.zip rxs)) (s.bracket txs) (rxs.flatMap wireBits) := by
  have h1 := L.pinWrite (s := s) .cs false h
  have p1 := L.keep h1 (L.keepMap (blockUpdate_lineSet _ _) h)
  obtain ⟨rxs, hl, h2⟩ := L.sendBytes p1 txs
  have p2 := L.keep h2 (L.keepMap (blockUpdate_movedSeq _) p1)
  have h3 := L.pinWrite .cs true p2
  refine ⟨rxs, hl, ?_⟩
  have := L.trans (L.trans (L.map (blockUpdate_lineSet .cs true) (L.map (blockUpdate_movedSeq _) h1))
    (L.map (blockUpdate_lineSet .cs true) h2)) h3
  rw [List.nil_append, List.append_nil] at this
  exact this

/-- Format RD: the byte of the third transfer is REGVAL and the result (R111). -/
theorem EnvLaw.readRegister (L : EnvLaw P R) (F : EnvLaw.Fixes R) {s : State} (h : P s) (addr : Byte) :
    ∃ r0 r1, R ((s.bracketed [(s.cfg.opRead, r0), (addr, r1), (s.cfg.dummyByte, (s.readRegister addr).1)]).setRegval
        (s.readRegister addr).1) (s.readRegister addr).2
      ([r0, r1, (s.readRegister addr).1].flatMap wireBits) := by
  have h1 := L.pinWrite (s := s) .cs false h
  have p1 := L.keep h1 (L.keepMap (blockUpdate_lineSet _ _) h)
  obtain ⟨rxs, hl, h2⟩ := L.sendBytes p1 [s.cfg.opRead, addr]
  have p2 := L.keep h2 (L.keepMap (blockUpdate_movedSeq _) p1)
  obtain ⟨r0, r1, rfl⟩ : ∃ r0 r1, rxs = [r0, r1] := by
    match rxs, hl with
    | [a, b], _ => exact ⟨a, b, rfl⟩
  have hc : ((s.pinWrite .cs false).sendBytes [s.cfg.opRead, addr]).cfg = s.cfg := by
    have e1 := F.cfg h1
    have e2 := F.cfg h2
    rw [e2, State.movedSeq_cfg, e1]
    rfl
  generalize hu : (s.pinWrite .cs false).sendBytes [s.cfg.opRead, addr] = u at h2 p2 hc
  have h3 := L.transfer s.cfg.dummyByte p2
  have p3 := L.keep h3 (L.keepMap (blockUpdate_moved s.cfg.dummyByte _) p2)
  have hr : s.readRegister addr =
      ((u.transfer s.cfg.dummyByte).1, ((u.transfer s.cfg.dummyByte).2.setRegval
        (u.transfer s.cfg.dummyByte).1).pinWrite .cs true) := by
    have h4 : P ((u.transfer s.cfg.dummyByte).2.setRegval (u.transfer s.cfg.dummyByte).1) :=
      L.keepMap (blockUpdate_setRegval _) p3
    have hv : (((u.transfer s.cfg.dummyByte).2.setRegval (u.transfer s.cfg.dummyByte).1).pinWrite .cs
        true).scratch.regval = (u.transfer s.cfg.dummyByte).1 := by
      rw [F.scratch (L.pinWrite .cs true h4)]; rfl
    have e : s.readRegister addr =
      ((((u.transfer u.cfg.dummyByte).2.setRegval (u.transfer u.cfg.dummyByte).1).pinWrite .cs
        true).scratch.regval, ((u.transfer u.cfg.dummyByte).2.setRegval
        (u.transfer u.cfg.dummyByte).1).pinWrite .cs true) := by
      simp only [State.readRegister, State.assertSelect, State.deassertSelect, hu]
    rw [e, hc, hv]
  rw [hr]
  have h4 := L.pinWrite (s := (u.transfer s.cfg.dummyByte).2.setRegval (u.transfer s.cfg.dummyByte).1) .cs true
    (L.keepMap (blockUpdate_setRegval _) p3)
  have h5 := L.trans (L.trans (L.trans
    (L.map ((blockUpdate_lineSet .cs true).comp ((blockUpdate_setRegval _).comp ((blockUpdate_moved _ _).comp
      (blockUpdate_movedSeq _)))) h1)
    (L.map ((blockUpdate_lineSet .cs true).comp ((blockUpdate_setRegval _).comp (blockUpdate_moved _ _))) h2))
    (L.map ((blockUpdate_lineSet .cs true).comp (blockUpdate_setRegval _)) h3)) h4
  refine ⟨r0, r1, ?_⟩
  have e : ([r0, r1, (u.transfer s.cfg.dummyByte).1].flatMap wireBits) =
      [] ++ [r0, r1].flatMap wireBits ++ wireBits (u.transfer s.cfg.dummyByte).1 ++ [] := by simp
  rw [e]
  exact h5

/-- Transfers so far, one more. -/
theorem EnvLaw.transfer_next (L : EnvLaw P R) {b u : State} {ys : List (Byte × Byte)} {bits : List Level}
    (hp : P u) (hr : R (b.movedSeq ys) u bits) (tx : Byte) :
    P (u.transfer tx).2 ∧
    R (b.movedSeq (ys ++ [(tx, (u.transfer tx).1)])) (u.transfer tx).2 (bits ++ wireBits (u.transfer tx).1) := by
  have h := L.transfer tx hp
  refine ⟨L.keep h (L.keepMap (blockUpdate_moved tx _) hp), ?_⟩
  rw [State.movedSeq_append]
  exact L.trans (L.map (blockUpdate_moved tx (u.transfer tx).1) hr) h

theorem decodeRx_of_count {guard : RxDlcGuard} {dlcb : Byte} {n : BitVec 4} (h : rxCount guard dlcb = some n)
    {payload : List Byte} (hl : payload.length = n.toNat) (idh idl x y : Byte) :
    decodeRx guard ([idh, idl, x, y, dlcb] ++ payload) = .ok ⟨rxId idh idl, n, payload⟩ := by
  simp only [decodeRx, List.cons_append, List.nil_append, h, hl, if_true]

/-- Format RB: the received bytes, the frame they make, the events of the burst; or the refusal StrictDlc
(R116, R128). -/
theorem EnvLaw.readRxBuffer (L : EnvLaw P R) (F : EnvLaw.Fixes R) {s : State} (h : P s) :
    ∃ r0 idh idl x y dlcb payload,
      match rxCount s.cfg.rxDlcGuard dlcb with
      | none => s.readRxBuffer = .error .strictDlc
      | some n => payload.length = n.toNat ∧
        ∃ t, s.readRxBuffer = .ok (⟨rxId idh idl, n, payload⟩, t) ∧
          R (s.bracketed ((s.cfg.opReadRx0, r0) ::
              ([idh, idl, x, y, dlcb] ++ payload).map fun r => (s.cfg.dummyByte, r))) t
            ((r0 :: [idh, idl, x, y, dlcb] ++ payload).flatMap wireBits) := by
  let d := s.cfg.dummyByte
  let u0 := s.pinWrite .cs false
  let u1 := u0.transfer s.cfg.opReadRx0
  let u2 := u1.2.transfer d
  let u3 := u2.2.transfer d
  let u4 := u3.2.transfer d
  let u5 := u4.2.transfer d
  let u6 := u5.2.transfer d
  have h0 : R ((s.lineSet .cs false).movedSeq []) u0 [] := L.pinWrite (s := s) .cs false h
  have p0 : P u0 := L.keep h0 (L.keepMap (blockUpdate_lineSet _ _) h)
  obtain ⟨p1, h1⟩ := L.transfer_next p0 h0 s.cfg.opReadRx0
  obtain ⟨p2, h2⟩ := L.transfer_next p1 h1 d
  obtain ⟨p3, h3⟩ := L.transfer_next p2 h2 d
  obtain ⟨p4, h4⟩ := L.transfer_next p3 h3 d
  obtain ⟨p5, h5⟩ := L.transfer_next p4 h4 d
  obtain ⟨p6, h6⟩ := L.transfer_next p5 h5 d
  have c0 : u0.cfg = s.cfg := by have e := F.cfg h0; exact e
  have ct : ∀ {u : State} (tx : Byte), P u → (u.transfer tx).2.cfg = u.cfg := by
    intro u tx hp; have e := F.cfg (L.transfer tx hp); exact e
  have c1 : u1.2.cfg = s.cfg := (ct _ p0).trans c0
  have c2 : u2.2.cfg = s.cfg := (ct _ p1).trans c1
  have c3 : u3.2.cfg = s.cfg := (ct _ p2).trans c2
  have c4 : u4.2.cfg = s.cfg := (ct _ p3).trans c3
  have c5 : u5.2.cfg = s.cfg := (ct _ p4).trans c4
  have c6 : u6.2.cfg = s.cfg := (ct _ p5).trans c5
  have e : s.readRxBuffer =
      match rxCount s.cfg.rxDlcGuard u6.1 with
      | none => .error .strictDlc
      | some n =>
        match decodeRx s.cfg.rxDlcGuard ([u2.1, u3.1, 0, 0, u6.1] ++ (u6.2.receiveBytes n.toNat).1) with
        | .error why => .error why
        | .ok f => .ok (f, (u6.2.receiveBytes n.toNat).2.pinWrite .cs true) := by
    have e1 : s.assertSelect.sendBytes [s.cfg.opReadRx0] = u1.2 := rfl
    have e4 : ((u1.2.transfer u1.2.cfg.dummyByte).2.transfer u1.2.cfg.dummyByte).2.sendByte
        u1.2.cfg.dummyByte = u4.2 := by rw [c1]; rfl
    unfold State.readRxBuffer
    simp only [e1, c1, State.deassertSelect]
    rfl
  have p6 : P u6.2 := p6
  have h6 : R ((s.lineSet .cs false).movedSeq [(s.cfg.opReadRx0, u1.1), (s.cfg.dummyByte, u2.1),
      (s.cfg.dummyByte, u3.1), (s.cfg.dummyByte, u4.1), (s.cfg.dummyByte, u5.1), (s.cfg.dummyByte, u6.1)]) u6.2
      ([] ++ wireBits u1.1 ++ wireBits u2.1 ++ wireBits u3.1 ++ wireBits u4.1 ++ wireBits u5.1 ++
        wireBits u6.1) := h6
  clear h0 h1 h2 h3 h4 h5 p0 p1 p2 p3 p4 p5 c0 c1 c2 c3 c4 c5
  clear_value u6 u5 u4 u3 u2 u1 u0
  refine ⟨u1.1, u2.1, u3.1, u4.1, u5.1, u6.1, ?_⟩
  rw [e]
  rcases hn : rxCount s.cfg.rxDlcGuard u6.1 with _ | n
  · exact ⟨[], rfl⟩
  · obtain ⟨hl, hb⟩ := L.receiveBytes F p6 n.toNat
    rw [c6] at hb
    have hall := L.trans (L.map (blockUpdate_movedSeq
      ((u6.2.receiveBytes n.toNat).1.map fun r => (s.cfg.dummyByte, r))) h6) hb
    rw [← State.movedSeq_append] at hall
    have p7 : P (u6.2.receiveBytes n.toNat).2 := L.keep hb (L.keepMap (blockUpdate_movedSeq _) p6)
    have hend := L.trans (L.map (blockUpdate_lineSet .cs true) hall) (L.pinWrite .cs true p7)
    refine ⟨(u6.2.receiveBytes n.toNat).1, hl, (u6.2.receiveBytes n.toNat).2.pinWrite .cs true, ?_, ?_⟩
    · simp only [decodeRx_of_count hn hl]
    · simpa [State.bracketed] using hend

end Sys2Proof.Machine
end

