-- ==== Sys2Proof/Laws/Decode.lean ====
section
/-! SUPPORT. The operands of more than one byte are read back from their layout at the port
(spec/30_encoding.md R91; log 2). -/

namespace Sys2Proof

/-- A list is read back from the port (log 2). -/
theorem takeList_putList (l rest : List Byte) (h : l.length < 256) : takeList (putList l ++ rest) = some (l, rest) := by
  have : (BitVec.ofNat 8 l.length).toNat = l.length := by simp; omega
  simp [takeList, putList, takeBytes, this]

/-- A number is read back from its bytes, behind those of a number already read. -/
theorem foldl_bytesOfNat (k n acc : Nat) :
    (bytesOfNat k n).foldl (fun m b => 256 * m + b.toNat) acc = acc * 256 ^ k + n % 256 ^ k := by
  induction k generalizing acc with
  | zero => simp [bytesOfNat, Nat.mod_one]
  | succ k ih =>
    simp only [bytesOfNat, List.foldl_cons, ih, BitVec.toNat_ofNat]
    have h : n % 256 ^ (k + 1) = n % 256 ^ k + 256 ^ k * (n / 256 ^ k % 2 ^ 8) := Nat.mod_mul
    rw [h]
    ring

@[simp] theorem bytesOfNat_length (k n : Nat) : (bytesOfNat k n).length = k := by
  induction k with
  | zero => rfl
  | succ k ih => simp [bytesOfNat, ih]

/-- A number that fits is read back from its bytes at the port (log 2). -/
theorem takeBytes_bytesOfNat (k n : Nat) (rest : List Byte) (h : n < 256 ^ k) :
    ∃ l, takeBytes k (bytesOfNat k n ++ rest) = some (l, rest) ∧ natOfBytes l = n := by
  refine ⟨bytesOfNat k n, ?_, ?_⟩
  · simp [takeBytes]
  · simp [natOfBytes, foldl_bytesOfNat, Nat.mod_eq_of_lt h]

/-- W_BOUND bits fit their bytes (log 2). -/
theorem two_pow_le_boundBytes (width : Nat) : 2 ^ width ≤ 256 ^ boundBytes width := by
  rw [show (256 : Nat) = 2 ^ 8 from rfl, ← pow_mul]
  exact Nat.pow_le_pow_right (by decide) (by unfold boundBytes; omega)

/-- The two bytes of a word, put together again. -/
theorem append_bytes (b : BitVec 16) : (b.extractLsb' 8 8 ++ b.extractLsb' 0 8 : BitVec 16) = b := by
  apply BitVec.eq_of_getLsbD_eq
  intro i hi
  rw [BitVec.getLsbD_append]
  split
  · simp; omega
  · simp; rw [show 8 + (i - 8) = i by omega]; simp; intro; omega

/-- A frame operand is read back from the port (log 2). -/
theorem takeFrame_putFrame (f : FrameOperand) (rest : List Byte) (h : f.data.length < 256) :
    takeFrame (putFrame f ++ rest) = some (f, rest) := by
  have h2 := append_bytes f.id
  have := takeList_putList f.data rest h
  simp only [putFrame, takeFrame, List.cons_append]
  simp [this, h2]

end Sys2Proof
end

