-- ==== Sys2Proof/Laws/Exec.lean ====
section
/-! SUPPORT. How an operation starts and returns (spec/60_exceptions.md R197 to R199), and the fields of the
state after a select bracket. -/

namespace Sys2Proof.Machine

/-! ## Fields after a bracket -/

theorem State.bracketed_fields (s : State) {xs : List (Byte × Byte)} (h : xs ≠ []) :
    (s.bracketed xs).trace = s.trace ++ bracketEvents xs ∧ (s.bracketed xs).pinCs = true ∧
    (s.bracketed xs).pinSck = false ∧ (s.bracketed xs).pinMosi = (xs.getLast h).1.getLsbD 0 ∧
    (s.bracketed xs).dirSck = s.dirSck ∧ (s.bracketed xs).dirCs = s.dirCs ∧
    (s.bracketed xs).dirMosi = s.dirMosi ∧ (s.bracketed xs).dirMiso = s.dirMiso ∧
    (s.bracketed xs).inited = s.inited ∧ (s.bracketed xs).seq = s.seq ∧ (s.bracketed xs).ret = s.ret ∧
    (s.bracketed xs).port = s.port ∧ (s.bracketed xs).cfg = s.cfg ∧ (s.bracketed xs).env = s.env ∧
    (s.bracketed xs).samples = s.samples ∧ (s.bracketed xs).moves = s.moves ∧ (s.bracketed xs).ctl = s.ctl ∧
    (s.bracketed xs).freeIx = s.freeIx ∧ (s.bracketed xs).scratch.fb = s.scratch.fb ∧
    (s.bracketed xs).scratch.regval = s.scratch.regval ∧ (s.bracketed xs).scratch.tmo = s.scratch.tmo ∧
    (s.bracketed xs).scratch.target = s.scratch.target := by
  rw [State.bracketed_eq s h]
  simp

@[simp] theorem State.bracketed_trace (s : State) (x : Byte × Byte) (xs : List (Byte × Byte)) :
    (s.bracketed (x :: xs)).trace = s.trace ++ bracketEvents (x :: xs) :=
  (s.bracketed_fields (List.cons_ne_nil x xs)).1
@[simp] theorem State.bracketed_pinCs (s : State) (x : Byte × Byte) (xs : List (Byte × Byte)) :
    (s.bracketed (x :: xs)).pinCs = true := (s.bracketed_fields (List.cons_ne_nil x xs)).2.1
@[simp] theorem State.bracketed_pinSck (s : State) (x : Byte × Byte) (xs : List (Byte × Byte)) :
    (s.bracketed (x :: xs)).pinSck = false := (s.bracketed_fields (List.cons_ne_nil x xs)).2.2.1
@[simp] theorem State.bracketed_pinMosi (s : State) (x : Byte × Byte) (xs : List (Byte × Byte)) :
    (s.bracketed (x :: xs)).pinMosi = ((x :: xs).getLast (List.cons_ne_nil x xs)).1.getLsbD 0 :=
  (s.bracketed_fields (List.cons_ne_nil x xs)).2.2.2.1
@[simp] theorem State.bracketed_dirSck (s : State) (x : Byte × Byte) (xs : List (Byte × Byte)) :
    (s.bracketed (x :: xs)).dirSck = s.dirSck := (s.bracketed_fields (List.cons_ne_nil x xs)).2.2.2.2.1
@[simp] theorem State.bracketed_dirCs (s : State) (x : Byte × Byte) (xs : List (Byte × Byte)) :
    (s.bracketed (x :: xs)).dirCs = s.dirCs := (s.bracketed_fields (List.cons_ne_nil x xs)).2.2.2.2.2.1
@[simp] theorem State.bracketed_dirMosi (s : State) (x : Byte × Byte) (xs : List (Byte × Byte)) :
    (s.bracketed (x :: xs)).dirMosi = s.dirMosi := (s.bracketed_fields (List.cons_ne_nil x xs)).2.2.2.2.2.2.1
@[simp] theorem State.bracketed_dirMiso (s : State) (x : Byte × Byte) (xs : List (Byte × Byte)) :
    (s.bracketed (x :: xs)).dirMiso = s.dirMiso := (s.bracketed_fields (List.cons_ne_nil x xs)).2.2.2.2.2.2.2.1
@[simp] theorem State.bracketed_inited (s : State) (x : Byte × Byte) (xs : List (Byte × Byte)) :
    (s.bracketed (x :: xs)).inited = s.inited := (s.bracketed_fields (List.cons_ne_nil x xs)).2.2.2.2.2.2.2.2.1
@[simp] theorem State.bracketed_seq (s : State) (x : Byte × Byte) (xs : List (Byte × Byte)) :
    (s.bracketed (x :: xs)).seq = s.seq := (s.bracketed_fields (List.cons_ne_nil x xs)).2.2.2.2.2.2.2.2.2.1
@[simp] theorem State.bracketed_ret (s : State) (x : Byte × Byte) (xs : List (Byte × Byte)) :
    (s.bracketed (x :: xs)).ret = s.ret := (s.bracketed_fields (List.cons_ne_nil x xs)).2.2.2.2.2.2.2.2.2.2.1
@[simp] theorem State.bracketed_port (s : State) (x : Byte × Byte) (xs : List (Byte × Byte)) :
    (s.bracketed (x :: xs)).port = s.port := (s.bracketed_fields (List.cons_ne_nil x xs)).2.2.2.2.2.2.2.2.2.2.2.1
@[simp] theorem State.bracketed_cfg (s : State) (x : Byte × Byte) (xs : List (Byte × Byte)) :
    (s.bracketed (x :: xs)).cfg = s.cfg := (s.bracketed_fields (List.cons_ne_nil x xs)).2.2.2.2.2.2.2.2.2.2.2.2.1
@[simp] theorem State.bracketed_env (s : State) (x : Byte × Byte) (xs : List (Byte × Byte)) :
    (s.bracketed (x :: xs)).env = s.env := (s.bracketed_fields (List.cons_ne_nil x xs)).2.2.2.2.2.2.2.2.2.2.2.2.2.1
@[simp] theorem State.bracketed_samples (s : State) (x : Byte × Byte) (xs : List (Byte × Byte)) :
    (s.bracketed (x :: xs)).samples = s.samples := (s.bracketed_fields (List.cons_ne_nil x xs)).2.2.2.2.2.2.2.2.2.2.2.2.2.2.1
@[simp] theorem State.bracketed_moves (s : State) (x : Byte × Byte) (xs : List (Byte × Byte)) :
    (s.bracketed (x :: xs)).moves = s.moves := (s.bracketed_fields (List.cons_ne_nil x xs)).2.2.2.2.2.2.2.2.2.2.2.2.2.2.2.1
@[simp] theorem State.bracketed_ctl (s : State) (x : Byte × Byte) (xs : List (Byte × Byte)) :
    (s.bracketed (x :: xs)).ctl = s.ctl := (s.bracketed_fields (List.cons_ne_nil x xs)).2.2.2.2.2.2.2.2.2.2.2.2.2.2.2.2.1
@[simp] theorem State.bracketed_freeIx (s : State) (x : Byte × Byte) (xs : List (Byte × Byte)) :
    (s.bracketed (x :: xs)).freeIx = s.freeIx := (s.bracketed_fields (List.cons_ne_nil x xs)).2.2.2.2.2.2.2.2.2.2.2.2.2.2.2.2.2.1
@[simp] theorem State.bracketed_fb (s : State) (x : Byte × Byte) (xs : List (Byte × Byte)) :
    (s.bracketed (x :: xs)).scratch.fb = s.scratch.fb := (s.bracketed_fields (List.cons_ne_nil x xs)).2.2.2.2.2.2.2.2.2.2.2.2.2.2.2.2.2.2.1
@[simp] theorem State.bracketed_regval (s : State) (x : Byte × Byte) (xs : List (Byte × Byte)) :
    (s.bracketed (x :: xs)).scratch.regval = s.scratch.regval := (s.bracketed_fields (List.cons_ne_nil x xs)).2.2.2.2.2.2.2.2.2.2.2.2.2.2.2.2.2.2.2.1
@[simp] theorem State.bracketed_tmo (s : State) (x : Byte × Byte) (xs : List (Byte × Byte)) :
    (s.bracketed (x :: xs)).scratch.tmo = s.scratch.tmo := (s.bracketed_fields (List.cons_ne_nil x xs)).2.2.2.2.2.2.2.2.2.2.2.2.2.2.2.2.2.2.2.2.1
@[simp] theorem State.bracketed_target (s : State) (x : Byte × Byte) (xs : List (Byte × Byte)) :
    (s.bracketed (x :: xs)).scratch.target = s.scratch.target := (s.bracketed_fields (List.cons_ne_nil x xs)).2.2.2.2.2.2.2.2.2.2.2.2.2.2.2.2.2.2.2.2.2

/-! ## Start and return -/

/-- The state an operation returns in (R197). -/
def State.returned (s : State) (r : Result) : State := { (s.enter .idle).freeScratch with ret := r }

theorem State.finish_of_left {s : State} (h : s.left = none) (r : Result) : s.finish r = .next (s.returned r) := by
  simp only [State.finish, h, State.returned]

theorem State.finish_next {s t : State} {r : Result} (h : s.finish r = .next t) : t = s.returned r := by
  unfold State.finish at h
  split at h
  · cases h
  · cases h; rfl

theorem State.left_oracle {s : State} (h : s.env = .oracle) : s.left = none := by simp only [State.left, h]

theorem State.whenReady_of {s : State} (h : s.ready) (k : Out) : s.whenReady k = k := by
  simp [State.whenReady, h.1, h.2]

theorem State.whenReleased_of {s : State} (h : s.pinCs = true) (k : Out) : s.whenReleased k = k := by
  simp [State.whenReleased, h]

theorem State.whenReady_next {s t : State} {k : Out} (h : s.whenReady k = .next t) : s.ready ∧ k = .next t := by
  unfold State.whenReady at h
  split at h
  · cases h
  · split at h
    · cases h
    · rename_i h1 h2
      exact ⟨⟨by simpa using h1, not_not.1 h2⟩, h⟩

theorem State.whenReleased_next {s t : State} {k : Out} (h : s.whenReleased k = .next t) :
    s.pinCs = true ∧ k = .next t := by
  unfold State.whenReleased at h
  split at h
  · cases h
  · rename_i h1
    exact ⟨by simpa using h1, h⟩

/-- The oracle: an operation returns, in the state the block alone reaches with the answers taken. -/
theorem State.drawn.finish {b t : State} {bits : List Level} (h : b.drawn t bits) (he : b.env = .oracle)
    (r : Result) :
    ∃ n sc, t.finish r = .next { b with
      seq := .idle, scratch := sc, samples := b.samples.drop bits.length, ret := r, freeIx := n } := by
  rw [State.finish_of_left (State.left_oracle ((State.drawn_env h).trans he))]
  obtain ⟨_, n, rfl⟩ := h
  exact ⟨_, _, rfl⟩

/-- The samples of received bytes are eight for each. -/
theorem length_flatMap_wireBits (rxs : List Byte) : (rxs.flatMap wireBits).length = 8 * rxs.length := by
  induction rxs with
  | nil => rfl
  | cons r rxs ih => simp [ih, wireBits]; omega

end Sys2Proof.Machine
end

