-- ==== Sys2Proof/Laws/Driver.lean ====
section
/-! SUPPORT. What the driver operations do, once for all environments (spec/43_driver_operations.md). -/

namespace Sys2Proof.Machine

variable {P : State → Prop} {R : State → State → List Level → Prop}

/-- One more part of an operation: `g` is what the block alone does in it. -/
theorem EnvLaw.next (L : EnvLaw P R) {b u u' : State} {g : State → State} {bits bits' : List Level}
    (hg : BlockUpdate g) (hp : P u) (hr : R b u bits) (h : R (g u) u' bits') :
    P u' ∧ R (g b) u' (bits ++ bits') :=
  ⟨L.keep h (L.keepMap hg hp), L.trans (L.map hg hr) h⟩

/-- A label is entered. -/
theorem EnvLaw.label (L : EnvLaw P R) {b u : State} {bits : List Level} (hp : P u) (hr : R b u bits) (l : Seq) :
    P (u.enter l) ∧ R (b.enter l) (u.enter l) bits :=
  ⟨L.keepMap (blockUpdate_enter l) hp, L.map (blockUpdate_enter l) hr⟩

/-! ## Commands inside an operation -/

theorem length_three {α : Type} {l : List α} (h : l.length = 3) : ∃ a b c, l = [a, b, c] := by
  match l, h with
  | [a, b, c], _ => exact ⟨a, b, c, rfl⟩

theorem length_four {α : Type} {l : List α} (h : l.length = 4) : ∃ a b c d, l = [a, b, c, d] := by
  match l, h with
  | [a, b, c, d], _ => exact ⟨a, b, c, d, rfl⟩

/-- A register is written (R112). -/
theorem EnvLaw.writeNext (L : EnvLaw P R) {b u : State} {bits : List Level} (hp : P u) (hr : R b u bits)
    (addr val : Byte) :
    ∃ r0 r1 r2, P (u.writeRegister addr val) ∧
      R (b.bracketed [(u.cfg.opWrite, r0), (addr, r1), (val, r2)]) (u.writeRegister addr val)
        (bits ++ [r0, r1, r2].flatMap wireBits) := by
  obtain ⟨rxs, hl, h⟩ := L.bracket hp [u.cfg.opWrite, addr, val]
  obtain ⟨r0, r1, r2, rfl⟩ := length_three hl
  exact ⟨r0, r1, r2, L.next (blockUpdate_bracketed _) hp hr h⟩

/-- Bits of a register are modified (R113). -/
theorem EnvLaw.modifyNext (L : EnvLaw P R) {b u : State} {bits : List Level} (hp : P u) (hr : R b u bits)
    (addr mask val : Byte) :
    ∃ r0 r1 r2 r3, P (u.bitModify addr mask val) ∧
      R (b.bracketed [(u.cfg.opBitModify, r0), (addr, r1), (mask, r2), (val, r3)]) (u.bitModify addr mask val)
        (bits ++ [r0, r1, r2, r3].flatMap wireBits) := by
  obtain ⟨rxs, hl, h⟩ := L.bracket hp [u.cfg.opBitModify, addr, mask, val]
  obtain ⟨r0, r1, r2, r3, rfl⟩ := length_four hl
  exact ⟨r0, r1, r2, r3, L.next (blockUpdate_bracketed _) hp hr h⟩

/-- A register is read (R111). -/
theorem EnvLaw.readNext (L : EnvLaw P R) (F : EnvLaw.Fixes R) {b u : State} {bits : List Level} (hp : P u)
    (hr : R b u bits) (addr : Byte) :
    ∃ r0 r1, P (u.readRegister addr).2 ∧
      R ((b.bracketed [(u.cfg.opRead, r0), (addr, r1), (u.cfg.dummyByte, (u.readRegister addr).1)]).setRegval
          (u.readRegister addr).1) (u.readRegister addr).2
        (bits ++ [r0, r1, (u.readRegister addr).1].flatMap wireBits) := by
  obtain ⟨r0, r1, h⟩ := L.readRegister F hp addr
  generalize u.readRegister addr = v at h ⊢
  have hg := (blockUpdate_setRegval v.1).comp
    (blockUpdate_bracketed [(u.cfg.opRead, r0), (addr, r1), (u.cfg.dummyByte, v.1)])
  exact ⟨r0, r1, L.next hg hp hr h⟩

/-- One byte is sent (R110, R115). -/
theorem EnvLaw.opNext (L : EnvLaw P R) {b u : State} {bits : List Level} (hp : P u) (hr : R b u bits)
    (op : Byte) :
    ∃ r0, P (u.bracket [op]) ∧
      R (b.bracketed [(op, r0)]) (u.bracket [op]) (bits ++ [r0].flatMap wireBits) := by
  obtain ⟨rxs, hl, h⟩ := L.bracket hp [op]
  obtain ⟨r0, rfl⟩ := List.length_eq_one_iff.1 hl
  exact ⟨r0, L.next (blockUpdate_bracketed _) hp hr h⟩

/-- The transmit buffer is loaded (R114). -/
theorem EnvLaw.loadNext (L : EnvLaw P R) {b u : State} {bits : List Level} (hp : P u) (hr : R b u bits)
    (f : CanFrame) :
    ∃ r0 rxs, rxs.length = 5 + f.data.length ∧ P (u.loadTxBuffer f) ∧
      R (b.bracketed ((u.cfg.opLoadTx0, r0) :: (encodeTx u.cfg.txReservedByte f).zip rxs)) (u.loadTxBuffer f)
        (bits ++ (r0 :: rxs).flatMap wireBits) := by
  obtain ⟨rxs, hl, h⟩ := L.bracket hp (u.cfg.opLoadTx0 :: encodeTx u.cfg.txReservedByte f)
  obtain ⟨r0, rxs, rfl⟩ := List.exists_cons_of_length_eq_add_one (hl.trans (List.length_cons ..))
  refine ⟨r0, rxs, ?_, L.next (blockUpdate_bracketed _) hp hr h⟩
  have : rxs.length = (encodeTx u.cfg.txReservedByte f).length := by simpa using hl
  rw [this]
  simp [encodeTx]
  omega

/-- The block waits (R208). -/
theorem EnvLaw.delayNext (L : EnvLaw P R) {b u : State} {bits : List Level} (hp : P u) (hr : R b u bits)
    (n : Nat) : P (u.delayMs n) ∧ R (b.emit (.delayMs n)) (u.delayMs n) bits := by
  have h := L.next (g := fun s => s.emit (.delayMs n)) (blockUpdate_emit _) hp hr (L.delayMs n hp)
  rwa [List.append_nil] at h

/-! ## Init -/

/-- What the block alone does up to the first verification of `Init`, given the bytes received. -/
def State.verifiedConfig (s : State) (m : ControllerMode) (r0 q0 q1 v : Byte) : State :=
  (((((((s.setTarget m).enter .poweredOn).bracketed [(s.cfg.opReset, r0)]).enter .settle).emit
    (.delayMs Config.resetSettleMs)).enter .verifyConfig).bracketed
      [(s.cfg.opRead, q0), (s.cfg.addrCanstat, q1), (s.cfg.dummyByte, v)]).setRegval v

/-- The bytes that steps ProgramTiming, ClearFlags, RequestMode and VerifyMode of `Init` receive. -/
structure InitBytes where
  (a0 a1 a2 b0 b1 b2 c0 c1 c2 d0 d1 d2 e0 e1 e2 e3 p0 p1 v : Byte)

/-- The same bytes in the order they are received. -/
def InitBytes.bytes (x : InitBytes) : List Byte :=
  [x.a0, x.a1, x.a2, x.b0, x.b1, x.b2, x.c0, x.c1, x.c2, x.d0, x.d1, x.d2, x.e0, x.e1, x.e2, x.e3, x.p0, x.p1, x.v]

/-- What the block alone does from the first verification of `Init` to the second. -/
def State.verifiedMode (s : State) (x : InitBytes) : State :=
  let c := s.cfg
  let m := s.scratch.target
  let s := (s.enter .programTiming).bracketed [(c.opWrite, x.a0), (c.addrCnf1, x.a1), (c.cnf1Val, x.a2)]
  let s := s.bracketed [(c.opWrite, x.b0), (c.addrCnf2, x.b1), (c.cnf2Val, x.b2)]
  let s := s.bracketed [(c.opWrite, x.c0), (c.addrCnf3, x.c1), (c.cnf3Val, x.c2)]
  let s := (s.enter .clearFlags).bracketed [(c.opWrite, x.d0), (c.addrCanintf, x.d1), (0x00, x.d2)]
  let s := (s.enter .requestMode).bracketed
    [(c.opBitModify, x.e0), (c.addrCanctrl, x.e1), (c.maskReqop, x.e2), (modeRequestByte c m, x.e3)]
  ((s.enter .verifyMode).bracketed [(c.opRead, x.p0), (c.addrCanstat, x.p1), (c.dummyByte, x.v)]).setRegval x.v

theorem EnvLaw.initReset (L : EnvLaw P R) (F : EnvLaw.Fixes R) {s : State} (h : P s) (m : ControllerMode) :
    ∃ r0 q0 q1,
      let u := (s.setTarget m).initReset.enter .verifyConfig
      u.cfg = s.cfg ∧ P (u.readRegister s.cfg.addrCanstat).2 ∧
      R (s.verifiedConfig m r0 q0 q1 (u.readRegister s.cfg.addrCanstat).1)
        (u.readRegister s.cfg.addrCanstat).2
        ([r0, q0, q1, (u.readRegister s.cfg.addrCanstat).1].flatMap wireBits) := by
  have p0 : P ((s.setTarget m).enter .poweredOn) :=
    L.keepMap (blockUpdate_enter _) (L.keepMap (blockUpdate_setTarget m) h)
  obtain ⟨r0, p1, h1⟩ := L.opNext p0 (L.nil _) s.cfg.opReset
  obtain ⟨p2, h2⟩ := L.label p1 h1 .settle
  obtain ⟨p3, h3⟩ := L.delayNext p2 h2 Config.resetSettleMs
  obtain ⟨p4, h4⟩ := L.label p3 h3 .verifyConfig
  have hc := F.cfg h4
  simp only [State.enter_cfg, State.emit_cfg, State.bracketed_cfg, State.setTarget_cfg] at hc
  obtain ⟨q0, q1, p5, h5⟩ := L.readNext F p4 h4 s.cfg.addrCanstat
  rw [State.enter_cfg, hc] at h5
  refine ⟨r0, q0, q1, hc, p5, ?_⟩
  have e : ∀ v, ([] : List Level) ++ [r0].flatMap wireBits ++ [q0, q1, v].flatMap wireBits =
      [r0, q0, q1, v].flatMap wireBits := by intro v; simp
  rw [e] at h5
  exact h5

theorem EnvLaw.initProgram (L : EnvLaw P R) (F : EnvLaw.Fixes R) {b s : State} {bits : List Level} (h : P s)
    (hr : R b s bits) :
    ∃ x : InitBytes,
      let w := s.initProgram.enter .verifyMode
      w.cfg = s.cfg ∧ w.scratch.target = s.scratch.target ∧ P (w.readRegister s.cfg.addrCanstat).2 ∧
      (w.readRegister s.cfg.addrCanstat).1 = x.v ∧
      R (b.verifiedMode x) (w.readRegister s.cfg.addrCanstat).2 (bits ++ x.bytes.flatMap wireBits) := by
  have hb := F.cfg hr
  have hs := F.scratch hr
  obtain ⟨p0, h0⟩ := L.label h hr .programTiming
  obtain ⟨a0, a1, a2, p1, h1⟩ := L.writeNext p0 h0 s.cfg.addrCnf1 s.cfg.cnf1Val
  generalize hu1 : (s.enter .programTiming).writeRegister s.cfg.addrCnf1 s.cfg.cnf1Val = u1 at p1 h1
  have c1 := F.cfg h1
  obtain ⟨b0, b1, b2, p2, h2⟩ := L.writeNext p1 h1 u1.cfg.addrCnf2 u1.cfg.cnf2Val
  generalize hu2 : u1.writeRegister u1.cfg.addrCnf2 u1.cfg.cnf2Val = u2 at p2 h2
  have c2 := F.cfg h2
  obtain ⟨c0, c1', c2', p3, h3⟩ := L.writeNext p2 h2 u2.cfg.addrCnf3 u2.cfg.cnf3Val
  generalize hu3 : u2.writeRegister u2.cfg.addrCnf3 u2.cfg.cnf3Val = u3 at p3 h3
  have c3 := F.cfg h3
  obtain ⟨p3, h3⟩ := L.label p3 h3 .clearFlags
  obtain ⟨d0, d1, d2, p4, h4⟩ := L.writeNext p3 h3 (u3.enter .clearFlags).cfg.addrCanintf 0x00
  generalize hu4 : (u3.enter .clearFlags).writeRegister (u3.enter .clearFlags).cfg.addrCanintf 0x00 = u4 at p4 h4
  have c4 := F.cfg h4
  have s4 := F.scratch h4
  obtain ⟨p4, h4⟩ := L.label p4 h4 .requestMode
  obtain ⟨e0, e1, e2, e3, p5, h5⟩ := L.modifyNext p4 h4 (u4.enter .requestMode).cfg.addrCanctrl
    (u4.enter .requestMode).cfg.maskReqop
    (modeRequestByte (u4.enter .requestMode).cfg (u4.enter .requestMode).scratch.target)
  have hu5 : (u4.enter .requestMode).bitModify (u4.enter .requestMode).cfg.addrCanctrl
    (u4.enter .requestMode).cfg.maskReqop
    (modeRequestByte (u4.enter .requestMode).cfg (u4.enter .requestMode).scratch.target) = s.initProgram := by
    simp only [State.enter_cfg] at hu4
    simp only [State.initProgram, hu1, hu2, hu3, hu4, State.enter_cfg, State.enter_scratch]
  rw [hu5] at p5 h5
  have c5 := F.cfg h5
  have s5 := F.scratch h5
  obtain ⟨p6, h6⟩ := L.label p5 h5 .verifyMode
  obtain ⟨q0, q1, p7, h7⟩ := L.readNext F p6 h6 s.cfg.addrCanstat
  simp only [State.enter_cfg, State.enter_scratch, State.bracketed_cfg] at c1 c2 c3 c4 c5 s4
  have t4 : u4.scratch.target = b.scratch.target := by rw [s4]; simp
  have t5 : s.initProgram.scratch.target = b.scratch.target := by rw [s5]; simp
  refine ⟨⟨a0, a1, a2, b0, b1, b2, c0, c1', c2', d0, d1, d2, e0, e1, e2, e3, q0, q1, _⟩,
    (by simpa using c5.trans hb.symm), (by simpa [hs] using t5), p7, rfl, ?_⟩
  simp only [State.enter_cfg, State.enter_scratch, c1, c2, c3, c4, c5, t4, hb] at h7
  have e : ∀ v, bits ++ [a0, a1, a2].flatMap wireBits ++ [b0, b1, b2].flatMap wireBits ++
      [c0, c1', c2'].flatMap wireBits ++ [d0, d1, d2].flatMap wireBits ++ [e0, e1, e2, e3].flatMap wireBits ++
      [q0, q1, v].flatMap wireBits = bits ++ (InitBytes.bytes
        ⟨a0, a1, a2, b0, b1, b2, c0, c1', c2', d0, d1, d2, e0, e1, e2, e3, q0, q1, v⟩).flatMap wireBits := by
    intro v; simp [InitBytes.bytes]
  rw [e] at h7
  clear h1 h2 h3 h4 h5 h6 p0 p1 p2 p3 p4 p5 p6 hu1 hu2 hu3 hu4 hu5
  rw [hb]
  generalize (s.initProgram.enter .verifyMode).readRegister b.cfg.addrCanstat = w at h7 ⊢
  exact h7

/-- `Init` from TARGET <- target on (R136): the Error of the first verification, or the status of the second. -/
theorem EnvLaw.init (L : EnvLaw P R) (F : EnvLaw.Fixes R) {s : State} (h : P s) (m : ControllerMode) :
    ∃ r0 q0 q1 v,
      if modeField v = s.cfg.modeCodeConfig then
        ∃ (x : InitBytes) (t : State), P t ∧
          R ((s.verifiedConfig m r0 q0 q1 v).verifiedMode x) t (([r0, q0, q1, v] ++ x.bytes).flatMap wireBits) ∧
          s.initRun m =
            if modeField x.v = modeCode s.cfg m then (t.enter .doneOk).finish (.status .ok)
            else (t.enter .doneError).finish (.status .error)
      else
        ∃ t : State, P t ∧ R (s.verifiedConfig m r0 q0 q1 v) t ([r0, q0, q1, v].flatMap wireBits) ∧
          s.initRun m = (t.enter .doneError).finish (.status .error) := by
  obtain ⟨r0, q0, q1, hcfg, p1, h1⟩ := L.initReset F h m
  generalize hu : ((s.setTarget m).initReset.enter .verifyConfig) = u at h1 hcfg p1
  have ec : (s.setTarget m).initReset.cfg = s.cfg := by
    have := congrArg State.cfg hu
    rw [State.enter_cfg] at this
    rw [this, hcfg]
  generalize hv : u.readRegister s.cfg.addrCanstat = v at h1 p1
  have hvc : v.2.cfg = s.cfg := by rw [F.cfg h1]; simp [State.verifiedConfig]
  have hrun : s.initRun m =
      if modeReported s.cfg .configuration v.1 = false then (v.2.enter .doneError).finish (.status .error)
      else
        let w := (v.2.initProgram.enter .verifyMode).readRegister v.2.initProgram.cfg.addrCanstat
        if modeReported v.2.initProgram.cfg w.2.scratch.target w.1 = false then
          (w.2.enter .doneError).finish (.status .error)
        else (w.2.enter .doneOk).finish (.status .ok) := by
    simp only [State.initRun, hu, ec, hv]
  refine ⟨r0, q0, q1, v.1, ?_⟩
  rw [hrun]
  by_cases hmode : modeField v.1 = s.cfg.modeCodeConfig
  · have hm : modeReported s.cfg .configuration v.1 = true := by simp [modeReported, modeCode, hmode]
    rw [if_pos hmode, hm]
    simp only [Bool.true_eq_false, if_false]
    obtain ⟨x, c2, t2, p2, e2, h2⟩ := L.initProgram F p1 h1
    simp only [State.enter_cfg, State.enter_scratch] at c2 t2
    rw [hvc] at c2 p2 e2 h2
    rw [c2]
    generalize (v.2.initProgram.enter .verifyMode).readRegister s.cfg.addrCanstat = w at p2 e2 h2
    have tw : w.2.scratch.target = m := by
      rw [F.scratch h2]
      simp [State.verifiedMode, State.verifiedConfig]
    rw [tw, e2]
    refine ⟨x, w.2, p2, by rw [List.flatMap_append]; exact h2, ?_⟩
    by_cases hm2 : modeField x.v = modeCode s.cfg m <;> simp [modeReported, hm2]
  · have hm : modeReported s.cfg .configuration v.1 = false := by simp [modeReported, modeCode, hmode]
    rw [if_neg hmode, hm, if_pos rfl]
    exact ⟨v.2, p1, h1, rfl⟩

/-! ## Transmit -/

/-- A register read as a part of an operation: what the block alone does. -/
def State.didRead (s : State) (addr : Byte) (r : Byte × Byte × Byte) : State :=
  (s.bracketed [(s.cfg.opRead, r.1), (addr, r.2.1), (s.cfg.dummyByte, r.2.2)]).setRegval r.2.2

/-- The bytes of a register read in the order they are received. -/
def readBytes (r : Byte × Byte × Byte) : List Byte := [r.1, r.2.1, r.2.2]

theorem blockUpdate_didRead (addr : Byte) (c : Cfg) (r : Byte × Byte × Byte) :
    BlockUpdate fun s => (s.bracketed [(c.opRead, r.1), (addr, r.2.1), (c.dummyByte, r.2.2)]).setRegval r.2.2 :=
  (blockUpdate_setRegval _).comp (blockUpdate_bracketed _)

/-- What the block alone does in steps Load and Send of `Transmit`. -/
def State.didSend (s : State) (f : CanFrame) (l0 : Byte) (ls : List Byte) (q : Byte) : State :=
  (((s.enter .load).bracketed ((s.cfg.opLoadTx0, l0) :: (encodeTx s.cfg.txReservedByte f).zip ls)).enter
    .send).bracketed [(s.cfg.opRtsTx0, q)]

/-- `Transmit` (R140): Busy on a set pending bit; else the buffer is loaded and sending requested. -/
theorem EnvLaw.transmit (L : EnvLaw P R) (F : EnvLaw.Fixes R) {s : State} (h : P s) (f : CanFrame) :
    ∃ r : Byte × Byte × Byte,
      let b := ((s.setFb f).enter .checkPending).didRead s.cfg.addrTxb0ctrl r
      if pendingBit s.cfg r.2.2 then
        ∃ t, P t ∧ s.transmitRun f = t.finish (.status .busy) ∧ R b t ((readBytes r).flatMap wireBits)
      else
        ∃ l0 ls q t, ls.length = 5 + f.data.length ∧ P t ∧ s.transmitRun f = t.finish (.status .ok) ∧
          R (b.didSend f l0 ls q) t ((readBytes r ++ l0 :: ls ++ [q]).flatMap wireBits) := by
  have p0 : P ((s.setFb f).enter .checkPending) :=
    L.keepMap (blockUpdate_enter _) (L.keepMap (blockUpdate_setFb f) h)
  obtain ⟨r0, r1, p1, h1⟩ := L.readNext F p0 (L.nil _) s.cfg.addrTxb0ctrl
  generalize hc : ((s.setFb f).enter .checkPending).readRegister s.cfg.addrTxb0ctrl = c at p1 h1
  have cc := F.cfg h1
  have cs := F.scratch h1
  simp only [State.enter_cfg, State.setFb_cfg, State.setRegval_cfg, State.bracketed_cfg] at cc
  have cf : (c.2.enter .load).scratch.fb = f := by simp [cs]
  refine ⟨(r0, r1, c.1), ?_⟩
  dsimp only
  split
  · rename_i hb
    exact ⟨c.2, p1, by simp only [State.transmitRun, State.setFb_cfg, hc, hb, if_true], h1⟩
  · rename_i hb
    obtain ⟨p2, h2⟩ := L.label p1 h1 .load
    obtain ⟨l0, ls, hl, p3, h3⟩ := L.loadNext p2 h2 f
    have c3 := F.cfg h3
    obtain ⟨p4, h4⟩ := L.label p3 h3 .send
    obtain ⟨q, p5, h5⟩ := L.opNext p4 h4 (((c.2.enter .load).loadTxBuffer f).enter .send).cfg.opRtsTx0
    refine ⟨l0, ls, q, _, hl, p5, by simp only [State.transmitRun, State.setFb_cfg, hc, hb, cf]; rfl, ?_⟩
    simp only [State.enter_cfg, State.bracketed_cfg, State.setRegval_cfg, State.setFb_cfg] at c3
    simp only [State.enter_cfg, c3, cc] at h5
    have e : ([] : List Level) ++ [r0, r1, c.1].flatMap wireBits ++ (l0 :: ls).flatMap wireBits ++
        [q].flatMap wireBits = (readBytes (r0, r1, c.1) ++ l0 :: ls ++ [q]).flatMap wireBits := by
      simp [readBytes]
    rw [e] at h5
    simp only [State.didSend, State.didRead, State.setRegval_cfg, State.bracketed_cfg, State.enter_cfg,
      State.setFb_cfg, c3] at h5 ⊢
    exact h5

/-! ## Receive -/

/-- What the block alone does in step Poll of `Receive`. -/
def State.didPoll (s : State) (r : Byte × Byte × Byte) : State := (s.enter .poll).didRead s.cfg.addrCanintf r

theorem blockUpdate_didPoll (c : Cfg) (r : Byte × Byte × Byte) :
    BlockUpdate fun s => ((s.enter .poll).bracketed
      [(c.opRead, r.1), (c.addrCanintf, r.2.1), (c.dummyByte, r.2.2)]).setRegval r.2.2 :=
  (blockUpdate_didRead c.addrCanintf c r).comp (blockUpdate_enter _)

/-- What the block alone does in step ReadFrame of `Receive`: `hs` are the six bytes up to the data-length
code. -/
def State.didBurst (s : State) (r0 : Byte) (rs : List Byte) : State :=
  (s.enter .readFrame).bracketed ((s.cfg.opReadRx0, r0) :: rs.map fun r => (s.cfg.dummyByte, r))

/-- What the block alone does in step ClearFlag of `Receive`. -/
def State.didClear (s : State) (f : CanFrame) (e : Byte × Byte × Byte × Byte) : State :=
  ((s.setFb f).enter .clearFlag).bracketed
    [(s.cfg.opBitModify, e.1), (s.cfg.addrCanintf, e.2.1), (s.cfg.maskRx0if, e.2.2.1), (0x00, e.2.2.2)]

/-- The bytes of a bit-modify command in the order they are received. -/
def modifyBytes (e : Byte × Byte × Byte × Byte) : List Byte := [e.1, e.2.1, e.2.2.1, e.2.2.2]

/-- The rest of a `Receive` whose poll found the flag set (R142): `b` is what the block alone has done. -/
def State.found (P : State → Prop) (R : State → State → List Level → Prop) (b : State) (bits : List Level)
    (o : Except Refusal (Option CanFrame × State)) : Prop :=
  ∃ q0 idh idl x y dlcb payload,
    match rxCount b.cfg.rxDlcGuard dlcb with
    | none => o = .error .strictDlc
    | some n => payload.length = n.toNat ∧ ∃ e t, P t ∧ o = .ok (some ⟨rxId idh idl, n, payload⟩, t) ∧
        R ((b.didBurst q0 ([idh, idl, x, y, dlcb] ++ payload)).didClear ⟨rxId idh idl, n, payload⟩ e) t
          (bits ++ (q0 :: [idh, idl, x, y, dlcb] ++ payload ++ modifyBytes e).flatMap wireBits)

/-- One poll of `Receive` (R142). -/
theorem EnvLaw.receivePoll (L : EnvLaw P R) (F : EnvLaw.Fixes R) {b s : State} {bits : List Level} (h : P s)
    (hr : R b s bits) :
    ∃ r : Byte × Byte × Byte,
      if receiveFlag s.cfg r.2.2 then
        State.found P R (b.didPoll r) (bits ++ (readBytes r).flatMap wireBits) s.receivePoll
      else
        ∃ t, P t ∧ s.receivePoll = .ok (none, t) ∧
          R (b.didPoll r) t (bits ++ (readBytes r).flatMap wireBits) := by
  have hb := F.cfg hr
  obtain ⟨p0, h0⟩ := L.label h hr .poll
  obtain ⟨r0, r1, p1, h1⟩ := L.readNext F p0 h0 (s.enter .poll).cfg.addrCanintf
  generalize hc : (s.enter .poll).readRegister (s.enter .poll).cfg.addrCanintf = c at p1 h1
  have cc := F.cfg h1
  simp only [State.enter_cfg, State.setRegval_cfg, State.bracketed_cfg, ← hb] at cc hc
  have e1 : ((b.enter .poll).bracketed [((s.enter .poll).cfg.opRead, r0), ((s.enter .poll).cfg.addrCanintf, r1),
      ((s.enter .poll).cfg.dummyByte, c.1)]).setRegval c.1 = b.didPoll (r0, r1, c.1) := by
    simp only [State.didPoll, State.didRead, State.enter_cfg, hb]
  rw [e1] at h1
  refine ⟨(r0, r1, c.1), ?_⟩
  dsimp only
  split
  · rename_i hf
    obtain ⟨p2, h2⟩ := L.label p1 h1 .readFrame
    obtain ⟨q0, idh, idl, x, y, dlcb, payload, h3⟩ := L.readRxBuffer F p2
    refine ⟨q0, idh, idl, x, y, dlcb, payload, ?_⟩
    have eb : (b.didPoll (r0, r1, c.1)).cfg = s.cfg := by
      simp only [State.didPoll, State.didRead, State.enter_cfg, State.setRegval_cfg, State.bracketed_cfg, hb]
    rw [eb]
    rw [State.enter_cfg, cc] at h3
    split
    · rename_i hn
      rw [hn] at h3
      simp only [State.receivePoll, hc, hf, Bool.true_eq_false, if_false, h3]
    · rename_i n hn
      rw [hn] at h3
      obtain ⟨hl, t, ht, h3⟩ := h3
      obtain ⟨p3, h3⟩ := L.next (blockUpdate_bracketed _) p2 h2 h3
      have c3 := F.cfg h3
      simp only [State.enter_cfg, State.bracketed_cfg, eb] at c3
      have p4 := L.keepMap (blockUpdate_setFb ⟨rxId idh idl, n, payload⟩) p3
      have h4 := L.map (blockUpdate_setFb ⟨rxId idh idl, n, payload⟩) h3
      obtain ⟨p5, h5⟩ := L.label p4 h4 .clearFlag
      obtain ⟨e0, e1, e2, e3, p6, h6⟩ := L.modifyNext p5 h5 t.cfg.addrCanintf t.cfg.maskRx0if 0x00
      have s6 := F.scratch h6
      refine ⟨hl, (e0, e1, e2, e3), _, p6, ?_, ?_⟩
      · have hfb : (((t.setFb ⟨rxId idh idl, n, payload⟩).enter .clearFlag).bitModify t.cfg.addrCanintf
            t.cfg.maskRx0if 0x00).scratch.fb = ⟨rxId idh idl, n, payload⟩ := by rw [s6]; simp
        simp only [State.receivePoll, State.enter_cfg, hc, hf, Bool.true_eq_false, if_false, ht, hfb,
          State.setFb_cfg]
      · simp only [State.enter_cfg, State.setFb_cfg, c3] at h6
        have ebits : ∀ a, bits ++ [r0, r1, c.1].flatMap wireBits ++
            (q0 :: [idh, idl, x, y, dlcb] ++ payload).flatMap wireBits ++ [e0, e1, e2, e3].flatMap wireBits ++ a =
            bits ++ (readBytes (r0, r1, c.1)).flatMap wireBits ++
              (q0 :: [idh, idl, x, y, dlcb] ++ payload ++ modifyBytes (e0, e1, e2, e3)).flatMap wireBits ++ a := by
          intro a; simp [readBytes, modifyBytes]
        have ebits := ebits []
        rw [List.append_nil, List.append_nil] at ebits
        rw [ebits] at h6
        simp only [State.didClear, State.didBurst, State.bracketed_cfg, State.enter_cfg, eb, c3]
        exact h6
  · rename_i hf
    exact ⟨c.2, p1, by simp only [State.receivePoll, State.enter_cfg, hc, hf, if_true], h1⟩

/-! ## ReceiveWithTimeout -/

/-- One empty iteration of the loop (R144). -/
def State.didWait (s : State) (r : Byte × Byte × Byte) : State :=
  (((s.didPoll r).enter .loop).emit (.delayMs Config.pollStepMs)).setTmo (s.scratch.tmo - 1)

/-- Empty iterations, given by the bytes their polls received. -/
def State.didWaits (s : State) (ps : List (Byte × Byte × Byte)) : State := ps.foldl State.didWait s

/-- `ReceiveWithTimeout` (R144): empty iterations until the bound is exhausted or a poll finds the flag set. -/
theorem EnvLaw.receiveLoop (L : EnvLaw P R) (F : EnvLaw.Fixes R) (n : Nat) {b s : State} {bits : List Level}
    (h : P s) (hr : R b s bits) :
    ∃ ps : List (Byte × Byte × Byte), (∀ p ∈ ps, receiveFlag s.cfg p.2.2 = false) ∧
      ((ps.length = n ∧ ∃ t, P t ∧ s.receiveLoop n = t.finish (.status .timeout) ∧
          R (b.didWaits ps) t (bits ++ (ps.flatMap readBytes).flatMap wireBits)) ∨
        (ps.length < n ∧ ∃ r : Byte × Byte × Byte, receiveFlag s.cfg r.2.2 = true ∧ ∃ o,
          State.found P R ((b.didWaits ps).didPoll r)
            (bits ++ ((ps.flatMap readBytes) ++ readBytes r).flatMap wireBits) o ∧
          s.receiveLoop n =
            match o with
            | .error why => .refused why
            | .ok (some f, t) => t.finish (.okFrame f)
            | .ok (none, t) => t.finish (.status .noMessage))) := by
  induction n generalizing b s bits with
  | zero => exact ⟨[], by simp, .inl ⟨rfl, s, h, rfl, by simpa [State.didWaits] using hr⟩⟩
  | succ n ih =>
    obtain ⟨r, hp⟩ := L.receivePoll F h hr
    split at hp
    · rename_i hf
      refine ⟨[], by simp, .inr ⟨by simp, r, hf, s.receivePoll, by simpa [State.didWaits] using hp, ?_⟩⟩
      obtain ⟨q0, idh, idl, x, y, dlcb, payload, hp⟩ := hp
      split at hp
      · simp only [State.receiveLoop, hp]
      · obtain ⟨_, e, t, _, hp, _⟩ := hp
        simp only [State.receiveLoop, hp]
    · rename_i hf
      obtain ⟨t, pt, ht, hrt⟩ := hp
      obtain ⟨p2, h2⟩ := L.label pt hrt .loop
      obtain ⟨p3, h3⟩ := L.delayNext p2 h2 Config.pollStepMs
      have s3 := F.scratch h3
      have c3 := F.cfg h3
      have cb := F.cfg hr
      have sb := F.scratch hr
      generalize hu : (t.enter .loop).delayMs Config.pollStepMs = u at p3 h3 s3 c3
      have p4 := L.keepMap (blockUpdate_setTmo (u.scratch.tmo - 1)) p3
      have h4 := L.map (blockUpdate_setTmo (u.scratch.tmo - 1)) h3
      have e4 : ((((b.didPoll r).enter .loop).emit (.delayMs Config.pollStepMs)).setTmo (u.scratch.tmo - 1)) =
          b.didWait r := by
        rw [s3]
        simp [State.didWait, State.didPoll, State.didRead]
      rw [e4] at h4
      have hc : (u.setTmo (u.scratch.tmo - 1)).cfg = s.cfg := by
        rw [State.setTmo_cfg, c3]
        simp [State.didPoll, State.didRead, cb]
      obtain ⟨ps, hps, hrest⟩ := ih p4 h4
      rw [hc] at hps hrest
      have eloop : s.receiveLoop (n + 1) = (u.setTmo (u.scratch.tmo - 1)).receiveLoop n := by
        simp only [State.receiveLoop, ht, hu]
      have ebits : ∀ l : List Byte, bits ++ (readBytes r).flatMap wireBits ++ l.flatMap wireBits =
          bits ++ (readBytes r ++ l).flatMap wireBits := by intro l; simp
      refine ⟨r :: ps, List.forall_mem_cons.2 ⟨by simpa using hf, hps⟩, ?_⟩
      rw [eloop]
      rcases hrest with ⟨hl, v, pv, hv, hrv⟩ | ⟨hl, r', hf', o, ho, hv⟩
      · refine .inl ⟨by simp [hl], v, pv, hv, ?_⟩
        rw [ebits] at hrv
        simpa [State.didWaits] using hrv
      · refine .inr ⟨by simp [hl], r', hf', o, ?_, hv⟩
        rw [ebits] at ho
        simpa [State.didWaits] using ho

end Sys2Proof.Machine
end

