-- ==== Sys2Proof/Laws/Inside.lean ====
section
/-! SUPPORT. When the controller's own steps stay inside the reference model: they leave it only by sending an
extended or a remote frame (spec/49_environment_controller_model.md R181; log 12). -/

namespace Sys2Proof.Machine

/-- Inside the model, and with nothing to send but a standard data frame, or in Configuration mode with no other mode
asked for, where nothing is sent (R179). A controller's reset leads to the second. -/
def Controller.inside (c : Controller) : Prop :=
  c.outside = none ∧ (c.standardFrame ∨ c.mode = 0b100 ∧ c.request = 0b100)

/-- Writes to other registers than those that `inside` is about keep it. -/
theorem Controller.inside_wr {c : Controller} (h : c.inside) {a : Nat}
    (ha : a ≠ 0x32 ∧ a ≠ 0x35 ∧ a ≠ 0x0E ∧ a ≠ 0x0F) (v : Byte) : (c.wr a v).inside := by
  have e : ∀ b, b ≠ a → (c.wr a v).rd b = c.rd b := fun b hb => c.rd_wr_of_ne hb v
  simpa only [Controller.inside, Controller.standardFrame, Controller.mode, Controller.request, Controller.wr_outside,
    e 0x32 ha.1.symm, e 0x35 ha.2.1.symm, e 0x0E ha.2.2.1.symm, e 0x0F ha.2.2.2.symm] using h

theorem Controller.inside_wrSeq {c : Controller} (h : c.inside) {a : Nat} (ha : 0x36 ≤ a) (vs : List Byte) :
    (c.wrSeq a vs).inside := by
  induction vs generalizing c a with
  | nil => exact h
  | cons v vs ih => exact ih (Controller.inside_wr h (by omega) v) (by omega)

theorem Controller.inside_sent {c : Controller} (h : c.inside) : c.sent.inside :=
  Controller.inside_wr (Controller.inside_wr h (by decide) _) (by decide) _

theorem Controller.inside_arrive {c : Controller} (h : c.inside) (image : List Byte) : (c.arrive image).inside := by
  unfold Controller.arrive
  split
  · exact Controller.inside_wr h (by decide) _
  · exact Controller.inside_wr (Controller.inside_wrSeq h (by decide) image) (by decide) _

theorem Controller.inside_finishReset {c : Controller} (h : c.inside) (fill : Nat → Byte) :
    (c.finishReset fill).inside := by
  unfold Controller.finishReset
  split
  · refine ⟨h.1, .inr ⟨?_, ?_⟩⟩
    · simp [Controller.mode, Controller.rd, resetReg]
    · simp [Controller.request, Controller.rd, resetReg]
  · exact h

theorem Controller.inside_elapse {c : Controller} (h : c.inside) (fill : Nat → Byte) (n : Nat) :
    (c.elapse fill n).inside := by
  unfold Controller.elapse
  split
  · exact Controller.inside_finishReset h fill
  · exact h

/-- No step of the controller leads outside. -/
theorem Controller.inside_fire {c : Controller} (h : c.inside) (fill : Nat → Byte) (m : EnvMove) :
    (c.fire fill m).inside := by
  cases m with
  | finishReset => exact Controller.inside_finishReset h fill
  | changeMode =>
    show c.changeMode.inside
    unfold Controller.changeMode
    split
    · rename_i hc
      obtain ⟨ho, hs | ⟨hm, hr⟩⟩ := h
      · refine ⟨ho, .inl ?_⟩
        simpa only [Controller.standardFrame, Controller.rd_wr_of_ne c (show 0x32 ≠ 0x0E by decide),
          Controller.rd_wr_of_ne c (show 0x35 ≠ 0x0E by decide)] using hs
      · exact absurd (hr.trans hm.symm) hc.2.1
    · exact h
  | deliverLoopback =>
    show (c.deliverLoopback fill).inside
    unfold Controller.deliverLoopback
    split
    · exact Controller.inside_sent (Controller.inside_arrive h _)
    · exact h
  | sendNormal =>
    show c.sendNormal.inside
    unfold Controller.sendNormal
    split
    · rename_i hc
      obtain ⟨ho, hs | ⟨hm, _⟩⟩ := h
      · refine Controller.inside_sent ?_
        rw [show c.noteBus = c by
          unfold Controller.noteBus; rw [if_neg (by simpa using hs.1), if_neg (by simpa using hs.2)]]
        exact ⟨ho, .inl hs⟩
      · rw [hm] at hc; exact absurd hc.1 (by decide)
    · exact h
  | receive image =>
    show (c.receiveNormal image.toList).inside
    unfold Controller.receiveNormal
    split
    · exact Controller.inside_arrive h _
    · exact h

theorem Controller.inside_release {c : Controller} (h : c.inside) : c.release.inside := by
  unfold Controller.release
  split
  · exact Controller.inside_wr h (by decide) _
  · exact h

theorem Controller.inside_select {c : Controller} (h : c.inside) : c.select.inside := h

theorem State.inside_fireAll {s : State} (h : s.ctl.inside) (ms : List EnvMove) : (s.fireAll ms).ctl.inside := by
  induction ms generalizing s with
  | nil => exact h
  | cons m ms ih => exact ih (s := s.fire m) (Controller.inside_fire h _ m)

/-- No opportunity leads outside, whatever the schedule. -/
theorem State.inside_opportunity {s : State} (h : s.ctl.inside) : s.opportunity.ctl.inside := by
  unfold State.opportunity
  split
  · exact h
  · split
    · exact State.inside_fireAll (s := { s with freeIx := s.freeIx + 1 }) h _
    · rename_i rest _
      exact State.inside_fireAll (s := { s with moves := rest }) h _
  · split
    · exact h
    · rename_i rest _
      exact State.inside_fireAll (s := { s with moves := rest }) h _

/-- The falling edge of CS does not lead outside. -/
theorem State.inside_afterSelect {s : State} (h : s.ctl.inside) : s.afterSelect.ctl.inside := by
  unfold State.afterSelect
  split
  · exact h
  · exact Controller.inside_select (State.inside_opportunity h)
  · exact Controller.inside_select (State.inside_opportunity h)

/-- The rising edge of CS does not lead outside. -/
theorem State.inside_afterRelease {s : State} (h : s.ctl.inside) : s.afterRelease.ctl.inside := by
  have h' : (s.setCtl s.ctl.release).ctl.inside := Controller.inside_release h
  unfold State.afterRelease
  split
  · exact h
  · exact State.inside_opportunity h'
  · exact State.inside_opportunity (State.inside_fireAll h' _)

/-- No write of CS leads outside. -/
theorem State.inside_cs {s : State} (h : s.ctl.inside) (v : Level) : (s.pinWrite .cs v).ctl.inside := by
  have h' : ((s.setLevel .cs v).emit (.pinWrite .cs v)).ctl.inside := h
  unfold State.pinWrite
  cases s.level .cs <;> cases v
  · exact h'
  · exact State.inside_afterRelease h'
  · exact State.inside_afterSelect h'
  · exact h'

theorem State.left_of_inside {s : State} (h : s.ctl.inside) : s.left = none := by
  unfold State.left
  split
  · rfl
  · exact h.1
  · exact h.1

theorem State.left_of_staysInside {s : State} (h : s.staysInside) : s.left = none := by
  rcases h with h | h
  · simp [State.left, h]
  · exact State.left_of_inside ⟨h.1, .inl h.2⟩

end Sys2Proof.Machine
end

