-- ==== Sys2Proof/Machine/Obd.lean ====
section
/-! DEFINITION. The OBD-II session, a CLIENT of the block (spec/44_obd_session_informative.md R150 to R157).
It is out of the block (00_scope.md R5): no operation calls it and `step` does not reach it. It is
transcribed so that nothing the spec settles is lost (log 27). -/

namespace Sys2Proof.Machine

/-- The broadcast functional request identifier (R152). -/
def obdRequestId : BitVec 16 := 0x7DF

/-- The mode-1 positive-response marker (R153). -/
def obdPositiveMode1 : Byte := 0x41

/-- The PID bytes of the four decoders (R154). -/
def obdPidRpm : Byte := 0x0C
def obdPidSpeed : Byte := 0x0D
def obdPidCoolant : Byte := 0x05
def obdPidVoltage : Byte := 0x42

/-- The payload of a request: length field, mode-1 marker, PID, padding (R152). -/
def obdPayload (pid : Byte) : List Byte := [0x02, 0x01, pid, 0x55, 0x55, 0x55, 0x55, 0x55]

/-- A received frame answers the request: bytes 1 and 2 are the marker and the PID; a frame too short to
hold them does not (R153, D39). -/
def obdAccepts (pid : Byte) (f : CanFrame) : Bool :=
  f.data[1]? == some obdPositiveMode1 && f.data[2]? == some pid

/-- What `Request` reports to its caller (R152, R153). -/
inductive ObdReply where
  /-- The accepted response. -/
  | response (f : CanFrame)
  /-- `Timeout`, also for a frame that did not match, or `Busy` (R152, R157). -/
  | status (st : Status)
deriving DecidableEq, Repr

/-- What `Request` reports when `ReceiveWithTimeout` has returned. -/
def obdReply (pid : Byte) (r : Result) : ObdReply :=
  match r with
  | .okFrame f => if obdAccepts pid f then .response f else .status .timeout
  | .status st => .status st
  | .nothing => .status .timeout
  | .byte _ => .status .timeout
  | .bytes _ => .status .timeout
  | .frame _ => .status .timeout

/-- `Request(pid)` (R152): `Transmit`, then one `ReceiveWithTimeout(100)`; a status other than Ok from
`Transmit` is passed on without receiving. The reply stands beside the outcome, and is none when an
operation stopped. -/
def obdRequest (pid : Byte) (s : State) : Out × Option ObdReply :=
  match execTransmit ⟨obdRequestId, 8, obdPayload pid⟩ s with
  | .fault why => (.fault why, none)
  | .refused why => (.refused why, none)
  | .next s =>
    if s.ret = .status .ok then
      match execReceiveWithTimeout Config.obdTimeoutMs s with
      | .fault why => (.fault why, none)
      | .refused why => (.refused why, none)
      | .next s => (.next s, some (obdReply pid s.ret))
    else (.next s, some (obdReply pid s.ret))

/-- Engine speed in rpm: (A·256+B)/4; the value is open when 4 does not divide (R154, R155, N20). -/
def obdRpm (a b : Byte) : Rat :=
  if (a.toNat * 256 + b.toNat) % 4 = 0 then ((a.toNat * 256 + b.toNat) / 4 : Nat)
  else Config.rpmInexact (a.toNat * 256 + b.toNat)

/-- Vehicle speed in km/h (R154). -/
def obdSpeed (a : Byte) : Nat := a.toNat

/-- Coolant temperature in degrees Celsius, signed (R154, R155). -/
def obdCoolant (a : Byte) : Int := (a.toNat : Int) - 40

/-- The quotient (A·256+B)/1000.0 before it is put into a floating-point format (R154). -/
def obdVoltageExact (a b : Byte) : Rat := ((a.toNat * 256 + b.toNat : Nat) : Rat) / 1000

/-- The largest relative error of a rounding to a floating-point format of at least 11 significant bits, in any
direction (PRESUMED: 11 bits are IEEE 754's smallest format; log 27). -/
def obdRoundoff : Rat := 1 / 1024

/-- The relative error of the reported voltage: free up to `obdRoundoff` (R155, N20; log 27). -/
def obdVoltageError (a b : Byte) : Rat :=
  max (-obdRoundoff) (min obdRoundoff (Config.voltsError (a.toNat * 256 + b.toNat)))

/-- Battery voltage in volts: the quotient (A·256+B)/1000.0 as a floating-point number (R154). Format and rounding are
open (R155, N20): a quotient with a finite binary expansion, a multiple of 1/8 V that takes at most 10 bits, is in the
format; any other is off by the free error of its rounding (log 27). -/
def obdVoltage (a b : Byte) : Rat :=
  if (a.toNat * 256 + b.toNat) % 125 = 0 then obdVoltageExact a b
  else obdVoltageExact a b * (1 + obdVoltageError a b)

/-- The data byte A of a response, payload byte 3; none in a frame too short to hold it (R153). -/
def obdByteA (f : CanFrame) : Option Byte := f.data[3]?

/-- The data bytes A and B of a response, payload bytes 3 and 4 (R153). -/
def obdBytesAB (f : CanFrame) : Option (Byte × Byte) :=
  match f.data[3]?, f.data[4]? with
  | some a, some b => some (a, b)
  | _, _ => none

/-- What an accessor reports: a status, with a value when it is Ok (R156). A response too short for its
data bytes is discarded like one that does not match (R153, D39). -/
def obdReport {α : Type} (read : CanFrame → Option α) (r : Option ObdReply) : Option (Status × Option α) :=
  match r with
  | none => none
  | some (.status st) => some (st, none)
  | some (.response f) =>
    match read f with
    | some v => some (.ok, some v)
    | none => some (.timeout, none)

/-- The engine speed accessor (R156). -/
def obdEngineSpeed (s : State) : Out × Option (Status × Option Rat) :=
  let r := obdRequest obdPidRpm s
  (r.1, obdReport (fun f => (obdBytesAB f).map fun ab => obdRpm ab.1 ab.2) r.2)

/-- The vehicle speed accessor (R156). -/
def obdVehicleSpeed (s : State) : Out × Option (Status × Option Nat) :=
  let r := obdRequest obdPidSpeed s
  (r.1, obdReport (fun f => (obdByteA f).map obdSpeed) r.2)

/-- The coolant temperature accessor (R156). -/
def obdCoolantTemperature (s : State) : Out × Option (Status × Option Int) :=
  let r := obdRequest obdPidCoolant s
  (r.1, obdReport (fun f => (obdByteA f).map obdCoolant) r.2)

/-- The battery voltage accessor (R156). -/
def obdBatteryVoltage (s : State) : Out × Option (Status × Option Rat) :=
  let r := obdRequest obdPidVoltage s
  (r.1, obdReport (fun f => (obdBytesAB f).map fun ab => obdVoltage ab.1 ab.2) r.2)

end Sys2Proof.Machine
end

