-- ==== Sys2Proof/Laws/Obd.lean ====
section
/-! SUPPORT. What the voltage decoder of the client above the block can report (spec/44_obd_session_informative.md
R154, R155; log 27). -/

namespace Sys2Proof.Machine

/-- A quotient with a finite binary expansion is reported as it is. -/
theorem obdVoltage_exact {a b : Byte} (h : 125 ∣ a.toNat * 256 + b.toNat) : obdVoltage a b = obdVoltageExact a b :=
  if_pos (Nat.mod_eq_zero_of_dvd h)

theorem obdVoltageExact_nonneg (a b : Byte) : 0 ≤ obdVoltageExact a b := by
  unfold obdVoltageExact; positivity

/-- The error is that of a rounding. -/
theorem abs_obdVoltageError_le (a b : Byte) : |obdVoltageError a b| ≤ obdRoundoff := by
  have h : -obdRoundoff ≤ obdRoundoff := by unfold obdRoundoff; norm_num
  exact abs_le.2 ⟨le_max_left _ _, max_le h (min_le_left _ _)⟩

/-- Every report is the quotient of R154 up to the rounding of a floating-point format. -/
theorem obdVoltage_near (a b : Byte) :
    |obdVoltage a b - obdVoltageExact a b| ≤ obdVoltageExact a b * obdRoundoff := by
  have h0 := obdVoltageExact_nonneg a b
  unfold obdVoltage
  split
  · rw [sub_self, abs_zero]
    exact mul_nonneg h0 (by unfold obdRoundoff; norm_num)
  · rw [show obdVoltageExact a b * (1 + obdVoltageError a b) - obdVoltageExact a b =
      obdVoltageExact a b * obdVoltageError a b by ring, abs_mul, abs_of_nonneg h0]
    exact mul_le_mul_of_nonneg_left (abs_obdVoltageError_le a b) h0

end Sys2Proof.Machine
end

