-- ==== Sys2Proof/Laws/Oracle.lean ====
section
/-! SUPPORT. The block in front of the oracle: from what the block alone does to how an operation returns. -/

namespace Sys2Proof.Machine

/-- The byte sent last in a bracket that only sends. -/
theorem getLast_zip_sent {a : Byte} {l rs : List Byte} (h : rs.length = (a :: l).length)
    (h' : (a :: l).zip rs ≠ []) : (((a :: l).zip rs).getLast h').1 = l.getLastD a := by
  induction l generalizing a rs with
  | nil =>
    obtain ⟨r, rfl⟩ := List.length_eq_one_iff.1 h
    rfl
  | cons b l ih =>
    match rs, h with
    | r :: r' :: rs, h =>
      exact (ih (a := b) (rs := r' :: rs) (by simpa using h) (by simp)).trans (by cases l <;> rfl)

/-- The byte sent last in a burst. -/
theorem getLast_burst_sent (c d r0 r : Byte) (rs : List Byte)
    (h : (c, r0) :: (r :: rs).map (fun r => (d, r)) ≠ []) :
    (((c, r0) :: (r :: rs).map (fun r => (d, r))).getLast h).1 = d := by
  induction rs generalizing r c r0 with
  | nil => rfl
  | cons r' rs ih => exact ih d r r' (by simp)

/-- `b` is `s` after the events `es` of brackets whose last byte was `last`; nothing else but SEQ and the
scratch registers differs. -/
structure State.Near (s b : State) (es : List Event) (last : Byte) : Prop where
  trace : b.trace = s.trace ++ es
  lines : b.linesAfter last
  dirSck : b.dirSck = s.dirSck
  dirCs : b.dirCs = s.dirCs
  dirMosi : b.dirMosi = s.dirMosi
  dirMiso : b.dirMiso = s.dirMiso
  inited : b.inited = s.inited
  port : b.port = s.port
  cfg : b.cfg = s.cfg
  env : b.env = s.env
  samples : b.samples = s.samples
  moves : b.moves = s.moves
  ctl : b.ctl = s.ctl

/-- The block alone has reached `b`, the answers `rxs` have been taken: the operation returns. -/
theorem State.Near.returns {s b t : State} {es : List Event} {last : Byte} (h : s.Near b es last) {rxs : List Byte}
    (hd : b.drawn t (rxs.flatMap wireBits)) (he : s.env = .oracle) (r : Result) :
    ∃ t', t.finish r = .next t' ∧ s.did t' r es rxs last := by
  have hp := hd.1
  obtain ⟨n, sc, hf⟩ := hd.finish (h.env.trans he) r
  refine ⟨_, hf, rfl, h.trace, h.lines, ⟨?_, ?_⟩, ⟨h.dirSck, h.dirCs, h.dirMosi, h.dirMiso, h.inited, rfl, h.port,
    h.cfg, h.env⟩, h.moves, h.ctl, fun a => by simp only [State.reg, h.ctl]⟩
  · rwa [length_flatMap_wireBits, h.samples] at hp
  · rw [← h.samples, ← length_flatMap_wireBits]

/-! ## Prepared answers -/

theorem wireBits_injective : ∀ x y : Byte, wireBits x = wireBits y → x = y := by
  intro x y h
  simp only [wireBits, List.cons.injEq, and_true] at h
  obtain ⟨h7, h6, h5, h4, h3, h2, h1, h0⟩ := h
  apply BitVec.eq_of_getLsbD_eq
  intro i hi
  interval_cases i <;> assumption

/-- The samples determine the bytes. -/
theorem flatMap_wireBits_injective {xs ys : List Byte} (h : xs.flatMap wireBits = ys.flatMap wireBits) : xs = ys := by
  induction xs generalizing ys with
  | nil =>
    cases ys with
    | nil => rfl
    | cons y ys => simp [wireBits] at h
  | cons x xs ih =>
    cases ys with
    | nil => simp [wireBits] at h
    | cons y ys =>
      rw [List.flatMap_cons, List.flatMap_cons] at h
      obtain ⟨h1, h2⟩ := List.append_inj h rfl
      rw [wireBits_injective x y h1, ih h2]

/-- As many bytes as were prepared are received as they were prepared. -/
theorem received_eq {rxs bytes : List Byte} {rest : List Level}
    (h : (bytes.flatMap wireBits ++ rest).take (8 * rxs.length) <+: rxs.flatMap wireBits)
    (hl : rxs.length ≤ bytes.length) : rxs = bytes.take rxs.length := by
  have e : bytes.flatMap wireBits = (bytes.take rxs.length).flatMap wireBits ++
      (bytes.drop rxs.length).flatMap wireBits := by rw [← List.flatMap_append, List.take_append_drop]
  have hn : ((bytes.take rxs.length).flatMap wireBits).length = 8 * rxs.length := by
    rw [length_flatMap_wireBits, List.length_take, Nat.min_eq_left hl]
  rw [e, List.append_assoc, ← hn, List.take_left] at h
  exact (flatMap_wireBits_injective (h.eq_of_length (by rw [hn, length_flatMap_wireBits]))).symm

/-! ## Polls -/

/-- The block alone after one poll (R142). -/
theorem State.near_didPoll (s : State) (r : Byte × Byte × Byte) :
    s.Near (s.didPoll r) (readEvents s.cfg s.cfg.addrCanintf r) s.cfg.dummyByte := by
  constructor <;> simp [State.didPoll, State.didRead, State.linesAfter, readEvents]

/-- The block alone after a burst and the cleared flag (R142). -/
theorem State.Near.didClear {s b : State} {es : List Event} {last : Byte} (h : s.Near b es last) (q0 r : Byte)
    (rs : List Byte) (f : CanFrame) (e : Byte × Byte × Byte × Byte) :
    s.Near ((b.didBurst q0 (r :: rs)).didClear f e)
      (es ++ burstEvents s.cfg q0 (r :: rs) ++ bracketEvents ((clearFlagBytes s.cfg).zip (modifyBytes e))) 0x00 := by
  constructor
  case trace => simp [State.didBurst, State.didClear, burstEvents, h.trace, h.cfg, clearFlagBytes, modifyBytes]
  case lines => simp [State.didClear, State.linesAfter]
  all_goals simp [State.didBurst, State.didClear, h.cfg, h.dirSck, h.dirCs, h.dirMosi, h.dirMiso,
    h.inited, h.port, h.env, h.samples, h.moves, h.ctl]

/-- `b` is `s` after empty iterations of `ReceiveWithTimeout` (R144). -/
structure State.Waited (s b : State) (ps : List (Byte × Byte × Byte)) : Prop where
  trace : b.trace = s.trace ++ emptyPollEvents s.cfg ps
  same : ps = [] → b.pinCs = s.pinCs ∧ b.pinSck = s.pinSck ∧ b.pinMosi = s.pinMosi
  lines : ps ≠ [] → b.linesAfter s.cfg.dummyByte
  dirSck : b.dirSck = s.dirSck
  dirCs : b.dirCs = s.dirCs
  dirMosi : b.dirMosi = s.dirMosi
  dirMiso : b.dirMiso = s.dirMiso
  inited : b.inited = s.inited
  port : b.port = s.port
  cfg : b.cfg = s.cfg
  env : b.env = s.env
  samples : b.samples = s.samples
  moves : b.moves = s.moves
  ctl : b.ctl = s.ctl

theorem State.waited_didWaits (s : State) (ps : List (Byte × Byte × Byte)) : s.Waited (s.didWaits ps) ps := by
  induction ps using List.reverseRecOn with
  | nil => constructor <;> simp [State.didWaits, emptyPollEvents]
  | append_singleton ps p ih =>
    have e : s.didWaits (ps ++ [p]) = (s.didWaits ps).didWait p := List.foldl_append
    rw [e]
    constructor
    case trace => simp [State.didWait, State.didPoll, State.didRead, ih.trace, emptyPollEvents, ih.cfg, readEvents]
    case same => simp
    case lines => simp [State.didWait, State.didPoll, State.didRead, State.linesAfter, ih.cfg]
    all_goals simp [State.didWait, State.didPoll, State.didRead, ih.cfg, ih.dirSck, ih.dirCs, ih.dirMosi,
      ih.dirMiso, ih.inited, ih.port, ih.env, ih.samples, ih.moves, ih.ctl]

/-- A poll after empty iterations. -/
theorem State.Waited.near_didPoll {s b : State} {ps : List (Byte × Byte × Byte)} (h : s.Waited b ps)
    (r : Byte × Byte × Byte) :
    s.Near (b.didPoll r) (emptyPollEvents s.cfg ps ++ readEvents s.cfg s.cfg.addrCanintf r) s.cfg.dummyByte := by
  constructor
  case trace => simp [State.didPoll, State.didRead, h.trace, readEvents, h.cfg]
  case lines => simp [State.didPoll, State.didRead, State.linesAfter, h.cfg]
  all_goals simp [State.didPoll, State.didRead, h.cfg, h.dirSck, h.dirCs, h.dirMosi, h.dirMiso,
    h.inited, h.port, h.env, h.samples, h.moves, h.ctl]

end Sys2Proof.Machine
end

