-- ==== Sys2Proof/Laws/PerInstr.lean ====
section
/-! SUPPORT. Statements for every operation, as lemmas per constructor: the family Encoding (spec/30_encoding.md
R91). -/

namespace Sys2Proof.Laws.Encoding

/-- The request of an operation starts with one of the selectors of R91, and fits the longest request. -/
def Statement (i : Instr) : Prop :=
  (∀ width, (encode width i).head? = some i.opsel) ∧
  i.opsel ∈ ([0x00, 0x01, 0x02, 0x03, 0x10, 0x11, 0x12, 0x13, 0x14, 0x15, 0x16, 0x20, 0x21, 0x30, 0x31, 0x32,
    0x33] : List Byte) ∧
  ∀ width, i.portable width → (encode width i).length ≤ maxRequestBytes width

theorem spiInit : Statement .spiInit :=
  ⟨fun _ => rfl, by simp [Instr.opsel], fun _ _ => by simp [encode, Instr.operandBytes, maxRequestBytes]⟩

theorem assertSelect : Statement .assertSelect :=
  ⟨fun _ => rfl, by simp [Instr.opsel], fun _ _ => by simp [encode, Instr.operandBytes, maxRequestBytes]⟩

theorem deassertSelect : Statement .deassertSelect :=
  ⟨fun _ => rfl, by simp [Instr.opsel], fun _ _ => by simp [encode, Instr.operandBytes, maxRequestBytes]⟩

theorem transfer (tx : Byte) : Statement (.transfer tx) :=
  ⟨fun _ => rfl, by simp [Instr.opsel], fun _ _ => by simp [encode, Instr.operandBytes, maxRequestBytes]⟩

theorem cmdReset : Statement .cmdReset :=
  ⟨fun _ => rfl, by simp [Instr.opsel], fun _ _ => by simp [encode, Instr.operandBytes, maxRequestBytes]⟩

theorem cmdReadRegister (addr : Byte) : Statement (.cmdReadRegister addr) :=
  ⟨fun _ => rfl, by simp [Instr.opsel], fun _ _ => by simp [encode, Instr.operandBytes, maxRequestBytes]⟩

theorem cmdWriteRegister (addr val : Byte) : Statement (.cmdWriteRegister addr val) :=
  ⟨fun _ => rfl, by simp [Instr.opsel], fun _ _ => by simp [encode, Instr.operandBytes, maxRequestBytes]⟩

theorem cmdBitModify (addr mask val : Byte) : Statement (.cmdBitModify addr mask val) :=
  ⟨fun _ => rfl, by simp [Instr.opsel], fun _ _ => by simp [encode, Instr.operandBytes, maxRequestBytes]⟩

theorem cmdLoadTxBuffer (id : BitVec 16) (dlc : Byte) (data : List Byte) : Statement (.cmdLoadTxBuffer id dlc data) :=
  ⟨fun _ => rfl, by simp [Instr.opsel], fun _ h => by
    simp only [Instr.portable] at h
    simp [encode, Instr.operandBytes, putFrame, putList, maxRequestBytes]
    omega⟩

theorem cmdRequestToSend : Statement .cmdRequestToSend :=
  ⟨fun _ => rfl, by simp [Instr.opsel], fun _ _ => by simp [encode, Instr.operandBytes, maxRequestBytes]⟩

theorem cmdReadRxBuffer : Statement .cmdReadRxBuffer :=
  ⟨fun _ => rfl, by simp [Instr.opsel], fun _ _ => by simp [encode, Instr.operandBytes, maxRequestBytes]⟩

theorem encodeTxBuffer (frame : FrameOperand) : Statement (.encodeTxBuffer frame) :=
  ⟨fun _ => rfl, by simp [Instr.opsel], fun _ h => by
    simp only [Instr.portable] at h
    simp [encode, Instr.operandBytes, putFrame, putList, maxRequestBytes]
    omega⟩

theorem decodeRxBuffer (bytes : List Byte) : Statement (.decodeRxBuffer bytes) :=
  ⟨fun _ => rfl, by simp [Instr.opsel], fun _ h => by
    simp only [Instr.portable] at h
    simp [encode, Instr.operandBytes, putList, maxRequestBytes]
    omega⟩

theorem init (target : ControllerMode) : Statement (.init target) :=
  ⟨fun _ => rfl, by simp [Instr.opsel], fun _ _ => by simp [encode, Instr.operandBytes, maxRequestBytes]⟩

theorem transmit (frame : FrameOperand) : Statement (.transmit frame) :=
  ⟨fun _ => rfl, by simp [Instr.opsel], fun _ h => by
    simp only [Instr.portable] at h
    simp [encode, Instr.operandBytes, putFrame, putList, maxRequestBytes]
    omega⟩

theorem receive : Statement .receive :=
  ⟨fun _ => rfl, by simp [Instr.opsel], fun _ _ => by simp [encode, Instr.operandBytes, maxRequestBytes]⟩

theorem receiveWithTimeout (bound : Nat) : Statement (.receiveWithTimeout bound) :=
  ⟨fun _ => rfl, by simp [Instr.opsel], fun _ _ => by simp [encode, Instr.operandBytes, maxRequestBytes]⟩

end Sys2Proof.Laws.Encoding
end

