-- ==== Sys2Proof/Laws/Returns.lean ====
section
/-! SUPPORT. How an operation returns in every environment (spec/60_exceptions.md R197), and the line
operations of spec/40_spi_transport.md R101 to R103. -/

namespace Sys2Proof.Machine

/-- An operation returns, in every environment: `b` is what the block alone has done (R197). -/
theorem State.envStep.finish {b u t : State} {r : Result} (h : b.envStep u) (hf : u.finish r = .next t) :
    t.ret = r ∧ t.trace = b.trace ∧ t.pinCs = b.pinCs ∧ t.pinSck = b.pinSck ∧ t.pinMosi = b.pinMosi ∧
    t.dirSck = b.dirSck ∧ t.dirCs = b.dirCs ∧ t.dirMosi = b.dirMosi ∧ t.dirMiso = b.dirMiso ∧
    t.inited = b.inited ∧ t.seq = .idle ∧ t.port = b.port ∧ t.cfg = b.cfg ∧ t.env = b.env ∧
    (b.ctl.reg.wf → t.ctl.reg.wf) := by
  obtain ⟨_, _, _, _, hw, rfl⟩ := h
  rw [State.finish_next hf]
  exact ⟨rfl, rfl, rfl, rfl, rfl, rfl, rfl, rfl, rfl, rfl, rfl, rfl, rfl, rfl, hw⟩

/-- A line that has the level already: no edge. -/
theorem State.pinWrite_same {s : State} {p : OutLine} {v : Level} (h : s.level p = v) :
    s.pinWrite p v = s.lineSet p v := by
  unfold State.pinWrite State.lineSet
  rw [h]; cases p <;> cases v <;> rfl

/-- The block alone after the seven events of `SpiInit` (R101). -/
def State.spiInited (s : State) : State :=
  { s with
    dirSck := .output
    dirCs := .output
    dirMosi := .output
    dirMiso := .input
    pinCs := true
    pinSck := false
    pinMosi := false
    inited := true
    trace := s.trace ++ spiInitEvents }

/-- `SpiInit`, in every environment (R101). -/
theorem State.spiInit_envStep (s : State) : s.spiInited.envStep s.spiInit := by
  let s1 := (((s.pinDir .sck .output).pinDir .cs .output).pinDir .mosi .output).pinDir .miso .input
  have h1 := State.pinWrite_envStep s1 .cs true
  have h2 := (State.emit_envStep_congr (State.setLevel_envStep_congr h1 .sck false) (.pinWrite .sck false)).trans
    (State.pinWrite_envStep _ .sck false)
  have h3 := (State.emit_envStep_congr (State.setLevel_envStep_congr h2 .mosi false) (.pinWrite .mosi false)).trans
    (State.pinWrite_envStep _ .mosi false)
  obtain ⟨a, b, c, d, hw, h⟩ := h3
  refine ⟨a, b, c, d, hw, ?_⟩
  have e : s.spiInit = { ((s1.pinWrite .cs true).pinWrite .sck false).pinWrite .mosi false with inited := true } := rfl
  rw [e, h]
  simp [State.spiInited, s1, State.emit, State.setLevel, State.pinDir, State.setDir, spiInitEvents]

/-- `SpiInit` where no edge reaches the controller. -/
theorem State.spiInit_still {s : State} (h : s.env = .oracle ∨ s.pinCs = true ∧ s.pinSck = false) :
    s.spiInit = s.spiInited := by
  let s1 := (((s.pinDir .sck .output).pinDir .cs .output).pinDir .mosi .output).pinDir .miso .input
  have h1 : s1.pinWrite .cs true = s1.lineSet .cs true := by
    rcases h with h | h
    · exact State.pinWrite_oracle (s := s1) h _ _
    · exact State.pinWrite_same (s := s1) h.1
  have h2 : (s1.lineSet .cs true).pinWrite .sck false = (s1.lineSet .cs true).lineSet .sck false := by
    rcases h with h | h
    · exact State.pinWrite_oracle (s := s1.lineSet .cs true) h _ _
    · exact State.pinWrite_same (s := s1.lineSet .cs true) h.2
  have e : s.spiInit = { ((s1.pinWrite .cs true).pinWrite .sck false).pinWrite .mosi false with inited := true } := rfl
  rw [e, h1, h2]
  simp [s1, State.spiInited, State.lineSet, State.emit, State.setLevel, State.pinDir, State.setDir, spiInitEvents,
    State.pinWrite, State.notify]

end Sys2Proof.Machine
end

