-- ==== Sys2Proof/Laws/Simulator.lean ====
section
/-! SUPPORT. The block in front of the deterministic simulator, byte by byte
(spec/49_environment_controller_model.md R162, R163, R180). -/

namespace Sys2Proof.Machine

/-! ## The byte step does not look at the wire -/

/-- The controller with another state of the running byte. -/
def Controller.onWire (c : Controller) (shiftIn : Byte) (edges : Nat) : Controller :=
  { c with shiftIn := shiftIn, edges := edges }

theorem Controller.wr_onWire (c : Controller) (x : Byte) (n a : Nat) (v : Byte) :
    (c.onWire x n).wr a v = (c.wr a v).onWire x n := rfl

theorem Controller.note_onWire (c : Controller) (x : Byte) (n : Nat) (w : Outside) :
    (c.onWire x n).note w = (c.note w).onWire x n := rfl

theorem Controller.regWrite_onWire (c : Controller) (x : Byte) (n : Nat) (a : RegAddr) (m v : Byte) :
    (c.onWire x n).regWrite a m v = (c.regWrite a m v).onWire x n := by
  simp only [Controller.regWrite, Controller.noteWrite, Controller.noteCanctrl]
  repeat' split
  all_goals first | rfl | (exfalso; simp_all [Controller.onWire, Controller.mode, Controller.rd, Controller.wr, Controller.request, Controller.pending])

theorem Controller.requestToSend_onWire (c : Controller) (x : Byte) (n : Nat) :
    (c.onWire x n).requestToSend = c.requestToSend.onWire x n := by
  unfold Controller.requestToSend
  cases h : c.settling <;> (simp [Controller.onWire, h]; try rfl)

theorem Controller.opcode_onWire (c : Controller) (x : Byte) (n : Nat) (ib : Byte) :
    (c.onWire x n).opcode ib = (c.opcode ib).onWire x n := by
  unfold Controller.opcode
  rw [Controller.requestToSend_onWire]
  repeat' split
  all_goals rfl

theorem Controller.address_onWire (c : Controller) (x : Byte) (n : Nat) (ib : Byte) (p : Parser) :
    (c.onWire x n).address ib p = (c.address ib p).onWire x n := by
  unfold Controller.address
  split <;> rfl

theorem Controller.byteStep_onWire (c : Controller) (x : Byte) (n : Nat) (ib : Byte) :
    (c.onWire x n).byteStep ib = (c.byteStep ib).onWire x n := by
  have hp : (c.onWire x n).pst = c.pst := rfl
  unfold Controller.byteStep
  rw [hp]
  split
  all_goals first
    | rfl
    | exact Controller.opcode_onWire c x n ib
    | exact Controller.address_onWire c x n ib _
    | (simp only [Controller.regWrite_onWire]; rfl)

/-- No command changes the byte being driven before the byte has ended. -/
theorem Controller.byteStep_outByte (c : Controller) (ib : Byte) : (c.byteStep ib).outByte = c.outByte := by
  unfold Controller.byteStep
  split
  all_goals try rfl
  all_goals
    simp only [Controller.opcode, Controller.address, Controller.regWrite, Controller.requestToSend,
      Controller.startReset, Controller.noteWrite, Controller.noteCanctrl]
    repeat' split
    all_goals rfl

/-- The controller after a whole byte of a bracket. -/
def Controller.taken (c : Controller) (ib : Byte) : Controller := (c.byteStep ib).nextByte

/-- The byte a sample of the controller's output reads as, in the simulator (R162). -/
def Controller.answer (c : Controller) : Byte := c.outByte.getD 0

/-! ## One bit -/

/-- The simulator is attached, the bracket is open and the clock is low; no reception is waiting. -/
structure State.Open (s : State) : Prop where
  env : s.env = .simulator
  cs : s.pinCs = false
  sck : s.pinSck = false
  moves : s.moves = []

theorem State.opportunity_sim {s : State} (h : s.env = .simulator) (hm : s.moves = []) : s.opportunity = s := by
  simp only [State.opportunity, h, hm]

/-- The controller after one clock pulse. -/
def Controller.pulse (c : Controller) (b : Level) : Controller :=
  if (c.clockRise b).edges = 8 then (c.clockRise b).nextByte else c.clockRise b

theorem Controller.clockRise_edges (c : Controller) (b : Level) : (c.clockRise b).edges = c.edges + 1 := by
  unfold Controller.clockRise
  dsimp only
  split
  · exact congrArg Controller.edges (Controller.byteStep_onWire c _ (c.edges + 1) _)
  · rfl

theorem Controller.clockRise_outByte (c : Controller) (b : Level) : (c.clockRise b).outByte = c.outByte := by
  unfold Controller.clockRise
  dsimp only
  split
  · exact Controller.byteStep_outByte _ _
  · rfl

theorem State.transferBit_sim {s : State} (h : s.Open) {i : Fin 8} (he : s.ctl.edges + i.val = 7) :
    s.transferBit i =
      (s.bitMoved i (s.ctl.answer.getLsbD i.val)).setCtl (s.ctl.pulse (s.scratch.txsr.getLsbD i.val)) := by
  obtain ⟨h1, h2, h3, h4⟩ := h
  generalize hv : s.scratch.txsr.getLsbD i.val = v
  have e1 : (s.setBitcnt i).pinWrite .mosi v =
      { s with scratch := { s.scratch with bitcnt := i }, pinMosi := v, trace := s.trace ++ [.pinWrite .mosi v] } := rfl
  have e2 : ((s.setBitcnt i).pinWrite .mosi v).pinWrite .sck true =
      { s with
        scratch := { s.scratch with bitcnt := i }, pinMosi := v, pinSck := true
        trace := s.trace ++ [.pinWrite .mosi v] ++ [.pinWrite .sck true], ctl := s.ctl.clockRise v } := by
    rw [e1]
    simp only [State.pinWrite, State.setLevel_sck, State.level_sck, State.emit, h3, State.notify,
      State.afterClockRise, h1, h2, State.setCtl, Bool.false_eq_true, if_false]
  have e3 : (((s.setBitcnt i).pinWrite .mosi v).pinWrite .sck true).pinRead =
      (s.ctl.answer.getLsbD i.val, { s with
        scratch := { s.scratch with bitcnt := i }, pinMosi := v, pinSck := true
        trace := s.trace ++ [.pinWrite .mosi v] ++ [.pinWrite .sck true] ++ [.pinRead (s.ctl.answer.getLsbD i.val)]
        ctl := s.ctl.clockRise v }) := by
    rw [e2]
    have hi : 8 - (s.ctl.edges + 1) = i.val := by omega
    simp only [State.pinRead, State.sample, h1, State.driven, h2, Bool.false_eq_true, if_false,
      Controller.drive, Controller.clockRise_outByte, Controller.clockRise_edges, if_true, hi]
    rcases ho : s.ctl.outByte with _ | ob <;> simp [Controller.answer, ho, State.emit]
  unfold State.transferBit
  simp only [State.setBitcnt_txsr, hv, e3]
  simp only [State.pinWrite, State.setRxsrBit, State.setLevel_sck, State.level_sck, State.emit, State.notify,
    State.afterClockFall, h1, h2, true_and, State.bitMoved, hv, Controller.pulse, bitEvents]
  split
  · simp [State.byteEnd, State.opportunity, h4, State.setCtl]
  · simp [State.setCtl]

/-! ## One byte -/

theorem Controller.pulse_early {c : Controller} (h : c.edges < 7) (b : Level) :
    c.pulse b = c.onWire (c.shiftIn <<< 1 ||| BitVec.ofNat 8 b.toNat) (c.edges + 1) := by
  have h8 : ¬ c.edges + 1 = 8 := by omega
  unfold Controller.pulse
  rw [Controller.clockRise_edges, if_neg h8]
  unfold Controller.clockRise
  dsimp only
  rw [if_neg h8]
  rfl

theorem Controller.pulse_last {c : Controller} (h : c.edges = 7) (b : Level) :
    c.pulse b = c.taken (c.shiftIn <<< 1 ||| BitVec.ofNat 8 b.toNat) := by
  unfold Controller.pulse
  rw [Controller.clockRise_edges, h, if_pos rfl]
  unfold Controller.clockRise Controller.taken
  dsimp only
  rw [h, if_pos rfl]
  have e := Controller.byteStep_onWire c (c.shiftIn <<< 1 ||| BitVec.ofNat 8 b.toNat) 8
    (c.shiftIn <<< 1 ||| BitVec.ofNat 8 b.toNat)
  exact (congrArg Controller.nextByte e).trans rfl

/-- Eight levels shifted in, most significant first, make the byte, whatever was there. -/
theorem shiftedIn (x tx : Byte) :
    (((((((((x <<< 1 ||| BitVec.ofNat 8 (tx.getLsbD 7).toNat) <<< 1 ||| BitVec.ofNat 8 (tx.getLsbD 6).toNat) <<< 1 |||
      BitVec.ofNat 8 (tx.getLsbD 5).toNat) <<< 1 ||| BitVec.ofNat 8 (tx.getLsbD 4).toNat) <<< 1 |||
      BitVec.ofNat 8 (tx.getLsbD 3).toNat) <<< 1 ||| BitVec.ofNat 8 (tx.getLsbD 2).toNat) <<< 1 |||
      BitVec.ofNat 8 (tx.getLsbD 1).toNat) <<< 1 ||| BitVec.ofNat 8 (tx.getLsbD 0).toNat)) = tx := by
  have hb : ∀ (b : Bool) (j : Nat), (BitVec.ofNat 8 b.toNat).getLsbD j = (decide (j = 0) && b) := by
    intro b j
    cases b
    · simp
    · rcases j with _ | j
      · rfl
      · simp
  apply BitVec.eq_of_getLsbD_eq
  intro j hj
  simp only [BitVec.getLsbD_or, BitVec.getLsbD_shiftLeft, hb]
  interval_cases j <;> simp

theorem byteOfWire_wireBits : ∀ b : Byte, byteOfWire (b.getLsbD 7) (b.getLsbD 6) (b.getLsbD 5) (b.getLsbD 4)
    (b.getLsbD 3) (b.getLsbD 2) (b.getLsbD 1) (b.getLsbD 0) = b := by decide +kernel

theorem State.Open.bitsMoved {s : State} (h : s.Open) (l : List (Fin 8 × Level)) (c : Controller) :
    ((s.bitsMoved l).setCtl c).Open ∧ (s.bitsMoved l).scratch.txsr = s.scratch.txsr := by
  suffices (s.bitsMoved l).Open ∧ (s.bitsMoved l).scratch.txsr = s.scratch.txsr from
    ⟨⟨this.1.env, this.1.cs, this.1.sck, this.1.moves⟩, this.2⟩
  induction l generalizing s with
  | nil => exact ⟨h, rfl⟩
  | cons x l ih => exact ih (s := s.bitMoved x.1 x.2) ⟨h.env, h.cs, rfl, h.moves⟩

/-- `Transfer` in front of the simulator: the byte received is the one it drives, and it takes the byte sent
(R163). -/
theorem State.transfer_sim {s : State} (h : s.Open) (he : s.ctl.edges = 0) (tx : Byte) :
    s.transfer tx = (s.ctl.answer, (s.moved tx s.ctl.answer).setCtl (s.ctl.taken tx)) := by
  let s0 := (s.setTxsr tx).clearRxsr
  have h0 : s0.Open := ⟨h.env, h.cs, h.sck, h.moves⟩
  have step : ∀ (l : List (Fin 8 × Level)) (c : Controller) (i : Fin 8), c.edges + i.val = 7 →
      c.outByte = s.ctl.outByte →
      ((s0.bitsMoved l).setCtl c).transferBit i =
        (s0.bitsMoved (l ++ [(i, s.ctl.answer.getLsbD i.val)])).setCtl (c.pulse (tx.getLsbD i.val)) := by
    intro l c i hc ho
    obtain ⟨hop, htx⟩ := h0.bitsMoved l c
    rw [State.transferBit_sim hop hc]
    have ha : c.answer = s.ctl.answer := by simp only [Controller.answer, ho]
    have htx' : (s0.bitsMoved l).scratch.txsr = tx := htx
    have hl : s0.bitsMoved (l ++ [(i, s.ctl.answer.getLsbD i.val)]) =
        (s0.bitsMoved l).bitMoved i (s.ctl.answer.getLsbD i.val) := List.foldl_append
    rw [hl]
    generalize s0.bitsMoved l = u at htx'
    simp only [State.setCtl_ctl, State.setCtl_scratch, htx', ha, State.bitMoved]
    rfl
  have hfold : [7, 6, 5, 4, 3, 2, 1, 0].foldl State.transferBit s0 =
      (s.moved tx s.ctl.answer).setCtl (s.ctl.taken tx) := by
    let x7 := s.ctl.onWire (s.ctl.shiftIn <<< 1 ||| BitVec.ofNat 8 (tx.getLsbD 7).toNat) 1
    let x6 := s.ctl.onWire (x7.shiftIn <<< 1 ||| BitVec.ofNat 8 (tx.getLsbD 6).toNat) 2
    let x5 := s.ctl.onWire (x6.shiftIn <<< 1 ||| BitVec.ofNat 8 (tx.getLsbD 5).toNat) 3
    let x4 := s.ctl.onWire (x5.shiftIn <<< 1 ||| BitVec.ofNat 8 (tx.getLsbD 4).toNat) 4
    let x3 := s.ctl.onWire (x4.shiftIn <<< 1 ||| BitVec.ofNat 8 (tx.getLsbD 3).toNat) 5
    let x2 := s.ctl.onWire (x3.shiftIn <<< 1 ||| BitVec.ofNat 8 (tx.getLsbD 2).toNat) 6
    let x1 := s.ctl.onWire (x2.shiftIn <<< 1 ||| BitVec.ofNat 8 (tx.getLsbD 1).toNat) 7
    have p7 : s.ctl.pulse (tx.getLsbD 7) = x7 := by
      rw [Controller.pulse_early (by omega), he]
    have p6 : x7.pulse (tx.getLsbD 6) = x6 := Controller.pulse_early (c := x7) (show 1 < 7 by decide) _
    have p5 : x6.pulse (tx.getLsbD 5) = x5 := Controller.pulse_early (c := x6) (show 2 < 7 by decide) _
    have p4 : x5.pulse (tx.getLsbD 4) = x4 := Controller.pulse_early (c := x5) (show 3 < 7 by decide) _
    have p3 : x4.pulse (tx.getLsbD 3) = x3 := Controller.pulse_early (c := x4) (show 4 < 7 by decide) _
    have p2 : x3.pulse (tx.getLsbD 2) = x2 := Controller.pulse_early (c := x3) (show 5 < 7 by decide) _
    have p1 : x2.pulse (tx.getLsbD 1) = x1 := Controller.pulse_early (c := x2) (show 6 < 7 by decide) _
    have p0 : x1.pulse (tx.getLsbD 0) = s.ctl.taken tx := by
      rw [Controller.pulse_last (c := x1) rfl]
      have e : x1.shiftIn <<< 1 ||| BitVec.ofNat 8 (tx.getLsbD 0).toNat = tx := shiftedIn _ _
      rw [e]
      unfold Controller.taken
      rw [show x1 = s.ctl.onWire x1.shiftIn 7 from rfl, Controller.byteStep_onWire]
      rfl
    have q7 := step [] s.ctl 7 (by simp [he]) rfl
    have q6 := fun l => step l x7 6 rfl rfl
    have q5 := fun l => step l x6 5 rfl rfl
    have q4 := fun l => step l x5 4 rfl rfl
    have q3 := fun l => step l x4 3 rfl rfl
    have q2 := fun l => step l x3 2 rfl rfl
    have q1 := fun l => step l x2 1 rfl rfl
    have q0 := fun l => step l x1 0 rfl rfl
    replace q7 := q7.trans (congrArg _ p7)
    replace q6 := fun l => (q6 l).trans (congrArg _ p6)
    replace q5 := fun l => (q5 l).trans (congrArg _ p5)
    replace q4 := fun l => (q4 l).trans (congrArg _ p4)
    replace q3 := fun l => (q3 l).trans (congrArg _ p3)
    replace q2 := fun l => (q2 l).trans (congrArg _ p2)
    replace q1 := fun l => (q1 l).trans (congrArg _ p1)
    replace q0 := fun l => (q0 l).trans (congrArg _ p0)
    rw [List.foldl_cons, show s0.transferBit 7 = _ from q7, List.foldl_cons, q6, List.foldl_cons, q5,
      List.foldl_cons, q4, List.foldl_cons, q3, List.foldl_cons, q2, List.foldl_cons, q1, List.foldl_cons, q0,
      List.foldl_nil]
    have hb := State.bitsMoved_eq s tx (s.ctl.answer.getLsbD 7) (s.ctl.answer.getLsbD 6) (s.ctl.answer.getLsbD 5)
      (s.ctl.answer.getLsbD 4) (s.ctl.answer.getLsbD 3) (s.ctl.answer.getLsbD 2) (s.ctl.answer.getLsbD 1)
      (s.ctl.answer.getLsbD 0)
    rw [byteOfWire_wireBits] at hb
    exact congrArg (fun u : State => u.setCtl (s.ctl.taken tx)) hb
  have hm : s.transfer tx = ((([7, 6, 5, 4, 3, 2, 1, 0].foldl State.transferBit s0)).scratch.rxsr,
      [7, 6, 5, 4, 3, 2, 1, 0].foldl State.transferBit s0) := rfl
  rw [hm, hfold]
  rfl

/-! ## Many bytes -/

/-- The controller after several bytes of a bracket. -/
def Controller.takenAll (c : Controller) (txs : List Byte) : Controller := txs.foldl Controller.taken c

/-- The bytes the controller answers while it takes several. -/
def Controller.answers (c : Controller) (txs : List Byte) : List Byte :=
  match txs with
  | [] => []
  | tx :: txs => c.answer :: (c.taken tx).answers txs

@[simp] theorem Controller.answers_length (c : Controller) (txs : List Byte) :
    (c.answers txs).length = txs.length := by
  induction txs generalizing c with
  | nil => rfl
  | cons tx txs ih => simp [Controller.answers, ih]

theorem State.Open.moved {s : State} (h : s.Open) (tx rx : Byte) (c : Controller) :
    ((s.moved tx rx).setCtl c).Open := ⟨h.env, h.cs, rfl, h.moves⟩

theorem State.movedSeq_setCtl (s : State) (xs : List (Byte × Byte)) (c : Controller) :
    (s.setCtl c).movedSeq xs = (s.movedSeq xs).setCtl c := by
  induction xs generalizing s with
  | nil => rfl
  | cons x xs ih => exact ih (s.moved x.1 x.2)

theorem State.Open.movedSeq {s : State} (h : s.Open) (xs : List (Byte × Byte)) (c : Controller) :
    ((s.movedSeq xs).setCtl c).Open := by
  induction xs generalizing s with
  | nil => exact ⟨h.env, h.cs, h.sck, h.moves⟩
  | cons x xs ih => exact ih (s := s.moved x.1 x.2) ⟨h.env, h.cs, rfl, h.moves⟩

theorem State.sendBytes_sim {s : State} (h : s.Open) (he : s.ctl.edges = 0) (txs : List Byte) :
    s.sendBytes txs = (s.movedSeq (txs.zip (s.ctl.answers txs))).setCtl (s.ctl.takenAll txs) := by
  induction txs generalizing s with
  | nil => rfl
  | cons tx txs ih =>
    have e : s.sendBytes (tx :: txs) = (s.transfer tx).2.sendBytes txs := rfl
    rw [e, State.transfer_sim h he]
    rw [ih (h.moved tx _ _) rfl, State.movedSeq_setCtl]
    rfl

theorem State.receiveBytes_sim {s : State} (h : s.Open) (he : s.ctl.edges = 0) (n : Nat) :
    s.receiveBytes n = (s.ctl.answers (List.replicate n s.cfg.dummyByte),
      (s.movedSeq ((s.ctl.answers (List.replicate n s.cfg.dummyByte)).map fun r => (s.cfg.dummyByte, r))).setCtl
        (s.ctl.takenAll (List.replicate n s.cfg.dummyByte))) := by
  induction n generalizing s with
  | zero => rfl
  | succ n ih =>
    have e : s.receiveBytes (n + 1) = ((s.transfer s.cfg.dummyByte).1 ::
        ((s.transfer s.cfg.dummyByte).2.receiveBytes n).1, ((s.transfer s.cfg.dummyByte).2.receiveBytes n).2) := rfl
    rw [e, State.transfer_sim h he]
    rw [ih (h.moved _ _ _) rfl]
    rw [State.movedSeq_setCtl]
    rfl

/-! ## A bracket -/

/-- The simulator is attached, the bus is idle and no reception is waiting. -/
structure State.Released (s : State) : Prop where
  env : s.env = .simulator
  cs : s.pinCs = true
  sck : s.pinSck = false
  moves : s.moves = []

/-- The eager schedule at the rising edge of CS (R180). -/
def Controller.settled (c : Controller) : Controller :=
  (((c.finishReset fun _ => 0x00).changeMode).deliverLoopback fun _ => 0x00).sendNormal

theorem State.select_sim {s : State} (h : s.Released) :
    s.pinWrite .cs false = (s.lineSet .cs false).setCtl s.ctl.select ∧ (s.pinWrite .cs false).Open := by
  have e : s.pinWrite .cs false = (s.lineSet .cs false).setCtl s.ctl.select := by
    simp only [State.pinWrite, State.setLevel_cs, State.level_cs, State.emit, h.cs, State.notify, State.afterSelect,
      h.env, State.opportunity, h.moves, State.lineSet, State.setCtl]
  exact ⟨e, e ▸ ⟨h.env, rfl, h.sck, h.moves⟩⟩

theorem State.eager_sim {s : State} (h : s.env = .simulator) :
    s.eager = { s with ctl := s.ctl.settled, freeIx := s.freeIx + 4 } := by
  simp only [State.eager, State.fireAll, List.foldl_cons, List.foldl_nil, State.fire, State.fill, h,
    Controller.fire, Controller.settled]

theorem State.release_sim {s : State} (h : s.Open) :
    s.pinWrite .cs true = { s.lineSet .cs true with
      ctl := s.ctl.release.settled, freeIx := s.freeIx + 4 } := by
  have hc : s.pinCs = false := h.cs
  have he : (s.lineSet .cs true).env = .simulator := h.env
  have hm : (s.lineSet .cs true).moves = [] := h.moves
  have hl : (s.lineSet .cs true).ctl = s.ctl := rfl
  have hf : (s.lineSet .cs true).freeIx = s.freeIx := rfl
  have e : s.pinWrite .cs true = (s.lineSet .cs true).afterRelease := by
    unfold State.pinWrite
    rw [State.level_cs, hc]
    rfl
  rw [e]
  generalize s.lineSet .cs true = u at he hm hl hf
  simp only [State.afterRelease, he]
  rw [State.eager_sim (by exact he), State.opportunity_sim (by exact he) (by exact hm)]
  simp only [State.setCtl, hl, hf, he]

/-- A bracket that only sends, in front of the simulator. -/
theorem State.bracket_sim {s : State} (h : s.Released) (txs : List Byte) :
    s.bracket txs = { s.bracketed (txs.zip (s.ctl.select.answers txs)) with
      ctl := (s.ctl.select.takenAll txs).release.settled, freeIx := s.freeIx + 4 } := by
  obtain ⟨e1, o1⟩ := State.select_sim h
  have e2 : (s.pinWrite .cs false).sendBytes txs =
      ((s.lineSet .cs false).movedSeq (txs.zip (s.ctl.select.answers txs))).setCtl
        (s.ctl.select.takenAll txs) := by
    rw [State.sendBytes_sim o1 (by rw [e1]; rfl), e1, State.movedSeq_setCtl]
    rfl
  have o2 : ((s.pinWrite .cs false).sendBytes txs).Open := by
    rw [State.sendBytes_sim o1 (by rw [e1]; rfl)]
    exact o1.movedSeq _ _
  have e3 : s.bracket txs = ((s.pinWrite .cs false).sendBytes txs).pinWrite .cs true := rfl
  rw [e3, State.release_sim o2, e2]
  have e4 : ((s.lineSet .cs false).movedSeq (txs.zip (s.ctl.select.answers txs))).freeIx = s.freeIx := by
    rw [State.movedSeq_eq]; rfl
  rw [State.setCtl_freeIx, e4]
  rfl

/-- A register read, in front of the simulator. -/
theorem State.readRegister_sim {s : State} (h : s.Released) (addr : Byte) :
    let a := s.ctl.select.answers [s.cfg.opRead, addr, s.cfg.dummyByte]
    let v := (s.ctl.select.takenAll [s.cfg.opRead, addr]).answer
    s.readRegister addr = (v, { (s.bracketed ([s.cfg.opRead, addr, s.cfg.dummyByte].zip a)).setRegval v with
      ctl := (s.ctl.select.takenAll [s.cfg.opRead, addr, s.cfg.dummyByte]).release.settled
      freeIx := s.freeIx + 4 }) := by
  obtain ⟨e1, o1⟩ := State.select_sim h
  have c1 : (s.pinWrite .cs false).ctl = s.ctl.select := by rw [e1]; rfl
  have e2 : (s.pinWrite .cs false).sendBytes [s.cfg.opRead, addr] =
      ((s.lineSet .cs false).movedSeq ([s.cfg.opRead, addr].zip (s.ctl.select.answers [s.cfg.opRead, addr]))).setCtl
        (s.ctl.select.takenAll [s.cfg.opRead, addr]) := by
    rw [State.sendBytes_sim o1 (by rw [c1]; rfl), c1, e1, State.movedSeq_setCtl]
    rfl
  have o2 : ((s.pinWrite .cs false).sendBytes [s.cfg.opRead, addr]).Open := by
    rw [State.sendBytes_sim o1 (by rw [c1]; rfl)]
    exact o1.movedSeq _ _
  have k2 : ((s.pinWrite .cs false).sendBytes [s.cfg.opRead, addr]).cfg = s.cfg := by
    rw [e2, State.setCtl_cfg, State.movedSeq_cfg]; rfl
  generalize hu : (s.pinWrite .cs false).sendBytes [s.cfg.opRead, addr] = u at e2 o2 k2
  have c2 : u.ctl = s.ctl.select.takenAll [s.cfg.opRead, addr] := by rw [e2]; rfl
  have t2 := State.transfer_sim o2 (by rw [c2]; rfl) s.cfg.dummyByte
  have o3 := o2.moved s.cfg.dummyByte u.ctl.answer (u.ctl.taken s.cfg.dummyByte)
  have o4 : (((u.moved s.cfg.dummyByte u.ctl.answer).setCtl (u.ctl.taken s.cfg.dummyByte)).setRegval
      u.ctl.answer).Open := ⟨o3.env, o3.cs, o3.sck, o3.moves⟩
  have e5 := State.release_sim o4
  have e : s.readRegister addr =
      ((((u.transfer u.cfg.dummyByte).2.setRegval (u.transfer u.cfg.dummyByte).1).pinWrite .cs true).scratch.regval,
        ((u.transfer u.cfg.dummyByte).2.setRegval (u.transfer u.cfg.dummyByte).1).pinWrite .cs true) := by
    simp only [State.readRegister, State.assertSelect, State.deassertSelect, hu]
  have hf : u.freeIx = s.freeIx := by rw [e2, State.setCtl_freeIx, State.movedSeq_eq]; rfl
  rw [e, k2, t2]
  dsimp only
  rw [e5]
  have hfin : ((((u.moved s.cfg.dummyByte u.ctl.answer).setCtl (u.ctl.taken s.cfg.dummyByte)).setRegval
      u.ctl.answer).freeIx) = s.freeIx := hf
  rw [hfin, c2]
  refine Prod.ext rfl ?_
  dsimp only
  rw [e2]
  rfl

/-- A transfer after others in an open bracket. -/
theorem State.transfer_next_sim {b : State} {xs : List (Byte × Byte)} {c : Controller}
    (h : ((b.movedSeq xs).setCtl c).Open) (he : c.edges = 0) (tx : Byte) :
    ((b.movedSeq xs).setCtl c).transfer tx =
      (c.answer, (b.movedSeq (xs ++ [(tx, c.answer)])).setCtl (c.taken tx)) ∧
    ((b.movedSeq (xs ++ [(tx, c.answer)])).setCtl (c.taken tx)).Open := by
  have e : ((b.movedSeq xs).setCtl c).transfer tx =
      (c.answer, (b.movedSeq (xs ++ [(tx, c.answer)])).setCtl (c.taken tx)) := by
    rw [State.transfer_sim h he, State.movedSeq_append]
    rfl
  refine ⟨e, ?_⟩
  have o := h.moved tx c.answer (c.taken tx)
  rw [State.movedSeq_append]
  exact ⟨o.env, o.cs, o.sck, o.moves⟩

/-- A read of the receive buffer, in front of the simulator. -/
theorem State.readRxBuffer_sim {s : State} (h : s.Released) {n : BitVec 4}
    (hn : rxCount s.cfg.rxDlcGuard (s.ctl.select.takenAll (s.cfg.opReadRx0 :: List.replicate 4 s.cfg.dummyByte)).answer =
      some n) :
    ∃ xs : List (Byte × Byte), xs ≠ [] ∧
    s.readRxBuffer = .ok
      (⟨rxId (s.ctl.select.takenAll [s.cfg.opReadRx0]).answer
            (s.ctl.select.takenAll [s.cfg.opReadRx0, s.cfg.dummyByte]).answer, n,
          (s.ctl.select.takenAll (s.cfg.opReadRx0 :: List.replicate 5 s.cfg.dummyByte)).answers
            (List.replicate n.toNat s.cfg.dummyByte)⟩,
        { s.bracketed xs with
          ctl := (s.ctl.select.takenAll (s.cfg.opReadRx0 :: List.replicate 5 s.cfg.dummyByte ++
            List.replicate n.toNat s.cfg.dummyByte)).release.settled, freeIx := s.freeIx + 4 }) := by
  obtain ⟨e1, o1⟩ := State.select_sim h
  have e0 : s.pinWrite .cs false = ((s.lineSet .cs false).movedSeq []).setCtl s.ctl.select := e1
  have o0 : (((s.lineSet .cs false).movedSeq []).setCtl s.ctl.select).Open := e0 ▸ o1
  let d := s.cfg.dummyByte
  obtain ⟨t1, o1⟩ := State.transfer_next_sim o0 rfl s.cfg.opReadRx0
  obtain ⟨t2, o2⟩ := State.transfer_next_sim o1 rfl d
  obtain ⟨t3, o3⟩ := State.transfer_next_sim o2 rfl d
  obtain ⟨t4, o4⟩ := State.transfer_next_sim o3 rfl d
  obtain ⟨t5, o5⟩ := State.transfer_next_sim o4 rfl d
  obtain ⟨t6, o6⟩ := State.transfer_next_sim o5 rfl d
  have t7 := State.receiveBytes_sim o6 rfl n.toNat
  have k6 : ∀ (xs : List (Byte × Byte)) (c : Controller), (((s.lineSet .cs false).movedSeq xs).setCtl c).cfg = s.cfg := by
    intro xs c
    rw [State.setCtl_cfg, State.movedSeq_cfg]
    rfl
  have cc : ∀ (u : State) (c c' : Controller), (u.setCtl c).setCtl c' = u.setCtl c' := fun _ _ _ => rfl
  rw [k6, State.setCtl_ctl, State.movedSeq_setCtl, ← State.movedSeq_append, cc] at t7
  have o7 := o6.movedSeq ((((s.ctl.select.taken s.cfg.opReadRx0).taken d).taken d).taken d |>.taken d |>.taken d
    |>.answers (List.replicate n.toNat s.cfg.dummyByte) |>.map fun r => (s.cfg.dummyByte, r))
    (((s.ctl.select.taken s.cfg.opReadRx0).taken d).taken d |>.taken d |>.taken d |>.taken d
      |>.takenAll (List.replicate n.toNat s.cfg.dummyByte))
  rw [State.movedSeq_setCtl, ← State.movedSeq_append, cc] at o7
  have f7 : ∀ (xs : List (Byte × Byte)) (c : Controller),
      (((s.lineSet .cs false).movedSeq xs).setCtl c).freeIx = s.freeIx := by
    intro xs c
    rw [State.setCtl_freeIx, State.movedSeq_eq]
    rfl
  generalize hxs : ([] ++ [(s.cfg.opReadRx0, s.ctl.select.answer)] ++ [_] ++ [_] ++ [_] ++ [_] ++ [_] ++
    List.map _ _ : List (Byte × Byte)) = xs at t7 o7
  have hne : xs ≠ [] := by rw [← hxs]; simp
  have t8 := State.release_sim o7
  rw [f7] at t8
  have hs1 : s.assertSelect.sendBytes [s.cfg.opReadRx0] = (s.assertSelect.transfer s.cfg.opReadRx0).2 := rfl
  have hs0 : s.assertSelect = ((s.lineSet .cs false).movedSeq []).setCtl s.ctl.select := e0
  have hn' : rxCount s.cfg.rxDlcGuard ((((s.ctl.select.taken s.cfg.opReadRx0).taken d).taken d).taken d
    |>.taken d).answer = some n := hn
  refine ⟨xs, hne, ?_⟩
  unfold State.readRxBuffer
  rw [hs1, hs0, t1]
  simp only [k6, State.sendByte]
  rw [show s.cfg.dummyByte = d from rfl, t2]
  simp only [t3, t4, t5, t6]
  rw [hn']
  simp only
  rw [t7]
  simp only [State.deassertSelect]
  rw [decodeRx_of_count hn' (by simp)]
  simp only
  rw [t8]
  rfl

end Sys2Proof.Machine
end

