-- ==== Sys2Proof/Laws/SimCommands.lean ====
section
/-! SUPPORT. The seven commands at the reference controller, byte level (spec/49_environment_controller_model.md
R164 to R173). -/

namespace Sys2Proof.Machine

/-- The controller with another parser state and no byte in progress. -/
def Controller.at (c : Controller) (p : Parser) (rxclr : Bool) (out : Option Byte) : Controller :=
  { c with pst := p, rxclr := rxclr, shiftIn := 0, edges := 0, outByte := out }

theorem Controller.regWrite_at (c : Controller) (p : Parser) (x : Bool) (o : Option Byte) (a : RegAddr) (m v : Byte) :
    (c.at p x o).regWrite a m v = (c.regWrite a m v).at p x o := by
  simp only [Controller.regWrite, Controller.noteWrite, Controller.noteCanctrl]
  repeat' split
  all_goals first
    | rfl
    | (exfalso
       simp_all [Controller.at, Controller.mode, Controller.rd, Controller.wr, Controller.request,
        Controller.pending])

theorem Controller.requestToSend_at (c : Controller) (p : Parser) (x : Bool) (o : Option Byte) :
    (c.at p x o).requestToSend = c.requestToSend.at p x o := by
  unfold Controller.requestToSend
  cases h : c.settling <;> (simp [Controller.at, h]; try rfl)

theorem Controller.select_at (c : Controller) : c.select = c.at .waitOpcode false none := rfl

/-- The byte output at a register, none while a reset runs. -/
def Controller.outAt (c : Controller) (ptr : RegAddr) : Option Byte :=
  if c.settling then none else some (c.rd ptr.toNat)

theorem Controller.takenAll_cons (c : Controller) (tx : Byte) (txs : List Byte) :
    c.takenAll (tx :: txs) = (c.taken tx).takenAll txs := rfl

theorem Controller.takenAll_append (c : Controller) (xs ys : List Byte) :
    c.takenAll (xs ++ ys) = (c.takenAll xs).takenAll ys := List.foldl_append

/-! ## Opcodes (R164) -/

theorem Controller.taken_read (c : Controller) : c.select.taken 0x03 = c.at .rdAddr false none := rfl
theorem Controller.taken_write (c : Controller) : c.select.taken 0x02 = c.at .wrAddr false none := rfl
theorem Controller.taken_modify (c : Controller) : c.select.taken 0x05 = c.at .bmAddr false none := rfl
theorem Controller.taken_load (c : Controller) : c.select.taken 0x40 = c.at (.wrData 0x31) false none := rfl
theorem Controller.taken_reset (c : Controller) : c.select.taken 0xC0 = c.startReset.at .done false none := rfl
theorem Controller.taken_request (c : Controller) :
    c.select.taken 0x81 = c.requestToSend.at .done false none := by
  have : c.select.taken 0x81 = c.select.requestToSend.at .done c.select.requestToSend.rxclr none := rfl
  rw [this, Controller.select_at, Controller.requestToSend_at]
  rfl
theorem Controller.taken_burst (c : Controller) :
    c.select.taken 0x90 = c.at (.rdData 0x61) true (c.outAt 0x61) := rfl

/-! ## Addresses and data (R165, R169, R170) -/

theorem Controller.taken_rdAddr (c : Controller) (x : Bool) {ib : Byte} (h : ib.getLsbD 7 = false) :
    (c.at .rdAddr x none).taken ib = c.at (.rdData (ib.setWidth 7)) x (c.outAt (ib.setWidth 7)) := by
  have e : (c.at .rdAddr x none).byteStep ib = c.at (.rdData (ib.setWidth 7)) x none := by
    show Controller.address _ ib _ = _
    simp only [Controller.address, h]
    rfl
  unfold Controller.taken
  rw [e]
  rfl

theorem Controller.taken_rdData (c : Controller) (x : Bool) (o : Option Byte) (ptr : RegAddr) (ib : Byte) :
    (c.at (.rdData ptr) x o).taken ib = c.at (.rdData (ptr + 1)) x (c.outAt (ptr + 1)) := rfl

theorem Controller.taken_wrAddr (c : Controller) (x : Bool) {ib : Byte} (h : ib.getLsbD 7 = false) :
    (c.at .wrAddr x none).taken ib = c.at (.wrData (ib.setWidth 7)) x none := by
  have e : (c.at .wrAddr x none).byteStep ib = c.at (.wrData (ib.setWidth 7)) x none := by
    show Controller.address _ ib _ = _
    simp only [Controller.address, h]
    rfl
  unfold Controller.taken
  rw [e]
  rfl

theorem Controller.taken_wrData (c : Controller) (x : Bool) (ptr : RegAddr) (ib : Byte) :
    (c.at (.wrData ptr) x none).taken ib = (c.regWrite ptr 0xFF ib).at (.wrData (ptr + 1)) x none := by
  have e : (c.at (.wrData ptr) x none).byteStep ib = (c.regWrite ptr 0xFF ib).at (.wrData (ptr + 1)) x none := by
    show { (c.at (.wrData ptr) x none).regWrite ptr 0xFF ib with pst := .wrData (ptr + 1) } = _
    rw [Controller.regWrite_at]
    rfl
  unfold Controller.taken
  rw [e]
  rfl

theorem Controller.taken_bmAddr (c : Controller) (x : Bool) {ib : Byte} (h : ib.getLsbD 7 = false) :
    (c.at .bmAddr x none).taken ib = c.at (.bmMask (ib.setWidth 7)) x none := by
  have e : (c.at .bmAddr x none).byteStep ib = c.at (.bmMask (ib.setWidth 7)) x none := by
    show Controller.address _ ib _ = _
    simp only [Controller.address, h]
    rfl
  unfold Controller.taken
  rw [e]
  rfl

theorem Controller.taken_bmMask (c : Controller) (x : Bool) (a : RegAddr) (ib : Byte) :
    (c.at (.bmMask a) x none).taken ib = c.at (.bmData a ib) x none := rfl

theorem Controller.taken_bmData (c : Controller) (x : Bool) (a : RegAddr) (m ib : Byte) :
    (c.at (.bmData a m) x none).taken ib = (c.regWrite a m ib).at .done x none := by
  have e : (c.at (.bmData a m) x none).byteStep ib = (c.regWrite a m ib).at .done x none := by
    show { (c.at (.bmData a m) x none).regWrite a m ib with pst := .done } = _
    rw [Controller.regWrite_at]
    rfl
  unfold Controller.taken
  rw [e]
  rfl

/-! ## Whole brackets -/

/-- The controller after a bracket that ends with no read of the receive buffer. -/
def Controller.parked (c : Controller) : Controller := c.at .deselected false none

theorem Controller.release_at (c : Controller) (p : Parser) (o : Option Byte) :
    (c.at p false o).release = c.parked := rfl

theorem Controller.write_bracket (c : Controller) {addr : Byte} (h : addr.getLsbD 7 = false) (val : Byte) :
    (c.select.takenAll [0x02, addr, val]).release = (c.regWrite (addr.setWidth 7) 0xFF val).parked := by
  simp only [Controller.takenAll, List.foldl_cons, List.foldl_nil]
  rw [Controller.taken_write, Controller.taken_wrAddr c _ h, Controller.taken_wrData, Controller.release_at]

theorem Controller.modify_bracket (c : Controller) {addr : Byte} (h : addr.getLsbD 7 = false) (mask val : Byte) :
    (c.select.takenAll [0x05, addr, mask, val]).release = (c.regWrite (addr.setWidth 7) mask val).parked := by
  simp only [Controller.takenAll, List.foldl_cons, List.foldl_nil]
  rw [Controller.taken_modify, Controller.taken_bmAddr c _ h, Controller.taken_bmMask, Controller.taken_bmData,
    Controller.release_at]

theorem Controller.request_bracket (c : Controller) :
    (c.select.takenAll [0x81]).release = c.requestToSend.parked := by
  simp only [Controller.takenAll, List.foldl_cons, List.foldl_nil]
  rw [Controller.taken_request, Controller.release_at]

theorem Controller.reset_bracket (c : Controller) :
    (c.select.takenAll [0xC0]).release = c.startReset.parked := rfl

theorem Controller.read_bracket (c : Controller) {addr : Byte} (h : addr.getLsbD 7 = false) (d : Byte) :
    (c.select.takenAll [0x03, addr]).answer = (c.outAt (addr.setWidth 7)).getD 0 ∧
    (c.select.takenAll [0x03, addr, d]).release = c.parked := by
  simp only [Controller.takenAll, List.foldl_cons, List.foldl_nil]
  rw [Controller.taken_read, Controller.taken_rdAddr c _ h, Controller.taken_rdData, Controller.release_at]
  exact ⟨rfl, rfl⟩

/-- A burst of reads (R165). -/
theorem Controller.takenAll_rdData (c : Controller) (x : Bool) (d : Byte) (n : Nat) (ptr : RegAddr) :
    (c.at (.rdData ptr) x (c.outAt ptr)).takenAll (List.replicate n d) =
      c.at (.rdData (ptr + BitVec.ofNat 7 n)) x (c.outAt (ptr + BitVec.ofNat 7 n)) := by
  induction n generalizing ptr with
  | zero => simp [Controller.takenAll]
  | succ n ih =>
    rw [List.replicate_succ, Controller.takenAll_cons, Controller.taken_rdData, ih]
    have e : ptr + 1 + BitVec.ofNat 7 n = ptr + BitVec.ofNat 7 (n + 1) := by
      rw [BitVec.add_assoc]
      congr 1
      apply BitVec.eq_of_toNat_eq
      simp [Nat.add_comm]
    rw [e]

theorem Controller.answers_rdData (c : Controller) (x : Bool) (d : Byte) (n : Nat) (ptr : RegAddr) :
    (c.at (.rdData ptr) x (c.outAt ptr)).answers (List.replicate n d) =
      (List.range n).map fun k => (c.outAt (ptr + BitVec.ofNat 7 k)).getD 0 := by
  induction n generalizing ptr with
  | zero => rfl
  | succ n ih =>
    rw [List.replicate_succ, Controller.answers, Controller.taken_rdData, ih, List.range_succ_eq_map]
    have e : ∀ k, ptr + 1 + BitVec.ofNat 7 k = ptr + BitVec.ofNat 7 (k + 1) := by
      intro k
      rw [BitVec.add_assoc]
      congr 1
      apply BitVec.eq_of_toNat_eq
      simp [Nat.add_comm]
    simp only [List.map_cons, List.map_map, BitVec.add_zero, BitVec.ofNat_eq_ofNat]
    refine congr (congrArg _ ?_) ?_
    · rfl
    · apply List.map_congr_left
      intro k _
      show (c.outAt _).getD 0 = (c.outAt _).getD 0
      rw [show ptr + BitVec.ofNat 7 k.succ = ptr + 1 + BitVec.ofNat 7 k from (e k).symm]
      rfl

/-- The burst of a read-receive-buffer command: bytes from 0x61 on (R164, R165). -/
theorem Controller.burst_bracket (c : Controller) (d : Byte) (n : Nat) (hs : c.settling = false) :
    (c.select.takenAll (0x90 :: List.replicate n d)).answer = c.rd ((0x61 : RegAddr) + BitVec.ofNat 7 n).toNat ∧
    (∀ k, (c.select.takenAll (0x90 :: List.replicate n d)).answers (List.replicate k d) =
      (List.range k).map fun j => c.rd ((0x61 : RegAddr) + BitVec.ofNat 7 n + BitVec.ofNat 7 j).toNat) ∧
    (c.select.takenAll (0x90 :: List.replicate n d)).release =
      (c.wr 0x2C (c.rd 0x2C &&& 0xFE)).at .deselected true none := by
  rw [Controller.takenAll_cons, Controller.taken_burst, Controller.takenAll_rdData]
  have ho : ∀ p, c.outAt p = some (c.rd p.toNat) := fun p => by simp [Controller.outAt, hs]
  refine ⟨by rw [ho]; rfl, fun k => ?_, rfl⟩
  rw [Controller.answers_rdData]
  simp only [ho, Option.getD_some]

/-! ## Writes (R169) -/

@[simp] theorem mergeByte_whole (old v : Byte) : mergeByte old 0xFF v = v := by
  simp [mergeByte]
  exact (BitVec.and_allOnes (x := v))

/-- A write into the transmit buffer while nothing is pending. -/
theorem Controller.regWrite_buffer {c : Controller} (hs : c.settling = false) (hw : c.reg.wf)
    (hp : c.pending = false) {a : RegAddr} (h1 : 0x31 ≤ a) (h2 : a ≤ 0x3D) (v : Byte) :
    c.regWrite a 0xFF v = c.wr a.toNat v := by
  have h1' : 0x31 ≤ a.toNat := h1
  have h2' : a.toNat ≤ 0x3D := h2
  have hne : ∀ k : RegAddr, k.toNat < 0x31 → a ≠ k := by
    intro k hk e; subst e; omega
  have hp' : (c.wr a.toNat v).pending = false := by
    have : (c.wr a.toNat v).rd 0x30 = c.rd 0x30 := by
      rw [Controller.rd_wr hw, if_neg (by omega)]
    simpa [Controller.pending, this] using hp
  unfold Controller.regWrite
  rw [hs, if_neg (by simp), if_neg (hne 0x0E (by decide)), if_neg (by
    rintro ⟨h | h | h, -⟩
    · exact hne 0x28 (by decide) h
    · exact hne 0x29 (by decide) h
    · exact hne 0x2A (by decide) h), if_neg (hne 0x30 (by decide)), mergeByte_whole]
  unfold Controller.noteWrite
  rw [if_neg (hne 0x0F (by decide)), if_neg (by simp [hp'])]

/-- A burst of writes into the transmit buffer while nothing is pending. -/
theorem Controller.takenAll_wrData {c : Controller} (hs : c.settling = false) (hw : c.reg.wf)
    (hp : c.pending = false) (x : Bool) (vs : List Byte) (k : Nat) (h : k + vs.length ≤ 13) :
    (c.at (.wrData ((0x31 : RegAddr) + BitVec.ofNat 7 k)) x none).takenAll vs =
      (c.wrSeq (0x31 + k) vs).at (.wrData ((0x31 : RegAddr) + BitVec.ofNat 7 (k + vs.length))) x none := by
  induction vs generalizing c k with
  | nil => rfl
  | cons v vs ih =>
    have hl : k + 1 + vs.length ≤ 13 := by simpa [Nat.add_assoc, Nat.add_comm 1] using h
    have ht : ((0x31 : RegAddr) + BitVec.ofNat 7 k).toNat = 0x31 + k := by simp; omega
    rw [Controller.takenAll_cons, Controller.taken_wrData, Controller.regWrite_buffer hs hw hp
      (by rw [BitVec.le_def, ht]; exact Nat.le_add_right _ _)
      (by rw [BitVec.le_def, ht]; show 0x31 + k ≤ 0x3D; omega), ht]
    have e : (0x31 : RegAddr) + BitVec.ofNat 7 k + 1 = (0x31 : RegAddr) + BitVec.ofNat 7 (k + 1) := by
      rw [BitVec.add_assoc]
      congr 1
      apply BitVec.eq_of_toNat_eq
      simp
    have hp' : (c.wr (0x31 + k) v).pending = false := by
      have : (c.wr (0x31 + k) v).rd 0x30 = c.rd 0x30 := by
        rw [Controller.rd_wr hw, if_neg (by omega)]
      simpa [Controller.pending, this] using hp
    rw [e, ih (c := c.wr (0x31 + k) v) hs (Controller.wr_wf hw (by omega) v) hp' (k + 1) hl]
    rw [Controller.wrSeq, Nat.add_assoc k 1, Nat.add_comm 1 vs.length, List.length_cons, Nat.add_assoc 0x31 k 1]

theorem Controller.load_bracket {c : Controller} (hs : c.settling = false) (hw : c.reg.wf)
    (hp : c.pending = false) {vs : List Byte} (h : vs.length ≤ 13) :
    (c.select.takenAll (0x40 :: vs)).release = (c.wrSeq 0x31 vs).parked := by
  rw [Controller.takenAll_cons, Controller.taken_load]
  have e := Controller.takenAll_wrData hs hw hp false vs 0 (by simpa using h)
  rw [show (0x31 : RegAddr) + BitVec.ofNat 7 0 = 0x31 from rfl] at e
  rw [e]
  rfl

/-! ## The eager schedule (R180) -/

@[simp] theorem Controller.parked_rd (c : Controller) (a : Nat) : c.parked.rd a = c.rd a := rfl
@[simp] theorem Controller.parked_reg (c : Controller) : c.parked.reg = c.reg := rfl
@[simp] theorem Controller.parked_settling (c : Controller) : c.parked.settling = c.settling := rfl
@[simp] theorem Controller.parked_outside (c : Controller) : c.parked.outside = c.outside := rfl
@[simp] theorem Controller.parked_mode (c : Controller) : c.parked.mode = c.mode := rfl
@[simp] theorem Controller.parked_request (c : Controller) : c.parked.request = c.request := rfl
@[simp] theorem Controller.parked_pending (c : Controller) : c.parked.pending = c.pending := rfl

/-- Nothing is enabled: the controller stays. -/
theorem Controller.settled_of_quiet {c : Controller} (hs : c.settling = false) (hm : c.request = c.mode)
    (hp : c.pending = false) : c.settled = c := by
  unfold Controller.settled
  have h1 : (c.finishReset fun _ => 0x00) = c := by simp [Controller.finishReset, hs]
  have h2 : c.changeMode = c := by simp [Controller.changeMode, hm]
  rw [h1, h2]
  have h3 : (c.deliverLoopback fun _ => 0x00) = c := by simp [Controller.deliverLoopback, hp]
  rw [h3]
  simp [Controller.sendNormal, hp]

end Sys2Proof.Machine
end

