-- ==== Sys2Proof/Laws/SimBlock.lean ====
section
/-! SUPPORT. Operations of the block in front of the deterministic simulator
(spec/49_environment_controller_model.md R180): what is between two brackets, and the return. -/

namespace Sys2Proof.Machine

/-- The block between brackets in front of the simulator. -/
structure State.Between (s u : State) (c : Controller) : Prop where
  inited : u.inited = true
  cs : u.pinCs = true
  sck : u.pinSck = false
  env : u.env = .simulator
  moves : u.moves = []
  cfg : u.cfg = s.cfg
  ctl : u.ctl = c

theorem State.Between.released {s u : State} {c : Controller} (h : s.Between u c) : u.Released :=
  ⟨h.env, h.cs, h.sck, h.moves⟩
theorem State.Between.start {s : State} (h : s.simIdle) : s.Between s s.ctl :=
  ⟨h.1.1, h.2.1.1, h.2.1.2, h.2.2.1, h.2.2.2.2.1, rfl, rfl⟩
theorem State.Between.enter {s u : State} {c : Controller} (h : s.Between u c) (l : Seq) :
    s.Between (u.enter l) c :=
  ⟨h.inited, h.cs, h.sck, h.env, h.moves, h.cfg, h.ctl⟩
theorem State.Between.setTarget {s u : State} {c : Controller} (h : s.Between u c) (m : ControllerMode) :
    s.Between (u.setTarget m) c :=
  ⟨h.inited, h.cs, h.sck, h.env, h.moves, h.cfg, h.ctl⟩
theorem State.Between.setFb {s u : State} {c : Controller} (h : s.Between u c) (f : CanFrame) :
    s.Between (u.setFb f) c :=
  ⟨h.inited, h.cs, h.sck, h.env, h.moves, h.cfg, h.ctl⟩

/-- A bracket that only sends. -/
theorem State.Between.bracket {s u : State} {c : Controller} (h : s.Between u c) (tx : Byte) (txs : List Byte) :
    s.Between (u.bracket (tx :: txs)) (c.select.takenAll (tx :: txs)).release.settled ∧
      (u.bracket (tx :: txs)).scratch.fb = u.scratch.fb ∧
      (u.bracket (tx :: txs)).scratch.target = u.scratch.target := by
  rw [State.bracket_sim h.released]
  have : ∃ y ys, (tx::txs).zip (u.ctl.select.answers (tx::txs)) = y :: ys := ⟨_, _, rfl⟩
  obtain ⟨y, ys, e⟩ := this
  rw [e]
  refine ⟨⟨?_, ?_, ?_, ?_, ?_, ?_, ?_⟩, ?_, ?_⟩ <;> simp [h.inited, h.env, h.moves, h.cfg, h.ctl]

/-- A register read. -/
theorem State.Between.read {s u : State} {c : Controller} (h : s.Between u c) (hc : forController s.cfg)
    {addr : Byte} (ha : addr.getLsbD 7 = false) :
    s.Between (u.readRegister addr).2 c.parked.settled ∧
      (u.readRegister addr).1 = (c.outAt (addr.setWidth 7)).getD 0 ∧
      (u.readRegister addr).2.scratch.fb = u.scratch.fb ∧
      (u.readRegister addr).2.scratch.target = u.scratch.target := by
  have e := State.readRegister_sim h.released addr
  have hop : u.cfg.opRead = 0x03 := by rw [h.cfg]; exact hc.2.1
  rw [h.ctl, hop] at e
  obtain ⟨e1, e2⟩ := Controller.read_bracket c ha u.cfg.dummyByte
  have : ∃ y ys, ([(0x03 : Byte), addr, u.cfg.dummyByte]).zip
      (c.select.answers [0x03, addr, u.cfg.dummyByte]) = y :: ys := ⟨_, _, rfl⟩
  obtain ⟨y, ys, ey⟩ := this
  rw [e]
  dsimp only
  rw [ey, e2, e1]
  refine ⟨⟨?_, ?_, ?_, ?_, ?_, ?_, ?_⟩, ?_, ?_⟩ <;> simp [h.inited, h.env, h.moves, h.cfg]

/-- The return of an operation. -/
theorem State.Between.returns {s u : State} {c : Controller} (h : s.Between u c) (hf : forController s.cfg)
    (h1 : c.settling = false) (h2 : c.outside = none) (r : Result) :
    ∃ t, u.finish r = .next t ∧ t.ret = r ∧ t.ctl = c ∧ t.simIdle ∧ t.cfg = s.cfg := by
  have hl : u.left = none := by simp only [State.left, h.env, h.ctl, h2]
  refine ⟨_, State.finish_of_left hl r, rfl, h.ctl,
    ⟨⟨h.inited, rfl⟩, ⟨h.cs, h.sck⟩, h.env, ?_, h.moves, ?_, ?_⟩, h.cfg⟩
  · have : (u.returned r).cfg = s.cfg := h.cfg
    rw [this]; exact hf
  · have : (u.returned r).ctl = c := h.ctl
    rw [this]; exact h1
  · have : (u.returned r).ctl = c := h.ctl
    rw [this]; exact h2

/-- An address of the register space (R50). -/
theorem address_low {addr : Byte} (h : addr.toNat < 128) :
    addr.getLsbD 7 = false ∧ (addr.setWidth 7).toNat = addr.toNat := by
  revert addr; decide +kernel

/-- A register write that starts nothing more (R169). -/
theorem Controller.regWrite_quiet (c : Controller) (hs : c.settling = false) (hw : c.reg.wf)
    (hq : c.request = c.mode) (hp : c.pending = false) (ho : c.outside = none) {addr : Byte} (ha : addr.toNat < 128)
    (h1 : addr ≠ 0x0F) (h2 : addr ≠ 0x30) (mask val : Byte) :
    let d := (c.regWrite (addr.setWidth 7) mask val).parked
    (∀ a, d.rd a =
      if a = addr.toNat ∧ ¬ (addr = 0x0E ∨ ((addr = 0x28 ∨ addr = 0x29 ∨ addr = 0x2A) ∧ c.mode ≠ 0b100))
      then mergeByte (c.rd a) mask val else c.rd a) ∧
    d.settling = false ∧ d.outside = none ∧ d.request = d.mode ∧ d.pending = false := by
  have hA : ∀ k : Byte, k.toNat < 128 → (addr.setWidth 7 = (k.setWidth 7 : RegAddr) ↔ addr = k) := by
    revert addr; decide +kernel
  have hl := (address_low ha).2
  have key : ∀ d : Controller, d.settling = false → d.outside = none →
      (d = c ∨ ∃ v a, a ≠ 0x0E ∧ a ≠ 0x0F ∧ a ≠ 0x30 ∧ d.reg = (c.wr a v).reg) →
      d.settling = false ∧ d.outside = none ∧ d.request = d.mode ∧ d.pending = false := by
    rintro d h1 h2 (rfl | ⟨v, a, ha1, ha2, ha3, hd⟩)
    · exact ⟨h1, h2, hq, hp⟩
    · have e : ∀ b, b ≠ a → d.rd b = c.rd b := by
        intro b hb
        have : d.rd b = (c.wr a v).rd b := by simp only [Controller.rd, hd]
        rw [this, Controller.rd_wr hw, if_neg hb]
      refine ⟨h1, h2, ?_, ?_⟩
      · simp only [Controller.request, Controller.mode] at hq ⊢
        rw [e _ (Ne.symm ha1), e _ (Ne.symm ha2), hq]
      · simp only [Controller.pending] at hp ⊢
        rw [e _ (Ne.symm ha3), hp]
  intro d
  have e0E : addr.setWidth 7 = (0x0E : RegAddr) ↔ addr = 0x0E := hA 0x0E (by decide)
  have e28 : addr.setWidth 7 = (0x28 : RegAddr) ↔ addr = 0x28 := hA 0x28 (by decide)
  have e29 : addr.setWidth 7 = (0x29 : RegAddr) ↔ addr = 0x29 := hA 0x29 (by decide)
  have e2A : addr.setWidth 7 = (0x2A : RegAddr) ↔ addr = 0x2A := hA 0x2A (by decide)
  have e30 : addr.setWidth 7 = (0x30 : RegAddr) ↔ addr = 0x30 := hA 0x30 (by decide)
  have e0F : addr.setWidth 7 = (0x0F : RegAddr) ↔ addr = 0x0F := hA 0x0F (by decide)
  have hd : d = (c.regWrite (addr.setWidth 7) mask val).parked := rfl
  unfold Controller.regWrite at hd
  simp only [hs, Bool.false_eq_true, if_false, e0E, e28, e29, e2A, e30, h2] at hd
  split at hd
  · rename_i h; rw [hd]; refine ⟨fun a => by simp [h], hs, ho, hq, hp⟩
  · split at hd
    · rename_i h; rw [hd]; exact ⟨fun a => by rw [if_neg (fun hh => hh.2 (.inr h))]; rfl, hs, ho, hq, hp⟩
    · rename_i hn1 hn2
      have hk : (c.wr addr.toNat (mergeByte (c.rd addr.toNat) mask val)).pending = false := by
        simp only [Controller.pending] at hp ⊢
        rw [Controller.rd_wr hw, if_neg, hp]
        intro h; exact h2 (BitVec.eq_of_toNat_eq h.symm)
      have : d = (c.wr addr.toNat (mergeByte (c.rd addr.toNat) mask val)).parked := by
        rw [hd, hl]; unfold Controller.noteWrite
        rw [if_neg (by rw [e0F]; exact h1), if_neg (by simp [hk])]
      rw [this]
      refine ⟨?_, key _ hs ho (.inr ⟨_, addr.toNat, ?_, ?_, ?_, rfl⟩)⟩
      · intro a
        rw [Controller.parked_rd, Controller.rd_wr hw]
        split
        · rename_i h; subst h; rw [if_pos ⟨rfl, by rintro (h | h); exact hn1 h; exact hn2 h⟩]
        · rename_i h; rw [if_neg (fun h' => h h'.1)]
      · intro h; exact hn1 (BitVec.eq_of_toNat_eq h)
      · intro h; exact h1 (BitVec.eq_of_toNat_eq h)
      · intro h; exact h2 (BitVec.eq_of_toNat_eq h)

/-- The mode request bytes (R88). -/
theorem modeRequestByte_of {cfg : Cfg} (h : forController cfg) (m : ControllerMode) :
    (m = .configuration ∧ modeRequestByte cfg m = 0x80) ∨ (m = .normal ∧ modeRequestByte cfg m = 0x00) ∨
      (m = .loopback ∧ modeRequestByte cfg m = 0x40) := by
  obtain ⟨-, -, -, -, -, -, -, -, -, -, -, -, -, -, h1, h2, h3, -⟩ := h
  cases m <;> simp [modeRequestByte, modeCode, h1, h2, h3]

theorem requested_bits : ∀ x rb : Byte, rb = 0x80 ∨ rb = 0x00 ∨ rb = 0x40 → x &&& 0x18 = 0 →
    (x &&& 0x1F ||| rb).getLsbD 4 = false ∧ (x &&& 0x1F ||| rb).getLsbD 3 = false := by decide +kernel
theorem requested_field : ∀ x rb : Byte, rb = 0x80 ∨ rb = 0x00 ∨ rb = 0x40 →
    mergeByte x 0xE0 rb = x &&& 0x1F ||| rb ∧ (x &&& 0x1F ||| rb).extractLsb' 5 3 = rb.extractLsb' 5 3 := by
  decide +kernel
theorem requested_code : ∀ rb : Byte, rb = 0x80 ∨ rb = 0x00 ∨ rb = 0x40 →
    (rb.extractLsb' 5 3 = 0b000 ∨ rb.extractLsb' 5 3 = 0b010 ∨ rb.extractLsb' 5 3 = 0b100) ∧
    (rb.extractLsb' 5 3).setWidth 8 <<< 5 = rb := by decide +kernel
theorem requested_same : ∀ x rb : Byte, rb = 0x80 ∨ rb = 0x00 ∨ rb = 0x40 →
    x.extractLsb' 5 3 = rb.extractLsb' 5 3 → x &&& 0x1F ||| rb = x := by decide +kernel

/-- A mode request and the mode change that follows it (R169, R175). -/
theorem Controller.modeRequest_settled (c : Controller) (hs : c.settling = false) (hw : c.reg.wf)
    (hp : c.pending = false) (ho : c.outside = none) (hz : c.rd 0x0F &&& 0x18 = 0) (rb : Byte)
    (hrb : rb = 0x80 ∨ rb = 0x00 ∨ rb = 0x40) :
    let d := (c.regWrite 0x0F 0xE0 rb).parked.settled
    d.reg.wf ∧ (∀ a, d.rd a = if a = 0x0E ∨ a = 0x0F then c.rd a &&& 0x1F ||| rb else c.rd a) ∧
    d.settling = false ∧ d.outside = none ∧ d.request = d.mode ∧ d.pending = false := by
  obtain ⟨b1, b2⟩ := requested_bits (c.rd 0x0F) rb hrb hz
  obtain ⟨b3, b4⟩ := requested_field (c.rd 0x0F) rb hrb
  obtain ⟨b5, b6⟩ := requested_code rb hrb
  let c1 := c.wr 0x0F (c.rd 0x0F &&& 0x1F ||| rb)
  have h1F : c1.rd 0x0F = c.rd 0x0F &&& 0x1F ||| rb := by rw [Controller.rd_wr hw, if_pos rfl]
  have h1 : ∀ a, a ≠ 0x0F → c1.rd a = c.rd a := fun a h => by rw [Controller.rd_wr hw, if_neg h]
  have w1 : c1.reg.wf := Controller.wr_wf hw (by decide) _
  have r1 : c1.request = rb.extractLsb' 5 3 := by simp only [Controller.request, h1F, b4]
  have hn : c1.noteWrite 0x0F = c1 := by
    unfold Controller.noteWrite Controller.noteCanctrl
    rw [if_pos rfl, r1, h1F, b1, b2]
    rw [if_neg (fun ⟨x, y, z⟩ => by rcases b5 with h | h | h <;> contradiction)]; rfl
  have e : c.regWrite 0x0F 0xE0 rb = c1 := by
    unfold Controller.regWrite
    rw [hs, if_neg (by simp), if_neg (by decide), if_neg (fun h => absurd h.1 (by decide)), if_neg (by decide)]
    rw [show (0x0F : RegAddr).toNat = 0x0F from rfl, b3]; exact hn
  intro d
  have hd : d = c1.parked.settled := by show (c.regWrite 0x0F 0xE0 rb).parked.settled = _; rw [e]
  have m1 : c1.mode = c.mode := by simp only [Controller.mode, h1 0x0E (by decide)]
  have p1 : c1.pending = false := by simp only [Controller.pending, h1 0x30 (by decide)]; exact hp
  by_cases hm : rb.extractLsb' 5 3 = c.mode
  · have : d = c1.parked := by rw [hd]; exact Controller.settled_of_quiet hs (by simp [r1, m1, hm]) p1
    rw [this]
    refine ⟨w1, ?_, hs, ho, by simp [r1, m1, hm], p1⟩
    intro a
    rw [Controller.parked_rd]
    split
    · rename_i h
      rcases h with rfl | rfl
      · rw [h1 _ (by decide)]; exact (requested_same _ rb hrb (hm.symm)).symm
      · exact h1F
    · rename_i h; exact h1 a (fun h' => h (.inr h'))
  · let c2 := c1.parked.wr 0x0E (c.rd 0x0E &&& 0x1F ||| rb)
    have e2 : c1.parked.changeMode = c2 := by
      unfold Controller.changeMode
      rw [if_pos ⟨hs, by simp [r1, m1, hm], by simpa [r1] using b5⟩]
      simp only [Controller.parked_request, Controller.parked_rd, r1, b6, h1 0x0E (by decide)]; rfl
    have r2 : ∀ a, c2.rd a = if a = 0x0E then c.rd 0x0E &&& 0x1F ||| rb else c1.rd a := fun a => by
      have := Controller.rd_wr (c := c1.parked) w1 0x0E (c.rd 0x0E &&& 0x1F ||| rb) a
      exact this
    have p2 : c2.pending = false := by
      simp only [Controller.pending, r2 0x30]; exact p1
    have hd2 : d = c2 := by
      rw [hd]; unfold Controller.settled
      have hr : (c1.parked.finishReset fun _ => 0x00) = c1.parked := by
        unfold Controller.finishReset
        rw [show c1.parked.settling = false from hs]
        rfl
      rw [hr, e2]
      have : (c2.deliverLoopback fun _ => 0x00) = c2 := by simp [Controller.deliverLoopback, p2]
      rw [this]; simp [Controller.sendNormal, p2]
    rw [hd2]
    refine ⟨Controller.wr_wf w1 (by decide) _, ?_, hs, ho, ?_, p2⟩
    · intro a; rw [r2]
      by_cases h : a = 0x0E
      · simp [h]
      · by_cases h' : a = 0x0F
        · subst h'; simp; exact h1F
        · simp [h, h']; exact h1 a h'
    · have x1 := r2 0x0E
      have x2 := r2 0x0F
      simp only [Controller.request, Controller.mode]
      rw [x1, x2]
      have := (requested_field (c.rd 0x0E) rb hrb).2
      simp [h1F]; exact b4.trans this.symm

theorem Controller.requestToSend_of {c : Controller} (hs : c.settling = false) :
    c.requestToSend = c.wr 0x30 (c.rd 0x30 &&& 0x8F ||| 0x08) := by
  simp [Controller.requestToSend, hs]

theorem requested_pending (x : Byte) : (x &&& 0x8F ||| 0x08).getLsbD 3 = true := by revert x; decide +kernel

theorem encodeTx_length_le (r : Byte) (f : FrameOperand) (h : f.check = none) :
    (encodeTx r ⟨f.id.setWidth 11, f.dlc.setWidth 4, f.data⟩).length ≤ 13 := by
  rw [check_none_iff] at h; simp [encodeTx]; omega

/-- `Transmit` of a frame of the domain with nothing pending, as far as the frame leaves the buffer: what the
schedule does at the last rising edge of CS is `settled` (R140, R180). -/
theorem transmit_sim (s : State) (f : FrameOperand) (hs : s.simIdle) (hp : s.ctl.pending = false)
    (hq : s.ctl.request = s.ctl.mode) (hw : s.ctl.reg.wf) (hf : f.check = none) :
    let c1 := s.ctl.parked.wrSeq 0x31
      (encodeTx s.cfg.txReservedByte ⟨f.id.setWidth 11, f.dlc.setWidth 4, f.data⟩)
    let d := (c1.parked.wr 0x30 (c1.rd 0x30 &&& 0x8F ||| 0x08)).parked.settled
    d.settling = false → d.outside = none →
    ∃ t, exec (.transmit f) s = .next t ∧ t.ret = .status .ok ∧ t.ctl = d ∧ t.simIdle ∧ t.cfg = s.cfg := by
  intro c1 d h1 h2
  have hcfg := hs.2.2.2.1
  have hset := hs.2.2.2.2.2.1
  have hd : f.id.toNat ≤ 0x7FF ∧ f.dlc.toNat ≤ 8 ∧ f.data.length = f.dlc.toNat := (check_none_iff f).1 hf
  let g : CanFrame := ⟨f.id.setWidth 11, f.dlc.setWidth 4, f.data⟩
  have I0 := ((State.Between.start hs).setFb g).enter .checkPending
  obtain ⟨I1, hv, hfb, -⟩ := I0.read hcfg (addr := 0x30) (by decide)
  rw [Controller.settled_of_quiet (c := s.ctl.parked) hset hq hp] at I1
  have hv2 : (((s.setFb g).enter .checkPending).readRegister 0x30).1 = s.ctl.rd 0x30 := by
    rw [hv]; simp [Controller.outAt, hset]
  generalize hrr : ((s.setFb g).enter .checkPending).readRegister 0x30 = rr at I1 hv hfb hv2
  generalize hu : rr.2 = u at I1 hfb
  have I2 := I1.enter .load
  have hlen : (encodeTx s.cfg.txReservedByte g).length ≤ 13 := encodeTx_length_le s.cfg.txReservedByte f hf
  obtain ⟨I3, -⟩ := I2.bracket 0x40 (encodeTx s.cfg.txReservedByte g)
  have hw' : s.ctl.parked.reg.wf := hw
  rw [Controller.load_bracket (c := s.ctl.parked) hset hw' hp hlen] at I3
  have e1 : c1.settling = false := by
    show (s.ctl.parked.wrSeq 0x31 _).settling = false
    rw [Controller.wrSeq_eq]; exact hset
  have rd1 : ∀ a, a < 0x31 → c1.rd a = s.ctl.rd a := by
    intro a ha
    have := Controller.rd_wrSeq (c := s.ctl.parked) hw' (a := 0x31) (vs := encodeTx s.cfg.txReservedByte g)
      (by omega) a
    rw [this, dif_neg (by omega)]; rfl
  have e2 : c1.parked.settled = c1.parked := by
    refine Controller.settled_of_quiet e1 ?_ ?_
    · show c1.request = c1.mode
      simp only [Controller.request, Controller.mode, rd1 0x0F (by decide), rd1 0x0E (by decide)]
      exact hq
    · show c1.pending = false
      simp only [Controller.pending, rd1 0x30 (by decide)]; exact hp
  rw [e2] at I3
  obtain ⟨I5, -⟩ := (I3.enter .send).bracket 0x81 []
  rw [Controller.request_bracket, Controller.requestToSend_of (c := c1.parked) e1] at I5
  obtain ⟨t, ht, hr, hct, hi, hc⟩ := I5.returns hcfg h1 h2 (.status .ok)
  refine ⟨t, ?_, hr, hct, hi, hc⟩
  rw [← ht]
  have a1 : (s.setFb g).cfg.addrTxb0ctrl = 0x30 := hcfg.2.2.2.2.2.2.2.2.2.2.2.2.2.1
  have a2 : (s.setFb g).cfg.maskTxreq = 0x08 := by
    have := hcfg; simp only [forController] at this; exact this.2.2.2.2.2.2.2.2.2.2.2.2.2.2.2.2.2.2.1
  have hb : pendingBit (s.setFb g).cfg rr.1 = false := by
    rw [hv2]; simp only [pendingBit, a2]
    have : ∀ x : Byte, x.getLsbD 3 = false → (x &&& 0x08 != 0) = false := by decide +kernel
    exact this _ hp
  have hfb' : (u.enter .load).scratch.fb = g := hfb
  have a3 : (u.enter .load).cfg = s.cfg := I2.cfg
  have a4 : s.cfg.opLoadTx0 = 0x40 := hcfg.2.2.2.2.1
  have a5 : s.cfg.opRtsTx0 = 0x81 := hcfg.2.2.2.2.2.1
  simp only [exec, execTransmit, State.whenReady_of hs.1, State.whenReleased_of hs.2.1.1,
    toFrame_of hd.1 hd.2.1 hd.2.2, State.transmitRun]
  rw [show (({ id := BitVec.setWidth 11 f.id, dlc := BitVec.setWidth 4 f.dlc, data :=
    f.data } : CanFrame)) = g from rfl]
  simp only [a1, hrr, hb, hu]
  have hload : (u.enter .load).loadTxBuffer g =
      (u.enter .load).bracket (0x40 :: encodeTx s.cfg.txReservedByte g) := by
    simp only [State.loadTxBuffer, a3, a4]
  have hld : ((u.enter .load).loadTxBuffer (u.enter .load).scratch.fb) =
      (u.enter .load).bracket (0x40 :: encodeTx s.cfg.txReservedByte g) := by
    rw [hfb', hload]
  have hc5 : (((u.enter .load).bracket (0x40 :: encodeTx s.cfg.txReservedByte g)).enter .send).cfg = s.cfg := I3.cfg
  simp only [Bool.false_eq_true, if_false]
  show ((((u.enter .load).loadTxBuffer (u.enter .load).scratch.fb).enter .send).requestToSend).finish _ = _
  rw [hld]
  simp only [State.requestToSend, hc5, a5]

end Sys2Proof.Machine
end

