-- ==== Sys2Proof/Tests/Slice0.lean ====
section
/-! SUPPORT. Tests on fixed values: expected results are those of spec/95_test_vectors.md (the vector is named)
or the encodings of spec/30_encoding.md; and, for every statement with hypotheses, states that meet them. -/

-- One test after the other: side by side, each kernel evaluation below waits in a thread of its own, and their
-- stacks together pass the memory limit of the check.
set_option Elab.async false

namespace Sys2Proof.Tests

open Sys2Proof Sys2Proof.Machine

/-! ## WellFormed: each check refuses an ill-formed term -/

theorem test_check_idAbove7FF : (Instr.transmit ⟨0x800, 0, []⟩).check 16 = some .idAbove7FF := by decide
theorem test_check_dlcAbove8 : (Instr.cmdLoadTxBuffer 0x123 9 [0, 1, 2, 3, 4, 5, 6, 7, 8]).check 16 = some .dlcAbove8 := by
  decide
theorem test_check_payloadLength : (Instr.encodeTxBuffer ⟨0x100, 2, [0xAA]⟩).check 16 = some .payloadLength := by decide
theorem test_check_targetConfiguration : (Instr.init .configuration).check 16 = some .targetConfiguration := by decide
theorem test_check_imageTooShort : (Instr.decodeRxBuffer [0xFD, 0, 0, 0]).check 16 = some .imageTooShort := by decide
theorem test_check_imageLength : (Instr.decodeRxBuffer [0xFD, 0, 0, 0, 3, 3, 0x41]).check 16 = some .imageLength := by
  decide
theorem test_check_accepts : (Instr.transmit ⟨0x7FF, 8, [0, 1, 2, 3, 4, 5, 6, 7]⟩).check 16 = none := by decide

theorem test_check_boundTooWide : (Instr.receiveWithTimeout 0x10000).check 16 = some .boundTooWide ∧
    (Instr.receiveWithTimeout 0x10000).check 17 = none := by decide

/-! ## Decode: words written out from R91 and log 2, first byte in the low bits -/

theorem test_decode_spiInit : decodeTableWord 8 0x00 = some .spiInit := by decide +kernel
theorem test_decode_assertSelect : decodeTableWord 8 0x01 = some .assertSelect := by decide +kernel
theorem test_decode_deassertSelect : decodeTableWord 8 0x02 = some .deassertSelect := by decide +kernel
theorem test_decode_transfer : decodeTableWord 16 0xA503 = some (.transfer 0xA5) := by decide +kernel
theorem test_decode_cmdReset : decodeTableWord 8 0x10 = some .cmdReset := by decide +kernel
theorem test_decode_cmdReadRegister : decodeTableWord 16 0x0E11 = some (.cmdReadRegister 0x0E) := by decide +kernel
theorem test_decode_cmdWriteRegister : decodeTableWord 24 0x032A12 = some (.cmdWriteRegister 0x2A 0x03) := by
  decide +kernel
theorem test_decode_cmdBitModify : decodeTableWord 32 0x40E00F13 = some (.cmdBitModify 0x0F 0xE0 0x40) := by
  decide +kernel
theorem test_decode_cmdLoadTxBuffer :
    decodeTableWord 56 0xADDE0202230114 = some (.cmdLoadTxBuffer 0x123 2 [0xDE, 0xAD]) := by decide +kernel
theorem test_decode_cmdRequestToSend : decodeTableWord 8 0x15 = some .cmdRequestToSend := by decide +kernel
theorem test_decode_cmdReadRxBuffer : decodeTableWord 8 0x16 = some .cmdReadRxBuffer := by decide +kernel
theorem test_decode_encodeTxBuffer : decodeTableWord 40 0x0000FF0720 = some (.encodeTxBuffer ⟨0x7FF, 0, []⟩) := by
  decide +kernel
theorem test_decode_decodeRxBuffer :
    decodeTableWord 56 0x00BBAAF8FB0521 = some (.decodeRxBuffer [0xFB, 0xF8, 0xAA, 0xBB, 0x00]) := by decide +kernel
theorem test_decode_init_normal : decodeTableWord 16 0x0030 = some (.init .normal) := by decide +kernel
theorem test_decode_init_loopback : decodeTableWord 16 0x0230 = some (.init .loopback) := by decide +kernel
theorem test_decode_transmit : decodeTableWord 48 0xFF0101100031 = some (.transmit ⟨0x010, 1, [0xFF]⟩) := by
  decide +kernel
theorem test_decode_receive : decodeTableWord 8 0x32 = some .receive := by decide +kernel
theorem test_decode_receiveWithTimeout : decodeTableWord 24 0x050033 = some (.receiveWithTimeout 5) := by decide +kernel
theorem test_decode_reserved : decodeTableWord 8 0x34 = none ∧ decodeTableWord 8 0x04 = none := by decide +kernel

/-! ## Small states -/

/-- After `SpiInit` and nothing else: the bus is idle; the oracle answers with the bytes given. -/
def lab (answers : List Byte) : State :=
  { State.reset with
    dirSck := .output, dirCs := .output, dirMosi := .output, pinCs := true, inited := true
    samples := answers.flatMap wireBits }

/-- The bit-timing bytes of the vectors' conventions, and nothing free in the configuration. -/
def labCfg : Cfg := { Cfg.default with cnf1Val := 0x00, cnf2Val := 0x90, cnf3Val := 0x02 }

/-- The same in front of the simulator, whose controller has just been powered (R166, R180). -/
def sim : State := { lab [] with env := .simulator, cfg := labCfg }

/-- The simulator's controller with these registers, all others as after power-on. -/
def simWith (regs : Memory) : State := { sim with ctl := { Controller.powerOn with reg := regs } }

/-- RX_DLC_GUARD = strict. -/
def strictLab (answers : List Byte) : State :=
  { lab answers with cfg := { Cfg.default with rxDlcGuard := .strict } }

def resultOf (o : Out) : Option Result :=
  match o with
  | .next t => some t.ret
  | .fault _ => none
  | .refused _ => none

def traceOf (o : Out) : List Event :=
  match o with
  | .next t => t.trace
  | .fault _ => []
  | .refused _ => []

def stopOf (o : Out) : Option (Fault ⊕ Refusal) :=
  match o with
  | .next _ => none
  | .fault f => some (.inl f)
  | .refused why => some (.inr why)

/-- The bytes on MOSI between the edges of CS, read off the events: the level at each rising edge of the
clock, first bit on top. -/
def wire (es : List Event) (mosi : Level) (bits : List Level) : List (List Level) :=
  match es with
  | [] => []
  | .pinWrite .mosi v :: es => wire es v bits
  | .pinWrite .sck true :: es => wire es mosi (bits ++ [mosi])
  | .pinWrite .sck false :: es => wire es mosi bits
  | .pinWrite .cs true :: es => bits :: wire es mosi []
  | .pinWrite .cs false :: es => wire es mosi []
  | .pinRead _ :: es => wire es mosi bits
  | .pinDir _ _ :: es => wire es mosi bits
  | .delayMs _ :: es => wire es mosi bits

/-- The brackets of an outcome are these bytes. -/
def sends (o : Out) (brackets : List (List Byte)) : Bool :=
  wire (traceOf o) false [] == brackets.map fun txs => txs.flatMap wireBits

theorem next_of_runsOn {o : Out} (h : runsOn o = true) : ∃ t, o = .next t := by
  match o, h with
  | .next t, _ => exact ⟨t, rfl⟩

/-! ## Vectors -/

/-- V1, SpiInit. -/
theorem test_spiInit : traceOf (exec .spiInit State.reset) =
    [.pinDir .sck .output, .pinDir .cs .output, .pinDir .mosi .output, .pinDir .miso .input,
     .pinWrite .cs true, .pinWrite .sck false, .pinWrite .mosi false] := by decide +kernel
/-- V1, the refusal. -/
theorem test_notInitialised : stopOf (exec (.transfer 0x00) State.reset) = some (.inr .notInitialised) := by
  decide +kernel
/-- P5 step 2. -/
theorem test_assertSelect : traceOf (exec .assertSelect (lab [])) = [.pinWrite .cs false] := by decide +kernel
/-- P5 step 6. -/
theorem test_deassertSelect : traceOf (exec .deassertSelect { lab [] with pinCs := false }) =
    [.pinWrite .cs true] := by decide +kernel
/-- V1 row 1, all 32 events. -/
theorem test_transfer : traceOf (exec (.transfer 0xA5) (lab [0x3C])) =
    [(true, false), (false, false), (true, true), (false, true), (false, true), (true, true), (false, false),
     (true, false)].flatMap fun x => [.pinWrite .mosi x.1, .pinWrite .sck true, .pinRead x.2, .pinWrite .sck false] := by
  decide +kernel
/-- V1 row 5. -/
theorem test_transfer_result :
    resultOf (exec (.transfer 0x01)
      { lab [] with samples := [true, false, false, false, false, false, false, false] }) = some (.byte 0x80) := by
  decide +kernel
/-- V2 row 1. -/
theorem test_cmdReset : sends (exec .cmdReset (lab [])) [[0xC0]] = true ∧
    (traceOf (exec .cmdReset (lab []))).getLast? = some (.delayMs 10) := by decide +kernel
/-- V2 row 3. -/
theorem test_cmdReadRegister : sends (exec (.cmdReadRegister 0xFF) (lab [1, 2, 0x5A])) [[0x03, 0xFF, 0x00]] = true ∧
    resultOf (exec (.cmdReadRegister 0xFF) (lab [1, 2, 0x5A])) = some (.byte 0x5A) := by decide +kernel
/-- V2 row 5. -/
theorem test_cmdWriteRegister : sends (exec (.cmdWriteRegister 0x2A 0x03) (lab [])) [[0x02, 0x2A, 0x03]] = true := by
  decide +kernel
/-- V2 row 6. -/
theorem test_cmdBitModify : sends (exec (.cmdBitModify 0x0F 0xE0 0x40) (lab [])) [[0x05, 0x0F, 0xE0, 0x40]] = true := by
  decide +kernel
/-- V2 row 9. -/
theorem test_cmdLoadTxBuffer : sends (exec (.cmdLoadTxBuffer 0x123 2 [0xDE, 0xAD]) (lab []))
    [[0x40, 0x24, 0x60, 0x00, 0x00, 0x02, 0xDE, 0xAD]] = true := by decide +kernel
/-- V2, the refusal of dlc 9. -/
theorem test_cmdLoadTxBuffer_refused : stopOf (exec (.cmdLoadTxBuffer 0x123 9 [0, 1, 2, 3, 4, 5, 6, 7, 8]) (lab [])) =
    some (.inr .operandOutOfDomain) := by decide +kernel
/-- V2, CmdRequestToSend. -/
theorem test_cmdRequestToSend : sends (exec .cmdRequestToSend (lab [])) [[0x81]] = true := by decide +kernel
/-- V2, received FD 00 xx xx 03 03 41 0D. -/
theorem test_cmdReadRxBuffer : resultOf (exec .cmdReadRxBuffer (lab [9, 0xFD, 0, 1, 2, 3, 3, 0x41, 0x0D])) =
    some (.frame ⟨0x7E8, 3, [3, 0x41, 0x0D]⟩) := by decide +kernel
/-- V2, nibble 15 limited to 8. -/
theorem test_cmdReadRxBuffer_clamp :
    resultOf (exec .cmdReadRxBuffer
      (lab [9, 0xFF, 0xFF, 1, 2, 0x4F, 0xA0, 0xA1, 0xA2, 0xA3, 0xA4, 0xA5, 0xA6, 0xA7])) =
    some (.frame ⟨0x7FF, 8, [0xA0, 0xA1, 0xA2, 0xA3, 0xA4, 0xA5, 0xA6, 0xA7]⟩) := by decide +kernel
/-- V3, id 0x2AA. -/
theorem test_encodeTxBuffer : resultOf (exec (.encodeTxBuffer ⟨0x2AA, 0, []⟩) (lab [])) =
    some (.bytes [0x55, 0x40, 0, 0, 0]) := by decide +kernel
/-- V3, id 0x001. -/
theorem test_encodeTxBuffer_payload : resultOf (exec (.encodeTxBuffer ⟨0x001, 1, [0xFF]⟩) (lab [])) =
    some (.bytes [0x00, 0x20, 0, 0, 1, 0xFF]) := by decide +kernel
/-- V4 row 7. -/
theorem test_decodeRxBuffer :
    resultOf (exec (.decodeRxBuffer [0x12, 0x34, 0, 0, 0x0F, 0x10, 0x11, 0x12, 0x13, 0x14, 0x15, 0x16, 0x17])
      (lab [])) = some (.frame ⟨0x091, 8, [0x10, 0x11, 0x12, 0x13, 0x14, 0x15, 0x16, 0x17]⟩) := by decide +kernel
/-- V4 row 6. -/
theorem test_decodeRxBuffer_topBit : resultOf (exec (.decodeRxBuffer [0x80, 0, 0, 0, 0]) (lab [])) =
    some (.frame ⟨0x400, 0, []⟩) := by decide +kernel
/-- V6 row 4: bits 4:0 of the status byte ignored. -/
theorem test_init : resultOf (exec (.init .loopback) (lab ([0, 0, 0, 0x9F] ++ List.replicate 18 0 ++ [0x5F]))) =
    some (.status .ok) := by decide +kernel
/-- V6 row 9. -/
theorem test_init_error : resultOf (exec (.init .loopback) (lab ([0, 0, 0, 0x80] ++ List.replicate 18 0 ++ [0x60]))) =
    some (.status .error) := by decide +kernel
/-- V7 row 6. -/
theorem test_transmit : resultOf (exec (.transmit ⟨0x123, 2, [0xDE, 0xAD]⟩) (lab [0, 0, 0xF7])) =
    some (.status .ok) := by decide +kernel
/-- V7 row 3. -/
theorem test_transmit_busy : resultOf (exec (.transmit ⟨0x123, 2, [0xDE, 0xAD]⟩) (lab [0, 0, 0x0B])) =
    some (.status .busy) := by decide +kernel
/-- V8 row 2. -/
theorem test_receive_noMessage : resultOf (exec .receive (lab [0, 0, 0xFE])) = some (.status .noMessage) := by
  decide +kernel
/-- V8 row 3. -/
theorem test_receive : resultOf (exec .receive (lab [0, 0, 1, 0, 0xFD, 0, 7, 7, 3, 3, 0x41, 0x0D])) =
    some (.okFrame ⟨0x7E8, 3, [3, 0x41, 0x0D]⟩) := by decide +kernel
/-- V9 row 5: one empty poll, then the frame. -/
theorem test_receiveWithTimeout :
    resultOf (exec (.receiveWithTimeout 3) (lab [0, 0, 0, 0, 0, 1, 0, 0xFD, 0, 7, 7, 3, 3, 0x41, 0x0D])) =
      some (.okFrame ⟨0x7E8, 3, [3, 0x41, 0x0D]⟩) := by decide +kernel
/-- V9 row 2. -/
theorem test_receiveWithTimeout_timeout :
    sends (exec (.receiveWithTimeout 1) (lab [0, 0, 0])) [[0x03, 0x2C, 0x00]] = true ∧
    (traceOf (exec (.receiveWithTimeout 1) (lab [0, 0, 0]))).getLast? = some (.delayMs 1) := by decide +kernel

/-! ## The simulator -/

/-- P1 step 2. -/
theorem test_sim_init : resultOf (exec (.init .loopback) sim) = some (.status .ok) := by decide +kernel

/-- The register space at the end of an outcome. -/
def regsOf (o : Out) : Memory :=
  match o with
  | .next t => t.ctl.reg
  | .fault _ => []
  | .refused _ => []

/-- P1, the controller's end state (the registers listed in P1; all others read as after the reset). -/
theorem test_sim_init_registers : regsOf (exec (.init .loopback) sim) =
    [(0x0E, 0x40), (0x0F, 0x47), (0x28, 0x02), (0x29, 0x90)] := by decide +kernel

/-- The registers at the end of P1. -/
def p1End : State := simWith [(0x0E, 0x40), (0x0F, 0x47), (0x28, 0x02), (0x29, 0x90)]

/-- P2, the controller's end state: the image in both buffers, REG[30]=00, REG[2C]=05. -/
theorem test_sim_transmit :
    regsOf (exec (.transmit ⟨0x7DF, 8, [0x02, 0x01, 0x0C, 0x55, 0x55, 0x55, 0x55, 0x55]⟩) p1End) =
    [(0x0E, 0x40), (0x0F, 0x47), (0x28, 0x02), (0x29, 0x90), (0x2C, 0x05),
     (0x31, 0xFB), (0x32, 0xE0), (0x35, 8), (0x36, 2), (0x37, 1), (0x38, 0x0C), (0x39, 0x55), (0x3A, 0x55),
     (0x3B, 0x55), (0x3C, 0x55), (0x3D, 0x55),
     (0x61, 0xFB), (0x62, 0xE0), (0x65, 8), (0x66, 2), (0x67, 1), (0x68, 0x0C), (0x69, 0x55), (0x6A, 0x55),
     (0x6B, 0x55), (0x6C, 0x55), (0x6D, 0x55)] := by decide +kernel

/-- P3 step 1: the frame, and REG[2C]=04 after it. -/
theorem test_sim_receive :
    resultOf (exec .receive (simWith [(0x0E, 0x40), (0x0F, 0x47), (0x2C, 0x05), (0x61, 0xFB), (0x62, 0xE0), (0x65, 2),
      (0x66, 2), (0x67, 1)])) = some (.okFrame ⟨0x7DF, 2, [0x02, 0x01]⟩) ∧
    regsOf (exec .receive (simWith [(0x0E, 0x40), (0x0F, 0x47), (0x2C, 0x05), (0x61, 0xFB)])) =
      [(0x0E, 0x40), (0x0F, 0x47), (0x2C, 0x04), (0x61, 0xFB)] := by decide +kernel

/-- P6: the frame arrives at the eleventh opportunity, the end of the second empty poll. -/
theorem test_sim_reception : resultOf (exec (.receiveWithTimeout 5)
    { simWith [(0x0E, 0x00), (0x0F, 0x07)] with
      moves := List.replicate 10 [] ++ [[.receive #v[0xFD, 0, 0, 0, 8, 4, 0x41, 0x0C, 0x1A, 0xF8, 0, 0, 0]]] }) =
    some (.okFrame ⟨0x7E8, 8, [4, 0x41, 0x0C, 0x1A, 0xF8, 0, 0, 0]⟩) := by decide +kernel

/-- R83, R181: an extended frame goes to the bus in Normal mode. -/
theorem test_sim_extendedFrame : stopOf (exec .cmdRequestToSend (simWith [(0x0E, 0x00), (0x0F, 0x07), (0x32, 0x08)])) =
    some (.inr (.outsideController .extendedFrame)) := by decide +kernel

/-! ## The client above the block (log 27) -/

/-- S1. -/
theorem test_obdRpm : obdRpm 0x1A 0xF8 = 1726 := by
  simp [obdRpm]
/-- R154: 1000, 500 and 12500 thousandths of a volt; an exact quotient is no free value. -/
theorem test_obdVoltage : obdVoltage 0x03 0xE8 = 1 ∧ obdVoltage 0x01 0xF4 = 1 / 2 ∧ obdVoltage 0x30 0xD4 = 25 / 2 := by
  refine ⟨?_, ?_, ?_⟩ <;> rw [obdVoltage_exact (by decide)] <;> simp [obdVoltageExact] <;> norm_num
/-- S2. -/
theorem test_obdCoolant : obdCoolant 0x5A = 50 := by decide
/-- S4. -/
theorem test_obdAccepts : obdAccepts 0x0C ⟨0x7E8, 8, [3, 0x41, 0x0D, 0x28, 0, 0, 0, 0]⟩ = false ∧
    obdAccepts 0x0D ⟨0x7E8, 8, [3, 0x41, 0x0D, 0x28, 0, 0, 0, 0]⟩ = true := by decide
/-- S8. -/
theorem test_obdPayload : obdPayload 0x0C = [0x02, 0x01, 0x0C, 0x55, 0x55, 0x55, 0x55, 0x55] := by decide

/-! ## States that meet the hypotheses of the statements

`witness_<Name>` is for Obligations.<Name>; a statement without hypotheses has none. -/

/-- An operation is running. -/
def running : State := { lab [] with seq := .poll }

/-- A bracket is open. -/
def inBracket : State := { lab [] with pinCs := false }

/-- The simulator's controller in Loopback mode, quiet. -/
def simLoopback : State := simWith [(0x0E, 0x40), (0x0F, 0x47)]

/-- The controller with these registers and this parser state. -/
def ctl (regs : Memory) (pst : Parser) : Controller := { Controller.powerOn with reg := regs, pst := pst }

theorem witness_DecodeEncodeRoundTrip :
    (Instr.transmit ⟨0x7FF, 8, [0, 1, 2, 3, 4, 5, 6, 7]⟩).wf 16 ∧
    (Instr.encodeTxBuffer ⟨0xFFFF, 0xFF, []⟩).portable 16 ∧ (Instr.receiveWithTimeout 0xFFFF).wf 16 ∧
    (Instr.receiveWithTimeout 0xFFFF).portable 12 :=
  ⟨by decide, show ([] : List Byte).length < 256 by decide, by decide, show 0xFFFF < 256 ^ 2 by decide⟩
theorem witness_ReservedSelectorsRefused : ∀ opsel ∈ ([0x04, 0x0F, 0x17, 0x1F, 0x22, 0x2F, 0x34, 0xFF] : List Byte),
    ({ lab [] with port := opsel :: [0x00] } : State).port = opsel :: [0x00] ∧
    opsel ∉ ([0x00, 0x01, 0x02, 0x03, 0x10, 0x11, 0x12, 0x13, 0x14, 0x15, 0x16, 0x20, 0x21, 0x30, 0x31, 0x32,
      0x33] : List Byte) := by
  simp only [true_and]
  decide
theorem witness_StepRunsDecodedRequest :
    decode (lab []).cfg.wBound ({ lab [] with port := [0x03, 0xA5, 0x32] } : State).port = .ok (.transfer 0xA5, [0x32]) := rfl
theorem witness_EmptyPortWaits : (lab []).port = [] ∧ (lab []).env = .oracle := by decide
theorem witness_InitedGuardsEveryOperation : (∃ t, exec .spiInit State.reset = .next t) ∧
    (∃ t, exec (.transfer 0) (lab []) = .next t) ∧ State.reset.inited = false :=
  ⟨next_of_runsOn (by decide +kernel), next_of_runsOn (by decide +kernel), rfl⟩
theorem witness_SpiInitSetsLines : (State.reset.seq = .idle ∧ State.reset.staysInside ∧ State.reset.env = .oracle) ∧
    (sim.seq = .idle ∧ sim.staysInside ∧ sim.pinCs = true ∧ sim.pinSck = false) ∧ running.seq ≠ .idle := by decide
theorem witness_AssertSelectDrivesLow : ((lab []).ready ∧ (lab []).staysInside ∧ (lab []).env = .oracle) ∧
    ((∃ s : State, s.ready ∧ s.staysInside ∧ s.env = .simulator ∧ s.pinCs = false)) ∧
    State.reset.inited = false ∧ running.inited = true ∧ running.seq ≠ .idle :=
  ⟨by decide, ⟨{ sim with pinCs := false }, by decide⟩, by decide⟩
theorem witness_DeassertSelectDrivesHigh : (inBracket.ready ∧ inBracket.staysInside ∧ inBracket.env = .oracle) ∧
    (sim.ready ∧ sim.staysInside ∧ sim.pinCs = true) ∧
    State.reset.inited = false ∧ running.inited = true ∧ running.seq ≠ .idle := by decide
theorem witness_TransferExchangesByte : ((lab []).env = .oracle ∧ (lab []).ready) ∧
    (∃ t, exec (.transfer 0xFF) sim = .next t) ∧ State.reset.inited = false ∧ running.inited = true ∧
    running.seq ≠ .idle :=
  ⟨by decide, next_of_runsOn (by decide +kernel), by decide⟩
theorem witness_TransferResultIgnoresOperand : inBracket.ctl.edges = 0 ∧
    (∃ t, exec (.transfer 0x00) inBracket = .next t) ∧ (∃ t, exec (.transfer 0xFF) inBracket = .next t) ∧
    (∃ t, exec (.transfer 0x03) { sim with pinCs := false } = .next t) :=
  ⟨rfl, next_of_runsOn (by decide +kernel), next_of_runsOn (by decide +kernel), next_of_runsOn (by decide +kernel)⟩
/-- Meets the hypotheses of the seven command statements and of the driver statements under `oracleReady`. -/
theorem witness_oracleReady : (lab []).oracleReady ∧ (lab []).cfg.rxDlcGuard = .clamp := by decide
theorem witness_CmdResetSendsOpcodeAndWaits : (lab []).oracleReady := by decide
theorem witness_CmdReadRegisterReturnsThirdByte : (lab []).oracleReady := by decide
theorem witness_CmdWriteRegisterSendsThreeBytes : (lab []).oracleReady := by decide
theorem witness_CmdBitModifySendsFourBytes : (lab []).oracleReady := by decide
theorem witness_CmdLoadTxBufferSendsImage : (lab []).oracleReady ∧
    ((0x7FF : BitVec 16).toNat ≤ 0x7FF ∧ (8 : Byte).toNat ≤ 8 ∧ [0, 1, 2, 3, 4, 5, 6, (7 : Byte)].length = (8 : Byte).toNat) ∧
    ((0 : BitVec 16).toNat ≤ 0x7FF ∧ (0 : Byte).toNat ≤ 8 ∧ ([] : List Byte).length = (0 : Byte).toNat) := by decide
theorem witness_CmdRequestToSendSendsOpcode : (lab []).oracleReady := by decide
theorem witness_CmdReadRxBufferReadsFrame : (lab []).oracleReady ∧ (lab []).cfg.rxDlcGuard = .clamp := by decide
/-- A DLC byte of 9 and one of 8, behind a read of the buffer and behind a poll. -/
theorem witness_StrictGuardOnReceivedLength :
    (strictLab []).oracleReady ∧ (strictLab []).cfg.rxDlcGuard = .strict ∧
    (0x01 : Byte) &&& (strictLab []).cfg.maskRx0if ≠ 0 ∧ (1 : Nat) ≠ 0 ∧ 1 < 2 ^ (strictLab []).cfg.wBound ∧
    (9 : Byte) > 8 ∧ (strictLab [1, 2, 3, 4, 5, 9]).samples = ([1, 2, 3, 4, 5, 9] ++ []).flatMap wireBits ++ [] ∧
    (8 : Byte).toNat ≤ 8 ∧ [0, 1, 2, 3, 4, 5, 6, (7 : Byte)].length = (8 : Byte).toNat ∧
    (strictLab [0, 0, 1, 1, 2, 3, 4, 5, 8, 0, 1, 2, 3, 4, 5, 6, 7]).samples =
      ([0, 0, 1, 1, 2, 3, 4, 5, 8] ++ [0, 1, 2, 3, 4, 5, 6, 7]).flatMap wireBits ++ [] := by decide
theorem witness_CommandSummary : (∃ t, exec (.cmdReadRegister 0x0E) (lab []) = .next t) ∧
    commandBytes (lab []).cfg (.cmdReadRegister 0x0E) [] ≠ none ∧
    (∃ t, exec .cmdReadRxBuffer (lab [1, 2, 3, 4, 5, 8]) = .next t) :=
  ⟨next_of_runsOn (by decide +kernel), by simp [commandBytes], next_of_runsOn (by decide +kernel)⟩
theorem witness_EncodeTxBufferImage : (lab []).ready ∧ (lab []).left = none ∧
    ((0x7FF : BitVec 16).toNat ≤ 0x7FF ∧ (8 : Byte).toNat ≤ 8 ∧ [0, 1, 2, 3, 4, 5, 6, (7 : Byte)].length = (8 : Byte).toNat) ∧
    ¬ ((0x800 : BitVec 16).toNat ≤ 0x7FF ∧ (0 : Byte).toNat ≤ 8 ∧ ([] : List Byte).length = (0 : Byte).toNat) := by decide
theorem witness_DecodeRxBufferFrame : (lab []).ready ∧ (lab []).left = none ∧
    rxCount (lab []).cfg.rxDlcGuard 0x0F = some 8 ∧ [0, 1, 2, 3, 4, 5, 6, (7 : Byte)].length = (8 : BitVec 4).toNat ∧
    ([] : List Byte).length ≠ (8 : BitVec 4).toNat ∧
    (strictLab []).ready ∧ rxCount (strictLab []).cfg.rxDlcGuard 9 = none ∧ [0, 0, 0, (0 : Byte)].length < 5 := by decide
theorem witness_RxCountLimitsToEight : (8 : Byte).toNat ≤ 8 ∧ (9 : Byte).toNat > 8 := by decide
theorem witness_CodecRoundTrip : (lab []).ready ∧ (lab []).left = none ∧
    (FrameOperand.mk 0x7FF 8 [0, 1, 2, 3, 4, 5, 6, 7]).check = none ∧
    decodeRx .clamp ([0x24, 0x68, 0x12, 0x34, 0x02] ++ [0xDE, 0xAD]) = .ok ⟨0x123, 2, [0xDE, 0xAD]⟩ :=
  ⟨by decide, by decide, by decide, rfl⟩
theorem witness_InitVerifiesTwice : ControllerMode.loopback ≠ .configuration ∧ ControllerMode.normal ≠ .configuration ∧
    (lab []).oracleReady := by decide
/-- An Ok and an Error of the same call. -/
theorem witness_InitDiscipline :
    (∃ t, exec (.init .loopback) (lab ([0, 0, 0, 0x80] ++ List.replicate 18 0 ++ [0x40])) = .next t ∧
      t.ret = .status .ok) ∧
    (∃ t, exec (.init .loopback) (lab [0, 0, 0, 0x00]) = .next t) ∧
    (lab ([0, 0, 0, 0x80] ++ List.replicate 18 0 ++ [0x40])).cfg = (lab [0, 0, 0, 0x00]).cfg := by
  refine ⟨?_, next_of_runsOn (by decide +kernel), rfl⟩
  have h : resultOf (exec (.init .loopback) (lab ([0, 0, 0, 0x80] ++ List.replicate 18 0 ++ [0x40]))) =
      some (.status .ok) := by decide +kernel
  generalize exec (.init .loopback) (lab ([0, 0, 0, 0x80] ++ List.replicate 18 0 ++ [0x40])) = o at h
  match o, h with
  | .next t, h => exact ⟨t, rfl, Option.some.inj h⟩
theorem witness_TransmitLoadsOrReportsBusy : (lab []).oracleReady ∧ (0x7FF : BitVec 16).toNat ≤ 0x7FF ∧
    (8 : Byte).toNat ≤ 8 ∧ [0, 1, 2, 3, 4, 5, 6, (7 : Byte)].length = (8 : Byte).toNat := by decide
theorem witness_ReceivePollsOnce : (lab []).oracleReady ∧ (lab []).cfg.rxDlcGuard = .clamp := by decide
theorem witness_ReceiveWithTimeoutPollsUntilBound : (lab []).oracleReady ∧ (lab []).cfg.rxDlcGuard = .clamp ∧
    0 < 2 ^ (lab []).cfg.wBound ∧ 0xFFFF < 2 ^ (lab []).cfg.wBound := by decide
/-- Prepared answers for `Init`, for `Transmit` and for `ReceiveWithTimeout 1` or `Receive`. -/
theorem witness_DriverOperationsComplete : (lab []).cfg.rxDlcGuard = .clamp ∧
    ((lab ([0, 0, 0, 0x80] ++ (List.replicate 18 0 ++ [0x40]))).oracleReady ∧
      ControllerMode.loopback ≠ .configuration ∧ (List.replicate 18 (0 : Byte)).length = 18 ∧
      modeField 0x80 = (lab []).cfg.modeCodeConfig ∧ modeField 0x40 = modeCode (lab []).cfg .loopback) ∧
    ((lab ([0, 0, 0xF7] ++ [0, 0, 0, 0, 0, 0, 0, 0] ++ [0])).oracleReady ∧
      (FrameOperand.mk 0x123 2 [0xDE, 0xAD]).check = none ∧ (0xF7 : Byte) &&& (lab []).cfg.maskTxreq = 0 ∧
      [0, 0, 0, 0, 0, 0, 0, (0 : Byte)].length = 6 + (2 : Byte).toNat) ∧
    ((lab ([0, 0, 1] ++ (0 :: [0xFD, 0, 7, 7, 3] ++ [3, 0x41, 0x0D]) ++ [0, 0, 0, 0])).oracleReady ∧
      ([] : List (Byte × Byte × Byte)).length < 1 ∧ 1 < 2 ^ (lab []).cfg.wBound ∧
      (0x01 : Byte) &&& (lab []).cfg.maskRx0if ≠ 0 ∧
      [3, 0x41, (0x0D : Byte)].length = min ((3 : Byte).toNat % 16) 8) ∧
    (∀ bs : List Byte, (lab bs).samples = bs.flatMap wireBits ++ []) :=
  ⟨rfl, by decide, by decide, by decide, fun bs => (List.append_nil _).symm⟩
theorem witness_ReceiveWithTimeoutZero : ((lab []).ready ∧ (lab []).pinCs = true ∧ (lab []).left = none) ∧
    (sim.ready ∧ sim.pinCs = true ∧ sim.left = none) := by decide
theorem witness_OperationInProgressRefused : running.seq ≠ .idle ∧ running.inited = true := by decide
theorem witness_OverlappingCommandFaults : inBracket.ready ∧ inBracket.pinCs = false ∧ usesBracket .receive = true ∧
    Instr.receive.wf inBracket.cfg.wBound ∧ exec .receive inBracket = .fault .overlappingCommand :=
  ⟨by decide, rfl, rfl, rfl, rfl⟩
/-- With both values of RX_DLC_GUARD; the list for `DecodeRxBuffer` with clamp. -/
theorem witness_OperandOutOfDomainRefused : (lab []).ready ∧ (lab []).cfg.rxDlcGuard = .clamp ∧
    (strictLab []).ready ∧ (strictLab []).cfg.wBound = 16 ∧
    ¬ (Instr.transmit ⟨0x800, 0, []⟩).wf 16 ∧ ¬ (Instr.cmdLoadTxBuffer 0 9 [0, 1, 2, 3, 4, 5, 6, 7, 8]).wf 16 ∧
    ¬ (Instr.encodeTxBuffer ⟨0x100, 2, [0xAA]⟩).wf 16 ∧ ¬ (Instr.decodeRxBuffer [0, 0, 0, 0]).wf 16 ∧
    ¬ (Instr.init .configuration).wf 16 ∧ ¬ (Instr.receiveWithTimeout 0x10000).wf 16 := by decide
theorem witness_EveryEnvironmentReturns : (Instr.init .normal).wf 16 ∧ (lab []).cfg.wBound = 16 ∧ (lab []).ready ∧
    (lab []).pinCs = true ∧ sim.ready ∧ sim.pinCs = true ∧ (strictLab []).ready ∧ (strictLab []).pinCs = true ∧
    (Instr.transfer 0).wf 16 ∧ usesBracket (.transfer 0) = false ∧ inBracket.ready := by decide
theorem witness_StepKeepsInvariant : ∃ t, State.Inv { lab [] with port := [0x03, 0xA5] } ∧
    step { lab [] with port := [0x03, 0xA5] } = .next t := by
  obtain ⟨t, h⟩ := next_of_runsOn (o := step { lab [] with port := [0x03, 0xA5] }) (by decide +kernel)
  exact ⟨t, by decide, h⟩
theorem witness_DirectionsOnlyBySpiInit : (∃ t, exec .spiInit State.reset = .next t) ∧
    (∃ t, exec .cmdRequestToSend (lab []) = .next t) :=
  ⟨next_of_runsOn (by decide +kernel), next_of_runsOn (by decide +kernel)⟩
theorem witness_IdleBusRestored : (lab []).busIdle ∧ (∃ t, exec .cmdRequestToSend (lab []) = .next t) ∧
    (State.reset.inited = false ∧ ∃ t, exec .spiInit State.reset = .next t) :=
  ⟨by decide, next_of_runsOn (by decide +kernel), rfl, next_of_runsOn (by decide +kernel)⟩
theorem witness_StatusTable : (∃ t, exec (.transmit ⟨0, 0, []⟩) (lab [0, 0, 8]) = .next t) ∧
    (∃ t, exec .receive (lab [0, 0, 0]) = .next t) :=
  ⟨next_of_runsOn (by decide +kernel), next_of_runsOn (by decide +kernel)⟩
theorem witness_DelaysOfOperations : (∃ t, exec .cmdReset (lab []) = .next t) ∧
    (∃ t, exec (.init .normal) (lab [0, 0, 0, 0]) = .next t) ∧
    (∃ t, exec (.receiveWithTimeout 1) (lab [0, 0, 0]) = .next t) :=
  ⟨next_of_runsOn (by decide +kernel), next_of_runsOn (by decide +kernel), next_of_runsOn (by decide +kernel)⟩
theorem witness_StepOnlyAddsEvents : ∃ t, step { lab [] with port := [0x15, 0x32] } = .next t :=
  next_of_runsOn (by decide +kernel)
/-- The write-only-in-Configuration registers and the status register, inside and outside that mode. -/
theorem witness_RegWriteRule : (Controller.powerOn).reg.wf ∧ (ctl [] .waitOpcode).pst = .waitOpcode ∧ Memory.wf [(0x0E, 0x40)] ∧
    (ctl [] .wrAddr).pst = .wrAddr ∧ (ctl [] (.wrData 0x7F)).pst = .wrData 0x7F := by decide
theorem witness_BitModifyRule : (ctl [] .waitOpcode).pst = .waitOpcode ∧
    (ctl [] .bmAddr).pst = .bmAddr ∧ (ctl [] (.bmMask 0x0F)).pst = .bmMask 0x0F ∧
    (ctl [] (.bmData 0x0F 0xE0)).pst = .bmData 0x0F 0xE0 := by decide
theorem witness_ReadRule : (ctl [] .waitOpcode).pst = .waitOpcode ∧ (ctl [] .rdAddr).pst = .rdAddr ∧
    ((ctl [] (.rdData 0x7F)).pst = .rdData 0x7F ∧ (ctl [] (.rdData 0x7F)).settling = false) := by decide
theorem witness_RequestToSendRule : (ctl [] .waitOpcode).pst = .waitOpcode ∧ (Controller.powerOn).reg.wf ∧ Controller.powerOn.settling = false ∧
    ({ Controller.powerOn with settling := true } : Controller).settling = true := by decide
theorem witness_ResetRegisters : (Controller.powerOn.startReset).settling = true ∧
    (ctl [] .waitOpcode).pst = .waitOpcode := by decide
/-- The simulator's controller waits for the opcode of an open bracket. -/
theorem witness_BracketAndBytes : (Controller.powerOn.reg.wf ∧ Controller.powerOn.edges = 0) ∧
    ({ Controller.powerOn with outByte := some 0x80, edges := 8 - (7 : Fin 8).val } : Controller).edges = 1 ∧
    Controller.powerOn.outByte = none ∧ (ctl [] .done).pst = .done ∧ (ctl [] .unknown).pst = .unknown ∧
    (∀ ib ∈ ([0x00, 0xA0, 0xB0, 0xFF] : List Byte), ib ∉ ([0xC0, 0x03, 0x02, 0x05, 0x40, 0x81, 0x90] : List Byte)) ∧
    ∃ s : State, s.ready ∧ s.env ≠ .oracle ∧ s.pinCs = false ∧ s.pinSck = false ∧ s.ctl.pst = .waitOpcode ∧
      s.ctl.edges = 0 ∧ s.ctl.outside = none :=
  ⟨by decide, rfl, rfl, rfl, rfl, by decide, { sim with pinCs := false, ctl := ctl [] .waitOpcode }, by decide⟩
theorem witness_ModeChangeStep : (ctl [(0x0F, 0x47)] .deselected).reg.wf ∧ (ctl [(0x0F, 0x67)] .deselected).reg.wf := by
  decide
theorem witness_LoopbackDeliveryStep :
    ((ctl [(0x0E, 0x40), (0x30, 0x08)] .deselected).reg.wf ∧
      (ctl [(0x0E, 0x40), (0x30, 0x08)] .deselected).mode = 0b010 ∧
      (ctl [(0x0E, 0x40), (0x30, 0x08)] .deselected).pending = true ∧
      (ctl [(0x0E, 0x40), (0x30, 0x08)] .deselected).rxFlag = false) ∧
    ((ctl [(0x0E, 0x40), (0x2C, 0x01), (0x30, 0x08)] .deselected).reg.wf ∧
      (ctl [(0x0E, 0x40), (0x2C, 0x01), (0x30, 0x08)] .deselected).mode = 0b010 ∧
      (ctl [(0x0E, 0x40), (0x2C, 0x01), (0x30, 0x08)] .deselected).pending = true ∧
      (ctl [(0x0E, 0x40), (0x2C, 0x01), (0x30, 0x08)] .deselected).rxFlag = true) := by decide
theorem witness_NormalModeSteps :
    ((ctl [(0x0E, 0x00), (0x30, 0x08)] .deselected).reg.wf ∧
      (ctl [(0x0E, 0x00), (0x30, 0x08)] .deselected).mode = 0b000 ∧
      (ctl [(0x0E, 0x00), (0x30, 0x08)] .deselected).pending = true ∧
      (ctl [(0x0E, 0x00), (0x30, 0x08)] .deselected).rxFlag = false) ∧
    ((ctl [(0x0E, 0x00), (0x2C, 0x01)] .deselected).reg.wf ∧
      (ctl [(0x0E, 0x00), (0x2C, 0x01)] .deselected).mode = 0b000 ∧
      (ctl [(0x0E, 0x00), (0x2C, 0x01)] .deselected).rxFlag = true) := by decide
theorem witness_ConfigurationModeIsInert : Controller.powerOn.mode = 0b100 := by decide
theorem witness_SimulatorReadsRegister : sim.simIdle ∧ sim.quiet ∧ (0x7F : Byte).toNat < 128 := by decide
/-- Configuration mode, where CNF1 can be written, and Loopback mode, where it cannot. -/
theorem witness_SimulatorWritesRegister : (sim.simIdle ∧ sim.quiet ∧ sim.ctl.reg.wf) ∧
    (simLoopback.simIdle ∧ simLoopback.quiet ∧ simLoopback.ctl.reg.wf) ∧
    (∀ addr ∈ ([0x00, 0x0E, 0x2A, 0x7F] : List Byte), addr.toNat < 128 ∧ addr ≠ 0x0F ∧ addr ≠ 0x30) :=
  ⟨by decide, by decide, by decide⟩
theorem witness_SimulatorChangesMode : sim.simIdle ∧ sim.quiet ∧ sim.ctl.reg.wf ∧ sim.reg 0x0F &&& 0x18 = 0 := by decide
theorem witness_SimulatorInitTwiceOk : ControllerMode.normal ≠ .configuration ∧ sim.simIdle ∧ sim.ctl.reg.wf := by decide
theorem witness_LoopbackRoundTrip : simLoopback.simIdle ∧ simLoopback.quiet ∧ simLoopback.ctl.reg.wf ∧
    simLoopback.ctl.mode = 0b010 ∧ simLoopback.ctl.rxFlag = false ∧
    (FrameOperand.mk 0x7FF 8 [0, 1, 2, 3, 4, 5, 6, 7]).check = none ∧ (FrameOperand.mk 0 0 []).check = none := by decide
theorem witness_ConfigurationModeKeepsPending : (sim.simIdle ∧ sim.quiet ∧ sim.ctl.reg.wf ∧ sim.ctl.mode = 0b100) ∧
    (simWith [(0x30, 0x08)]).stuckPending ∧
    (FrameOperand.mk 0x7FF 8 [0, 1, 2, 3, 4, 5, 6, 7]).check = none ∧ (FrameOperand.mk 0 0 []).check = none :=
  ⟨by decide, by decide, by decide, by decide⟩

end Sys2Proof.Tests
end

section
/-! PROOF. Only `SpiInit` writes a direction (spec/10_state.md R20): what every part of an operation leaves of the
directions, from one event up to a whole operation. -/

namespace Sys2Proof.Machine

/-- The directions are as before, and the events added write none (R20). -/
structure State.keepsDirs (s t : State) : Prop where
  sck : t.dirSck = s.dirSck
  cs : t.dirCs = s.dirCs
  mosi : t.dirMosi = s.dirMosi
  miso : t.dirMiso = s.dirMiso
  events : ∃ es, t.trace = s.trace ++ es ∧ ∀ l d, Event.pinDir l d ∉ es

theorem State.keepsDirs_refl (s : State) : s.keepsDirs s := ⟨rfl, rfl, rfl, rfl, [], by simp⟩

theorem State.keepsDirs.trans {s t u : State} (h : s.keepsDirs t) (h' : t.keepsDirs u) : s.keepsDirs u := by
  obtain ⟨es, he, hn⟩ := h.events
  obtain ⟨es', he', hn'⟩ := h'.events
  exact ⟨h'.sck.trans h.sck, h'.cs.trans h.cs, h'.mosi.trans h.mosi, h'.miso.trans h.miso, es ++ es',
    by rw [he', he, List.append_assoc], fun l d => by simp [hn l d, hn' l d]⟩

/-- The environment writes no direction. -/
theorem State.envStep.keepsDirs {s t : State} (h : s.envStep t) : s.keepsDirs t := by
  obtain ⟨_, _, _, _, _, rfl⟩ := h
  exact ⟨rfl, rfl, rfl, rfl, [], by simp⟩

/-! ## One more part of an operation

`s` is the state the operation started in, `u` the one it has reached. -/

section Parts

variable {s u t : State}

/-- A new label and new scratch registers. -/
theorem State.keepsDirs.scratch (h : s.keepsDirs u) (l : Seq) (sc : Scratch) :
    s.keepsDirs { u with seq := l, scratch := sc } := ⟨h.sck, h.cs, h.mosi, h.miso, h.events⟩

theorem State.keepsDirs.enter (h : s.keepsDirs u) (l : Seq) : s.keepsDirs (u.enter l) := h.scratch l u.scratch

theorem State.keepsDirs.emits (h : s.keepsDirs u) {es : List Event} (hes : ∀ l d, Event.pinDir l d ∉ es) :
    s.keepsDirs { u with trace := u.trace ++ es } := h.trans ⟨rfl, rfl, rfl, rfl, es, rfl, hes⟩

theorem State.keepsDirs.lineSet (h : s.keepsDirs u) (p : OutLine) (v : Level) : s.keepsDirs (u.lineSet p v) := by
  have hlevel : u.keepsDirs (u.setLevel p v) := by cases p <;> exact ⟨rfl, rfl, rfl, rfl, [], by simp⟩
  exact (h.trans hlevel).emits (by simp)

theorem State.keepsDirs.pinWrite (h : s.keepsDirs u) (p : OutLine) (v : Level) : s.keepsDirs (u.pinWrite p v) :=
  (h.lineSet p v).trans (u.pinWrite_envStep p v).keepsDirs

theorem State.keepsDirs.delayMs (h : s.keepsDirs u) (n : Nat) : s.keepsDirs (u.delayMs n) :=
  (h.emits (by simp)).trans (u.delayMs_envStep n).keepsDirs

theorem pinDir_not_mem_byteEvents (tx rx : Byte) (l : Line) (d : Dir) : Event.pinDir l d ∉ byteEvents tx rx := by
  simp [byteEvents, bitEvents]

theorem State.keepsDirs.moved (h : s.keepsDirs u) (tx rx : Byte) : s.keepsDirs (u.moved tx rx) :=
  h.trans ⟨rfl, rfl, rfl, rfl, _, rfl, pinDir_not_mem_byteEvents tx rx⟩

theorem State.keepsDirs.transfer (h : s.keepsDirs u) (tx : Byte) : s.keepsDirs (u.transfer tx).2 :=
  (h.moved tx _).trans (u.transfer_envStep tx).keepsDirs

theorem State.keepsDirs.movedSeq (h : s.keepsDirs u) (xs : List (Byte × Byte)) : s.keepsDirs (u.movedSeq xs) := by
  induction xs generalizing u with
  | nil => exact h
  | cons x xs ih => exact ih (h.moved x.1 x.2)

theorem State.keepsDirs.bracketed (h : s.keepsDirs u) (xs : List (Byte × Byte)) : s.keepsDirs (u.bracketed xs) :=
  ((h.lineSet .cs false).movedSeq xs).lineSet .cs true

theorem State.keepsDirs.bracket (h : s.keepsDirs u) (txs : List Byte) : s.keepsDirs (u.bracket txs) := by
  obtain ⟨_, _, hstep⟩ := envLaw_any.bracket (s := u) trivial txs
  exact (h.bracketed _).trans hstep.keepsDirs

theorem State.keepsDirs.readRegister (h : s.keepsDirs u) (addr : Byte) : s.keepsDirs (u.readRegister addr).2 := by
  obtain ⟨_, _, hstep⟩ := envLaw_any.readRegister EnvLaw.fixes_any (s := u) trivial addr
  exact ((h.bracketed _).scratch _ _).trans hstep.keepsDirs

theorem State.keepsDirs.readRxBuffer (h : s.keepsDirs u) {f : CanFrame} (hread : u.readRxBuffer = .ok (f, t)) :
    s.keepsDirs t := by
  obtain ⟨_, _, _, _, _, _, _, hburst⟩ := envLaw_any.readRxBuffer EnvLaw.fixes_any (s := u) trivial
  split at hburst
  · rw [hburst] at hread; cases hread
  · obtain ⟨_, _, hok, hstep⟩ := hburst
    rw [hok] at hread
    cases hread
    exact (h.bracketed _).trans hstep.keepsDirs

/-- The return (R197). -/
theorem State.keepsDirs.finish (h : s.keepsDirs u) {r : Result} (hf : u.finish r = .next t) : s.keepsDirs t := by
  rw [State.finish_next hf]
  exact ⟨h.sck, h.cs, h.mosi, h.miso, h.events⟩

/-! ## The driver operations -/

theorem State.keepsDirs.initReset (h : s.keepsDirs u) : s.keepsDirs u.initReset :=
  (((h.enter .poweredOn).bracket _).enter .settle).delayMs _

theorem State.keepsDirs.writeRegister (h : s.keepsDirs u) (addr val : Byte) :
    s.keepsDirs (u.writeRegister addr val) := h.bracket _

theorem State.keepsDirs.initProgram (h : s.keepsDirs u) : s.keepsDirs u.initProgram := by
  unfold State.initProgram
  extract_lets programming cnf1 cnf2 cnf3 cleared requesting
  have hcnf2 : s.keepsDirs cnf2 := ((h.enter .programTiming).writeRegister _ _).writeRegister _ _
  have hcleared : s.keepsDirs cleared := ((hcnf2.writeRegister _ _).enter .clearFlags).writeRegister _ _
  exact (hcleared.enter .requestMode).bracket _

theorem State.keepsDirs_initRun {m : ControllerMode} (h : s.initRun m = .next t) : s.keepsDirs t := by
  have hverified (addr : Byte) :=
    (((s.keepsDirs_refl.scratch s.seq (s.setTarget m).scratch).initReset).enter .verifyConfig).readRegister addr
  unfold State.initRun at h
  dsimp only at h
  split at h
  · exact ((hverified _).enter .doneError).finish h
  · have hprogrammed (a a' : Byte) := ((hverified a).initProgram.enter .verifyMode).readRegister a'
    split at h
    · exact ((hprogrammed _ _).enter .doneError).finish h
    · exact ((hprogrammed _ _).enter .doneOk).finish h

theorem State.keepsDirs_transmitRun {f : CanFrame} (h : s.transmitRun f = .next t) : s.keepsDirs t := by
  have hchecked := (s.keepsDirs_refl.scratch .checkPending (s.setFb f).scratch).readRegister s.cfg.addrTxb0ctrl
  unfold State.transmitRun at h
  dsimp only at h
  split at h
  · exact hchecked.finish h
  · exact ((((hchecked.enter .load).bracket _).enter .send).bracket _).finish h

theorem State.keepsDirs_receivePoll {o : Option CanFrame} (h : s.receivePoll = .ok (o, t)) : s.keepsDirs t := by
  have hpolled := (s.keepsDirs_refl.enter .poll).readRegister s.cfg.addrCanintf
  unfold State.receivePoll at h
  dsimp only at h
  split at h
  · cases h; exact hpolled
  · split at h
    · cases h
    · rename_i r hread
      cases h
      exact (((hpolled.enter .readFrame).readRxBuffer hread).scratch .clearFlag (r.2.setFb r.1).scratch).bracket _

theorem State.keepsDirs_receiveLoop {n : Nat} (h : s.receiveLoop n = .next t) : s.keepsDirs t := by
  induction n generalizing s with
  | zero => exact s.keepsDirs_refl.finish h
  | succ n ih =>
    unfold State.receiveLoop at h
    split at h
    · cases h
    · rename_i hpoll
      exact (State.keepsDirs_receivePoll hpoll).finish h
    · rename_i hpoll
      have hwaited := ((State.keepsDirs_receivePoll hpoll).enter .loop).delayMs Config.pollStepMs
      exact (hwaited.scratch _ _).trans (ih h)

end Parts

/-! ## Every operation -/

/-- A command that does nothing but send one bracket. -/
theorem State.keepsDirs_bracketCommand {s t : State} {l : Seq} {txs : List Byte} {r : Result}
    (h : s.whenReady (s.whenReleased (((s.enter l).bracket txs).finish r)) = .next t) : s.keepsDirs t := by
  obtain ⟨-, h⟩ := State.whenReleased_next (State.whenReady_next h).2
  exact ((s.keepsDirs_refl.enter l).bracket txs).finish h

/-- R20: no operation but `SpiInit` writes a direction. -/
theorem exec_keepsDirs {i : Instr} {s t : State} (hi : i ≠ .spiInit) (h : exec i s = .next t) : s.keepsDirs t := by
  have start := s.keepsDirs_refl.enter
  cases i with
  | spiInit => exact absurd rfl hi
  | assertSelect => exact ((start .assertSelect).pinWrite .cs false).finish (State.whenReady_next h).2
  | deassertSelect => exact ((start .deassertSelect).pinWrite .cs true).finish (State.whenReady_next h).2
  | transfer tx => exact ((start .transfer).transfer tx).finish (State.whenReady_next h).2
  | cmdReset =>
    obtain ⟨-, h⟩ := State.whenReleased_next (State.whenReady_next h).2
    exact (((start .cmdReset).bracket _).delayMs _).finish h
  | cmdReadRegister addr =>
    obtain ⟨-, h⟩ := State.whenReleased_next (State.whenReady_next h).2
    exact ((start .cmdReadRegister).readRegister addr).finish h
  | cmdWriteRegister addr val => exact State.keepsDirs_bracketCommand h
  | cmdBitModify addr mask val => exact State.keepsDirs_bracketCommand h
  | cmdLoadTxBuffer id dlc data =>
    obtain ⟨-, h⟩ := State.whenReady_next h
    split at h
    · cases h
    · exact ((start .cmdLoadTxBuffer).bracket _).finish (State.whenReleased_next h).2
  | cmdRequestToSend => exact State.keepsDirs_bracketCommand h
  | cmdReadRxBuffer =>
    obtain ⟨-, h⟩ := State.whenReleased_next (State.whenReady_next h).2
    split at h
    · cases h
    · rename_i hread
      exact ((start .cmdReadRxBuffer).readRxBuffer hread).finish h
  | encodeTxBuffer frame =>
    obtain ⟨-, h⟩ := State.whenReady_next h
    split at h
    · cases h
    · exact (start .encodeTxBuffer).finish h
  | decodeRxBuffer bytes =>
    obtain ⟨-, h⟩ := State.whenReady_next h
    split at h
    · cases h
    · exact (start .decodeRxBuffer).finish h
  | init target =>
    obtain ⟨-, h⟩ := State.whenReady_next h
    split at h
    · cases h
    · exact State.keepsDirs_initRun (State.whenReleased_next h).2
  | transmit frame =>
    obtain ⟨-, h⟩ := State.whenReady_next h
    split at h
    · cases h
    · exact State.keepsDirs_transmitRun (State.whenReleased_next h).2
  | receive =>
    obtain ⟨-, h⟩ := State.whenReleased_next (State.whenReady_next h).2
    split at h
    · cases h
    · rename_i hpoll
      exact (State.keepsDirs_receivePoll hpoll).finish h
    · rename_i hpoll
      exact (State.keepsDirs_receivePoll hpoll).finish h
  | receiveWithTimeout bound =>
    obtain ⟨-, h⟩ := State.whenReady_next h
    split at h
    · cases h
    · exact (s.keepsDirs_refl.scratch .loop _).trans (State.keepsDirs_receiveLoop (State.whenReleased_next h).2)

/-- R20: `SpiInit` sets the four directions. -/
theorem execSpiInit_dirsSet {s t : State} (h : execSpiInit s = .next t) : t.dirsSet := by
  unfold execSpiInit at h
  split at h
  · cases h
  · obtain ⟨-, -, -, -, -, hsck, hcs, hmosi, hmiso, -⟩ := (s.enter .spiInit).spiInit_envStep.finish h
    exact ⟨hsck, hcs, hmosi, hmiso⟩

/-- Settles O39: `execSpiInit_dirsSet` for `SpiInit`, `exec_keepsDirs` for every other operation. -/
theorem directionsOnlyBySpiInit : Obligations.DirectionsOnlyBySpiInit := by
  unfold Obligations.DirectionsOnlyBySpiInit
  refine ⟨fun s t h => execSpiInit_dirsSet h, fun i s t hi h => ?_⟩
  have hkeeps := exec_keepsDirs hi h
  obtain ⟨es, htrace, hnone⟩ := hkeeps.events
  refine ⟨hkeeps.sck, hkeeps.cs, hkeeps.mosi, hkeeps.miso, fun l d => ?_⟩
  rw [htrace, List.drop_left]
  exact hnone l d

end Sys2Proof.Machine
end

section
/-! PROOF. Nothing survives between operations but INITED, the lines and the directions (spec/10_state.md R44), as a
relation between two runs of one operation that start with different pasts: every part of an operation keeps it. -/

namespace Sys2Proof.Machine

/-! ## The environment does not see the past -/

/-- A function that changes the environment's part of the state and neither reads nor writes the past. -/
structure EnvOnly (f : State → State) : Prop where
  envStep : ∀ s : State, s.envStep (f s)
  withPast : ∀ (s : State) scratch ret trace port,
    f (s.withPast scratch ret trace port) = (f s).withPast scratch ret trace port

theorem EnvOnly.comp {f g : State → State} (hf : EnvOnly f) (hg : EnvOnly g) : EnvOnly fun s => f (g s) where
  envStep s := (hg.envStep s).trans (hf.envStep (g s))
  withPast s scratch ret trace port := by rw [hg.withPast, hf.withPast]

theorem envOnly_id : EnvOnly fun s => s := ⟨State.envStep_refl, fun _ _ _ _ _ => rfl⟩

theorem envOnly_fireAll (ms : List EnvMove) : EnvOnly fun s => s.fireAll ms := by
  induction ms with
  | nil => exact envOnly_id
  | cons m ms ih => exact ih.comp (g := fun s => s.fire m) ⟨fun s => s.fire_envStep m, fun _ _ _ _ _ => rfl⟩

theorem envOnly_opportunity : EnvOnly State.opportunity where
  envStep := State.opportunity_envStep
  withPast s scratch ret trace port := by
    have hfire (u : State) (ms : List EnvMove) := (envOnly_fireAll ms).withPast u scratch ret trace port
    cases henv : s.env with
    | oracle => simp only [State.opportunity, henv]
    | reference =>
      cases hmoves : s.moves with
      | nil => simp only [State.opportunity, henv, hmoves, ← hfire]
      | cons ms rest => simp only [State.opportunity, henv, hmoves, ← hfire]
    | simulator =>
      cases hmoves : s.moves with
      | nil => simp only [State.opportunity, henv, hmoves]
      | cons ms rest => simp only [State.opportunity, henv, hmoves, ← hfire]

theorem envOnly_afterRelease : EnvOnly State.afterRelease where
  envStep := State.afterRelease_envStep
  withPast s scratch ret trace port := by
    unfold State.afterRelease
    dsimp only
    split
    · rfl
    · exact envOnly_opportunity.withPast (s.setCtl s.ctl.release) scratch ret trace port
    · exact (envOnly_opportunity.comp (envOnly_fireAll _)).withPast (s.setCtl s.ctl.release) scratch ret trace port

theorem envOnly_afterSelect : EnvOnly State.afterSelect where
  envStep := State.afterSelect_envStep
  withPast s scratch ret trace port := by
    unfold State.afterSelect
    dsimp only
    split
    · rfl
    · rw [envOnly_opportunity.withPast]; rfl
    · rw [envOnly_opportunity.withPast]; rfl

theorem envOnly_afterClockRise : EnvOnly State.afterClockRise where
  envStep := State.afterClockRise_envStep
  withPast s scratch ret trace port := by
    unfold State.afterClockRise
    dsimp only
    split
    · rfl
    · split <;> rfl
    · split <;> rfl

theorem envOnly_byteEnd : EnvOnly State.byteEnd where
  envStep := State.byteEnd_envStep
  withPast s scratch ret trace port := by
    unfold State.byteEnd
    rw [envOnly_opportunity.withPast]
    rfl

theorem envOnly_afterClockFall : EnvOnly State.afterClockFall where
  envStep := State.afterClockFall_envStep
  withPast s scratch ret trace port := by
    unfold State.afterClockFall
    rw [envOnly_byteEnd.withPast]
    dsimp only
    split
    · rfl
    · split <;> rfl
    · split <;> rfl

theorem envOnly_notify (p : OutLine) (old v : Level) : EnvOnly fun s => s.notify p old v where
  envStep s := s.notify_envStep p old v
  withPast s scratch ret trace port := by
    cases p with
    | cs =>
      cases old <;> cases v
      · rfl
      · exact envOnly_afterRelease.withPast s scratch ret trace port
      · exact envOnly_afterSelect.withPast s scratch ret trace port
      · rfl
    | sck =>
      cases old <;> cases v
      · rfl
      · exact envOnly_afterClockRise.withPast s scratch ret trace port
      · exact envOnly_afterClockFall.withPast s scratch ret trace port
      · rfl
    | mosi => rfl

theorem envOnly_afterDelay (n : Nat) : EnvOnly fun s => s.afterDelay n where
  envStep s := s.afterDelay_envStep n
  withPast s scratch ret trace port := by
    unfold State.afterDelay
    rw [envOnly_opportunity.withPast]
    dsimp only
    split <;> rfl

/-- A sample of MISO, with the state it leaves. -/
theorem State.sample_withPast (s : State) (scratch : Scratch) (ret : Result) (trace : List Event) (port : List Byte) :
    (s.withPast scratch ret trace port).sample = (s.sample.1, s.sample.2.withPast scratch ret trace port) := by
  have hdraw : (s.withPast scratch ret trace port).draw = (s.draw.1, s.draw.2.withPast scratch ret trace port) := by
    unfold State.draw
    dsimp only
    split <;> rfl
  have hdriven : (s.withPast scratch ret trace port).driven = s.driven := rfl
  cases henv : s.env with
  | oracle => simp only [State.sample, henv, hdraw]
  | reference => cases hlevel : s.driven <;> simp only [State.sample, henv, hdraw, hdriven, hlevel]
  | simulator => cases hlevel : s.driven <;> simp only [State.sample, henv, hdriven, hlevel]

theorem envOnly_sample : EnvOnly fun s => s.sample.2 where
  envStep := State.sample_envStep
  withPast s scratch ret trace port := by rw [State.sample_withPast]

/-! ## Two runs with different pasts -/

/-- `t` is `s` with another past: `pre` stands before the events of `s`, other bytes wait at the port, and the scratch
registers agree in what `held` reads of them. -/
def State.Alike {α : Type} (held : Scratch → α) (pre : List Event) (port : List Byte) (s t : State) : Prop :=
  ∃ scratch ret, held scratch = held s.scratch ∧ t = s.withPast scratch ret (pre ++ s.trace) port

/-- Nothing of the scratch registers. -/
def blind (_ : Scratch) : Unit := ()

/-- Only FB and TARGET are read, which no bracket writes. -/
def Steady {α : Type} (held : Scratch → α) : Prop :=
  ∀ a b : Scratch, a.fb = b.fb → a.target = b.target → held a = held b

theorem steady_blind : Steady blind := fun _ _ _ _ => rfl
theorem steady_fb : Steady Scratch.fb := fun _ _ hfb _ => hfb
theorem steady_target : Steady Scratch.target := fun _ _ _ htarget => htarget

/-- Other registers are written in both runs. -/
theorem Steady.congr {α : Type} {held : Scratch → α} (hs : Steady held) {a b a' b' : Scratch}
    (hab : held a = held b) (ha : a'.fb = a.fb ∧ a'.target = a.target) (hb : b'.fb = b.fb ∧ b'.target = b.target) :
    held a' = held b' :=
  calc held a' = held a := hs _ _ ha.1 ha.2
    _ = held b := hab
    _ = held b' := (hs _ _ hb.1 hb.2).symm

/-- What is read beside TXSR and RXSR, on which the bits of a running transfer depend. -/
def withShift {α : Type} (held : Scratch → α) (sc : Scratch) : α × Byte × Byte := (held sc, sc.txsr, sc.rxsr)

/-- What is read beside REGVAL, which a register read delivers. -/
def withRegval {α : Type} (held : Scratch → α) (sc : Scratch) : α × Byte := (held sc, sc.regval)

/-- The outcome of an operation with another past. -/
def rebase (pre : List Event) (port : List Byte) (o : Out) : Out :=
  match o with
  | .next t => .next { t with trace := pre ++ t.trace, port := port }
  | .fault f => .fault f
  | .refused why => .refused why

/-- The same answer of a part of an operation, or the same refusal, from both pasts. -/
inductive AlikeAnswer {α β : Type} (held : Scratch → α) (pre : List Event) (port : List Byte) :
    Except Refusal (β × State) → Except Refusal (β × State) → Prop
  | error (why : Refusal) : AlikeAnswer held pre port (.error why) (.error why)
  | ok (b : β) {s t : State} (h : s.Alike held pre port t) : AlikeAnswer held pre port (.ok (b, s)) (.ok (b, t))

section Runs

variable {α β : Type} {held : Scratch → α} {held' : Scratch → β} {pre : List Event} {port : List Byte} {s t : State}

theorem State.Alike.cfg (h : s.Alike held pre port t) : t.cfg = s.cfg := by
  obtain ⟨_, _, _, rfl⟩ := h; rfl

theorem State.Alike.held_eq (h : s.Alike held pre port t) : held t.scratch = held s.scratch := by
  obtain ⟨_, _, hheld, rfl⟩ := h; exact hheld

theorem State.Alike.regval_eq (h : s.Alike (withRegval held) pre port t) : t.scratch.regval = s.scratch.regval :=
  congrArg Prod.snd h.held_eq

theorem State.Alike.txsr_eq (h : s.Alike (withShift held) pre port t) : t.scratch.txsr = s.scratch.txsr :=
  congrArg (fun x => x.2.1) h.held_eq

theorem State.Alike.rxsr_eq (h : s.Alike (withShift held) pre port t) : t.scratch.rxsr = s.scratch.rxsr :=
  congrArg (fun x => x.2.2) h.held_eq

/-! ### Updates of the block's own part -/

/-- The scratch registers are written in both runs. -/
theorem State.Alike.scratch (h : s.Alike held pre port t) (f : Scratch → Scratch)
    (hf : ∀ a b, held a = held b → held' (f a) = held' (f b)) :
    State.Alike held' pre port { s with scratch := f s.scratch } { t with scratch := f t.scratch } := by
  obtain ⟨_, _, hheld, rfl⟩ := h
  exact ⟨_, _, hf _ _ hheld, rfl⟩

/-- Less of the scratch registers is read. -/
theorem State.Alike.mono (h : s.Alike held pre port t) (hle : ∀ a b, held a = held b → held' a = held' b) :
    s.Alike held' pre port t := h.scratch id hle

theorem State.Alike.forget (h : s.Alike held pre port t) : s.Alike blind pre port t := h.mono fun _ _ _ => rfl

theorem State.Alike.enter (h : s.Alike held pre port t) (l : Seq) : (s.enter l).Alike held pre port (t.enter l) := by
  obtain ⟨_, _, hheld, rfl⟩ := h; exact ⟨_, _, hheld, rfl⟩

theorem State.Alike.emit (h : s.Alike held pre port t) (e : Event) : (s.emit e).Alike held pre port (t.emit e) := by
  obtain ⟨_, _, hheld, rfl⟩ := h
  exact ⟨_, _, hheld, by simp only [State.emit, List.append_assoc]; rfl⟩

theorem State.Alike.setLevel (h : s.Alike held pre port t) (p : OutLine) (v : Level) :
    (s.setLevel p v).Alike held pre port (t.setLevel p v) := by
  obtain ⟨_, _, hheld, rfl⟩ := h
  cases p <;> exact ⟨_, _, hheld, rfl⟩

theorem State.Alike.pinDir (h : s.Alike held pre port t) (l : Line) (d : Dir) :
    (s.pinDir l d).Alike held pre port (t.pinDir l d) := by
  have hdir : (s.setDir l d).Alike held pre port (t.setDir l d) := by
    obtain ⟨_, _, hheld, rfl⟩ := h
    cases l <;> exact ⟨_, _, hheld, rfl⟩
  exact hdir.emit _

/-! ### The primitives -/

theorem State.Alike.env {f : State → State} (hf : EnvOnly f) (h : s.Alike held pre port t) :
    (f s).Alike held pre port (f t) := by
  obtain ⟨scratch, ret, hheld, rfl⟩ := h
  obtain ⟨_, _, _, _, _, hs⟩ := hf.envStep s
  have hscratch : (f s).scratch = s.scratch := by rw [hs]
  have htrace : (f s).trace = s.trace := by rw [hs]
  exact ⟨scratch, ret, hscratch ▸ hheld, htrace ▸ hf.withPast s scratch ret (pre ++ s.trace) port⟩

theorem State.Alike.pinWrite (h : s.Alike held pre port t) (p : OutLine) (v : Level) :
    (s.pinWrite p v).Alike held pre port (t.pinWrite p v) := by
  have hlevel : t.level p = s.level p := by
    obtain ⟨_, _, _, rfl⟩ := h
    cases p <;> rfl
  unfold State.pinWrite
  rw [hlevel]
  exact ((h.setLevel p v).emit _).env (envOnly_notify p _ v)

theorem State.Alike.pinRead (h : s.Alike held pre port t) :
    t.pinRead.1 = s.pinRead.1 ∧ s.pinRead.2.Alike held pre port t.pinRead.2 := by
  have hsample : t.sample.1 = s.sample.1 := by
    obtain ⟨_, _, _, rfl⟩ := h
    rw [State.sample_withPast]
  unfold State.pinRead
  dsimp only
  rw [hsample]
  exact ⟨rfl, (h.env envOnly_sample).emit _⟩

theorem State.Alike.delayMs (h : s.Alike held pre port t) (n : Nat) :
    (s.delayMs n).Alike held pre port (t.delayMs n) := (h.emit _).env (envOnly_afterDelay n)

theorem State.Alike.spiInit (h : s.Alike held pre port t) : s.spiInit.Alike held pre port t.spiInit := by
  have hdirs := (((h.pinDir .sck .output).pinDir .cs .output).pinDir .mosi .output).pinDir .miso .input
  have hlines := ((hdirs.pinWrite .cs true).pinWrite .sck false).pinWrite .mosi false
  obtain ⟨scratch, ret, hheld, he⟩ := hlines
  exact ⟨scratch, ret, hheld, congrArg (fun u : State => { u with inited := true }) he⟩

/-! ### Transfers -/

theorem State.Alike.setBitcnt (hs : Steady held) (h : s.Alike (withShift held) pre port t) (i : Fin 8) :
    (s.setBitcnt i).Alike (withShift held) pre port (t.setBitcnt i) :=
  h.scratch (fun sc => { sc with bitcnt := i }) fun _ _ hab => by
    obtain ⟨hheld, hshift⟩ := Prod.mk.inj hab
    exact congrArg₂ Prod.mk (hs.congr hheld ⟨rfl, rfl⟩ ⟨rfl, rfl⟩) hshift

theorem State.Alike.setRxsrBit (hs : Steady held) (h : s.Alike (withShift held) pre port t) (i : Fin 8) (r : Level) :
    (s.setRxsrBit i r).Alike (withShift held) pre port (t.setRxsrBit i r) :=
  h.scratch (fun sc => { sc with rxsr := setBit sc.rxsr i.val r }) fun _ _ hab => by
    obtain ⟨hheld, hshift⟩ := Prod.mk.inj hab
    exact congrArg₂ Prod.mk (hs.congr hheld ⟨rfl, rfl⟩ ⟨rfl, rfl⟩)
      (congrArg (fun x => (x.1, setBit x.2 i.val r)) hshift)

theorem State.Alike.transferBit (hs : Steady held) (h : s.Alike (withShift held) pre port t) (i : Fin 8) :
    (s.transferBit i).Alike (withShift held) pre port (t.transferBit i) := by
  have hcount := h.setBitcnt hs i
  unfold State.transferBit
  dsimp only
  rw [hcount.txsr_eq]
  obtain ⟨hsample, hread⟩ := ((hcount.pinWrite .mosi ((s.setBitcnt i).scratch.txsr.getLsbD i.val)).pinWrite .sck
    true).pinRead
  rw [hsample]
  exact (hread.setRxsrBit hs i _).pinWrite .sck false

theorem State.Alike.transferBits (hs : Steady held) (h : s.Alike (withShift held) pre port t) (l : List (Fin 8)) :
    (l.foldl State.transferBit s).Alike (withShift held) pre port (l.foldl State.transferBit t) := by
  induction l generalizing s t with
  | nil => exact h
  | cons i l ih => exact ih (h.transferBit hs i)

theorem State.Alike.transfer (hs : Steady held) (h : s.Alike held pre port t) (tx : Byte) :
    (t.transfer tx).1 = (s.transfer tx).1 ∧ (s.transfer tx).2.Alike held pre port (t.transfer tx).2 := by
  have hstart : (s.setTxsr tx).clearRxsr.Alike (withShift held) pre port (t.setTxsr tx).clearRxsr :=
    h.scratch (fun sc => { sc with txsr := tx, rxsr := 0 }) fun _ _ hab =>
      congrArg (·, tx, 0) (hs.congr hab ⟨rfl, rfl⟩ ⟨rfl, rfl⟩)
  have hend := hstart.transferBits hs [7, 6, 5, 4, 3, 2, 1, 0]
  exact ⟨hend.rxsr_eq, hend.mono fun _ _ hab => congrArg Prod.fst hab⟩

theorem State.Alike.sendBytes (hs : Steady held) (h : s.Alike held pre port t) (txs : List Byte) :
    (s.sendBytes txs).Alike held pre port (t.sendBytes txs) := by
  induction txs generalizing s t with
  | nil => exact h
  | cons tx txs ih => exact ih (h.transfer hs tx).2

theorem State.Alike.receiveBytes (hs : Steady held) (h : s.Alike held pre port t) (n : Nat) :
    (t.receiveBytes n).1 = (s.receiveBytes n).1 ∧ (s.receiveBytes n).2.Alike held pre port (t.receiveBytes n).2 := by
  induction n generalizing s t with
  | zero => exact ⟨rfl, h⟩
  | succ n ih =>
    unfold State.receiveBytes
    dsimp only
    rw [h.cfg]
    obtain ⟨hbyte, hnext⟩ := h.transfer hs s.cfg.dummyByte
    obtain ⟨hbytes, hend⟩ := ih hnext
    exact ⟨by rw [hbyte, hbytes], hend⟩

/-! ### Brackets -/

/-- A bracket whose bytes come from the configuration. -/
theorem State.Alike.command (hs : Steady held) (h : s.Alike held pre port t) (txs : Cfg → List Byte) :
    (s.bracket (txs s.cfg)).Alike held pre port (t.bracket (txs t.cfg)) := by
  rw [h.cfg]
  exact ((h.pinWrite .cs false).sendBytes hs _).pinWrite .cs true

theorem State.Alike.setRegval (hs : Steady held) (h : s.Alike held pre port t) (v : Byte) :
    (s.setRegval v).Alike (withRegval held) pre port (t.setRegval v) :=
  h.scratch (fun sc => { sc with regval := v }) fun _ _ hab => congrArg (·, v) (hs.congr hab ⟨rfl, rfl⟩ ⟨rfl, rfl⟩)

theorem State.Alike.readRegister (hs : Steady held) (h : s.Alike held pre port t) (addr : Byte) :
    (t.readRegister addr).1 = (s.readRegister addr).1 ∧
      (s.readRegister addr).2.Alike held pre port (t.readRegister addr).2 := by
  have hsent := (h.pinWrite .cs false).sendBytes hs [s.cfg.opRead, addr]
  unfold State.readRegister State.assertSelect State.deassertSelect
  dsimp only
  rw [h.cfg, hsent.cfg]
  generalize (s.pinWrite .cs false).sendBytes [s.cfg.opRead, addr] = u at hsent ⊢
  obtain ⟨hbyte, hread⟩ := hsent.transfer hs u.cfg.dummyByte
  rw [hbyte]
  have hend := (hread.setRegval hs (u.transfer u.cfg.dummyByte).1).pinWrite .cs true
  exact ⟨hend.regval_eq, hend.mono fun _ _ hab => congrArg Prod.fst hab⟩

/-- The burst is the same, or it is refused for the same reason (R116, R128). -/
theorem State.Alike.readRxBuffer (hs : Steady held) (h : s.Alike held pre port t) :
    AlikeAnswer held pre port s.readRxBuffer t.readRxBuffer := by
  have hopen := (h.pinWrite .cs false).sendBytes hs [s.cfg.opReadRx0]
  unfold State.readRxBuffer State.assertSelect State.deassertSelect
  dsimp only
  rw [h.cfg, hopen.cfg]
  generalize ((s.pinWrite .cs false).sendBytes [s.cfg.opReadRx0]).cfg = c
  obtain ⟨hidh, h1⟩ := hopen.transfer hs c.dummyByte
  obtain ⟨hidl, h2⟩ := h1.transfer hs c.dummyByte
  have hskipped := h2.sendBytes hs [c.dummyByte, c.dummyByte]
  obtain ⟨hdlcb, h5⟩ := hskipped.transfer hs c.dummyByte
  simp only [State.sendBytes, List.foldl_cons, List.foldl_nil] at hidh hidl hdlcb h5 ⊢
  rw [hidh, hidl, hdlcb]
  split
  · exact .error _
  · rename_i n _
    obtain ⟨hpayload, h6⟩ := h5.receiveBytes hs n.toNat
    rw [hpayload]
    split
    · exact .error _
    · exact .ok _ (h6.pinWrite .cs true)

/-! ### Start and return -/

/-- The return frees the scratch registers and delivers the value: the pasts do not go on (R197). -/
theorem State.Alike.finish (h : s.Alike held pre port t) (r : Result) :
    t.finish r = rebase pre port (s.finish r) := by
  obtain ⟨scratch, ret, -, rfl⟩ := h
  have hleft : (s.withPast scratch ret (pre ++ s.trace) port).left = s.left := rfl
  unfold State.finish
  rw [hleft]
  cases s.left <;> rfl

theorem State.Alike.whenReady (h : s.Alike held pre port t) {k k' : Out} (hk : k' = rebase pre port k) :
    t.whenReady k' = rebase pre port (s.whenReady k) := by
  obtain ⟨_, _, _, rfl⟩ := h
  unfold State.whenReady
  rw [hk]
  dsimp only
  split_ifs <;> rfl

theorem State.Alike.whenReleased (h : s.Alike held pre port t) {k k' : Out} (hk : k' = rebase pre port k) :
    t.whenReleased k' = rebase pre port (s.whenReleased k) := by
  obtain ⟨_, _, _, rfl⟩ := h
  unfold State.whenReleased
  rw [hk]
  dsimp only
  split_ifs <;> rfl

/-! ### The driver operations -/

theorem State.Alike.setFb (h : s.Alike held pre port t) (f : CanFrame) :
    (s.setFb f).Alike Scratch.fb pre port (t.setFb f) :=
  h.scratch (fun sc => { sc with fb := f }) fun _ _ _ => rfl

theorem State.Alike.setTarget (h : s.Alike held pre port t) (m : ControllerMode) :
    (s.setTarget m).Alike Scratch.target pre port (t.setTarget m) :=
  h.scratch (fun sc => { sc with target := m }) fun _ _ _ => rfl

theorem State.Alike.writeRegister (hs : Steady held) (h : s.Alike held pre port t) (addr val : Byte) :
    (s.writeRegister addr val).Alike held pre port (t.writeRegister addr val) :=
  h.command hs fun c => [c.opWrite, addr, val]

theorem State.Alike.bitModify (hs : Steady held) (h : s.Alike held pre port t) (addr mask val : Byte) :
    (s.bitModify addr mask val).Alike held pre port (t.bitModify addr mask val) :=
  h.command hs fun c => [c.opBitModify, addr, mask, val]

theorem State.Alike.loadTxBuffer (hs : Steady held) (h : s.Alike held pre port t) (f : CanFrame) :
    (s.loadTxBuffer f).Alike held pre port (t.loadTxBuffer f) :=
  h.command hs fun c => c.opLoadTx0 :: encodeTx c.txReservedByte f

theorem State.Alike.requestToSend (hs : Steady held) (h : s.Alike held pre port t) :
    s.requestToSend.Alike held pre port t.requestToSend := h.command hs fun c => [c.opRtsTx0]

theorem State.Alike.resetBracket (hs : Steady held) (h : s.Alike held pre port t) :
    s.resetBracket.Alike held pre port t.resetBracket := h.command hs fun c => [c.opReset]

theorem State.Alike.initReset (hs : Steady held) (h : s.Alike held pre port t) :
    s.initReset.Alike held pre port t.initReset :=
  (((h.enter .poweredOn).resetBracket hs).enter .settle).delayMs _

theorem State.Alike.initProgram (h : s.Alike Scratch.target pre port t) :
    s.initProgram.Alike Scratch.target pre port t.initProgram := by
  unfold State.initProgram
  extract_lets s0 s1 s2 s3 s4 s5 t0 t1 t2 t3 t4 t5
  have h1 : s1.Alike Scratch.target pre port t1 :=
    (h.enter .programTiming).command steady_target fun c => [c.opWrite, c.addrCnf1, c.cnf1Val]
  have h2 : s2.Alike Scratch.target pre port t2 :=
    h1.command steady_target fun c => [c.opWrite, c.addrCnf2, c.cnf2Val]
  have h3 : s3.Alike Scratch.target pre port t3 :=
    h2.command steady_target fun c => [c.opWrite, c.addrCnf3, c.cnf3Val]
  clear_value s3 t3
  have h5 : s5.Alike Scratch.target pre port t5 :=
    ((h3.enter .clearFlags).command steady_target fun c => [c.opWrite, c.addrCanintf, 0x00]).enter .requestMode
  rw [h5.cfg, h5.held_eq]
  exact h5.bitModify steady_target _ _ _

theorem State.Alike.initRun (h : s.Alike held pre port t) (m : ControllerMode) :
    t.initRun m = rebase pre port (s.initRun m) := by
  have hreset := (h.setTarget m).initReset steady_target
  unfold State.initRun
  dsimp only
  rw [hreset.cfg]
  generalize (s.setTarget m).initReset = u at hreset ⊢
  generalize (t.setTarget m).initReset = u' at hreset ⊢
  obtain ⟨hconfig, hverified⟩ := (hreset.enter .verifyConfig).readRegister steady_target u.cfg.addrCanstat
  rw [hconfig]
  by_cases hrefused : modeReported u.cfg .configuration
      ((u.enter .verifyConfig).readRegister u.cfg.addrCanstat).1 = false
  · rw [if_pos hrefused, if_pos hrefused]
    exact (hverified.enter .doneError).finish _
  · rw [if_neg hrefused, if_neg hrefused]
    have hprogram := hverified.initProgram
    rw [hprogram.cfg]
    generalize ((u.enter .verifyConfig).readRegister u.cfg.addrCanstat).2.initProgram = v at hprogram ⊢
    obtain ⟨hmode, hread⟩ := (hprogram.enter .verifyMode).readRegister steady_target v.cfg.addrCanstat
    rw [hmode, hread.held_eq]
    split_ifs
    · exact (hread.enter .doneError).finish _
    · exact (hread.enter .doneOk).finish _

theorem State.Alike.transmitRun (h : s.Alike held pre port t) (f : CanFrame) :
    t.transmitRun f = rebase pre port (s.transmitRun f) := by
  unfold State.transmitRun
  dsimp only
  rw [State.setFb_cfg, State.setFb_cfg, h.cfg]
  obtain ⟨hpending, hread⟩ := ((h.setFb f).enter .checkPending).readRegister steady_fb s.cfg.addrTxb0ctrl
  rw [hpending]
  split_ifs
  · exact hread.finish _
  · have hload := hread.enter .load
    rw [hload.held_eq]
    exact (((hload.loadTxBuffer steady_fb _).enter .send).requestToSend steady_fb).finish _

theorem State.Alike.receivePoll (h : s.Alike held pre port t) :
    AlikeAnswer blind pre port s.receivePoll t.receivePoll := by
  unfold State.receivePoll
  dsimp only
  rw [h.cfg]
  obtain ⟨hflag, hread⟩ := (h.forget.enter .poll).readRegister steady_blind s.cfg.addrCanintf
  rw [hflag]
  split_ifs
  · exact .ok _ hread
  · have hburst := (hread.enter .readFrame).readRxBuffer steady_blind
    generalize (((s.enter .poll).readRegister s.cfg.addrCanintf).2.enter .readFrame).readRxBuffer = a at hburst ⊢
    generalize (((t.enter .poll).readRegister s.cfg.addrCanintf).2.enter .readFrame).readRxBuffer = b at hburst ⊢
    cases hburst with
    | error why => exact .error why
    | ok f hframe =>
      have hlabel := (hframe.setFb f).enter .clearFlag
      dsimp only
      rw [hlabel.cfg]
      have hclear := hlabel.bitModify steady_fb
      rw [(hclear _ _ _).held_eq]
      exact .ok _ (hclear _ _ _).forget

theorem State.Alike.receiveLoop (h : s.Alike held pre port t) (n : Nat) :
    t.receiveLoop n = rebase pre port (s.receiveLoop n) := by
  induction n generalizing α held s t with
  | zero => exact h.finish _
  | succ n ih =>
    unfold State.receiveLoop
    have hpoll := h.receivePoll
    generalize s.receivePoll = a at hpoll ⊢
    generalize t.receivePoll = b at hpoll ⊢
    cases hpoll with
    | error why => rfl
    | ok o hnext =>
      cases o with
      | some f => exact hnext.finish _
      | none =>
        exact ih (((hnext.enter .loop).delayMs Config.pollStepMs).scratch (held' := blind)
          (fun sc => { sc with tmo := sc.tmo - 1 }) fun _ _ _ => rfl)

end Runs

/-! ## Every operation -/

/-- R44: an operation does the same from both pasts. -/
theorem exec_rebase {pre : List Event} {port : List Byte} {s t : State} (h : s.Alike blind pre port t) (i : Instr) :
    exec i t = rebase pre port (exec i s) := by
  have hs := steady_blind
  cases i with
  | spiInit =>
    show execSpiInit t = rebase pre port (execSpiInit s)
    have hseq : t.seq = s.seq := by obtain ⟨_, _, _, rfl⟩ := h; rfl
    unfold execSpiInit
    rw [hseq]
    split_ifs
    · rfl
    · exact (h.enter .spiInit).spiInit.finish _
  | assertSelect => exact h.whenReady (((h.enter .assertSelect).pinWrite .cs false).finish _)
  | deassertSelect => exact h.whenReady (((h.enter .deassertSelect).pinWrite .cs true).finish _)
  | transfer tx =>
    obtain ⟨hbyte, hend⟩ := (h.enter .transfer).transfer hs tx
    refine h.whenReady ?_
    dsimp only
    rw [hbyte]
    exact hend.finish _
  | cmdReset => exact h.whenReady (h.whenReleased ((((h.enter .cmdReset).resetBracket hs).delayMs _).finish _))
  | cmdReadRegister addr =>
    obtain ⟨hbyte, hend⟩ := (h.enter .cmdReadRegister).readRegister hs addr
    refine h.whenReady (h.whenReleased ?_)
    dsimp only
    rw [hbyte]
    exact hend.finish _
  | cmdWriteRegister addr val =>
    exact h.whenReady (h.whenReleased (((h.enter .cmdWriteRegister).writeRegister hs addr val).finish _))
  | cmdBitModify addr mask val =>
    exact h.whenReady (h.whenReleased (((h.enter .cmdBitModify).bitModify hs addr mask val).finish _))
  | cmdLoadTxBuffer id dlc data =>
    refine h.whenReady ?_
    split
    · rfl
    · exact h.whenReleased (((h.enter .cmdLoadTxBuffer).loadTxBuffer hs _).finish _)
  | cmdRequestToSend => exact h.whenReady (h.whenReleased (((h.enter .cmdRequestToSend).requestToSend hs).finish _))
  | cmdReadRxBuffer =>
    refine h.whenReady (h.whenReleased ?_)
    have hburst := (h.enter .cmdReadRxBuffer).readRxBuffer hs
    generalize (s.enter .cmdReadRxBuffer).readRxBuffer = a at hburst ⊢
    generalize (t.enter .cmdReadRxBuffer).readRxBuffer = b at hburst ⊢
    cases hburst with
    | error why => rfl
    | ok f hend => exact hend.finish _
  | encodeTxBuffer frame =>
    refine h.whenReady ?_
    rw [h.cfg]
    split
    · rfl
    · exact (h.enter .encodeTxBuffer).finish _
  | decodeRxBuffer bytes =>
    refine h.whenReady ?_
    rw [h.cfg]
    split
    · rfl
    · exact (h.enter .decodeRxBuffer).finish _
  | init target =>
    refine h.whenReady ?_
    split
    · rfl
    · exact h.whenReleased (h.initRun _)
  | transmit frame =>
    refine h.whenReady ?_
    split
    · rfl
    · exact h.whenReleased (h.transmitRun _)
  | receive =>
    refine h.whenReady (h.whenReleased ?_)
    have hpoll := h.receivePoll
    generalize s.receivePoll = a at hpoll ⊢
    generalize t.receivePoll = b at hpoll ⊢
    cases hpoll with
    | error why => rfl
    | ok o hend => cases o <;> exact hend.finish _
  | receiveWithTimeout bound =>
    refine h.whenReady ?_
    rw [h.cfg]
    split
    · rfl
    · exact h.whenReleased (((h.enter .loop).scratch (held' := blind) (fun sc => { sc with tmo := _ })
        fun _ _ _ => rfl).receiveLoop _)

/-- Settles O44: both runs are compared with the run from an empty trace (`exec_rebase`). -/
theorem nothingElseSurvives : Obligations.NothingElseSurvives := by
  unfold Obligations.NothingElseSurvives
  intro i s scratch ret trace port
  let fresh := s.withPast s.scratch s.ret [] s.port
  have hown : fresh.Alike blind s.trace s.port s := ⟨s.scratch, s.ret, rfl, by simp [fresh]⟩
  have hother : fresh.Alike blind trace port (s.withPast scratch ret trace port) :=
    ⟨scratch, ret, rfl, by simp [fresh]⟩
  rw [exec_rebase hown i, exec_rebase hother i]
  cases exec i fresh with
  | next t => simp only [rebase, List.drop_left]
  | fault f => rfl
  | refused why => rfl

end Sys2Proof.Machine
end

section
/-! PROOF. The SPI transport primitives as operations (spec/40_spi_transport.md R101, R102, R104): the refusals, what an
edge of CS leaves alone, then one operation after the other. -/

namespace Sys2Proof.Machine

/-! ## The refusals of R199 (a) and (b) -/

theorem State.whenReady_notInitialised {s : State} (h : s.inited = false) (k : Out) :
    s.whenReady k = .refused .notInitialised := if_pos h

theorem State.whenReady_inProgress {s : State} (h : s.inited = true) (hseq : s.seq ≠ .idle) (k : Out) :
    s.whenReady k = .refused .operationInProgress := by
  simp [State.whenReady, h, hseq]

/-! ## The environment's part at a return and at a line write -/

@[simp] theorem State.returned_samples (s : State) (r : Result) : (s.returned r).samples = s.samples := rfl
@[simp] theorem State.returned_moves (s : State) (r : Result) : (s.returned r).moves = s.moves := rfl
@[simp] theorem State.returned_ctl (s : State) (r : Result) : (s.returned r).ctl = s.ctl := rfl
@[simp] theorem State.lineSet_moves (s : State) (p : OutLine) (v : Level) : (s.lineSet p v).moves = s.moves := by
  cases p <;> rfl
@[simp] theorem State.lineSet_ctl (s : State) (p : OutLine) (v : Level) : (s.lineSet p v).ctl = s.ctl := by
  cases p <;> rfl

/-! ## The environment takes no prepared answer at an edge of CS -/

@[simp] theorem State.fireAll_samples (s : State) (ms : List EnvMove) : (s.fireAll ms).samples = s.samples := by
  induction ms generalizing s with
  | nil => rfl
  | cons m ms ih => exact ih (s.fire m)

@[simp] theorem State.opportunity_samples (s : State) : s.opportunity.samples = s.samples := by
  unfold State.opportunity
  split
  · rfl
  · split <;> exact State.fireAll_samples _ _
  · split
    · rfl
    · exact State.fireAll_samples _ _

@[simp] theorem State.afterRelease_samples (s : State) : s.afterRelease.samples = s.samples := by
  unfold State.afterRelease
  split
  · rfl
  · simp
  · simp [State.eager]

@[simp] theorem State.afterSelect_samples (s : State) : s.afterSelect.samples = s.samples := by
  unfold State.afterSelect
  split <;> simp

@[simp] theorem State.pinWrite_cs_samples (s : State) (v : Level) : (s.pinWrite .cs v).samples = s.samples := by
  unfold State.pinWrite
  cases s.level .cs <;> cases v <;> simp [State.notify]

/-! ## Where the controller sees no edge, and where an edge does not lead outside -/

/-- The controller ignores the clock while CS is high (R162). -/
theorem State.pinWrite_sck_released {s : State} (h : s.pinCs = true) (v : Level) :
    s.pinWrite .sck v = s.lineSet .sck v := by
  have hrise {u : State} (hu : u.pinCs = true) : u.afterClockRise = u := by
    unfold State.afterClockRise
    split <;> simp [hu]
  have hfall {u : State} (hu : u.pinCs = true) : u.afterClockFall = u := by
    unfold State.afterClockFall
    split <;> simp [hu]
  unfold State.pinWrite State.lineSet
  cases s.level .sck <;> cases v
  · rfl
  · exact hrise h
  · exact hfall h
  · rfl

/-- A write of CS is no edge for the oracle, nor where CS has the level already. -/
theorem State.pinWrite_cs_still {s : State} {v : Level} (h : s.env = .oracle ∨ s.pinCs = v) :
    s.pinWrite .cs v = s.lineSet .cs v :=
  h.elim (fun henv => State.pinWrite_oracle henv .cs v) (fun hcs => State.pinWrite_same hcs)

theorem State.keepsController_of_ctl {s t : State} (hmoves : t.moves = s.moves) (hctl : t.ctl = s.ctl) :
    s.keepsController t := ⟨hmoves, hctl, fun a => congrArg (Controller.rd · a) hctl⟩

theorem State.left_pinWrite_cs {s : State} (h : s.staysInside) (v : Level) : (s.pinWrite .cs v).left = none := by
  rcases h with henv | ⟨houtside, hstandard⟩
  · rw [State.pinWrite_oracle henv]
    exact State.left_oracle henv
  · exact State.left_of_inside (State.inside_cs ⟨houtside, .inl hstandard⟩ v)

/-! ## SpiInit -/

/-- The first four events of `SpiInit`, which the environment does not see (R101). -/
def State.dirsWritten (s : State) : State :=
  (((s.pinDir .sck .output).pinDir .cs .output).pinDir .mosi .output).pinDir .miso .input

/-- At most one edge of `SpiInit` reaches the controller, that of CS, for CS is high before the clock is written
(R101). -/
theorem State.spiInit_eq (s : State) :
    s.spiInit = { ((s.dirsWritten.pinWrite .cs true).lineSet .sck false).lineSet .mosi false with inited := true } := by
  have hcs : (s.dirsWritten.pinWrite .cs true).pinCs = true := by
    obtain ⟨_, _, _, _, _, hwrite⟩ := s.dirsWritten.pinWrite_envStep .cs true
    rw [hwrite]
    rfl
  rw [← State.pinWrite_sck_released hcs]
  rfl

@[simp] theorem State.spiInit_samples (s : State) : s.spiInit.samples = s.samples := by
  have hwrite := s.dirsWritten.pinWrite_cs_samples true
  rw [State.spiInit_eq]
  generalize s.dirsWritten.pinWrite .cs true = u at hwrite ⊢
  exact hwrite

theorem State.left_spiInit {s : State} (h : s.staysInside) : s.spiInit.left = none := by
  have hwrite := State.left_pinWrite_cs (s := s.dirsWritten) h true
  rw [State.spiInit_eq]
  generalize s.dirsWritten.pinWrite .cs true = u at hwrite ⊢
  exact hwrite

/-- Settles O8: the block's part of `SpiInit` is that of every environment (`State.spiInit_envStep`), and only its write
of CS may be an edge for the controller (`State.spiInit_eq`). -/
theorem spiInitSetsLines : Obligations.SpiInitSetsLines := by
  unfold Obligations.SpiInitSetsLines
  refine ⟨fun _ => rfl, fun s hidle hstays => ?_, fun s hseq => if_pos hseq⟩
  let b := s.enter .spiInit
  have hret := State.finish_of_left (State.left_spiInit (s := b) hstays) .nothing
  obtain ⟨hr, htrace, hcs, hsck, hmosi, hdsck, hdcs, hdmosi, hdmiso, hinited, hseq, hport, hcfg, henv, -⟩ :=
    b.spiInit_envStep.finish hret
  refine ⟨_, (if_neg (not_not.2 hidle)).trans hret, hr, htrace, hsck, hcs, hmosi, ⟨hdsck, hdcs, hdmosi, hdmiso⟩,
    hinited, hseq, hport, hcfg, henv, by simp [b], fun hstill => ?_⟩
  rw [State.spiInit_still (s := b) hstill]
  exact State.keepsController_of_ctl rfl rfl

/-! ## AssertSelect -/

/-- An operation that only writes CS returns in every environment (R102, R103). -/
theorem State.csWrite_returns {s : State} (h : s.staysInside) (l : Seq) (v : Level) :
    ∃ t, ((s.enter l).pinWrite .cs v).finish .nothing = .next t ∧
      t.ret = .nothing ∧ t.trace = s.trace ++ [.pinWrite .cs v] ∧
      t.pinCs = v ∧ t.pinSck = s.pinSck ∧ t.pinMosi = s.pinMosi ∧ t.samples = s.samples ∧ s.keeps t ∧
      (s.env = .oracle ∨ s.pinCs = v → s.keepsController t) := by
  let b := s.enter l
  have hret := State.finish_of_left (State.left_pinWrite_cs (s := b) h v) .nothing
  obtain ⟨hr, htrace, hcs, hsck, hmosi, hdsck, hdcs, hdmosi, hdmiso, hinited, hseq, hport, hcfg, henv, -⟩ :=
    (b.pinWrite_envStep .cs v).finish hret
  refine ⟨_, hret, hr, htrace, hcs, hsck, hmosi, by simp [b],
    ⟨hdsck, hdcs, hdmosi, hdmiso, hinited, hseq, hport, hcfg, henv⟩, fun hstill => ?_⟩
  rw [State.pinWrite_cs_still (s := b) hstill]
  exact State.keepsController_of_ctl (by simp [b]) (by simp [b])

/-- Settles O9: `AssertSelect` is one write of CS (`State.csWrite_returns`). -/
theorem assertSelectDrivesLow : Obligations.AssertSelectDrivesLow := by
  unfold Obligations.AssertSelectDrivesLow
  refine ⟨fun _ => rfl, fun s hready hstays => ?_, fun s hinited => State.whenReady_notInitialised hinited _,
    fun s hinited hseq => State.whenReady_inProgress hinited hseq _⟩
  obtain ⟨t, hret, hdone⟩ := State.csWrite_returns hstays .assertSelect false
  exact ⟨t, (State.whenReady_of hready _).trans hret, hdone⟩

/-! ## Transfer -/

theorem length_byteEvents (tx rx : Byte) : (byteEvents tx rx).length = 32 := rfl

/-- `Transfer` in front of the oracle returns the byte that the answers taken make (R104, R11). -/
theorem State.transfer_returns_oracle {s : State} (henv : s.env = .oracle) (hready : s.ready) (tx : Byte) :
    ∃ (rx : Byte) (t : State), exec (.transfer tx) s = .next t ∧
      t.ret = .byte rx ∧ t.trace = s.trace ++ byteEvents tx rx ∧
      t.pinCs = s.pinCs ∧ t.pinSck = false ∧ t.pinMosi = tx.getLsbD 0 ∧
      s.fed t [rx] ∧ s.keeps t ∧ s.keepsController t := by
  have hdrawn := State.transfer_oracle (s := s.enter .transfer) henv tx
  obtain ⟨n, sc, hret⟩ := hdrawn.finish henv (.byte ((s.enter .transfer).transfer tx).1)
  refine ⟨_, _, (State.whenReady_of hready _).trans hret, rfl, rfl, rfl, rfl, rfl, ⟨?_, rfl⟩,
    ⟨rfl, rfl, rfl, rfl, rfl, rfl, rfl, rfl, rfl⟩, State.keepsController_of_ctl rfl rfl⟩
  rw [List.flatMap_singleton]
  exact hdrawn.1

/-- `Transfer` returns the byte that stands in its 32 events, in every environment (R104). -/
theorem execTransfer_next {s t : State} {tx : Byte} (h : execTransfer tx s = .next t) :
    ∃ rx, t.ret = .byte rx ∧ t.trace = s.trace ++ byteEvents tx rx ∧
      t.pinCs = s.pinCs ∧ t.pinSck = false ∧ t.pinMosi = tx.getLsbD 0 ∧ s.keeps t := by
  obtain ⟨-, hret⟩ := State.whenReady_next h
  obtain ⟨hr, htrace, hcs, hsck, hmosi, hdsck, hdcs, hdmosi, hdmiso, hinited, hseq, hport, hcfg, henv, -⟩ :=
    ((s.enter .transfer).transfer_envStep tx).finish hret
  exact ⟨_, hr, htrace, hcs, hsck, hmosi, hdsck, hdcs, hdmosi, hdmiso, hinited, hseq, hport, hcfg, henv⟩

/-- Settles O11: `State.transfer_returns_oracle` for the block alone, `execTransfer_next` for every environment. -/
theorem transferExchangesByte : Obligations.TransferExchangesByte := by
  unfold Obligations.TransferExchangesByte
  exact ⟨fun _ _ => rfl, fun s tx henv hready => State.transfer_returns_oracle henv hready tx,
    fun s t tx h => execTransfer_next h, length_byteEvents,
    fun s tx hinited => State.whenReady_notInitialised hinited _,
    fun s tx hinited hseq => State.whenReady_inProgress hinited hseq _⟩

end Sys2Proof.Machine
end

section
/-! PROOF. The CAN frame codec as operations (spec/42_frame_codec.md R126, R128): an operation that touches no line, what
EncodeTxBuffer answers inside and outside the domain of R43, and the payload count of a received DLC byte. -/

namespace Sys2Proof.Machine

/-! ## An operation that touches no line -/

/-- Giving the sequencer a label does not lead the controller outside its model. -/
@[simp] theorem State.left_enter (s : State) (l : Seq) : (s.enter l).left = s.left := rfl

/-- An operation that only starts and returns changes nothing but the delivered value (R197). -/
theorem State.enter_returned_didNothingBut (s : State) (l : Seq) (r : Result) :
    s.didNothingBut ((s.enter l).returned r) r :=
  ⟨rfl, rfl, ⟨rfl, rfl, rfl⟩, rfl, ⟨rfl, rfl, rfl, rfl, rfl, rfl, rfl, rfl, rfl⟩, State.keepsController_of_ctl rfl rfl⟩

/-! ## EncodeTxBuffer -/

/-- `EncodeTxBuffer` of an operand that stands for a frame returns the frame's image (R126). -/
theorem exec_encodeTxBuffer_next {s : State} {frame : FrameOperand} {f : CanFrame} (hready : s.ready)
    (hleft : s.left = none) (hframe : toFrame frame = some f) :
    exec (.encodeTxBuffer frame) s =
      .next ((s.enter .encodeTxBuffer).returned (.bytes (encodeTx s.cfg.txReservedByte f))) := by
  have hstart : exec (.encodeTxBuffer frame) s = execEncodeTxBuffer frame s := rfl
  rw [hstart, execEncodeTxBuffer, State.whenReady_of hready, hframe]
  exact State.finish_of_left ((s.left_enter _).trans hleft) _

/-- `EncodeTxBuffer` refuses an operand that stands for no frame (R199 (c)). -/
theorem exec_encodeTxBuffer_refused {s : State} {frame : FrameOperand} (hready : s.ready)
    (hframe : toFrame frame = none) : exec (.encodeTxBuffer frame) s = .refused .operandOutOfDomain := by
  have hstart : exec (.encodeTxBuffer frame) s = execEncodeTxBuffer frame s := rfl
  rw [hstart, execEncodeTxBuffer, State.whenReady_of hready, hframe]

/-- Settles O22: the two cases of `toFrame`, the image written out by `encodeTx_eq`. -/
theorem encodeTxBufferImage : Obligations.EncodeTxBufferImage := by
  unfold Obligations.EncodeTxBufferImage
  intro s f hready hleft
  refine ⟨fun hid hdlc hdata => ?_, fun houtside => ?_⟩
  · have hret := exec_encodeTxBuffer_next hready hleft (toFrame_of hid hdlc hdata)
    rw [encodeTx_eq s.cfg.txReservedByte f.id f.data hdlc] at hret
    exact ⟨_, hret, s.enter_returned_didNothingBut _ _⟩
  · exact exec_encodeTxBuffer_refused hready (toFrame_none (mt (check_none_iff f).1 houtside))

/-! ## RxCount -/

/-- The count is read from the low nibble of the DLC byte, whatever stands in the high one (R128). -/
theorem rxCount_clamp_lowNibble (dlcb : Byte) :
    rxCount .clamp dlcb = some (if dlcb.setWidth 4 > (8 : BitVec 4) then 8 else dlcb.setWidth 4) := by
  rw [rxCount, BitVec.setWidth_eq_extractLsb' (by decide)]

/-- Settles O24: `rxCount` guard by guard, with the bytes up to 8 apart. -/
theorem rxCountLimitsToEight : Obligations.RxCountLimitsToEight := by
  unfold Obligations.RxCountLimitsToEight
  intro dlcb
  exact ⟨rxCount_clamp_lowNibble dlcb, fun hsmall => ⟨rxCount_small .clamp hsmall, rxCount_small .strict hsmall⟩,
    fun hlarge => rxCount_strict_none hlarge⟩

end Sys2Proof.Machine
end

section
/-! PROOF. The fault of the machine (spec/60_exceptions.md R198): no run of an operation faults, and the start of an
operation that opens a bracket is decided by its operands and by PIN.CS alone. -/

namespace Sys2Proof.Machine

/-! ## Outcomes that are no fault -/

/-- The outcome is a state or a refusal. -/
def Faultless (o : Out) : Prop := ∀ f, o ≠ .fault f

theorem faultless_refused (why : Refusal) : Faultless (.refused why) := fun _ => nofun

theorem State.faultless_finish (s : State) (r : Result) : Faultless (s.finish r) := by
  cases hleft : s.left with
  | none =>
    rw [State.finish_of_left hleft]
    exact fun _ => nofun
  | some why =>
    rw [State.finish, hleft]
    exact faultless_refused _

/-! ## The runs of the driver operations -/

theorem State.faultless_initRun (s : State) (m : ControllerMode) : Faultless (s.initRun m) := by
  unfold State.initRun
  dsimp only
  split
  · exact State.faultless_finish _ _
  · split <;> exact State.faultless_finish _ _

theorem State.faultless_transmitRun (s : State) (f : CanFrame) : Faultless (s.transmitRun f) := by
  unfold State.transmitRun
  dsimp only
  split <;> exact State.faultless_finish _ _

theorem State.faultless_receiveLoop (s : State) (n : Nat) : Faultless (s.receiveLoop n) := by
  induction n generalizing s with
  | zero => exact s.faultless_finish _
  | succ n ih =>
    unfold State.receiveLoop
    split
    · exact faultless_refused _
    · exact State.faultless_finish _ _
    · exact ih _

/-! ## The start of an operation -/

/-- R199 (a), (b) are refusals. -/
theorem State.whenReady_fault {s : State} {k : Out} {f : Fault} (h : s.whenReady k = .fault f) : k = .fault f := by
  unfold State.whenReady at h
  split at h
  · cases h
  · split at h
    · cases h
    · exact h

theorem State.whenReleased_open {s : State} (h : s.pinCs = false) (k : Out) :
    s.whenReleased k = .fault .overlappingCommand := if_pos h

theorem State.whenReleased_fault {s : State} {k : Out} {f : Fault} (hk : Faultless k)
    (h : s.whenReleased k = .fault f) : s.pinCs = false := by
  by_contra hcs
  rw [State.whenReleased_of (by simpa using hcs)] at h
  exact hk f h

/-- What an operation that opens a bracket does once R199 (a) and (b) let it run: its operands are checked first, then
PIN.CS (log 13). -/
inductive State.BracketBody (s : State) (inDomain : Prop) : Out → Prop
  | outOfDomain (hout : ¬ inDomain) : s.BracketBody inDomain (.refused .operandOutOfDomain)
  | guarded (hin : inDomain) {run : Out} (hrun : Faultless run) : s.BracketBody inDomain (s.whenReleased run)

/-- The body of an operation whose operand stands for a value exactly inside its domain. -/
theorem State.BracketBody.of_operand {s : State} {α : Type} {operand : Option α} {inDomain : Prop} {run : α → Out}
    {k : Out} (hdomain : operand.isSome ↔ inDomain) (hrun : ∀ a, Faultless (run a))
    (hnone : operand = none → k = .refused .operandOutOfDomain)
    (hsome : ∀ a, operand = some a → k = s.whenReleased (run a)) : s.BracketBody inDomain k := by
  cases operand with
  | none =>
    rw [hnone rfl]
    exact .outOfDomain fun hin => nomatch hdomain.2 hin
  | some a =>
    rw [hsome a rfl]
    exact .guarded (hdomain.1 rfl) (hrun a)

theorem State.BracketBody.overlapping {s : State} {inDomain : Prop} {k : Out} (h : s.BracketBody inDomain k)
    (hin : inDomain) (hcs : s.pinCs = false) : k = .fault .overlappingCommand := by
  cases h with
  | outOfDomain hout => exact absurd hin hout
  | guarded => exact State.whenReleased_open hcs _

theorem State.BracketBody.pinCs_of_fault {s : State} {inDomain : Prop} {k : Out} {f : Fault}
    (h : s.BracketBody inDomain k) (hk : k = .fault f) : s.pinCs = false := by
  cases h with
  | outOfDomain => cases hk
  | guarded _ hrun => exact State.whenReleased_fault hrun hk

/-! ## The operands with a domain -/

theorem toFrame_isSome_iff (f : FrameOperand) : (toFrame f).isSome ↔ f.check = none := by
  by_cases hdomain : f.check = none
  · obtain ⟨hid, hdlc, hdata⟩ := (check_none_iff f).1 hdomain
    simp [toFrame_of hid hdlc hdata, hdomain]
  · simp [toFrame_none hdomain, hdomain]

theorem toTarget_isSome_iff (width : Nat) (m : ControllerMode) : (toTarget m).isSome ↔ (Instr.init m).wf width := by
  cases m <;> simp [toTarget, Instr.wf, Instr.check]

theorem toBound_isSome_iff (width bound : Nat) :
    (toBound width bound).isSome ↔ (Instr.receiveWithTimeout bound).wf width := by
  by_cases hnarrow : bound < 2 ^ width <;> simp [toBound, Instr.wf, Instr.check, hnarrow]

/-! ## Every operation -/

/-- The commands of 41_controller_commands.md and the operations of 43_driver_operations.md. -/
theorem exec_bracketBody {i : Instr} (hi : usesBracket i = true) (s : State) :
    ∃ k, exec i s = s.whenReady k ∧ s.BracketBody (i.wf s.cfg.wBound) k := by
  cases i with
  | cmdReset => exact ⟨_, rfl, .guarded rfl (State.faultless_finish _ _)⟩
  | cmdReadRegister addr => exact ⟨_, rfl, .guarded rfl (State.faultless_finish _ _)⟩
  | cmdWriteRegister addr val => exact ⟨_, rfl, .guarded rfl (State.faultless_finish _ _)⟩
  | cmdBitModify addr mask val => exact ⟨_, rfl, .guarded rfl (State.faultless_finish _ _)⟩
  | cmdLoadTxBuffer id dlc data =>
    exact ⟨_, rfl, .of_operand (toFrame_isSome_iff ⟨id, dlc, data⟩) (fun _ => State.faultless_finish _ _)
      (fun h => by rw [h]) fun a h => by rw [h]⟩
  | cmdRequestToSend => exact ⟨_, rfl, .guarded rfl (State.faultless_finish _ _)⟩
  | cmdReadRxBuffer =>
    refine ⟨_, rfl, .guarded rfl ?_⟩
    split
    · exact faultless_refused _
    · exact State.faultless_finish _ _
  | init target =>
    exact ⟨_, rfl, .of_operand (toTarget_isSome_iff _ target) s.faultless_initRun (fun h => by rw [h])
      fun a h => by rw [h]⟩
  | transmit frame =>
    exact ⟨_, rfl, .of_operand (toFrame_isSome_iff frame) s.faultless_transmitRun (fun h => by rw [h])
      fun a h => by rw [h]⟩
  | receive =>
    refine ⟨_, rfl, .guarded rfl ?_⟩
    split
    · exact faultless_refused _
    · exact State.faultless_finish _ _
    · exact State.faultless_finish _ _
  | receiveWithTimeout bound =>
    exact ⟨_, rfl, .of_operand (toBound_isSome_iff _ bound) (fun _ => State.faultless_receiveLoop _ _)
      (fun h => by rw [h]) fun a h => by rw [h]⟩
  | _ => cases hi

/-- The primitives of 40_spi_transport.md and the codec of 42_frame_codec.md. -/
theorem exec_faultless {i : Instr} (hi : usesBracket i = false) (s : State) : Faultless (exec i s) := by
  have hready {k : Out} (hk : Faultless k) : Faultless (s.whenReady k) := fun f h => hk f (State.whenReady_fault h)
  cases i with
  | spiInit =>
    show Faultless (execSpiInit s)
    unfold execSpiInit
    split
    · exact faultless_refused _
    · exact State.faultless_finish _ _
  | assertSelect => exact hready (State.faultless_finish _ _)
  | deassertSelect => exact hready (State.faultless_finish _ _)
  | transfer tx => exact hready (State.faultless_finish _ _)
  | encodeTxBuffer frame =>
    refine hready ?_
    split
    · exact faultless_refused _
    · exact State.faultless_finish _ _
  | decodeRxBuffer bytes =>
    refine hready ?_
    split
    · exact faultless_refused _
    · exact State.faultless_finish _ _
  | _ => cases hi

/-- Settles O34: the body of an operation that opens a bracket (`exec_bracketBody`); no other operation faults
(`exec_faultless`). -/
theorem overlappingCommandFaults : Obligations.OverlappingCommandFaults := by
  unfold Obligations.OverlappingCommandFaults
  refine ⟨fun i s hready hcs hi hwf => ?_, fun i s f hfault => ?_⟩
  · obtain ⟨k, hexec, hbody⟩ := exec_bracketBody hi s
    rw [hexec, State.whenReady_of hready, hbody.overlapping hwf hcs]
  · cases hi : usesBracket i with
    | false => exact absurd hfault (exec_faultless hi s f)
    | true =>
      obtain ⟨k, hexec, hbody⟩ := exec_bracketBody hi s
      exact ⟨hbody.pinCs_of_fault (State.whenReady_fault (hexec.symm.trans hfault)), rfl⟩

end Sys2Proof.Machine
end

section
/-! PROOF. The host's port (spec/30_encoding.md R91): what the decoder answers to the encoding of an operation and to a
reserved selector, and how a step takes a request. -/

namespace Sys2Proof

/-- A frame of the domain of R43 has a payload that one count byte can announce (log 2). -/
theorem FrameOperand.data_lt_of_check {f : FrameOperand} (h : f.check = none) : f.data.length < 256 := by
  obtain ⟨-, hdlc, hdata⟩ := (Machine.check_none_iff f).1 h
  omega

/-- An image of the domain of R127 has at most 13 bytes. -/
theorem length_lt_of_checkImage {bytes : List Byte} (h : checkImage bytes = none) : bytes.length < 256 := by
  unfold checkImage at h
  split at h
  · split at h
    · rename_i hpayload
      simp only [List.length_cons, hpayload]
      omega
    · cases h
  · cases h

/-- Every well-formed operation fits the port (R91; log 2). -/
theorem Instr.portable_of_wf {width : Nat} {i : Instr} (h : i.wf width) : i.portable width := by
  cases i with
  | cmdLoadTxBuffer id dlc data => exact FrameOperand.data_lt_of_check (f := ⟨id, dlc, data⟩) h
  | encodeTxBuffer frame => exact FrameOperand.data_lt_of_check h
  | transmit frame => exact FrameOperand.data_lt_of_check h
  | decodeRxBuffer bytes => exact length_lt_of_checkImage h
  | receiveWithTimeout bound =>
    have hbound : bound < 2 ^ width := by
      by_contra hwide
      simp [Instr.wf, Instr.check, hwide] at h
    exact lt_of_lt_of_le hbound (two_pow_le_boundBytes width)
  | _ => trivial

theorem targetOfByte_targetToByte (m : ControllerMode) : targetOfByte (targetToByte m) = some m := by
  cases m <;> rfl

/-- An operation is read back from its encoding, whatever follows it (R91; log 2). -/
theorem decode_encode {width : Nat} {i : Instr} (h : i.portable width) (rest : List Byte) :
    decode width (encode width i ++ rest) = .ok (i, rest) := by
  cases i with
  | cmdLoadTxBuffer id dlc data =>
    simp [encode, Instr.opsel, Instr.operandBytes, decode, takeFrame_putFrame ⟨id, dlc, data⟩ rest h]
  | encodeTxBuffer frame =>
    simp [encode, Instr.opsel, Instr.operandBytes, decode, takeFrame_putFrame frame rest h]
  | decodeRxBuffer bytes =>
    simp [encode, Instr.opsel, Instr.operandBytes, decode, takeList_putList bytes rest h]
  | init target =>
    simp [encode, Instr.opsel, Instr.operandBytes, decode, targetOfByte_targetToByte]
  | transmit frame =>
    simp [encode, Instr.opsel, Instr.operandBytes, decode, takeFrame_putFrame frame rest h]
  | receiveWithTimeout bound =>
    obtain ⟨l, hbytes, hbound⟩ := takeBytes_bytesOfNat (boundBytes width) bound rest h
    simp [encode, Instr.opsel, Instr.operandBytes, decode, hbytes, hbound]
  | _ => rfl

/-- Settles O2: every well-formed operation is portable, and `decode_encode`, operation by operation. -/
theorem decodeEncodeRoundTrip : Obligations.DecodeEncodeRoundTrip := by
  unfold Obligations.DecodeEncodeRoundTrip
  exact ⟨fun _ _ h => Instr.portable_of_wf h, fun _ _ rest h => decode_encode h rest⟩

/-- Settles O1: the decoder evaluated on each request. -/
theorem decodeSampleRequests : Obligations.DecodeSampleRequests := by
  unfold Obligations.DecodeSampleRequests
  refine ⟨rfl, rfl, rfl, rfl, rfl, rfl, rfl, rfl, rfl, rfl, rfl, rfl, rfl, rfl, rfl, rfl, rfl, rfl, rfl⟩

/-- The selectors of R91. -/
def selectors : List Byte :=
  [0x00, 0x01, 0x02, 0x03, 0x10, 0x11, 0x12, 0x13, 0x14, 0x15, 0x16, 0x20, 0x21, 0x30, 0x31, 0x32, 0x33]

/-- A reserved selector has the number of no row of R91. -/
theorem toNat_ne_of_not_mem_selectors {opsel : Byte} (h : opsel ∉ selectors) {k : Nat}
    (hk : BitVec.ofNat 8 k ∈ selectors) : opsel.toNat ≠ k := by
  rintro rfl
  exact h (by simpa using hk)

/-- R91: "Every other selector value is reserved and refused." -/
theorem decode_reserved (width : Nat) {opsel : Byte} (h : opsel ∉ selectors) (bs : List Byte) :
    decode width (opsel :: bs) = .error (.reservedSelector opsel) := by
  have hne {k : Nat} (hk : BitVec.ofNat 8 k ∈ selectors) := toNat_ne_of_not_mem_selectors h hk
  simp only [decode]
  split
  case h_18 => rfl
  all_goals
    rename_i heq
    exact absurd heq (hne (by decide))

namespace Machine

/-- A step refuses the bytes that the decoder refuses. -/
theorem step_of_decode_error {s : State} {e : DecodeError} (hport : s.port ≠ [])
    (h : decode s.cfg.wBound s.port = .error e) : step s = .refused (refusalOf e) := by
  have hfetch : s.fetch = .bad (refusalOf e) := by
    unfold State.fetch
    cases hp : s.port with
    | nil => exact absurd hp hport
    | cons b bs =>
      rw [hp] at h
      simp only [h]
  rw [step, hfetch]

/-- A step runs the decoded request, on the state whose port holds what follows it (R234; log 1). -/
theorem step_of_decode {s : State} {i : Instr} {rest : List Byte} (h : decode s.cfg.wBound s.port = .ok (i, rest)) :
    step s = exec i { s with port := rest } := by
  have hfetch : s.fetch = .request i { s with port := rest } := by
    unfold State.fetch
    cases hp : s.port with
    | nil => rw [hp] at h; cases h
    | cons b bs =>
      rw [hp] at h
      simp only [h]
  rw [step, hfetch]

/-- A step with an empty port waits. -/
theorem step_of_port_nil {s : State} (h : s.port = []) : step s = .next s.wait := by
  have hfetch : s.fetch = .none := by
    unfold State.fetch
    rw [h]
  rw [step, hfetch]

/-- Settles O3: the decoder's last arm (`decode_reserved`). -/
theorem reservedSelectorsRefused : Obligations.ReservedSelectorsRefused := by
  unfold Obligations.ReservedSelectorsRefused
  intro s opsel rest hport hreserved
  have hdecode : decode s.cfg.wBound s.port = .error (.reservedSelector opsel) := by
    rw [hport]
    exact decode_reserved _ hreserved rest
  exact step_of_decode_error (by simp [hport]) hdecode

/-- Settles O4. -/
theorem stepRunsDecodedRequest : Obligations.StepRunsDecodedRequest := by
  unfold Obligations.StepRunsDecodedRequest
  exact fun _ _ _ h => step_of_decode h

/-- Settles O5: waiting is an opportunity of the environment (`State.opportunity_envStep`), and none for the oracle. -/
theorem emptyPortWaits : Obligations.EmptyPortWaits := by
  unfold Obligations.EmptyPortWaits
  intro s hport
  rw [step_of_port_nil hport]
  refine ⟨?_, fun henv => ?_⟩
  · obtain ⟨samples, moves, ctl, freeIx, -, hwait⟩ := s.opportunity_envStep
    exact ⟨samples, moves, ctl, freeIx, congrArg _ hwait⟩
  · exact congrArg _ (State.opportunity_oracle henv)

/-- Settles O6: the block waits with an empty port, and the request 0x00 runs `SpiInit` (`spiInitSetsLines`). -/
theorem hardwareReset : Obligations.HardwareReset := by
  unfold Obligations.HardwareReset
  obtain ⟨-, hinit, -⟩ := spiInitSetsLines
  obtain ⟨t, hret, -, -, hsck, hcs, hmosi, hdirs, hinited, hseq, -⟩ := hinit State.reset rfl (.inl rfl)
  have hwait : step State.reset = .next State.reset :=
    (step_of_port_nil rfl).trans (congrArg _ (State.opportunity_oracle rfl))
  have hstep : step { State.reset with port := [0x00] } = exec .spiInit State.reset := step_of_decode rfl
  exact ⟨rfl, rfl, hwait, t, hstep.trans hret, hsck, hcs, hmosi, hdirs, hinited, hseq⟩

/-- Settles O37: INITED is 0, TMO is 0 and the register space is empty at reset. -/
theorem resetMeetsInvariant : Obligations.ResetMeetsInvariant := by
  unfold Obligations.ResetMeetsInvariant
  have hinited : State.reset.inited ≠ true := by decide
  have hempty : State.reset.ctl.reg.wf := by decide
  exact ⟨rfl, fun h => absurd h hinited, Nat.two_pow_pos _, hempty⟩

end Machine
end Sys2Proof
end

section
/-! PROOF. What a run of an operation that opens brackets does, once for every environment law: the events it adds, the
bytes it receives, the byte it sends last and the result it returns with. What holds of the block alone
(`State.did`) and what holds in every environment (`State.Ended`) both follow from it. -/

namespace Sys2Proof.Machine

/-! ## The account of a run -/

/-- The run `o` of an operation that starts in `s` adds the events `es` of brackets, receives the bytes `rxs`, sends
`last` last and returns with `r`. -/
def RunsTo (P : State → Prop) (R : State → State → List Level → Prop) (s : State) (o : Out) (r : Result)
    (es : List Event) (rxs : List Byte) (last : Byte) : Prop :=
  ∃ b u, s.Near b es last ∧ P u ∧ R b u (rxs.flatMap wireBits) ∧ o = u.finish r

/-- The block alone: the operation returns, and has done nothing else. -/
theorem RunsTo.did {s : State} {o : Out} {r : Result} {es : List Event} {rxs : List Byte} {last : Byte}
    (h : RunsTo (fun s => s.env = .oracle) State.drawn s o r es rxs last) (henv : s.env = .oracle) :
    ∃ t, o = .next t ∧ s.did t r es rxs last := by
  obtain ⟨b, u, hnear, -, hdrawn, rfl⟩ := h
  exact hnear.returns hdrawn henv r

/-- What every return leaves, in every environment, with the events added. -/
structure State.Added (s t : State) (es : List Event) : Prop where
  trace : t.trace = s.trace ++ es
  keeps : s.keeps t
  wf : s.ctl.reg.wf → t.ctl.reg.wf
  tmo : t.scratch.tmo < 2 ^ t.cfg.wBound

/-- An operation that opens brackets has returned `r`, in some environment. -/
structure State.Ended (s t : State) (r : Result) (es : List Event) (last : Byte) : Prop extends s.Added t es where
  ret : t.ret = r
  lines : t.linesAfter last

/-- TMO is a number of W_BOUND bits after every return (R28; log 16). -/
theorem State.tmo_of_finish {u t : State} {r : Result} (h : u.finish r = .next t) :
    t.scratch.tmo < 2 ^ t.cfg.wBound := by
  rw [State.finish_next h]
  exact Nat.mod_lt _ (Nat.two_pow_pos _)

/-- A return: `b` is what the block alone has done since `s`. -/
theorem State.added_of_finish {s b u t : State} {es : List Event} {r : Result} (hstep : b.envStep u)
    (h : u.finish r = .next t) (htrace : b.trace = s.trace ++ es) (hkeeps : s.keeps (b.enter .idle))
    (hctl : b.ctl = s.ctl) : s.Added t es := by
  obtain ⟨-, ht, -, -, -, hdsck, hdcs, hdmosi, hdmiso, hinited, hseq, hport, hcfg, henv, hwf⟩ := hstep.finish h
  obtain ⟨kdsck, kdcs, kdmosi, kdmiso, kinited, -, kport, kcfg, kenv⟩ := hkeeps
  exact ⟨ht.trans htrace, ⟨hdsck.trans kdsck, hdcs.trans kdcs, hdmosi.trans kdmosi, hdmiso.trans kdmiso,
    hinited.trans kinited, hseq, hport.trans kport, hcfg.trans kcfg, henv.trans kenv⟩,
    fun hs => hwf (hctl ▸ hs), State.tmo_of_finish h⟩

theorem State.Near.keeps {s b : State} {es : List Event} {last : Byte} (h : s.Near b es last) :
    s.keeps (b.enter .idle) :=
  ⟨h.dirSck, h.dirCs, h.dirMosi, h.dirMiso, h.inited, rfl, h.port, h.cfg, h.env⟩

/-- Every environment: what the operation has done where it returns. -/
theorem RunsTo.ended {s t : State} {o : Out} {r : Result} {es : List Event} {rxs : List Byte} {last : Byte}
    (h : RunsTo (fun _ => True) (fun s t _ => s.envStep t) s o r es rxs last) (ho : o = .next t) :
    s.Ended t r es last := by
  obtain ⟨b, u, hnear, -, hstep, rfl⟩ := h
  obtain ⟨hret, -, hcs, hsck, hmosi, -⟩ := hstep.finish ho
  obtain ⟨lcs, lsck, lmosi⟩ := hnear.lines
  exact ⟨State.added_of_finish hstep ho hnear.trace hnear.keeps hnear.ctl, hret,
    hcs.trans lcs, hsck.trans lsck, hmosi.trans lmosi⟩

/-- SEQ and the scratch registers of the starting state do not matter. -/
theorem State.Near.of_started {s b : State} {l : Seq} {sc : Scratch} {es : List Event} {last : Byte}
    (h : State.Near { s with seq := l, scratch := sc } b es last) : s.Near b es last :=
  ⟨h.trace, h.lines, h.dirSck, h.dirCs, h.dirMosi, h.dirMiso, h.inited, h.port, h.cfg, h.env, h.samples, h.moves,
    h.ctl⟩

/-! ## Start -/

/-- A command or driver operation starts: one is allowed to, and no bracket is open (R198, R199). -/
abbrev State.mayStart (s : State) : Prop := s.ready ∧ s.pinCs = true

theorem State.start_of {s : State} (h : s.mayStart) (k : Out) : s.whenReady (s.whenReleased k) = k := by
  rw [State.whenReady_of h.1, State.whenReleased_of h.2]

theorem State.mayStart_of_next {s t : State} {k : Out} (h : s.whenReady (s.whenReleased k) = .next t) :
    s.mayStart :=
  ⟨(State.whenReady_next h).1, (State.whenReleased_next (State.whenReady_next h).2).1⟩

section Commands

variable {P : State → Prop} {R : State → State → List Level → Prop}

/-! ## The seven commands (41_controller_commands.md R118) -/

/-- The block alone after one bracket. -/
theorem State.near_bracketed (s : State) (l : Seq) {a : Byte} {txs rxs : List Byte}
    (hlen : rxs.length = (a :: txs).length) :
    s.Near ((s.enter l).bracketed ((a :: txs).zip rxs)) (bracketEvents ((a :: txs).zip rxs)) (txs.getLastD a) := by
  obtain ⟨r, rs, rfl⟩ := List.exists_cons_of_length_eq_add_one hlen
  have hlast : (((a, r) :: txs.zip rs).getLast (by simp)).1 = txs.getLastD a := getLast_zip_sent hlen (by simp)
  rw [List.zip_cons_cons]
  constructor
  case lines => exact ⟨by simp, by simp, by rw [State.bracketed_pinMosi, hlast]⟩
  all_goals simp

/-- The block alone after a wait. -/
theorem State.Near.delayed {s b : State} {es : List Event} {last : Byte} (h : s.Near b es last) (n : Nat) :
    s.Near (b.emit (.delayMs n)) (es ++ [.delayMs n]) last := by
  constructor
  case trace => simp [h.trace]
  case lines => exact h.lines
  all_goals simp [h.dirSck, h.dirCs, h.dirMosi, h.dirMiso, h.inited, h.port, h.cfg, h.env, h.samples, h.moves, h.ctl]

/-- A bracket that only sends. -/
theorem EnvLaw.bracket_runs (L : EnvLaw P R) {s : State} (h : P s) (l : Seq) (a : Byte) (txs : List Byte) :
    ∃ rxs, rxs.length = (a :: txs).length ∧
      RunsTo P R s (((s.enter l).bracket (a :: txs)).finish .nothing) .nothing (bracketEvents ((a :: txs).zip rxs)) rxs
        (txs.getLastD a) := by
  obtain ⟨rxs, hlen, hr⟩ := L.bracket (L.keepMap (blockUpdate_enter l) h) (a :: txs)
  exact ⟨rxs, hlen, _, _, s.near_bracketed l hlen, L.keep hr (L.keepMap (blockUpdate_bracketed _)
    (L.keepMap (blockUpdate_enter l) h)), hr, rfl⟩

/-- A command runs: the bytes of R118 in one bracket, the reset command's wait after it. -/
def CommandRuns (P : State → Prop) (R : State → State → List Level → Prop) (i : Instr) (s : State) : Prop :=
  ∃ txs rxs : List Byte, commandBytes s.cfg i rxs = some txs ∧ rxs.length = txs.length ∧
    RunsTo P R s (exec i s) (commandResult s.cfg i rxs)
      (bracketEvents (txs.zip rxs) ++ if i = .cmdReset then [.delayMs 10] else []) rxs (txs.getLastD 0)

/-- A command that only sends one bracket. -/
theorem EnvLaw.sends_commandRuns (L : EnvLaw P R) {s : State} (h : P s) {i : Instr} {l : Seq} {a : Byte}
    {txs : List Byte} (hbytes : ∀ rxs, commandBytes s.cfg i rxs = some (a :: txs))
    (hresult : ∀ rxs, commandResult s.cfg i rxs = .nothing) (hreset : i ≠ .cmdReset)
    (hexec : exec i s = ((s.enter l).bracket (a :: txs)).finish .nothing) : CommandRuns P R i s := by
  obtain ⟨rxs, hlen, hruns⟩ := L.bracket_runs h l a txs
  refine ⟨a :: txs, rxs, hbytes rxs, hlen, ?_⟩
  rw [hresult, if_neg hreset, List.append_nil, hexec, List.getLastD_cons]
  exact hruns

theorem EnvLaw.cmdReset_runs (L : EnvLaw P R) {s : State} (h : P s) (hs : s.mayStart) :
    CommandRuns P R .cmdReset s := by
  have p0 := L.keepMap (blockUpdate_enter .cmdReset) h
  obtain ⟨rxs, hlen, hr⟩ := L.bracket p0 [s.cfg.opReset]
  obtain ⟨p2, h2⟩ := L.delayNext (L.keep hr (L.keepMap (blockUpdate_bracketed _) p0)) hr Config.resetSettleMs
  exact ⟨[s.cfg.opReset], rxs, rfl, hlen, _, _, (s.near_bracketed .cmdReset hlen).delayed 10, p2, h2,
    State.start_of hs _⟩

/-- The block alone after a register read. -/
theorem State.near_read (s : State) (l : Seq) (a b c r0 r1 v : Byte) :
    s.Near (((s.enter l).bracketed [(a, r0), (b, r1), (c, v)]).setRegval v)
      (bracketEvents [(a, r0), (b, r1), (c, v)]) c := by
  constructor <;> simp [State.linesAfter]

theorem EnvLaw.cmdReadRegister_runs (L : EnvLaw P R) (F : EnvLaw.Fixes R) {s : State} (h : P s) (hs : s.mayStart)
    (addr : Byte) : CommandRuns P R (.cmdReadRegister addr) s := by
  have p0 := L.keepMap (blockUpdate_enter .cmdReadRegister) h
  obtain ⟨r0, r1, p1, h1⟩ := L.readNext F p0 (L.nil _) addr
  have hexec : exec (.cmdReadRegister addr) s =
      ((s.enter .cmdReadRegister).readRegister addr).2.finish
        (.byte ((s.enter .cmdReadRegister).readRegister addr).1) := State.start_of hs _
  generalize (s.enter .cmdReadRegister).readRegister addr = v at p1 h1 hexec
  exact ⟨[s.cfg.opRead, addr, s.cfg.dummyByte], [r0, r1, v.1], rfl, rfl, _, v.2,
    s.near_read .cmdReadRegister s.cfg.opRead addr s.cfg.dummyByte r0 r1 v.1, p1, h1, hexec⟩

/-- The block alone after a burst. -/
theorem State.near_burst (s : State) (l : Seq) (r0 r : Byte) (rs : List Byte) :
    s.Near ((s.enter l).bracketed ((s.cfg.opReadRx0, r0) :: (r :: rs).map fun r => (s.cfg.dummyByte, r)))
      (burstEvents s.cfg r0 (r :: rs)) s.cfg.dummyByte := by
  constructor
  case lines => exact ⟨by simp, by simp, by rw [State.bracketed_pinMosi, getLast_burst_sent]⟩
  all_goals simp [burstEvents]

/-- The received burst as the opcode and dummy bytes, each with the byte received. -/
theorem zip_replicate_eq_map (a d r0 : Byte) (rs : List Byte) :
    (a :: List.replicate rs.length d).zip (r0 :: rs) = (a, r0) :: rs.map fun r => (d, r) := by
  rw [List.zip_cons_cons]
  congr 1
  induction rs with
  | nil => rfl
  | cons r rs ih => simp [List.replicate_succ, ih]

/-- The receive burst: the frame, or the refusal StrictDlc (R116, R128). -/
theorem EnvLaw.cmdReadRxBuffer_runs (L : EnvLaw P R) (F : EnvLaw.Fixes R) {s : State} (h : P s) (hs : s.mayStart) :
    ∃ r0 idh idl x y dlcb payload,
      (rxCount s.cfg.rxDlcGuard dlcb = none ∧ exec .cmdReadRxBuffer s = .refused .strictDlc) ∨
      ∃ n, rxCount s.cfg.rxDlcGuard dlcb = some n ∧ payload.length = n.toNat ∧
        RunsTo P R s (exec .cmdReadRxBuffer s) (.frame ⟨rxId idh idl, n, payload⟩)
          (burstEvents s.cfg r0 ([idh, idl, x, y, dlcb] ++ payload)) (r0 :: [idh, idl, x, y, dlcb] ++ payload)
          s.cfg.dummyByte := by
  have p0 := L.keepMap (blockUpdate_enter .cmdReadRxBuffer) h
  obtain ⟨r0, idh, idl, x, y, dlcb, payload, hread⟩ := L.readRxBuffer F p0
  have hexec : exec .cmdReadRxBuffer s =
      match (s.enter .cmdReadRxBuffer).readRxBuffer with
      | .error why => .refused why
      | .ok r => r.2.finish (.frame r.1) := State.start_of hs _
  refine ⟨r0, idh, idl, x, y, dlcb, payload, ?_⟩
  rw [State.enter_cfg] at hread
  rw [hexec]
  cases hcount : rxCount s.cfg.rxDlcGuard dlcb with
  | none =>
    rw [hcount] at hread
    exact .inl ⟨rfl, by rw [hread]⟩
  | some n =>
    rw [hcount] at hread
    obtain ⟨hlen, u, hok, hr⟩ := hread
    rw [hok]
    exact .inr ⟨n, rfl, hlen, _, u, s.near_burst .cmdReadRxBuffer r0 idh ([idl, x, y, dlcb] ++ payload),
      L.keep hr (L.keepMap (blockUpdate_bracketed _) p0), hr, rfl⟩

/-- The received frame as R118 has it. -/
theorem cmdReadRxBuffer_commandRuns {s : State} {r0 idh idl x y dlcb : Byte} {payload : List Byte} {n : BitVec 4}
    (hcount : rxCount s.cfg.rxDlcGuard dlcb = some n) (hlen : payload.length = n.toNat)
    (hruns : RunsTo P R s (exec .cmdReadRxBuffer s) (.frame ⟨rxId idh idl, n, payload⟩)
      (burstEvents s.cfg r0 ([idh, idl, x, y, dlcb] ++ payload)) (r0 :: [idh, idl, x, y, dlcb] ++ payload)
      s.cfg.dummyByte) : CommandRuns P R .cmdReadRxBuffer s := by
  have hbytes : commandBytes s.cfg .cmdReadRxBuffer (r0 :: [idh, idl, x, y, dlcb] ++ payload) =
      some (s.cfg.opReadRx0 :: List.replicate ([idh, idl, x, y, dlcb] ++ payload).length s.cfg.dummyByte) := by
    simp [commandBytes, hcount, hlen]
    omega
  refine ⟨_, _, hbytes, by simp, ?_⟩
  have hzip := zip_replicate_eq_map s.cfg.opReadRx0 s.cfg.dummyByte r0 ([idh, idl, x, y, dlcb] ++ payload)
  have hlast : (s.cfg.opReadRx0 ::
      List.replicate ([idh, idl, x, y, dlcb] ++ payload).length s.cfg.dummyByte).getLastD 0 = s.cfg.dummyByte := by
    simp [List.getLastD_eq_getLast?, List.getLast?_cons, List.getLast?_replicate]
  rw [List.cons_append, hzip, hlast, if_neg (by simp), List.append_nil]
  have hresult : commandResult s.cfg .cmdReadRxBuffer (r0 :: ([idh, idl, x, y, dlcb] ++ payload)) =
      .frame ⟨rxId idh idl, n, payload⟩ := by
    simp [commandResult, hcount]
  rw [hresult]
  exact hruns

theorem EnvLaw.cmdWriteRegister_runs (L : EnvLaw P R) {s : State} (h : P s) (hs : s.mayStart) (addr val : Byte) :
    CommandRuns P R (.cmdWriteRegister addr val) s :=
  L.sends_commandRuns h (fun _ => rfl) (fun _ => rfl) (by simp) (State.start_of hs _)

theorem EnvLaw.cmdBitModify_runs (L : EnvLaw P R) {s : State} (h : P s) (hs : s.mayStart) (addr mask val : Byte) :
    CommandRuns P R (.cmdBitModify addr mask val) s :=
  L.sends_commandRuns h (fun _ => rfl) (fun _ => rfl) (by simp) (State.start_of hs _)

theorem EnvLaw.cmdRequestToSend_runs (L : EnvLaw P R) {s : State} (h : P s) (hs : s.mayStart) :
    CommandRuns P R .cmdRequestToSend s :=
  L.sends_commandRuns h (fun _ => rfl) (fun _ => rfl) (by simp) (State.start_of hs _)

/-- `CmdLoadTxBuffer` with a frame of the domain sends one bracket (R114). -/
theorem exec_cmdLoadTxBuffer {s : State} (hs : s.mayStart) {id : BitVec 16} {dlc : Byte} {data : List Byte}
    {f : CanFrame} (hframe : toFrame ⟨id, dlc, data⟩ = some f) :
    exec (.cmdLoadTxBuffer id dlc data) s = ((s.enter .cmdLoadTxBuffer).loadTxBuffer f).finish .nothing := by
  have hstart : exec (.cmdLoadTxBuffer id dlc data) s = execCmdLoadTxBuffer id dlc data s := rfl
  rw [hstart, execCmdLoadTxBuffer, State.whenReady_of hs.1, hframe]
  exact State.whenReleased_of hs.2 _

theorem EnvLaw.cmdLoadTxBuffer_runs (L : EnvLaw P R) {s : State} (h : P s) (hs : s.mayStart) {id : BitVec 16}
    {dlc : Byte} {data : List Byte} (hid : id.toNat ≤ 0x7FF) (hdlc : dlc.toNat ≤ 8) (hdata : data.length = dlc.toNat) :
    CommandRuns P R (.cmdLoadTxBuffer id dlc data) s :=
  L.sends_commandRuns h (fun _ => rfl) (fun _ => rfl) (by simp)
    (exec_cmdLoadTxBuffer hs (toFrame_of (f := ⟨id, dlc, data⟩) hid hdlc hdata))

end Commands

/-! ## The commands of the block alone -/

/-- A command of the block alone returns, and has done what R118 says and nothing else. -/
theorem CommandRuns.did {i : Instr} {s : State} (h : CommandRuns (fun s => s.env = .oracle) State.drawn i s)
    (henv : s.env = .oracle) :
    ∃ (txs rxs : List Byte) (t : State), commandBytes s.cfg i rxs = some txs ∧ rxs.length = txs.length ∧
      exec i s = .next t ∧ s.did t (commandResult s.cfg i rxs)
        (bracketEvents (txs.zip rxs) ++ if i = .cmdReset then [.delayMs 10] else []) rxs (txs.getLastD 0) := by
  obtain ⟨txs, rxs, hbytes, hlen, hruns⟩ := h
  obtain ⟨t, hret, hdid⟩ := hruns.did henv
  exact ⟨txs, rxs, t, hbytes, hlen, hret, hdid⟩

/-- Settles O13: `EnvLaw.cmdReset_runs` for the oracle. -/
theorem cmdResetSendsOpcodeAndWaits : Obligations.CmdResetSendsOpcodeAndWaits := by
  unfold Obligations.CmdResetSendsOpcodeAndWaits
  rintro s ⟨henv, hready, hcs⟩
  obtain ⟨txs, rxs, t, ⟨⟩, hlen, hret, hdid⟩ := (envLaw_oracle.cmdReset_runs henv ⟨hready, hcs⟩).did henv
  obtain ⟨rx, rfl⟩ := List.length_eq_one_iff.1 hlen
  exact ⟨rx, t, hret, hdid⟩

/-- Settles O14: `EnvLaw.cmdReadRegister_runs` for the oracle. -/
theorem cmdReadRegisterReturnsThirdByte : Obligations.CmdReadRegisterReturnsThirdByte := by
  unfold Obligations.CmdReadRegisterReturnsThirdByte
  rintro s addr ⟨henv, hready, hcs⟩
  obtain ⟨txs, rxs, t, ⟨⟩, hlen, hret, hdid⟩ :=
    (envLaw_oracle.cmdReadRegister_runs EnvLaw.fixes_oracle henv ⟨hready, hcs⟩ addr).did henv
  obtain ⟨r0, r1, v, rfl⟩ := length_three hlen
  exact ⟨r0, r1, v, t, hret, by simpa [commandResult] using hdid⟩

/-- Settles O15: `EnvLaw.cmdWriteRegister_runs` for the oracle. -/
theorem cmdWriteRegisterSendsThreeBytes : Obligations.CmdWriteRegisterSendsThreeBytes := by
  unfold Obligations.CmdWriteRegisterSendsThreeBytes
  rintro s addr val ⟨henv, hready, hcs⟩
  obtain ⟨txs, rxs, t, ⟨⟩, hlen, hret, hdid⟩ :=
    (envLaw_oracle.cmdWriteRegister_runs henv ⟨hready, hcs⟩ addr val).did henv
  obtain ⟨r0, r1, r2, rfl⟩ := length_three hlen
  exact ⟨r0, r1, r2, t, hret, by simpa [commandResult] using hdid⟩

/-- Settles O16: `EnvLaw.cmdBitModify_runs` for the oracle. -/
theorem cmdBitModifySendsFourBytes : Obligations.CmdBitModifySendsFourBytes := by
  unfold Obligations.CmdBitModifySendsFourBytes
  rintro s addr mask val ⟨henv, hready, hcs⟩
  obtain ⟨txs, rxs, t, ⟨⟩, hlen, hret, hdid⟩ :=
    (envLaw_oracle.cmdBitModify_runs henv ⟨hready, hcs⟩ addr mask val).did henv
  obtain ⟨r0, r1, r2, r3, rfl⟩ := length_four hlen
  exact ⟨r0, r1, r2, r3, t, hret, by simpa [commandResult] using hdid⟩

/-- Settles O18: `EnvLaw.cmdRequestToSend_runs` for the oracle. -/
theorem cmdRequestToSendSendsOpcode : Obligations.CmdRequestToSendSendsOpcode := by
  unfold Obligations.CmdRequestToSendSendsOpcode
  rintro s ⟨henv, hready, hcs⟩
  obtain ⟨txs, rxs, t, ⟨⟩, hlen, hret, hdid⟩ := (envLaw_oracle.cmdRequestToSend_runs henv ⟨hready, hcs⟩).did henv
  obtain ⟨rx, rfl⟩ := List.length_eq_one_iff.1 hlen
  exact ⟨rx, t, hret, by simpa [commandResult] using hdid⟩

/-- The last byte of an image is the last payload byte, or the data-length code. -/
theorem getLastD_append_of_ne_nil {α : Type} (l data : List α) (a d : α) :
    (l ++ a :: data).getLastD d = data.getLastD a := by
  simp [List.getLastD_eq_getLast?, List.getLast?_append, List.getLast?_cons]

/-- Settles O17: `EnvLaw.cmdLoadTxBuffer_runs` for the oracle, the image written out by `encodeTx_eq`. -/
theorem cmdLoadTxBufferSendsImage : Obligations.CmdLoadTxBufferSendsImage := by
  unfold Obligations.CmdLoadTxBufferSendsImage
  rintro s id dlc data ⟨henv, hready, hcs⟩ hid hdlc hdata
  obtain ⟨txs, rxs, t, ⟨⟩, hlen, hret, hdid⟩ :=
    (envLaw_oracle.cmdLoadTxBuffer_runs henv ⟨hready, hcs⟩ hid hdlc hdata).did henv
  rw [encodeTx_eq s.cfg.txReservedByte id data hdlc] at hlen hdid
  rw [if_neg (by simp), List.append_nil] at hdid
  refine ⟨rxs, t, hret, by simp [hlen, hdata]; omega, ?_⟩
  have hlast := getLastD_append_of_ne_nil
    [s.cfg.opLoadTx0, (id >>> 3).setWidth 8, ((id &&& 7) <<< 5).setWidth 8, s.cfg.txReservedByte,
      s.cfg.txReservedByte] data dlc 0
  rw [← hlast]
  exact hdid

/-- A count of four bits that is the length of a list, as the list's length. -/
theorem eq_ofNat_length {n : BitVec 4} {l : List Byte} (h : l.length = n.toNat) : n = BitVec.ofNat 4 l.length := by
  rw [h, BitVec.ofNat_toNat, BitVec.setWidth_eq]

/-- Settles O19: `EnvLaw.cmdReadRxBuffer_runs` for the oracle, the count written out by `rxCount_clamp`. -/
theorem cmdReadRxBufferReadsFrame : Obligations.CmdReadRxBufferReadsFrame := by
  unfold Obligations.CmdReadRxBufferReadsFrame
  rintro s ⟨henv, hready, hcs⟩ hclamp
  obtain ⟨r0, idh, idl, x, y, dlcb, payload, ⟨hnone, -⟩ | ⟨n, hcount, hlen, hruns⟩⟩ :=
    envLaw_oracle.cmdReadRxBuffer_runs EnvLaw.fixes_oracle henv ⟨hready, hcs⟩
  · rw [hclamp, rxCount_clamp] at hnone
    cases hnone
  rw [hclamp, rxCount_clamp] at hcount
  cases hcount
  obtain ⟨t, hret, hdid⟩ := hruns.did henv
  refine ⟨r0, idh, idl, x, y, dlcb, payload, t, hret, hlen.trans (ofNat_min_toNat _), ?_⟩
  rw [← rxId_eq, ← eq_ofNat_length hlen]
  exact hdid

/-! ## The commands in every environment -/

/-- A command that returns has done what R118 says, in every environment. -/
theorem commandRuns_of_next {i : Instr} {s t : State} (h : exec i s = .next t)
    (hi : commandBytes s.cfg i [] ≠ none ∨ i = .cmdReadRxBuffer) :
    CommandRuns (fun _ => True) (fun s t _ => s.envStep t) i s := by
  cases i with
  | cmdReset => exact envLaw_any.cmdReset_runs trivial (State.mayStart_of_next h)
  | cmdReadRegister addr =>
    exact envLaw_any.cmdReadRegister_runs EnvLaw.fixes_any trivial (State.mayStart_of_next h) addr
  | cmdWriteRegister addr val => exact envLaw_any.cmdWriteRegister_runs trivial (State.mayStart_of_next h) addr val
  | cmdBitModify addr mask val => exact envLaw_any.cmdBitModify_runs trivial (State.mayStart_of_next h) addr mask val
  | cmdLoadTxBuffer id dlc data =>
    obtain ⟨hready, hbody⟩ := State.whenReady_next h
    split at hbody
    · cases hbody
    · rename_i f hframe
      have hdomain : (toFrame ⟨id, dlc, data⟩).isSome := by rw [hframe]; rfl
      obtain ⟨hid, hdlc, hdata⟩ := (check_none_iff _).1 ((toFrame_isSome_iff _).1 hdomain)
      exact envLaw_any.cmdLoadTxBuffer_runs trivial ⟨hready, (State.whenReleased_next hbody).1⟩ hid hdlc hdata
  | cmdRequestToSend => exact envLaw_any.cmdRequestToSend_runs trivial (State.mayStart_of_next h)
  | cmdReadRxBuffer =>
    obtain ⟨r0, idh, idl, x, y, dlcb, payload, ⟨-, hrefused⟩ | ⟨n, hcount, hlen, hruns⟩⟩ :=
      envLaw_any.cmdReadRxBuffer_runs EnvLaw.fixes_any trivial (State.mayStart_of_next h)
    · rw [h] at hrefused
      cases hrefused
    · exact cmdReadRxBuffer_commandRuns hcount hlen hruns
  | _ => simp [commandBytes] at hi

/-- Settles O21: the account of a command that returns (`commandRuns_of_next`), read in every environment. -/
theorem commandSummary : Obligations.CommandSummary := by
  unfold Obligations.CommandSummary
  intro i s t h hi
  obtain ⟨txs, rxs, hbytes, hlen, hruns⟩ := commandRuns_of_next h hi
  have hended := hruns.ended h
  exact ⟨txs, rxs, hbytes, hlen, by rw [hended.trace, List.append_assoc], hended.ret⟩

end Sys2Proof.Machine
end

section
/-! PROOF. What the driver operations do (spec/43_driver_operations.md), once for every environment law, and the
statements about the block alone. -/

namespace Sys2Proof.Machine

section Runs

variable {P : State → Prop} {R : State → State → List Level → Prop}

/-- The label an operation ends in does not matter. -/
theorem State.Near.enter {s b : State} {es : List Event} {last : Byte} (h : s.Near b es last) (l : Seq) :
    s.Near (b.enter l) es last :=
  ⟨h.trace, h.lines, h.dirSck, h.dirCs, h.dirMosi, h.dirMiso, h.inited, h.port, h.cfg, h.env, h.samples, h.moves,
    h.ctl⟩

/-! ## Init -/

/-- The events of `Init` up to its first verification (R136). -/
def initStartEvents (cfg : Cfg) (r0 q0 q1 v : Byte) : List Event :=
  bracketEvents [(cfg.opReset, r0)] ++ [.delayMs 10] ++ readEvents cfg cfg.addrCanstat (q0, q1, v)

theorem State.near_verifiedConfig (s : State) (m : ControllerMode) (r0 q0 q1 v : Byte) :
    s.Near (s.verifiedConfig m r0 q0 q1 v) (initStartEvents s.cfg r0 q0 q1 v) s.cfg.dummyByte := by
  constructor <;> simp [State.verifiedConfig, initStartEvents, readEvents, State.linesAfter, Config.resetSettleMs]

/-- The bytes received before the last one of `Init`'s second verification. -/
def InitBytes.front (x : InitBytes) : List Byte :=
  [x.a0, x.a1, x.a2, x.b0, x.b1, x.b2, x.c0, x.c1, x.c2, x.d0, x.d1, x.d2, x.e0, x.e1, x.e2, x.e3, x.p0, x.p1]

theorem State.Near.verifiedMode {s b : State} {es : List Event} {last : Byte} (h : s.Near b es last) (x : InitBytes) :
    s.Near (b.verifiedMode x) (es ++ bracketsEvents (initCommands s.cfg b.scratch.target) (x.front ++ [x.v]))
      s.cfg.dummyByte := by
  constructor
  case trace => simp [State.verifiedMode, h.trace, h.cfg, bracketsEvents, initCommands, InitBytes.front]
  case lines => simp [State.verifiedMode, State.linesAfter, h.cfg]
  all_goals simp [State.verifiedMode, h.dirSck, h.dirCs, h.dirMosi, h.dirMiso, h.inited, h.port, h.cfg, h.env,
    h.samples, h.moves, h.ctl]

/-- `Init` of a mode that it takes starts (R136). -/
theorem exec_init {s : State} (hs : s.mayStart) {m : ControllerMode} (hm : m ≠ .configuration) :
    exec (.init m) s = s.initRun m := by
  have htarget : toTarget m = some m := by
    cases m
    · exact absurd rfl hm
    · rfl
    · rfl
  have hstart : exec (.init m) s = execInit m s := rfl
  rw [hstart, execInit, State.whenReady_of hs.1, htarget]
  exact State.whenReleased_of hs.2 _

/-- `Init`: the Error of the first verification, or the six further commands and the status of the second (R136). -/
theorem EnvLaw.init_runs (L : EnvLaw P R) (F : EnvLaw.Fixes R) {s : State} (h : P s) (hs : s.mayStart)
    {m : ControllerMode} (hm : m ≠ .configuration) :
    ∃ r0 q0 q1 v : Byte,
      if modeField v ≠ s.cfg.modeCodeConfig then
        RunsTo P R s (exec (.init m) s) (.status .error) (initStartEvents s.cfg r0 q0 q1 v) [r0, q0, q1, v]
          s.cfg.dummyByte
      else
        ∃ (rxs : List Byte) (v' : Byte), rxs.length = 18 ∧
          RunsTo P R s (exec (.init m) s) (.status (if modeField v' = modeCode s.cfg m then .ok else .error))
            (initStartEvents s.cfg r0 q0 q1 v ++ bracketsEvents (initCommands s.cfg m) (rxs ++ [v']))
            ([r0, q0, q1, v] ++ (rxs ++ [v'])) s.cfg.dummyByte := by
  obtain ⟨r0, q0, q1, v, hinit⟩ := L.init F h m
  have hstart := s.near_verifiedConfig m r0 q0 q1 v
  have htarget : (s.verifiedConfig m r0 q0 q1 v).scratch.target = m := by simp [State.verifiedConfig]
  refine ⟨r0, q0, q1, v, ?_⟩
  rw [exec_init hs hm]
  by_cases hmode : modeField v = s.cfg.modeCodeConfig
  · rw [if_neg (not_not.2 hmode)]
    rw [if_pos hmode] at hinit
    obtain ⟨x, u, hp, hr, hrun⟩ := hinit
    have hnear := hstart.verifiedMode x
    rw [htarget] at hnear
    refine ⟨x.front, x.v, rfl, ?_⟩
    split_ifs with hok
    · rw [if_pos hok] at hrun
      exact ⟨_, _, hnear.enter .doneOk, L.keepMap (blockUpdate_enter _) hp, L.map (blockUpdate_enter _) hr, hrun⟩
    · rw [if_neg hok] at hrun
      exact ⟨_, _, hnear.enter .doneError, L.keepMap (blockUpdate_enter _) hp, L.map (blockUpdate_enter _) hr, hrun⟩
  · rw [if_pos hmode]
    rw [if_neg hmode] at hinit
    obtain ⟨u, hp, hr, hrun⟩ := hinit
    exact ⟨_, _, hstart.enter .doneError, L.keepMap (blockUpdate_enter _) hp, L.map (blockUpdate_enter _) hr, hrun⟩

/-! ## Transmit -/

/-- `Transmit` of a frame of the domain starts (R140). -/
theorem exec_transmit {s : State} (hs : s.mayStart) {frame : FrameOperand} {f : CanFrame}
    (hframe : toFrame frame = some f) : exec (.transmit frame) s = s.transmitRun f := by
  have hstart : exec (.transmit frame) s = execTransmit frame s := rfl
  rw [hstart, execTransmit, State.whenReady_of hs.1, hframe]
  exact State.whenReleased_of hs.2 _

theorem pendingBit_iff (cfg : Cfg) (c : Byte) : pendingBit cfg c = true ↔ c &&& cfg.maskTxreq ≠ 0 := by
  simp [pendingBit]

theorem State.near_checked (s : State) (f : CanFrame) (addr : Byte) (r : Byte × Byte × Byte) :
    s.Near (((s.setFb f).enter .checkPending).didRead addr r) (readEvents s.cfg addr r) s.cfg.dummyByte := by
  constructor <;> simp [State.didRead, readEvents, State.linesAfter]

theorem State.Near.didSend {s b : State} {es : List Event} {last : Byte} (h : s.Near b es last) (f : CanFrame)
    (l0 : Byte) (ls : List Byte) (q : Byte) :
    s.Near (b.didSend f l0 ls q)
      (es ++ bracketEvents ((s.cfg.opLoadTx0 :: encodeTx s.cfg.txReservedByte f).zip (l0 :: ls)) ++
        bracketEvents [(s.cfg.opRtsTx0, q)]) s.cfg.opRtsTx0 := by
  constructor
  case trace => simp [State.didSend, h.trace, h.cfg]
  case lines => simp [State.didSend, State.linesAfter, h.cfg]
  all_goals simp [State.didSend, h.dirSck, h.dirCs, h.dirMosi, h.dirMiso, h.inited, h.port, h.cfg, h.env, h.samples,
    h.moves, h.ctl]

/-- `Transmit`: Busy on a set pending bit, else the image loaded and sending requested (R140). -/
theorem EnvLaw.transmit_runs (L : EnvLaw P R) (F : EnvLaw.Fixes R) {s : State} (h : P s) (hs : s.mayStart)
    {frame : FrameOperand} {f : CanFrame} (hframe : toFrame frame = some f) :
    ∃ q0 q1 c : Byte,
      if c &&& s.cfg.maskTxreq ≠ 0 then
        RunsTo P R s (exec (.transmit frame) s) (.status .busy) (readEvents s.cfg s.cfg.addrTxb0ctrl (q0, q1, c))
          [q0, q1, c] s.cfg.dummyByte
      else
        ∃ (ls : List Byte) (r : Byte), ls.length = 6 + f.data.length ∧
          RunsTo P R s (exec (.transmit frame) s) (.status .ok)
            (readEvents s.cfg s.cfg.addrTxb0ctrl (q0, q1, c) ++
              bracketEvents ((s.cfg.opLoadTx0 :: encodeTx s.cfg.txReservedByte f).zip ls) ++
              bracketEvents [(s.cfg.opRtsTx0, r)])
            ([q0, q1, c] ++ ls ++ [r]) s.cfg.opRtsTx0 := by
  obtain ⟨⟨q0, q1, c⟩, htransmit⟩ := L.transmit F h f
  have hchecked := s.near_checked f s.cfg.addrTxb0ctrl (q0, q1, c)
  refine ⟨q0, q1, c, ?_⟩
  rw [exec_transmit hs hframe]
  simp only [pendingBit_iff] at htransmit
  split_ifs with hpending
  · rw [if_pos hpending] at htransmit
    obtain ⟨u, hp, hrun, hr⟩ := htransmit
    exact ⟨_, u, hchecked, hp, hr, hrun⟩
  · rw [if_neg hpending] at htransmit
    obtain ⟨l0, ls, q, u, hlen, hp, hrun, hr⟩ := htransmit
    refine ⟨l0 :: ls, q, by rw [List.length_cons, hlen]; omega, _, u, hchecked.didSend f l0 ls q, hp, ?_, hrun⟩
    simpa [readBytes] using hr

/-! ## Receive -/

theorem receiveFlag_iff (cfg : Cfg) (f : Byte) : receiveFlag cfg f = true ↔ f &&& cfg.maskRx0if ≠ 0 := by
  simp [receiveFlag]

/-- The end of an operation whose poll has found a frame: the burst, the flag cleared, the frame delivered; or the
refusal StrictDlc (R142, R128). `pre` and `polled` are the events and the received bytes before it. -/
def DeliversFrame (P : State → Prop) (R : State → State → List Level → Prop) (s : State) (o : Out)
    (pre : List Event) (polled : List Byte) : Prop :=
  ∃ (r0 idh idl x y dlcb : Byte) (payload : List Byte),
    (rxCount s.cfg.rxDlcGuard dlcb = none ∧ o = .refused .strictDlc) ∨
    ∃ n, rxCount s.cfg.rxDlcGuard dlcb = some n ∧ payload.length = n.toNat ∧ ∃ es : List Byte, es.length = 4 ∧
      RunsTo P R s o (.okFrame ⟨rxId idh idl, n, payload⟩)
        (pre ++ burstEvents s.cfg r0 ([idh, idl, x, y, dlcb] ++ payload) ++
          bracketEvents ((clearFlagBytes s.cfg).zip es))
        (polled ++ (r0 :: [idh, idl, x, y, dlcb] ++ payload) ++ es) 0x00

/-- What the outcome of a poll becomes at the return. -/
def afterPoll (o : Except Refusal (Option CanFrame × State)) : Out :=
  match o with
  | .error why => .refused why
  | .ok (some f, t) => t.finish (.okFrame f)
  | .ok (none, t) => t.finish (.status .noMessage)

theorem State.found.delivers {s b : State} {es : List Event} {last : Byte} (hnear : s.Near b es last)
    {polled : List Byte} {o : Except Refusal (Option CanFrame × State)}
    (h : State.found P R b (polled.flatMap wireBits) o) : DeliversFrame P R s (afterPoll o) es polled := by
  obtain ⟨q0, idh, idl, x, y, dlcb, payload, hfound⟩ := h
  refine ⟨q0, idh, idl, x, y, dlcb, payload, ?_⟩
  rw [hnear.cfg] at hfound
  cases hcount : rxCount s.cfg.rxDlcGuard dlcb with
  | none =>
    rw [hcount] at hfound
    exact .inl ⟨rfl, by rw [hfound]; rfl⟩
  | some n =>
    rw [hcount] at hfound
    obtain ⟨hlen, e, u, hp, hok, hr⟩ := hfound
    rw [← List.flatMap_append, ← List.append_assoc] at hr
    rw [hok]
    exact .inr ⟨n, rfl, hlen, modifyBytes e, rfl, _, u,
      hnear.didClear q0 idh ([idl, x, y, dlcb] ++ payload) _ e, hp, hr, rfl⟩

/-- `Receive` is one poll (R142). -/
theorem exec_receive {s : State} (hs : s.mayStart) : exec .receive s = afterPoll s.receivePoll := by
  have hstart : exec .receive s = execReceive s := rfl
  rw [hstart, execReceive, State.start_of hs]
  rcases s.receivePoll with why | ⟨_ | f, t⟩ <;> rfl

/-- `Receive`: one poll, then NoMessage or the frame (R142). -/
theorem EnvLaw.receive_runs (L : EnvLaw P R) (F : EnvLaw.Fixes R) {s : State} (h : P s) (hs : s.mayStart) :
    ∃ q0 q1 f : Byte,
      if f &&& s.cfg.maskRx0if = 0 then
        RunsTo P R s (exec .receive s) (.status .noMessage) (readEvents s.cfg s.cfg.addrCanintf (q0, q1, f))
          [q0, q1, f] s.cfg.dummyByte
      else
        DeliversFrame P R s (exec .receive s) (readEvents s.cfg s.cfg.addrCanintf (q0, q1, f)) [q0, q1, f] := by
  obtain ⟨⟨q0, q1, f⟩, hpoll⟩ := L.receivePoll F h (L.nil s)
  have hpolled := s.near_didPoll (q0, q1, f)
  refine ⟨q0, q1, f, ?_⟩
  rw [exec_receive hs]
  rw [List.nil_append] at hpoll
  simp only [receiveFlag_iff] at hpoll
  split_ifs with hflag
  · rw [if_neg (not_not.2 hflag)] at hpoll
    obtain ⟨u, hp, hok, hr⟩ := hpoll
    rw [hok]
    exact ⟨_, u, hpolled, hp, hr, rfl⟩
  · rw [if_pos hflag] at hpoll
    exact State.found.delivers hpolled (polled := [q0, q1, f]) hpoll

/-! ## ReceiveWithTimeout -/

/-- `ReceiveWithTimeout` of a bound of W_BOUND bits is its loop (R144). -/
theorem exec_receiveWithTimeout {s : State} (hs : s.mayStart) {bound : Nat} (hbound : bound < 2 ^ s.cfg.wBound) :
    exec (.receiveWithTimeout bound) s = ((s.enter .loop).setTmo bound).receiveLoop bound := by
  have hstart : exec (.receiveWithTimeout bound) s = execReceiveWithTimeout bound s := rfl
  rw [hstart, execReceiveWithTimeout, State.whenReady_of hs.1, toBound, if_pos hbound]
  exact State.whenReleased_of hs.2 _

theorem State.Waited.of_started {s b : State} {l : Seq} {sc : Scratch} {ps : List (Byte × Byte × Byte)}
    (h : State.Waited { s with seq := l, scratch := sc } b ps) : s.Waited b ps :=
  ⟨h.trace, h.same, h.lines, h.dirSck, h.dirCs, h.dirMosi, h.dirMiso, h.inited, h.port, h.cfg, h.env, h.samples,
    h.moves, h.ctl⟩

/-- `ReceiveWithTimeout`: empty polls until the bound is exhausted or a poll finds a frame (R144). -/
theorem EnvLaw.receiveWithTimeout_runs (L : EnvLaw P R) (F : EnvLaw.Fixes R) {s : State} (h : P s) (hs : s.mayStart)
    {bound : Nat} (hbound : bound < 2 ^ s.cfg.wBound) :
    ∃ ps : List (Byte × Byte × Byte), (∀ p ∈ ps, p.2.2 &&& s.cfg.maskRx0if = 0) ∧
      ((ps.length = bound ∧ ∃ b u, s.Waited b ps ∧ P u ∧ R b u ((ps.flatMap triple).flatMap wireBits) ∧
          exec (.receiveWithTimeout bound) s = u.finish (.status .timeout)) ∨
        (ps.length < bound ∧ ∃ q0 q1 f : Byte, f &&& s.cfg.maskRx0if ≠ 0 ∧
          DeliversFrame P R s (exec (.receiveWithTimeout bound) s)
            (emptyPollEvents s.cfg ps ++ readEvents s.cfg s.cfg.addrCanintf (q0, q1, f))
            (ps.flatMap triple ++ [q0, q1, f]))) := by
  have p0 := L.keepMap (blockUpdate_setTmo bound) (L.keepMap (blockUpdate_enter .loop) h)
  obtain ⟨ps, hempty, hend⟩ := L.receiveLoop F bound p0 (L.nil _)
  have hwaited : s.Waited (((s.enter .loop).setTmo bound).didWaits ps) ps := (State.waited_didWaits _ ps).of_started
  refine ⟨ps, fun p hp => by simpa [receiveFlag] using hempty p hp, ?_⟩
  rw [exec_receiveWithTimeout hs hbound]
  rcases hend with ⟨hlen, u, hp, hrun, hr⟩ | ⟨hlen, ⟨q0, q1, f⟩, hflag, o, hfound, hrun⟩
  · exact .inl ⟨hlen, _, u, hwaited, hp, hr, hrun⟩
  · refine .inr ⟨hlen, q0, q1, f, (receiveFlag_iff _ f).1 hflag, ?_⟩
    have hrun' : ((s.enter .loop).setTmo bound).receiveLoop bound = afterPoll o := by
      rw [hrun]
      rcases o with why | ⟨_ | g, t⟩ <;> rfl
    rw [hrun']
    exact State.found.delivers (hwaited.near_didPoll (q0, q1, f)) (polled := ps.flatMap triple ++ [q0, q1, f]) hfound

end Runs

end Sys2Proof.Machine
end

section
/-! PROOF. The driver operations of the block alone (spec/43_driver_operations.md R136, R140, R142, R144): their accounts
in front of the oracle, and what they do with prepared answers. -/

namespace Sys2Proof.Machine

/-! ## What the driver operations of the block alone do -/

/-- Settles O26: `EnvLaw.init_runs` for the oracle. -/
theorem initVerifiesTwice : Obligations.InitVerifiesTwice := by
  unfold Obligations.InitVerifiesTwice
  rintro s m hm ⟨henv, hready, hcs⟩
  obtain ⟨r0, q0, q1, v, hruns⟩ := envLaw_oracle.init_runs EnvLaw.fixes_oracle henv ⟨hready, hcs⟩ hm
  split_ifs at hruns with hmode
  · obtain ⟨t, hret, hdid⟩ := hruns.did henv
    exact ⟨t, r0, q0, q1, v, hret, by rw [if_pos hmode]; exact hdid⟩
  · obtain ⟨rxs, v', hlen, hruns⟩ := hruns
    obtain ⟨t, hret, hdid⟩ := hruns.did henv
    exact ⟨t, r0, q0, q1, v, hret, by rw [if_neg hmode]; exact ⟨rxs, v', hlen, hdid⟩⟩

/-- Settles O28: `EnvLaw.transmit_runs` for the oracle, the image written out by `encodeTx_eq`. -/
theorem transmitLoadsOrReportsBusy : Obligations.TransmitLoadsOrReportsBusy := by
  unfold Obligations.TransmitLoadsOrReportsBusy
  rintro s f ⟨henv, hready, hcs⟩ hid hdlc hdata
  obtain ⟨q0, q1, c, hruns⟩ := envLaw_oracle.transmit_runs EnvLaw.fixes_oracle henv ⟨hready, hcs⟩
    (toFrame_of hid hdlc hdata)
  rw [encodeTx_eq s.cfg.txReservedByte f.id f.data hdlc] at hruns
  split_ifs at hruns with hpending
  · obtain ⟨t, hret, hdid⟩ := hruns.did henv
    exact ⟨t, q0, q1, c, hret, by rw [if_pos hpending]; exact hdid⟩
  · obtain ⟨ls, r, hlen, hruns⟩ := hruns
    obtain ⟨t, hret, hdid⟩ := hruns.did henv
    exact ⟨t, q0, q1, c, hret, by rw [if_neg hpending]; exact ⟨ls, r, hlen.trans (by rw [hdata]), hdid⟩⟩

/-- With RX_DLC_GUARD = clamp the block alone delivers the frame, with the low nibble of the DLC byte limited to 8 as its
length (R128). -/
theorem DeliversFrame.did {s : State} {o : Out} {pre : List Event} {polled : List Byte}
    (h : DeliversFrame (fun s => s.env = .oracle) State.drawn s o pre polled) (henv : s.env = .oracle)
    (hclamp : s.cfg.rxDlcGuard = .clamp) :
    ∃ (t : State) (r0 idh idl x y dlcb : Byte) (payload es : List Byte), o = .next t ∧
      payload.length = min (dlcb.toNat % 16) 8 ∧ es.length = 4 ∧
      s.did t (.okFrame ⟨idh.setWidth 11 <<< 3 ||| (idl >>> 5).setWidth 11, BitVec.ofNat 4 payload.length, payload⟩)
        (pre ++ burstEvents s.cfg r0 ([idh, idl, x, y, dlcb] ++ payload) ++
          bracketEvents ((clearFlagBytes s.cfg).zip es))
        (polled ++ (r0 :: [idh, idl, x, y, dlcb] ++ payload) ++ es) 0x00 := by
  obtain ⟨r0, idh, idl, x, y, dlcb, payload, ⟨hnone, -⟩ | ⟨n, hcount, hlen, es, hes, hruns⟩⟩ := h
  · rw [hclamp, rxCount_clamp] at hnone
    cases hnone
  rw [hclamp, rxCount_clamp] at hcount
  cases hcount
  obtain ⟨t, hret, hdid⟩ := hruns.did henv
  rw [rxId_eq, eq_ofNat_length hlen] at hdid
  exact ⟨t, r0, idh, idl, x, y, dlcb, payload, es, hret, hlen.trans (ofNat_min_toNat _), hes, hdid⟩

/-- Settles O29: `EnvLaw.receive_runs` for the oracle. -/
theorem receivePollsOnce : Obligations.ReceivePollsOnce := by
  unfold Obligations.ReceivePollsOnce
  rintro s ⟨henv, hready, hcs⟩ hclamp
  obtain ⟨q0, q1, f, hruns⟩ := envLaw_oracle.receive_runs EnvLaw.fixes_oracle henv ⟨hready, hcs⟩
  split_ifs at hruns with hflag
  · obtain ⟨t, hret, hdid⟩ := hruns.did henv
    exact ⟨t, q0, q1, f, hret, by rw [if_pos hflag]; exact hdid⟩
  · obtain ⟨t, r0, idh, idl, x, y, dlcb, payload, es, hret, hlen, hes, hdid⟩ := hruns.did henv hclamp
    exact ⟨t, q0, q1, f, hret, by
      rw [if_neg hflag]; exact ⟨r0, idh, idl, x, y, dlcb, payload, es, hlen, hes, hdid⟩⟩

/-- Empty iterations of the block alone, and the return (R144). -/
theorem State.Waited.returns {s b u : State} {ps : List (Byte × Byte × Byte)} {rxs : List Byte} (h : s.Waited b ps)
    (hdrawn : b.drawn u (rxs.flatMap wireBits)) (henv : s.env = .oracle) (r : Result) :
    ∃ t, u.finish r = .next t ∧ t.ret = r ∧ t.trace = s.trace ++ emptyPollEvents s.cfg ps ∧ s.fed t rxs ∧
      s.keeps t ∧ s.keepsController t ∧ (ps = [] → s.sameLines t) ∧ (ps ≠ [] → t.linesAfter s.cfg.dummyByte) := by
  have hprefix := hdrawn.1
  obtain ⟨n, sc, hret⟩ := hdrawn.finish (h.env.trans henv) r
  rw [length_flatMap_wireBits] at hprefix hret
  exact ⟨_, hret, rfl, h.trace, ⟨h.samples ▸ hprefix, by rw [← h.samples]⟩,
    ⟨h.dirSck, h.dirCs, h.dirMosi, h.dirMiso, h.inited, rfl, h.port, h.cfg, h.env⟩,
    State.keepsController_of_ctl h.moves h.ctl, h.same, h.lines⟩

/-- Settles O30: `EnvLaw.receiveWithTimeout_runs` for the oracle. -/
theorem receiveWithTimeoutPollsUntilBound : Obligations.ReceiveWithTimeoutPollsUntilBound := by
  unfold Obligations.ReceiveWithTimeoutPollsUntilBound
  rintro s bound ⟨henv, hready, hcs⟩ hclamp hbound
  obtain ⟨ps, hempty, ⟨hlen, b, u, hwaited, -, hdrawn, hexec⟩ | ⟨hlen, q0, q1, f, hflag, hruns⟩⟩ :=
    envLaw_oracle.receiveWithTimeout_runs EnvLaw.fixes_oracle henv ⟨hready, hcs⟩ hbound
  · obtain ⟨t, hret, hr, htrace, hfed, hkeeps, hctl, hsame, hlines⟩ := hwaited.returns hdrawn henv (.status .timeout)
    refine ⟨t, ps, hexec.trans hret, hempty, hkeeps, hctl, .inl ⟨hlen, hr, htrace, hfed, fun h => hsame ?_,
      fun h => hlines ?_⟩⟩
    · exact List.length_eq_zero_iff.1 (hlen.trans h)
    · exact fun hps => h (hlen.symm.trans (List.length_eq_zero_iff.2 hps))
  · obtain ⟨t, r0, idh, idl, x, y, dlcb, payload, es, hret, hpayload, hes, hdid⟩ := hruns.did henv hclamp
    obtain ⟨-, -, -, -, hkeeps, hctl⟩ := id hdid
    rw [List.append_assoc (ps.flatMap triple), List.append_assoc (ps.flatMap triple)] at hdid
    exact ⟨t, ps, hret, hempty, hkeeps, hctl, .inr ⟨hlen, q0, q1, f, r0, idh, idl, x, y, dlcb, payload, es, hflag,
      hpayload, hes, hdid⟩⟩

/-! ## Prepared answers

The bytes prepared and the bytes received agree as far as both go. -/

/-- One of two lists continues the other. -/
def Compatible {α : Type} (x y : List α) : Prop := x <+: y ∨ y <+: x

theorem compatible_cons {α : Type} {a b : α} {x y : List α} :
    Compatible (a :: x) (b :: y) ↔ a = b ∧ Compatible x y := by
  simp only [Compatible, List.cons_prefix_cons]
  constructor
  · rintro (⟨rfl, h⟩ | ⟨rfl, h⟩)
    · exact ⟨rfl, .inl h⟩
    · exact ⟨rfl, .inr h⟩
  · rintro ⟨rfl, h | h⟩
    · exact .inl ⟨rfl, h⟩
    · exact .inr ⟨rfl, h⟩

theorem Compatible.eq_of_length {α : Type} {x y : List α} (h : Compatible x y) (hlen : x.length = y.length) : x = y :=
  h.elim (fun h => h.eq_of_length hlen) (fun h => (h.eq_of_length hlen.symm).symm)

/-- The bytes received agree with those prepared (R11). -/
theorem received_compatible {s t : State} {bytes rxs : List Byte} {rest : List Level}
    (hsamples : s.samples = bytes.flatMap wireBits ++ rest) (hfed : s.fed t rxs) : Compatible bytes rxs := by
  have hprefix := hfed.1
  rw [hsamples] at hprefix
  by_cases hlen : rxs.length ≤ bytes.length
  · right
    rw [received_eq hprefix hlen]
    exact List.take_prefix _ _
  · left
    have hbits : bytes.flatMap wireBits <+: rxs.flatMap wireBits :=
      (List.prefix_take_iff.2 ⟨List.prefix_append _ rest, by rw [length_flatMap_wireBits]; omega⟩).trans hprefix
    have hbytes : bytes = rxs.take bytes.length := by
      refine received_eq (rest := []) ?_ (by omega)
      rw [List.append_nil, ← length_flatMap_wireBits, ← List.prefix_iff_eq_take.1 hbits]
    rw [hbytes]
    exact List.take_prefix _ _

theorem compatible_triple {p q : Byte × Byte × Byte} {x y : List Byte} :
    Compatible (triple p ++ x) (triple q ++ y) ↔ p = q ∧ Compatible x y := by
  obtain ⟨p0, p1, p2⟩ := p
  obtain ⟨q0, q1, q2⟩ := q
  simp [triple, compatible_cons, and_assoc]

/-- A poll that finds a frame comes after the same empty polls, prepared or received. -/
theorem polls_eq {mask : Byte} {ps qs : List (Byte × Byte × Byte)} {p q : Byte × Byte × Byte} {x y : List Byte}
    (hps : ∀ r ∈ ps, r.2.2 &&& mask = 0) (hqs : ∀ r ∈ qs, r.2.2 &&& mask = 0) (hp : p.2.2 &&& mask ≠ 0)
    (hq : q.2.2 &&& mask ≠ 0)
    (h : Compatible (ps.flatMap triple ++ (triple p ++ x)) (qs.flatMap triple ++ (triple q ++ y))) :
    ps = qs ∧ p = q ∧ Compatible x y := by
  induction ps generalizing qs with
  | nil =>
    cases qs with
    | nil => exact ⟨rfl, compatible_triple.1 h⟩
    | cons r qs =>
      rw [List.flatMap_cons, List.append_assoc] at h
      obtain ⟨rfl, -⟩ := compatible_triple.1 h
      exact absurd (hqs p (by simp)) hp
  | cons r ps ih =>
    rw [List.flatMap_cons, List.append_assoc] at h
    cases qs with
    | nil =>
      obtain ⟨rfl, -⟩ := compatible_triple.1 h
      exact absurd (hps r (by simp)) hq
    | cons r' qs =>
      rw [List.flatMap_cons, List.append_assoc] at h
      obtain ⟨rfl, htail⟩ := compatible_triple.1 h
      obtain ⟨rfl, hpoll⟩ := ih (fun r hr => hps r (by simp [hr])) (fun r hr => hqs r (by simp [hr])) htail
      exact ⟨rfl, hpoll⟩

/-- Not more empty polls are received than were prepared before one that finds a frame. -/
theorem polls_length_le {mask : Byte} {ps qs : List (Byte × Byte × Byte)} {p : Byte × Byte × Byte} {x : List Byte}
    (hqs : ∀ r ∈ qs, r.2.2 &&& mask = 0) (hp : p.2.2 &&& mask ≠ 0)
    (h : Compatible (ps.flatMap triple ++ (triple p ++ x)) (qs.flatMap triple)) : qs.length ≤ ps.length := by
  induction ps generalizing qs with
  | nil =>
    cases qs with
    | nil => simp
    | cons r qs =>
      obtain ⟨rfl, -⟩ := compatible_triple.1 (by simpa using h)
      exact absurd (hqs p (by simp)) hp
  | cons r ps ih =>
    cases qs with
    | nil => simp
    | cons r' qs =>
      rw [List.flatMap_cons, List.flatMap_cons, List.append_assoc] at h
      obtain ⟨-, h⟩ := compatible_triple.1 h
      simpa using ih (fun r hr => hqs r (by simp [hr])) h

/-- The bytes of a burst and of the cleared flag: the DLC byte says how long the burst is (R128). -/
theorem burst_eq {r0 idh idl x y dlcb r0' idh' idl' x' y' dlcb' : Byte} {payload es payload' es' : List Byte}
    (hpayload : payload.length = min (dlcb.toNat % 16) 8) (hes : es.length = 4)
    (hpayload' : payload'.length = min (dlcb'.toNat % 16) 8) (hes' : es'.length = 4)
    (h : Compatible (r0 :: [idh, idl, x, y, dlcb] ++ payload ++ es)
      (r0' :: [idh', idl', x', y', dlcb'] ++ payload' ++ es')) :
    (r0 = r0' ∧ idh = idh' ∧ idl = idl' ∧ x = x' ∧ y = y' ∧ dlcb = dlcb') ∧ payload = payload' ∧ es = es' := by
  simp only [List.cons_append, List.nil_append, compatible_cons] at h
  obtain ⟨hr0, hidh, hidl, hx, hy, rfl, h⟩ := h
  have hlen : payload.length = payload'.length := hpayload.trans hpayload'.symm
  obtain ⟨hp, he⟩ := List.append_inj (h.eq_of_length (by simp [hlen, hes, hes'])) hlen
  exact ⟨⟨hr0, hidh, hidl, hx, hy, rfl⟩, hp, he⟩

/-! ## Where the driver operations do all they are for -/

section Prepared

variable {s : State} {rest : List Level}

/-- `Init` with answers that pass both verifications (R136). -/
theorem init_of_prepared (hs : s.oracleReady) {m : ControllerMode} {r0 q0 q1 v v' : Byte} {rxs : List Byte}
    (hm : m ≠ .configuration) (hlen : rxs.length = 18) (hv : modeField v = s.cfg.modeCodeConfig)
    (hv' : modeField v' = modeCode s.cfg m)
    (hsamples : s.samples = ([r0, q0, q1, v] ++ (rxs ++ [v'])).flatMap wireBits ++ rest) :
    ∃ t, exec (.init m) s = .next t ∧
      s.did t (.status .ok)
        (bracketEvents [(s.cfg.opReset, r0)] ++ [.delayMs 10] ++ readEvents s.cfg s.cfg.addrCanstat (q0, q1, v) ++
          bracketsEvents (initCommands s.cfg m) (rxs ++ [v']))
        ([r0, q0, q1, v] ++ (rxs ++ [v'])) s.cfg.dummyByte := by
  obtain ⟨t, a0, b0, b1, w, hret, h⟩ := initVerifiesTwice s m hm hs
  split_ifs at h with hmode
  · obtain ⟨-, -, -, hfed, -⟩ := h
    have hagree := received_compatible hsamples hfed
    simp only [List.cons_append, List.nil_append, compatible_cons] at hagree
    obtain ⟨-, -, -, rfl, -⟩ := hagree
    exact absurd hv hmode
  · obtain ⟨ys, w', hlen', hdid⟩ := h
    obtain ⟨-, -, -, hfed, -⟩ := id hdid
    have hagree := received_compatible hsamples hfed
    simp only [List.cons_append, List.nil_append, compatible_cons] at hagree
    obtain ⟨rfl, rfl, rfl, rfl, hagree⟩ := hagree
    obtain ⟨rfl, hlast⟩ := List.append_inj (hagree.eq_of_length (by simp [hlen, hlen'])) (hlen.trans hlen'.symm)
    cases hlast
    rw [if_pos hv'] at hdid
    exact ⟨t, hret, hdid⟩

/-- `Transmit` with an answer that has the pending bit clear (R140). -/
theorem transmit_of_prepared (hs : s.oracleReady) {f : FrameOperand} {q0 q1 c r : Byte} {ls : List Byte}
    (hf : f.check = none) (hc : c &&& s.cfg.maskTxreq = 0) (hlen : ls.length = 6 + f.dlc.toNat)
    (hsamples : s.samples = ([q0, q1, c] ++ ls ++ [r]).flatMap wireBits ++ rest) :
    ∃ t, exec (.transmit f) s = .next t ∧
      s.did t (.status .ok)
        (readEvents s.cfg s.cfg.addrTxb0ctrl (q0, q1, c) ++
          bracketEvents (([s.cfg.opLoadTx0, (f.id >>> 3).setWidth 8, ((f.id &&& 7) <<< 5).setWidth 8,
            s.cfg.txReservedByte, s.cfg.txReservedByte, f.dlc] ++ f.data).zip ls) ++
          bracketEvents [(s.cfg.opRtsTx0, r)])
        ([q0, q1, c] ++ ls ++ [r]) s.cfg.opRtsTx0 := by
  obtain ⟨hid, hdlc, hdata⟩ := (check_none_iff f).1 hf
  obtain ⟨t, p0, p1, d, hret, h⟩ := transmitLoadsOrReportsBusy s f hs hid hdlc hdata
  split_ifs at h with hpending
  · obtain ⟨-, -, -, hfed, -⟩ := h
    have hagree := received_compatible hsamples hfed
    simp only [List.cons_append, List.nil_append, compatible_cons] at hagree
    obtain ⟨-, -, rfl, -⟩ := hagree
    exact absurd hc hpending
  · obtain ⟨ls', r', hlen', hdid⟩ := h
    obtain ⟨-, -, -, hfed, -⟩ := id hdid
    have hagree := received_compatible hsamples hfed
    simp only [List.cons_append, List.nil_append, compatible_cons] at hagree
    obtain ⟨rfl, rfl, rfl, hagree⟩ := hagree
    obtain ⟨rfl, hlast⟩ := List.append_inj (hagree.eq_of_length (by simp [hlen, hlen'])) (hlen.trans hlen'.symm)
    cases hlast
    exact ⟨t, hret, hdid⟩

/-- `ReceiveWithTimeout` with answers that have the flag set after fewer empty polls than the bound (R144). -/
theorem receiveWithTimeout_of_prepared (hs : s.oracleReady) (hclamp : s.cfg.rxDlcGuard = .clamp) {bound : Nat}
    {ps : List (Byte × Byte × Byte)} {q0 q1 f r0 idh idl x y dlcb : Byte} {payload es : List Byte}
    (hps : ps.length < bound) (hbound : bound < 2 ^ s.cfg.wBound) (hempty : ∀ p ∈ ps, p.2.2 &&& s.cfg.maskRx0if = 0)
    (hflag : f &&& s.cfg.maskRx0if ≠ 0) (hpayload : payload.length = min (dlcb.toNat % 16) 8) (hes : es.length = 4)
    (hsamples : s.samples =
      (ps.flatMap triple ++ ([q0, q1, f] ++ (r0 :: [idh, idl, x, y, dlcb] ++ payload) ++ es)).flatMap wireBits ++
        rest) :
    ∃ t, exec (.receiveWithTimeout bound) s = .next t ∧
      s.did t
        (.okFrame ⟨idh.setWidth 11 <<< 3 ||| (idl >>> 5).setWidth 11, BitVec.ofNat 4 payload.length, payload⟩)
        (emptyPollEvents s.cfg ps ++ readEvents s.cfg s.cfg.addrCanintf (q0, q1, f) ++
          burstEvents s.cfg r0 ([idh, idl, x, y, dlcb] ++ payload) ++
          bracketEvents ((clearFlagBytes s.cfg).zip es))
        (ps.flatMap triple ++ ([q0, q1, f] ++ (r0 :: [idh, idl, x, y, dlcb] ++ payload) ++ es)) 0x00 := by
  obtain ⟨t, qs, hret, hempty', -, -, ⟨hlen, -, -, hfed, -⟩ | ⟨-, p0, p1, g, s0, jdh, jdl, x', y', dlcb', payload', es',
    hflag', hpayload', hes', hdid⟩⟩ := receiveWithTimeoutPollsUntilBound s bound hs hclamp hbound
  · have hagree := received_compatible hsamples hfed
    rw [List.append_assoc [q0, q1, f]] at hagree
    have := polls_length_le (p := (q0, q1, f)) hempty' hflag hagree
    omega
  · obtain ⟨-, -, -, hfed, -⟩ := id hdid
    have hagree := received_compatible hsamples hfed
    rw [List.append_assoc [q0, q1, f], List.append_assoc [p0, p1, g]] at hagree
    obtain ⟨rfl, hpoll, hburst⟩ := polls_eq (p := (q0, q1, f)) (q := (p0, p1, g)) hempty hempty' hflag hflag' hagree
    cases hpoll
    obtain ⟨⟨rfl, rfl, rfl, rfl, rfl, rfl⟩, rfl, rfl⟩ := burst_eq hpayload hes hpayload' hes' hburst
    exact ⟨t, hret, hdid⟩

/-- `Receive` with an answer that has the flag set (R142). -/
theorem receive_of_prepared (hs : s.oracleReady) (hclamp : s.cfg.rxDlcGuard = .clamp)
    {q0 q1 f r0 idh idl x y dlcb : Byte} {payload es : List Byte} (hflag : f &&& s.cfg.maskRx0if ≠ 0)
    (hpayload : payload.length = min (dlcb.toNat % 16) 8) (hes : es.length = 4)
    (hsamples : s.samples =
      ([q0, q1, f] ++ (r0 :: [idh, idl, x, y, dlcb] ++ payload) ++ es).flatMap wireBits ++ rest) :
    ∃ t, exec .receive s = .next t ∧
      s.did t
        (.okFrame ⟨idh.setWidth 11 <<< 3 ||| (idl >>> 5).setWidth 11, BitVec.ofNat 4 payload.length, payload⟩)
        (readEvents s.cfg s.cfg.addrCanintf (q0, q1, f) ++
          burstEvents s.cfg r0 ([idh, idl, x, y, dlcb] ++ payload) ++
          bracketEvents ((clearFlagBytes s.cfg).zip es))
        ([q0, q1, f] ++ (r0 :: [idh, idl, x, y, dlcb] ++ payload) ++ es) 0x00 := by
  obtain ⟨t, p0, p1, g, hret, h⟩ := receivePollsOnce s hs hclamp
  split_ifs at h with hclear
  · obtain ⟨-, -, -, hfed, -⟩ := h
    have hagree := received_compatible hsamples hfed
    rw [List.append_assoc [q0, q1, f]] at hagree
    obtain ⟨hpoll, -⟩ := compatible_triple (p := (q0, q1, f)) (q := (p0, p1, g)) (y := []) |>.1 hagree
    cases hpoll
    exact absurd hclear hflag
  · obtain ⟨s0, jdh, jdl, x', y', dlcb', payload', es', hpayload', hes', hdid⟩ := h
    obtain ⟨-, -, -, hfed, -⟩ := id hdid
    have hagree := received_compatible hsamples hfed
    rw [List.append_assoc [q0, q1, f], List.append_assoc [p0, p1, g]] at hagree
    obtain ⟨hpoll, hburst⟩ := compatible_triple (p := (q0, q1, f)) (q := (p0, p1, g)) |>.1 hagree
    cases hpoll
    obtain ⟨⟨rfl, rfl, rfl, rfl, rfl, rfl⟩, rfl, rfl⟩ := burst_eq hpayload hes hpayload' hes' hburst
    exact ⟨t, hret, hdid⟩

end Prepared

/-- Settles O31: what the four operations do (O26, O28, O29, O30), with the bytes received being those prepared. -/
theorem driverOperationsComplete : Obligations.DriverOperationsComplete := by
  unfold Obligations.DriverOperationsComplete
  intro s rest hs hclamp
  refine ⟨fun m r0 q0 q1 v v' rxs hm hlen hv hv' hsamples => init_of_prepared hs hm hlen hv hv' hsamples,
    fun f q0 q1 c r ls hf hc hlen hsamples => transmit_of_prepared hs hf hc hlen hsamples, ?_⟩
  intro bound ps q0 q1 f r0 idh idl x y dlcb payload es hps hbound hempty hflag hpayload hes hsamples
  refine ⟨receiveWithTimeout_of_prepared hs hclamp hps hbound hempty hflag hpayload hes hsamples, ?_⟩
  rintro rfl
  exact receive_of_prepared hs hclamp hflag hpayload hes hsamples

end Sys2Proof.Machine
end

section
/-! PROOF. What every operation leaves, in every environment: INITED, the lines, the events, the configuration, the
result (spec/10_state.md R20 to R30, 60_exceptions.md R191, R197), from the accounts of the operations. -/

namespace Sys2Proof.Machine

/-- What an operation other than `SpiInit` leaves where it returns, in every environment. -/
structure LeftBy (i : Instr) (s t : State) : Prop where
  inited : s.inited = true
  added : ∃ es, s.Added t es
  sck : t.pinSck = false ∨ t.pinSck = s.pinSck
  cs : i ≠ .assertSelect → t.pinCs = true ∨ t.pinCs = s.pinCs
  bracket : usesBracket i = true → s.pinCs = true ∧ t.pinCs = true
  result : resultAllowed i t.ret

/-- An operation that opens brackets and has returned. -/
theorem State.Ended.leftBy {i : Instr} {s t : State} {r : Result} {es : List Event} {last : Byte}
    (h : s.Ended t r es last) (hs : s.mayStart) (hr : resultAllowed i r) : LeftBy i s t := by
  obtain ⟨hcs, hsck, -⟩ := h.lines
  exact ⟨hs.1.1, ⟨es, h.toAdded⟩, .inl hsck, fun _ => .inl hcs, fun _ => ⟨hs.2, hcs⟩, h.ret ▸ hr⟩

/-! ## Results (R191) -/

/-- A received count is at most 8 (R43, R128). -/
theorem rxCount_le {guard : RxDlcGuard} {dlcb : Byte} {n : BitVec 4} (h : rxCount guard dlcb = some n) :
    n.toNat ≤ 8 := by
  cases guard with
  | clamp =>
    rw [rxCount_clamp] at h
    cases h
    rw [ofNat_min_toNat]
    omega
  | strict =>
    by_cases hlarge : dlcb > 8
    · rw [rxCount_strict_none hlarge] at h
      cases h
    · have hsmall : dlcb.toNat ≤ 8 := by
        have : ¬ (8 : Byte) < dlcb := hlarge
        rw [BitVec.lt_def] at this
        exact not_lt.1 this
      rw [rxCount_small .strict hsmall] at h
      cases h
      rw [dlc_toNat hsmall]
      exact hsmall

/-- A received frame satisfies R43. -/
theorem wf_of_rxCount {guard : RxDlcGuard} {dlcb : Byte} {n : BitVec 4} (h : rxCount guard dlcb = some n)
    {payload : List Byte} (hlen : payload.length = n.toNat) (id : BitVec 11) :
    (CanFrame.mk id n payload).wf := ⟨rxCount_le h, hlen⟩

/-- A decoded frame satisfies R43. -/
theorem decodeRx_wf {guard : RxDlcGuard} {bytes : List Byte} {f : CanFrame} (h : decodeRx guard bytes = .ok f) :
    f.wf := by
  unfold decodeRx at h
  split at h
  · split at h
    · cases h
    · rename_i n hcount
      split at h
      · rename_i hlen
        cases h
        exact wf_of_rxCount hcount hlen _
      · cases h
  · cases h

/-! ## Operations that open brackets -/

/-- Every environment: `R` of the law is a step of the environment. -/
abbrev anyStep (s t : State) (_ : List Level) : Prop := s.envStep t

/-- An operation that opens brackets and returns was allowed to start, with its operands in their domains (R198,
R199). -/
theorem exec_started {i : Instr} {s t : State} (hi : usesBracket i = true) (h : exec i s = .next t) :
    s.mayStart ∧ i.wf s.cfg.wBound := by
  obtain ⟨k, hexec, hbody⟩ := exec_bracketBody hi s
  obtain ⟨hready, hk⟩ := State.whenReady_next (hexec.symm.trans h)
  cases hbody with
  | outOfDomain => cases hk
  | guarded hin => exact ⟨⟨hready, (State.whenReleased_next hk).1⟩, hin⟩

/-- The end of an operation that has found a frame, in every environment: the frame satisfies R43, and two brackets have
been added. -/
theorem DeliversFrame.ended {s t : State} {o : Out} {pre : List Event} {polled : List Byte}
    (h : DeliversFrame (fun _ => True) anyStep s o pre polled) (ho : o = .next t) :
    ∃ (f : CanFrame) (xs ys : List (Byte × Byte)), f.wf ∧
      s.Ended t (.okFrame f) (pre ++ bracketEvents xs ++ bracketEvents ys) 0x00 := by
  obtain ⟨r0, idh, idl, x, y, dlcb, payload, ⟨-, hrefused⟩ | ⟨n, hcount, hlen, es, -, hruns⟩⟩ := h
  · rw [ho] at hrefused
    cases hrefused
  · exact ⟨_, _, _, wf_of_rxCount hcount hlen _, hruns.ended ho⟩

theorem init_ne_configuration {width : Nat} {m : ControllerMode} (h : (Instr.init m).wf width) :
    m ≠ .configuration := by
  rintro rfl
  cases h

theorem bound_lt_of_wf {width bound : Nat} (h : (Instr.receiveWithTimeout bound).wf width) : bound < 2 ^ width := by
  by_contra hwide
  simp [Instr.wf, Instr.check, hwide] at h

theorem toFrame_of_check {f : FrameOperand} (h : f.check = none) :
    toFrame f = some ⟨f.id.setWidth 11, f.dlc.setWidth 4, f.data⟩ := by
  obtain ⟨hid, hdlc, hdata⟩ := (check_none_iff f).1 h
  exact toFrame_of hid hdlc hdata

/-- A controller command that returns, in every environment. -/
theorem command_ended {i : Instr} {s t : State} (h : exec i s = .next t)
    (hi : commandBytes s.cfg i [] ≠ none ∨ i = .cmdReadRxBuffer) :
    ∃ rxs es last, s.Ended t (commandResult s.cfg i rxs) es last := by
  obtain ⟨txs, rxs, -, -, hruns⟩ := commandRuns_of_next h hi
  exact ⟨rxs, _, _, hruns.ended h⟩

/-- `Init` that returns, in every environment. -/
theorem init_ended {m : ControllerMode} {s t : State} (h : exec (.init m) s = .next t) :
    ∃ r0 q0 q1 v : Byte,
      s.Ended t (.status .error) (initStartEvents s.cfg r0 q0 q1 v) s.cfg.dummyByte ∨
      ∃ (rxs : List Byte) (v' : Byte), rxs.length = 18 ∧
        s.Ended t (.status (if modeField v' = modeCode s.cfg m then .ok else .error))
          (initStartEvents s.cfg r0 q0 q1 v ++ bracketsEvents (initCommands s.cfg m) (rxs ++ [v']))
          s.cfg.dummyByte := by
  obtain ⟨hs, hwf⟩ := exec_started rfl h
  obtain ⟨r0, q0, q1, v, hruns⟩ := envLaw_any.init_runs EnvLaw.fixes_any trivial hs (init_ne_configuration hwf)
  refine ⟨r0, q0, q1, v, ?_⟩
  split_ifs at hruns with hmode
  · exact .inl (hruns.ended h)
  · obtain ⟨rxs, v', hlen, hruns⟩ := hruns
    exact .inr ⟨rxs, v', hlen, hruns.ended h⟩

/-- `Transmit` that returns, in every environment. -/
theorem transmit_ended {f : FrameOperand} {s t : State} (h : exec (.transmit f) s = .next t) :
    ∃ st es last, (st = .ok ∨ st = .busy) ∧ s.Ended t (.status st) es last := by
  obtain ⟨hs, hwf⟩ := exec_started rfl h
  obtain ⟨q0, q1, c, hruns⟩ := envLaw_any.transmit_runs EnvLaw.fixes_any trivial hs (toFrame_of_check hwf)
  split_ifs at hruns with hpending
  · exact ⟨.busy, _, _, .inr rfl, hruns.ended h⟩
  · obtain ⟨ls, r, -, hruns⟩ := hruns
    exact ⟨.ok, _, _, .inl rfl, hruns.ended h⟩

/-- `Receive` that returns, in every environment. -/
theorem receive_ended {s t : State} (h : exec .receive s = .next t) :
    ∃ r es last, resultAllowed .receive r ∧ s.Ended t r es last := by
  obtain ⟨hs, -⟩ := exec_started rfl h
  obtain ⟨q0, q1, f, hruns⟩ := envLaw_any.receive_runs EnvLaw.fixes_any trivial hs
  split_ifs at hruns with hflag
  · exact ⟨_, _, _, .inl rfl, hruns.ended h⟩
  · obtain ⟨g, xs, ys, hwf, hended⟩ := hruns.ended h
    exact ⟨_, _, _, .inr ⟨g, rfl, hwf⟩, hended⟩

/-- `ReceiveWithTimeout` that returns, in every environment: Timeout after as many empty polls as the bound says, or a
frame after fewer. -/
theorem receiveWithTimeout_ended {bound : Nat} {s t : State} (h : exec (.receiveWithTimeout bound) s = .next t) :
    ∃ ps : List (Byte × Byte × Byte),
      (ps.length = bound ∧ ∃ b u, s.Waited b ps ∧ b.envStep u ∧ u.finish (.status .timeout) = .next t) ∨
      (ps.length < bound ∧ ∃ (p : Byte × Byte × Byte) (f : CanFrame) (xs ys : List (Byte × Byte)), f.wf ∧
        s.Ended t (.okFrame f)
          (emptyPollEvents s.cfg ps ++ readEvents s.cfg s.cfg.addrCanintf p ++ bracketEvents xs ++ bracketEvents ys)
          0x00) := by
  obtain ⟨hs, hwf⟩ := exec_started rfl h
  obtain ⟨ps, -, ⟨hlen, b, u, hwaited, -, hstep, hexec⟩ | ⟨hlen, q0, q1, f, -, hruns⟩⟩ :=
    envLaw_any.receiveWithTimeout_runs EnvLaw.fixes_any trivial hs (bound_lt_of_wf hwf)
  · exact ⟨ps, .inl ⟨hlen, b, u, hwaited, hstep, hexec.symm.trans h⟩⟩
  · obtain ⟨g, xs, ys, hg, hended⟩ := hruns.ended h
    exact ⟨ps, .inr ⟨hlen, (q0, q1, f), g, xs, ys, hg, hended⟩⟩

/-! ## Every operation -/

/-- An operation that has returned without opening a bracket: `b` is what the block alone has done. -/
theorem leftBy_of_finish {i : Instr} {s b u t : State} {es : List Event} {r : Result} (hs : s.ready)
    (hi : usesBracket i = false) (hstep : b.envStep u) (h : u.finish r = .next t) (htrace : b.trace = s.trace ++ es)
    (hkeeps : s.keeps (b.enter .idle)) (hctl : b.ctl = s.ctl) (hsck : b.pinSck = false ∨ b.pinSck = s.pinSck)
    (hcs : i ≠ .assertSelect → b.pinCs = true ∨ b.pinCs = s.pinCs) (hr : resultAllowed i r) : LeftBy i s t := by
  obtain ⟨hret, -, tcs, tsck, -⟩ := hstep.finish h
  exact ⟨hs.1, ⟨es, State.added_of_finish hstep h htrace hkeeps hctl⟩, tsck ▸ hsck, fun hne => tcs ▸ hcs hne,
    fun hbracket => absurd (hi.symm.trans hbracket) (by decide), hret ▸ hr⟩

/-- The lines after empty iterations are those before, or idle (R144). -/
theorem State.Waited.idle_or_same {s b : State} {ps : List (Byte × Byte × Byte)} (h : s.Waited b ps) :
    (b.pinSck = false ∨ b.pinSck = s.pinSck) ∧ (b.pinCs = true ∨ b.pinCs = s.pinCs) := by
  by_cases hps : ps = []
  · obtain ⟨hcs, hsck, -⟩ := h.same hps
    exact ⟨.inr hsck, .inr hcs⟩
  · obtain ⟨hcs, hsck, -⟩ := h.lines hps
    exact ⟨.inl hsck, .inl hcs⟩

/-- `ReceiveWithTimeout` that has returned Timeout. -/
theorem State.Waited.leftBy {bound : Nat} {s b u t : State} {ps : List (Byte × Byte × Byte)} (h : s.Waited b ps)
    (hs : s.mayStart) (hstep : b.envStep u) (hf : u.finish (.status .timeout) = .next t) :
    LeftBy (.receiveWithTimeout bound) s t := by
  obtain ⟨hret, -, tcs, tsck, -⟩ := hstep.finish hf
  obtain ⟨hsck, hcs⟩ := h.idle_or_same
  have hkeeps : s.keeps (b.enter .idle) :=
    ⟨h.dirSck, h.dirCs, h.dirMosi, h.dirMiso, h.inited, rfl, h.port, h.cfg, h.env⟩
  refine ⟨hs.1.1, ⟨_, State.added_of_finish hstep hf h.trace hkeeps h.ctl⟩, tsck ▸ hsck, fun _ => tcs ▸ hcs,
    fun _ => ⟨hs.2, ?_⟩, .inl hret⟩
  rw [tcs]
  exact hcs.elim id fun hsame => hsame.trans hs.2

/-- What every operation but `SpiInit` leaves, in every environment. -/
theorem exec_leftBy {i : Instr} {s t : State} (hi : i ≠ .spiInit) (h : exec i s = .next t) : LeftBy i s t := by
  have hbracket (hi : usesBracket i = true) := (exec_started hi h).1
  cases i with
  | spiInit => exact absurd rfl hi
  | assertSelect =>
    obtain ⟨hready, hfinish⟩ := State.whenReady_next h
    exact leftBy_of_finish hready rfl (State.pinWrite_envStep (s.enter .assertSelect) .cs false) hfinish rfl
      ⟨rfl, rfl, rfl, rfl, rfl, rfl, rfl, rfl, rfl⟩ rfl (.inr rfl) (fun hne => absurd rfl hne) rfl
  | deassertSelect =>
    obtain ⟨hready, hfinish⟩ := State.whenReady_next h
    exact leftBy_of_finish hready rfl (State.pinWrite_envStep (s.enter .deassertSelect) .cs true) hfinish rfl
      ⟨rfl, rfl, rfl, rfl, rfl, rfl, rfl, rfl, rfl⟩ rfl (.inr rfl) (fun _ => .inl rfl) rfl
  | transfer tx =>
    obtain ⟨hready, hfinish⟩ := State.whenReady_next h
    exact leftBy_of_finish hready rfl (State.transfer_envStep (s.enter .transfer) tx) hfinish rfl
      ⟨rfl, rfl, rfl, rfl, rfl, rfl, rfl, rfl, rfl⟩ rfl (.inl rfl) (fun _ => .inr rfl) ⟨_, rfl⟩
  | encodeTxBuffer frame =>
    obtain ⟨hready, hbody⟩ := State.whenReady_next h
    split at hbody
    · cases hbody
    · rename_i f hframe
      have hcheck : frame.check = none := (toFrame_isSome_iff frame).1 (by rw [hframe]; rfl)
      rw [toFrame_of_check hcheck] at hframe
      cases hframe
      refine leftBy_of_finish (es := []) hready rfl (State.envStep_refl (s.enter .encodeTxBuffer)) hbody (by simp)
        ⟨rfl, rfl, rfl, rfl, rfl, rfl, rfl, rfl, rfl⟩ rfl (.inr rfl) (fun _ => .inr rfl) ⟨_, rfl, ?_⟩
      obtain ⟨-, -, hdata⟩ := (check_none_iff frame).1 hcheck
      simp [encodeTx, hdata]
      omega
  | decodeRxBuffer bytes =>
    obtain ⟨hready, hbody⟩ := State.whenReady_next h
    split at hbody
    · cases hbody
    · rename_i f hframe
      exact leftBy_of_finish (es := []) hready rfl (State.envStep_refl (s.enter .decodeRxBuffer)) hbody (by simp)
        ⟨rfl, rfl, rfl, rfl, rfl, rfl, rfl, rfl, rfl⟩ rfl (.inr rfl) (fun _ => .inr rfl) ⟨f, rfl, decodeRx_wf hframe⟩
  | cmdReset =>
    obtain ⟨rxs, es, last, hended⟩ := command_ended h (.inl (by simp [commandBytes]))
    exact hended.leftBy (hbracket rfl) rfl
  | cmdReadRegister addr =>
    obtain ⟨rxs, es, last, hended⟩ := command_ended h (.inl (by simp [commandBytes]))
    exact hended.leftBy (hbracket rfl) ⟨_, rfl⟩
  | cmdWriteRegister addr val =>
    obtain ⟨rxs, es, last, hended⟩ := command_ended h (.inl (by simp [commandBytes]))
    exact hended.leftBy (hbracket rfl) rfl
  | cmdBitModify addr mask val =>
    obtain ⟨rxs, es, last, hended⟩ := command_ended h (.inl (by simp [commandBytes]))
    exact hended.leftBy (hbracket rfl) rfl
  | cmdLoadTxBuffer id dlc data =>
    obtain ⟨rxs, es, last, hended⟩ := command_ended h (.inl (by simp [commandBytes]))
    exact hended.leftBy (hbracket rfl) rfl
  | cmdRequestToSend =>
    obtain ⟨rxs, es, last, hended⟩ := command_ended h (.inl (by simp [commandBytes]))
    exact hended.leftBy (hbracket rfl) rfl
  | cmdReadRxBuffer =>
    obtain ⟨r0, idh, idl, x, y, dlcb, payload, ⟨-, hrefused⟩ | ⟨n, hcount, hlen, hruns⟩⟩ :=
      envLaw_any.cmdReadRxBuffer_runs EnvLaw.fixes_any trivial (hbracket rfl)
    · rw [h] at hrefused
      cases hrefused
    · exact (hruns.ended h).leftBy (hbracket rfl) ⟨_, rfl, wf_of_rxCount hcount hlen _⟩
  | init target =>
    obtain ⟨r0, q0, q1, v, hended | ⟨rxs, v', -, hended⟩⟩ := init_ended h
    · exact hended.leftBy (hbracket rfl) (.inr rfl)
    · refine hended.leftBy (hbracket rfl) ?_
      split_ifs
      · exact .inl rfl
      · exact .inr rfl
  | transmit frame =>
    obtain ⟨st, es, last, hst, hended⟩ := transmit_ended h
    exact hended.leftBy (hbracket rfl) (hst.imp (congrArg _) (congrArg _))
  | receive =>
    obtain ⟨r, es, last, hr, hended⟩ := receive_ended h
    exact hended.leftBy (hbracket rfl) hr
  | receiveWithTimeout bound =>
    obtain ⟨ps, ⟨-, b, u, hwaited, hstep, hfinish⟩ | ⟨-, p, f, xs, ys, hwf, hended⟩⟩ := receiveWithTimeout_ended h
    · exact hwaited.leftBy (hbracket rfl) hstep hfinish
    · exact hended.leftBy (hbracket rfl) (.inr ⟨f, rfl, hwf⟩)

/-- What `SpiInit` leaves, in every environment (R101). -/
structure LeftBySpiInit (s t : State) : Prop where
  inited : t.inited = true
  seq : t.seq = .idle
  idle : t.busIdle
  dirs : t.dirsSet
  trace : t.trace = s.trace ++ spiInitEvents
  port : t.port = s.port
  cfg : t.cfg = s.cfg
  env : t.env = s.env
  ret : t.ret = .nothing
  wf : s.ctl.reg.wf → t.ctl.reg.wf
  tmo : t.scratch.tmo < 2 ^ t.cfg.wBound

theorem exec_spiInit_leftBy {s t : State} (h : exec .spiInit s = .next t) : LeftBySpiInit s t := by
  have hstart : exec .spiInit s = execSpiInit s := rfl
  rw [hstart, execSpiInit] at h
  split at h
  · cases h
  · obtain ⟨hret, htrace, hcs, hsck, -, hdsck, hdcs, hdmosi, hdmiso, hinited, hseq, hport, hcfg, henv, hwf⟩ :=
      (s.enter .spiInit).spiInit_envStep.finish h
    exact ⟨hinited, hseq, ⟨hcs, hsck⟩, ⟨hdsck, hdcs, hdmosi, hdmiso⟩, htrace, hport, hcfg, henv, hret, hwf,
      State.tmo_of_finish h⟩

/-! ## The statements over all operations -/

/-- Settles O7: `exec_leftBy` for what returns, the first check of every operation for the refusal. -/
theorem initedGuardsEveryOperation : Obligations.InitedGuardsEveryOperation := by
  unfold Obligations.InitedGuardsEveryOperation
  refine ⟨rfl, fun s t h => (exec_spiInit_leftBy h).inited, fun i s t hi h => ?_, fun i s hi hinited => ?_⟩
  · have hleft := exec_leftBy hi h
    obtain ⟨es, hadded⟩ := hleft.added
    obtain ⟨-, -, -, -, hinited, -⟩ := hadded.keeps
    exact ⟨hleft.inited, hinited.trans hleft.inited⟩
  · cases i with
    | spiInit => exact absurd rfl hi
    | _ => exact State.whenReady_notInitialised hinited _

/-- Settles O33: the second check of every operation, the only one of `SpiInit`. -/
theorem operationInProgressRefused : Obligations.OperationInProgressRefused := by
  unfold Obligations.OperationInProgressRefused
  intro i s hseq hinited
  cases i with
  | spiInit => exact if_pos hseq
  | _ => exact State.whenReady_inProgress (hinited.resolve_right (by simp)) hseq _

/-- Every operation keeps the invariant (R29, R20, R21, R28, R50). -/
theorem exec_keepsInv {i : Instr} {s t : State} (hinv : s.Inv) (h : exec i s = .next t) : t.Inv := by
  obtain ⟨-, hdriven, -, hwf⟩ := hinv
  by_cases hi : i = .spiInit
  · subst hi
    have hleft := exec_spiInit_leftBy h
    exact ⟨hleft.seq, fun _ => ⟨hleft.idle.2, hleft.dirs⟩, hleft.tmo, hleft.wf hwf⟩
  · have hleft := exec_leftBy hi h
    obtain ⟨es, hadded⟩ := hleft.added
    obtain ⟨hdsck, hdcs, hdmosi, hdmiso, -, hseq, -⟩ := hadded.keeps
    obtain ⟨hsck, ⟨dsck, dcs, dmosi, dmiso⟩⟩ := hdriven hleft.inited
    exact ⟨hseq, fun _ => ⟨hleft.sck.elim id fun hsame => hsame.trans hsck,
      hdsck.trans dsck, hdcs.trans dcs, hdmosi.trans dmosi, hdmiso.trans dmiso⟩, hadded.tmo, hadded.wf hwf⟩

/-- What a step does: the block waits, or an operation runs on the state whose port holds what follows the request. -/
theorem step_next {s t : State} (h : step s = .next t) :
    (s.port = [] ∧ t = s.wait) ∨
      ∃ i rest, decode s.cfg.wBound s.port = .ok (i, rest) ∧ exec i { s with port := rest } = .next t := by
  by_cases hport : s.port = []
  · rw [step_of_port_nil hport] at h
    cases h
    exact .inl ⟨hport, rfl⟩
  · right
    rcases hdecode : decode s.cfg.wBound s.port with e | ⟨i, rest⟩
    · rw [step_of_decode_error hport hdecode] at h
      cases h
    · rw [step_of_decode hdecode] at h
      exact ⟨i, rest, rfl, h⟩

/-- The environment's part of a step keeps the invariant. -/
theorem State.envStep.keepsInv {s t : State} (h : s.envStep t) (hinv : s.Inv) : t.Inv := by
  obtain ⟨hseq, hdriven, htmo, hwf⟩ := hinv
  obtain ⟨_, _, _, _, hkeeps, rfl⟩ := h
  exact ⟨hseq, hdriven, htmo, hkeeps hwf⟩

/-- Settles O38: waiting is a step of the environment, and every operation keeps the invariant (`exec_keepsInv`). -/
theorem stepKeepsInvariant : Obligations.StepKeepsInvariant := by
  unfold Obligations.StepKeepsInvariant
  intro s t hinv h
  obtain ⟨-, rfl⟩ | ⟨i, rest, -, hexec⟩ := step_next h
  · exact s.opportunity_envStep.keepsInv hinv
  · have hinv' : State.Inv { s with port := rest } := hinv
    exact exec_keepsInv hinv' hexec

/-- Settles O40: `exec_leftBy` for the lines of every operation but `SpiInit`. -/
theorem idleBusRestored : Obligations.IdleBusRestored := by
  unfold Obligations.IdleBusRestored
  refine ⟨fun i s t hi hidle h => ?_, fun i s t hi h => ?_⟩
  · by_cases hspi : i = .spiInit
    · subst hspi
      have hleft := exec_spiInit_leftBy h
      exact ⟨hleft.inited, hleft.idle⟩
    · have hleft := exec_leftBy hspi h
      obtain ⟨es, hadded⟩ := hleft.added
      obtain ⟨-, -, -, -, hinited, -⟩ := hadded.keeps
      obtain ⟨hcs, hsck⟩ := hidle hleft.inited
      exact ⟨hinited.trans hleft.inited, (hleft.cs hi).elim id fun hsame => hsame.trans hcs,
        hleft.sck.elim id fun hsame => hsame.trans hsck⟩
  · have hspi : i ≠ .spiInit := by
      rintro rfl
      cases hi
    exact (exec_leftBy hspi h).bracket hi

/-- Settles O41: the result each operation leaves (`exec_leftBy`). -/
theorem statusTable : Obligations.StatusTable := by
  unfold Obligations.StatusTable
  refine ⟨fun i s t h => ?_, rfl⟩
  by_cases hspi : i = .spiInit
  · subst hspi
    exact (exec_spiInit_leftBy h).ret
  · exact (exec_leftBy hspi h).result

/-! ## The port -/

theorem takeBytes_suffix {n : Nat} {bs l rest : List Byte} (h : takeBytes n bs = some (l, rest)) : rest <:+ bs := by
  unfold takeBytes at h
  split at h
  · cases h
  · cases h
    exact List.drop_suffix n bs

theorem takeList_suffix {bs l rest : List Byte} (h : takeList bs = some (l, rest)) : rest <:+ bs := by
  cases bs with
  | nil => cases h
  | cons n bs => exact (takeBytes_suffix h).trans (List.suffix_cons n bs)

theorem takeFrame_suffix {bs rest : List Byte} {f : FrameOperand} (h : takeFrame bs = some (f, rest)) :
    rest <:+ bs := by
  unfold takeFrame at h
  split at h
  · rename_i idHigh idLow dlc bs
    split at h
    · rename_i hlist
      cases h
      exact (takeList_suffix hlist).trans (List.suffix_append [idHigh, idLow, dlc] bs)
    · cases h
  · cases h

/-- A request leaves at the port what follows it (R91). -/
theorem decode_suffix {width : Nat} {bs rest : List Byte} {i : Instr} (h : decode width bs = .ok (i, rest)) :
    rest <:+ bs := by
  cases bs with
  | nil => cases h
  | cons opsel bs =>
    suffices hrest : rest <:+ bs from hrest.trans (List.suffix_cons opsel bs)
    simp only [decode] at h
    split at h
    case h_4 | h_6 =>
      split at h
      · cases h
        exact List.suffix_cons _ _
      · cases h
    case h_7 =>
      split at h
      · cases h
        exact List.suffix_append [_, _] _
      · cases h
    case h_8 =>
      split at h
      · cases h
        exact List.suffix_append [_, _, _] _
      · cases h
    case h_9 | h_12 | h_15 =>
      split at h
      · rename_i hframe
        cases h
        exact takeFrame_suffix hframe
      · cases h
    case h_13 =>
      split at h
      · rename_i hlist
        cases h
        exact takeList_suffix hlist
      · cases h
    case h_14 =>
      split at h
      · split at h
        · cases h
          exact List.suffix_cons _ _
        · cases h
      · cases h
    case h_17 =>
      split at h
      · rename_i hbytes
        cases h
        exact takeBytes_suffix hbytes
      · cases h
    case h_18 => cases h
    all_goals
      cases h
      exact List.suffix_rfl

/-- Settles O43: `exec_leftBy` for what an operation leaves, `decode_suffix` for the port. -/
theorem stepOnlyAddsEvents : Obligations.StepOnlyAddsEvents := by
  unfold Obligations.StepOnlyAddsEvents
  intro s t h
  obtain ⟨-, rfl⟩ | ⟨i, rest, hdecode, hexec⟩ := step_next h
  · obtain ⟨_, _, _, _, -, hwait⟩ := s.opportunity_envStep
    rw [State.wait, hwait]
    exact ⟨List.prefix_rfl, rfl, rfl, List.suffix_rfl⟩
  · have hport := decode_suffix hdecode
    by_cases hspi : i = .spiInit
    · subst hspi
      have hleft := exec_spiInit_leftBy hexec
      exact ⟨⟨_, hleft.trace.symm⟩, hleft.cfg, hleft.env, hleft.port ▸ hport⟩
    · obtain ⟨es, hadded⟩ := (exec_leftBy hspi hexec).added
      obtain ⟨-, -, -, -, -, -, tport, tcfg, tenv⟩ := hadded.keeps
      exact ⟨⟨es, hadded.trace.symm⟩, tcfg, tenv, tport ▸ hport⟩

end Sys2Proof.Machine
end

section
/-! PROOF. What an observer can count on in every environment: the delays (spec/60_exceptions.md R208, R233), the levels
`Init` drives (spec/43_driver_operations.md R137), and that there is no other stop (R145, R199). -/

namespace Sys2Proof.Machine

/-! ## The delays in a trace -/

@[simp] theorem traceMs_append (es fs : List Event) : traceMs (es ++ fs) = traceMs es + traceMs fs := by
  induction es with
  | nil => simp [traceMs]
  | cons e es ih => cases e <;> simp [traceMs, ih, Nat.add_assoc]

@[simp] theorem traceMs_bytesEvents (xs : List (Byte × Byte)) : traceMs (bytesEvents xs) = 0 := by
  induction xs with
  | nil => rfl
  | cons x xs ih =>
    have hbyte : traceMs (byteEvents x.1 x.2) = 0 := rfl
    have hcons : bytesEvents (x :: xs) = byteEvents x.1 x.2 ++ bytesEvents xs := List.flatMap_cons
    rw [hcons, traceMs_append, hbyte, ih]

/-- A bracket takes no time that could be said (R208; log 20). -/
@[simp] theorem traceMs_bracketEvents (xs : List (Byte × Byte)) : traceMs (bracketEvents xs) = 0 := by
  simp [bracketEvents, traceMs]

@[simp] theorem traceMs_bracketsEvents (txss : List (List Byte)) (rxs : List Byte) :
    traceMs (bracketsEvents txss rxs) = 0 := by
  induction txss generalizing rxs with
  | nil => rfl
  | cons txs txss ih => simp [bracketsEvents, ih]

@[simp] theorem traceMs_readEvents (cfg : Cfg) (addr : Byte) (r : Byte × Byte × Byte) :
    traceMs (readEvents cfg addr r) = 0 := traceMs_bracketEvents _

theorem traceMs_initStartEvents (cfg : Cfg) (r0 q0 q1 v : Byte) :
    traceMs (initStartEvents cfg r0 q0 q1 v) = 10 := by
  simp [initStartEvents, traceMs]

/-- Each empty poll is followed by a wait of 1 ms (R144). -/
theorem traceMs_emptyPollEvents (cfg : Cfg) (ps : List (Byte × Byte × Byte)) :
    traceMs (emptyPollEvents cfg ps) = ps.length := by
  induction ps with
  | nil => rfl
  | cons p ps ih =>
    have hcons : emptyPollEvents cfg (p :: ps) =
        readEvents cfg cfg.addrCanintf p ++ [.delayMs Config.pollStepMs] ++ emptyPollEvents cfg ps :=
      List.flatMap_cons
    rw [hcons]
    simp [traceMs, ih, Config.pollStepMs, Nat.add_comm]

/-- The events an operation has added are what its trace holds beyond the one it started with. -/
theorem State.Added.drop_trace {s t : State} {es : List Event} (h : s.Added t es) :
    t.trace.drop s.trace.length = es := by
  rw [h.trace, List.drop_left]

/-- Settles O42: the delays of the events each operation adds. -/
theorem delaysOfOperations : Obligations.DelaysOfOperations := by
  unfold Obligations.DelaysOfOperations
  refine ⟨fun s t h => ?_, fun m s t h => ?_, fun n s t h => ?_⟩
  · obtain ⟨txs, rxs, -, -, hruns⟩ := commandRuns_of_next h (.inl (by simp [commandBytes]))
    rw [(hruns.ended h).drop_trace]
    simp [traceMs]
  · obtain ⟨r0, q0, q1, v, hended | ⟨rxs, v', -, hended⟩⟩ := init_ended h
    · rw [hended.drop_trace, traceMs_initStartEvents]
    · rw [hended.drop_trace, traceMs_append, traceMs_initStartEvents, traceMs_bracketsEvents]
  · obtain ⟨ps, ⟨hlen, b, u, hwaited, hstep, hfinish⟩ | ⟨hlen, p, f, xs, ys, -, hended⟩⟩ :=
      receiveWithTimeout_ended h
    · obtain ⟨-, htrace, -⟩ := hstep.finish hfinish
      rw [htrace, hwaited.trace, List.drop_left, traceMs_emptyPollEvents, hlen]
      exact ⟨le_rfl, fun _ => rfl⟩
    · rw [hended.drop_trace]
      have hms : traceMs (emptyPollEvents s.cfg ps ++ readEvents s.cfg s.cfg.addrCanintf p ++ bracketEvents xs ++
          bracketEvents ys) = ps.length := by
        simp [traceMs_emptyPollEvents]
      rw [hms]
      exact ⟨hlen.le, fun hr => by rw [hended.ret] at hr; cases hr⟩

/-! ## The levels that Init drives

The outputs of a bracket are a function of the bytes it sends. -/

theorem outputs_append (es fs : List Event) : outputs (es ++ fs) = outputs es ++ outputs fs := List.filter_append _ _

theorem outputs_byteEvents (tx rx : Byte) : outputs (byteEvents tx rx) = outputs (byteEvents tx 0) := rfl

theorem outputs_bytesEvents {xs ys : List (Byte × Byte)} (h : xs.map Prod.fst = ys.map Prod.fst) :
    outputs (bytesEvents xs) = outputs (bytesEvents ys) := by
  induction xs generalizing ys with
  | nil =>
    cases ys with
    | nil => rfl
    | cons y ys => cases h
  | cons x xs ih =>
    cases ys with
    | nil => cases h
    | cons y ys =>
      obtain ⟨hfst, htail⟩ := List.cons.inj h
      have hcons (z : Byte × Byte) (zs) : bytesEvents (z :: zs) = byteEvents z.1 z.2 ++ bytesEvents zs :=
        List.flatMap_cons
      rw [hcons, hcons, outputs_append, outputs_append, ih htail, outputs_byteEvents x.1, outputs_byteEvents y.1, hfst]

/-- Two brackets that send the same have the same outputs. -/
theorem outputs_bracketEvents {xs ys : List (Byte × Byte)} (h : xs.map Prod.fst = ys.map Prod.fst) :
    outputs (bracketEvents xs) = outputs (bracketEvents ys) := by
  simp only [bracketEvents, outputs_append, outputs_bytesEvents h]

/-- Brackets given with all the bytes they receive have outputs that do not depend on these. -/
theorem outputs_bracketsEvents {txss : List (List Byte)} {rxs rxs' : List Byte}
    (h : rxs.length = txss.flatten.length) (h' : rxs'.length = txss.flatten.length) :
    outputs (bracketsEvents txss rxs) = outputs (bracketsEvents txss rxs') := by
  induction txss generalizing rxs rxs' with
  | nil => rfl
  | cons txs txss ih =>
    rw [List.flatten_cons, List.length_append] at h h'
    have hsent {l : List Byte} (hl : txs.length ≤ l.length) : (txs.zip (l.take txs.length)).map Prod.fst = txs :=
      List.map_fst_zip (by rw [List.length_take]; omega)
    simp only [bracketsEvents, outputs_append]
    have hrest := ih (rxs := rxs.drop txs.length) (rxs' := rxs'.drop txs.length) (by rw [List.length_drop]; omega)
      (by rw [List.length_drop]; omega)
    have hfirst : txs.length ≤ rxs.length ∧ txs.length ≤ rxs'.length := by omega
    rw [hrest, outputs_bracketEvents ((hsent hfirst.1).trans (hsent hfirst.2).symm)]

theorem outputs_initStartEvents (cfg : Cfg) (r0 q0 q1 v r0' q0' q1' v' : Byte) :
    outputs (initStartEvents cfg r0 q0 q1 v) = outputs (initStartEvents cfg r0' q0' q1' v') := by
  simp only [initStartEvents, readEvents, outputs_append]
  rw [outputs_bracketEvents (xs := [(cfg.opReset, r0)]) (ys := [(cfg.opReset, r0')]) rfl,
    outputs_bracketEvents (xs := [(cfg.opRead, q0), (cfg.addrCanstat, q1), (cfg.dummyByte, v)])
      (ys := [(cfg.opRead, q0'), (cfg.addrCanstat, q1'), (cfg.dummyByte, v')]) rfl]

/-- What `Init` drives up to its first verification. -/
def initStartOutputs (cfg : Cfg) : List Event := outputs (initStartEvents cfg 0 0 0 0)

/-- What `Init` drives after its first verification. -/
def initRestOutputs (cfg : Cfg) (m : ControllerMode) : List Event :=
  outputs (bracketsEvents (initCommands cfg m) (List.replicate 19 0))

/-- What `Init` drives, in every environment: the start, and the rest unless it returns Error. -/
theorem init_outputs {m : ControllerMode} {s t : State} (h : exec (.init m) s = .next t) :
    (outputs (t.trace.drop s.trace.length) = initStartOutputs s.cfg ∧ t.ret = .status .error) ∨
      outputs (t.trace.drop s.trace.length) = initStartOutputs s.cfg ++ initRestOutputs s.cfg m := by
  obtain ⟨r0, q0, q1, v, hended | ⟨rxs, v', hlen, hended⟩⟩ := init_ended h
  · exact .inl ⟨by rw [hended.drop_trace]; exact outputs_initStartEvents .., hended.ret⟩
  · right
    rw [hended.drop_trace, outputs_append, outputs_initStartEvents s.cfg r0 q0 q1 v 0 0 0 0,
      outputs_bracketsEvents (rxs' := List.replicate 19 0) (by simp [hlen, initCommands]) (by simp [initCommands])]
    rfl

/-- The last bracket apart. -/
theorem bracketsEvents_append_singleton {txss : List (List Byte)} {rxs : List Byte}
    (h : rxs.length = txss.flatten.length) (txs : List Byte) {last : List Byte} (hlast : last.length = txs.length) :
    bracketsEvents (txss ++ [txs]) (rxs ++ last) = bracketsEvents txss rxs ++ bracketEvents (txs.zip last) := by
  induction txss generalizing rxs with
  | nil =>
    obtain rfl : rxs = [] := List.length_eq_zero_iff.1 h
    simp [bracketsEvents, ← hlast]
  | cons head txss ih =>
    rw [List.flatten_cons, List.length_append] at h
    have hle : head.length ≤ rxs.length := by omega
    simp only [List.cons_append, bracketsEvents]
    rw [List.take_append_of_le_length hle, List.drop_append_of_le_length hle,
      ih (by rw [List.length_drop]; omega), List.append_assoc]

/-- The last thing `Init` does after its first verification is the second status read (R136). -/
theorem initCommands_events (cfg : Cfg) (m : ControllerMode) {rxs : List Byte} (hlen : rxs.length = 18) (v : Byte) :
    ∃ (before : List Event) (q0 q1 : Byte),
      bracketsEvents (initCommands cfg m) (rxs ++ [v]) = before ++ readEvents cfg cfg.addrCanstat (q0, q1, v) := by
  obtain ⟨q0, q1, hq⟩ : ∃ q0 q1, rxs.drop 16 = [q0, q1] := by
    match rxs.drop 16, (by simp [hlen] : (rxs.drop 16).length = 2) with
    | [q0, q1], _ => exact ⟨q0, q1, rfl⟩
  have hrxs : rxs ++ [v] = rxs.take 16 ++ [q0, q1, v] := by
    conv_lhs => rw [← List.take_append_drop 16 rxs, hq, List.append_assoc]
    rfl
  have hsplit : initCommands cfg m = (initCommands cfg m).take 5 ++ [[cfg.opRead, cfg.addrCanstat, cfg.dummyByte]] := rfl
  rw [hrxs, hsplit, bracketsEvents_append_singleton (by simp [hlen, initCommands])
    [cfg.opRead, cfg.addrCanstat, cfg.dummyByte] (last := [q0, q1, v]) rfl]
  exact ⟨_, q0, q1, rfl⟩

/-- `Init` returns Ok only after a status read that reported the mode (R137 (1)). -/
theorem init_ok_reads_mode {m : ControllerMode} {s t : State} (h : exec (.init m) s = .next t)
    (hok : t.ret = .status .ok) :
    ∃ (before : List Event) (q0 q1 v : Byte), t.trace = before ++ readEvents s.cfg s.cfg.addrCanstat (q0, q1, v) ∧
      modeField v = modeCode s.cfg m := by
  obtain ⟨r0, q0, q1, v, hended | ⟨rxs, v', hlen, hended⟩⟩ := init_ended h
  · rw [hended.ret] at hok
    cases hok
  · obtain ⟨before, p0, p1, hevents⟩ := initCommands_events s.cfg m hlen v'
    have hret := hended.ret
    rw [hok] at hret
    split_ifs at hret with hmode
    · refine ⟨s.trace ++ (initStartEvents s.cfg r0 q0 q1 v ++ before), p0, p1, v', ?_, hmode⟩
      rw [hended.trace, hevents, List.append_assoc, List.append_assoc]
    · cases hret

/-- Settles O27: `init_ok_reads_mode`, and the outputs of `Init` as one list cut at its first verification
(`init_outputs`). -/
theorem initDiscipline : Obligations.InitDiscipline := by
  unfold Obligations.InitDiscipline
  refine ⟨fun m s t h hok => init_ok_reads_mode h hok, fun m s s' t t' hcfg h h' => ?_⟩
  have hout := init_outputs h
  have hout' := init_outputs h'
  rw [← hcfg] at hout'
  rcases hout with ⟨hstart, herror⟩ | hfull
  · rw [hstart]
    refine ⟨.inl ?_, fun hok => by rw [herror] at hok; cases hok⟩
    rcases hout' with ⟨hstart', -⟩ | hfull'
    · rw [hstart']
    · rw [hfull']
      exact List.prefix_append _ _
  · rw [hfull]
    rcases hout' with ⟨hstart', herror'⟩ | hfull'
    · rw [hstart']
      exact ⟨.inr (List.prefix_append _ _), fun _ hok => by rw [herror'] at hok; cases hok⟩
    · rw [hfull']
      exact ⟨.inl List.prefix_rfl, fun _ _ => rfl⟩

end Sys2Proof.Machine
end

section
/-! PROOF. The stops of an operation (spec/60_exceptions.md R198, R199, 43_driver_operations.md R145): a run that has
started returns, unless it left the reference controller's model or read a DLC byte that RX_DLC_GUARD = strict refuses. -/

namespace Sys2Proof.Machine

/-- The run returns, or it has left the model of the controller that is attached (R181; log 12). -/
def Concludes (s : State) (o : Out) : Prop :=
  (∃ t, o = .next t) ∨ (s.env ≠ .oracle ∧ ∃ why, o = .refused (.outsideController why))

theorem State.concludes_finish {s u : State} (henv : u.env = s.env) (r : Result) : Concludes s (u.finish r) := by
  cases hleft : u.left with
  | none => exact .inl ⟨_, State.finish_of_left hleft r⟩
  | some why =>
    refine .inr ⟨fun horacle => ?_, why, by rw [State.finish, hleft]⟩
    rw [State.left_oracle (henv.trans horacle)] at hleft
    cases hleft

theorem State.envStep.env_eq {s t : State} (h : s.envStep t) : t.env = s.env := by
  obtain ⟨_, _, _, _, _, rfl⟩ := h
  rfl

theorem RunsTo.concludes {s : State} {o : Out} {r : Result} {es : List Event} {rxs : List Byte} {last : Byte}
    (h : RunsTo (fun _ => True) anyStep s o r es rxs last) : Concludes s o := by
  obtain ⟨b, u, hnear, -, hstep, rfl⟩ := h
  exact State.concludes_finish (hstep.env_eq.trans hnear.env) r

/-- Only the strict guard refuses a received DLC byte (R128, R199 (e)). -/
theorem strict_of_rxCount_none {guard : RxDlcGuard} {dlcb : Byte} (h : rxCount guard dlcb = none) :
    guard = .strict := by
  cases guard with
  | clamp => rw [rxCount_clamp] at h; cases h
  | strict => rfl

theorem DeliversFrame.concludes {s : State} {o : Out} {pre : List Event} {polled : List Byte}
    (h : DeliversFrame (fun _ => True) anyStep s o pre polled) :
    Concludes s o ∨ (s.cfg.rxDlcGuard = .strict ∧ o = .refused .strictDlc) := by
  obtain ⟨r0, idh, idl, x, y, dlcb, payload, ⟨hnone, hrefused⟩ | ⟨n, -, -, es, -, hruns⟩⟩ := h
  · exact .inr ⟨strict_of_rxCount_none hnone, hrefused⟩
  · exact .inl hruns.concludes

theorem CommandRuns.concludes {i : Instr} {s : State} (h : CommandRuns (fun _ => True) anyStep i s) :
    Concludes s (exec i s) := by
  obtain ⟨txs, rxs, -, -, hruns⟩ := h
  exact hruns.concludes

/-! ## DecodeRxBuffer -/

theorem decodeRx_of_length_ne {guard : RxDlcGuard} {dlcb : Byte} {n : BitVec 4} (h : rxCount guard dlcb = some n)
    {payload : List Byte} (hlen : payload.length ≠ n.toNat) (idh idl x y : Byte) :
    decodeRx guard ([idh, idl, x, y, dlcb] ++ payload) = .error .operandOutOfDomain := by
  simp only [decodeRx, List.cons_append, List.nil_append, h, if_neg hlen]

theorem decodeRx_of_count_none {guard : RxDlcGuard} {dlcb : Byte} (h : rxCount guard dlcb = none)
    (payload : List Byte) (idh idl x y : Byte) :
    decodeRx guard ([idh, idl, x, y, dlcb] ++ payload) = .error .strictDlc := by
  simp only [decodeRx, List.cons_append, List.nil_append, h]

theorem decodeRx_of_short {bytes : List Byte} (h : bytes.length < 5) (guard : RxDlcGuard) :
    decodeRx guard bytes = .error .operandOutOfDomain := by
  unfold decodeRx
  split
  · simp only [List.length_cons] at h
    omega
  · rfl

/-- A list of at least five bytes is a header and a payload (R127). -/
theorem image_cases (bytes : List Byte) :
    bytes.length < 5 ∨ ∃ idh idl x y dlcb payload, bytes = [idh, idl, x, y, dlcb] ++ payload := by
  match bytes with
  | [] | [_] | [_, _] | [_, _, _] | [_, _, _, _] => exact .inl (by simp)
  | idh :: idl :: x :: y :: dlcb :: payload => exact .inr ⟨idh, idl, x, y, dlcb, payload, rfl⟩

theorem checkImage_eq_none_iff (idh idl x y dlcb : Byte) (payload : List Byte) :
    checkImage ([idh, idl, x, y, dlcb] ++ payload) = none ↔ payload.length = min (dlcb.toNat % 16) 8 := by
  simp [checkImage]

theorem checkImage_of_short {bytes : List Byte} (h : bytes.length < 5) : checkImage bytes ≠ none := by
  unfold checkImage
  split
  · simp only [List.length_cons] at h
    omega
  · simp

/-- With RX_DLC_GUARD = clamp an image is decoded exactly inside its domain (R127, R199 (c)). -/
theorem decodeRx_clamp_of_checkImage_ne {bytes : List Byte} (h : checkImage bytes ≠ none) :
    decodeRx .clamp bytes = .error .operandOutOfDomain := by
  obtain hshort | ⟨idh, idl, x, y, dlcb, payload, rfl⟩ := image_cases bytes
  · exact decodeRx_of_short hshort _
  · refine decodeRx_of_length_ne (rxCount_clamp dlcb) ?_ idh idl x y
    rw [ofNat_min_toNat]
    exact mt (checkImage_eq_none_iff idh idl x y dlcb payload).2 h

/-- An image of the domain is decoded, or refused by the strict guard (R127, R128). -/
theorem decodeRx_of_checkImage {bytes : List Byte} (h : checkImage bytes = none) (guard : RxDlcGuard) :
    (∃ f, decodeRx guard bytes = .ok f) ∨ (guard = .strict ∧ decodeRx guard bytes = .error .strictDlc) := by
  obtain hshort | ⟨idh, idl, x, y, dlcb, payload, rfl⟩ := image_cases bytes
  · exact absurd h (checkImage_of_short hshort)
  · have hlen := (checkImage_eq_none_iff idh idl x y dlcb payload).1 h
    cases hcount : rxCount guard dlcb with
    | none => exact .inr ⟨strict_of_rxCount_none hcount, decodeRx_of_count_none hcount payload idh idl x y⟩
    | some n =>
      have hn : payload.length = n.toNat := by
        cases guard with
        | clamp =>
          rw [rxCount_clamp] at hcount
          cases hcount
          rw [ofNat_min_toNat, hlen]
        | strict =>
          have hsmall : dlcb.toNat ≤ 8 := by
            by_contra hlarge
            have : dlcb > 8 := by
              show (8 : Byte) < dlcb
              rw [BitVec.lt_def]
              exact not_le.1 hlarge
            rw [rxCount_strict_none this] at hcount
            cases hcount
          rw [rxCount_small .strict hsmall] at hcount
          cases hcount
          rw [dlc_toNat hsmall, hlen]
          omega
      exact .inl ⟨_, decodeRx_of_count hcount hn idh idl x y⟩

/-- `DecodeRxBuffer` of a list that stands for a frame returns it (R127). -/
theorem exec_decodeRxBuffer_next {s : State} {bytes : List Byte} {f : CanFrame} (hready : s.ready)
    (hleft : s.left = none) (hframe : decodeRx s.cfg.rxDlcGuard bytes = .ok f) :
    exec (.decodeRxBuffer bytes) s = .next ((s.enter .decodeRxBuffer).returned (.frame f)) := by
  have hstart : exec (.decodeRxBuffer bytes) s = execDecodeRxBuffer bytes s := rfl
  rw [hstart, execDecodeRxBuffer, State.whenReady_of hready, hframe]
  exact State.finish_of_left ((s.left_enter _).trans hleft) _

theorem exec_decodeRxBuffer_refused {s : State} {bytes : List Byte} {why : Refusal} (hready : s.ready)
    (hframe : decodeRx s.cfg.rxDlcGuard bytes = .error why) : exec (.decodeRxBuffer bytes) s = .refused why := by
  have hstart : exec (.decodeRxBuffer bytes) s = execDecodeRxBuffer bytes s := rfl
  rw [hstart, execDecodeRxBuffer, State.whenReady_of hready, hframe]

/-- Settles O23: `decodeRx` by the count that the DLC byte asks for. -/
theorem decodeRxBufferFrame : Obligations.DecodeRxBufferFrame := by
  unfold Obligations.DecodeRxBufferFrame
  refine ⟨fun s idh idl r1 r2 dlcb payload n hready hleft hcount => ⟨fun hlen => ?_, fun hlen => ?_⟩,
    fun s idh idl r1 r2 dlcb payload hready hcount => ?_, fun s bytes hready hshort => ?_⟩
  · have hframe := decodeRx_of_count hcount hlen idh idl r1 r2
    rw [rxId_eq] at hframe
    exact ⟨_, exec_decodeRxBuffer_next hready hleft hframe, s.enter_returned_didNothingBut _ _⟩
  · exact exec_decodeRxBuffer_refused hready (decodeRx_of_length_ne hcount hlen idh idl r1 r2)
  · exact exec_decodeRxBuffer_refused hready (decodeRx_of_count_none hcount payload idh idl r1 r2)
  · exact exec_decodeRxBuffer_refused hready (decodeRx_of_short hshort _)

/-! ## Encoding and decoding (R129) -/

theorem idHighByte_rxId (idh idl : Byte) : idHighByte (rxId idh idl) = idh := by
  apply BitVec.eq_of_getLsbD_eq
  intro i hi
  interval_cases i <;> simp [idHighByte, rxId]

theorem idLowByte_rxId (idh idl : Byte) : idLowByte (rxId idh idl) = idl &&& 0xE0 := by
  apply BitVec.eq_of_getLsbD_eq
  intro i hi
  rw [idLow_getLsbD]
  interval_cases i <;> simp [rxId]

/-- The image of a frame of the domain is decoded to it, with both values of RX_DLC_GUARD. -/
theorem decodeRx_encodeTx (guard : RxDlcGuard) (reserved : Byte) {f : FrameOperand} (h : f.check = none) :
    decodeRx guard (encodeTx reserved ⟨f.id.setWidth 11, f.dlc.setWidth 4, f.data⟩) =
      .ok ⟨f.id.setWidth 11, f.dlc.setWidth 4, f.data⟩ := by
  obtain ⟨-, hdlc, hdata⟩ := (check_none_iff f).1 h
  have hcount : rxCount guard ((f.dlc.setWidth 4).setWidth 8) = some (f.dlc.setWidth 4) := by
    rw [dlc_eq hdlc]
    exact rxCount_small guard hdlc
  rw [encodeTx, decodeRx_of_count hcount (hdata.trans (dlc_toNat hdlc).symm), rxId_bytes]

/-- The image of a decoded frame is the image decoded, with the ignored bits cleared. -/
theorem encodeTx_of_decodeRx {idh idl r1 r2 dlcb : Byte} {payload : List Byte} {f : CanFrame}
    (h : decodeRx .clamp ([idh, idl, r1, r2, dlcb] ++ payload) = .ok f) (reserved : Byte) :
    encodeTx reserved f =
      [idh, idl &&& 0xE0, reserved, reserved, BitVec.ofNat 8 (min (dlcb.toNat % 16) 8)] ++ payload := by
  have hcount := rxCount_clamp dlcb
  by_cases hlen : payload.length = (BitVec.ofNat 4 (min (dlcb.toNat % 16) 8)).toNat
  · rw [decodeRx_of_count hcount hlen] at h
    cases h
    have hdlc : (BitVec.ofNat 4 (min (dlcb.toNat % 16) 8)).setWidth 8 = BitVec.ofNat 8 (min (dlcb.toNat % 16) 8) := by
      apply BitVec.eq_of_toNat_eq
      simp
    rw [encodeTx, idHighByte_rxId, idLowByte_rxId, hdlc]
  · rw [decodeRx_of_length_ne hcount hlen] at h
    cases h

/-- Settles O25: `decodeRx_encodeTx` and `encodeTx_of_decodeRx`. -/
theorem codecRoundTrip : Obligations.CodecRoundTrip := by
  unfold Obligations.CodecRoundTrip
  refine ⟨fun s f hready hleft hcheck => ?_, fun idh idl r1 r2 dlcb reserved payload f h => encodeTx_of_decodeRx h _⟩
  have hencode := exec_encodeTxBuffer_next hready hleft (toFrame_of_check hcheck)
  obtain ⟨hinited, -⟩ := hready
  exact ⟨_, _, _, hencode, rfl,
    exec_decodeRxBuffer_next ⟨hinited, rfl⟩ hleft (decodeRx_encodeTx s.cfg.rxDlcGuard s.cfg.txReservedByte hcheck), rfl⟩

/-! ## The stops -/

/-- Settles O35: the first check of an operation once R199 (a) and (b) let it run. -/
theorem operandOutOfDomainRefused : Obligations.OperandOutOfDomainRefused := by
  unfold Obligations.OperandOutOfDomainRefused
  intro i s hready hwf hclamp
  cases hi : usesBracket i with
  | true =>
    obtain ⟨k, hexec, hbody⟩ := exec_bracketBody hi s
    rw [hexec, State.whenReady_of hready]
    cases hbody with
    | outOfDomain => rfl
    | guarded hin => exact absurd hin hwf
  | false =>
    cases i with
    | encodeTxBuffer frame => exact exec_encodeTxBuffer_refused hready (toFrame_none hwf)
    | decodeRxBuffer bytes =>
      refine exec_decodeRxBuffer_refused hready ?_
      rw [hclamp bytes rfl]
      exact decodeRx_clamp_of_checkImage_ne hwf
    | spiInit | assertSelect | deassertSelect | transfer => exact absurd rfl hwf
    | _ => cases hi

/-- A run that has started returns, leaves the controller's model, or is refused by the strict guard. -/
theorem exec_concludes {i : Instr} {s : State} (hwf : i.wf s.cfg.wBound) (hready : s.ready)
    (hcs : usesBracket i = true → s.pinCs = true) :
    Concludes s (exec i s) ∨
      (s.cfg.rxDlcGuard = .strict ∧ readsLength i = true ∧ exec i s = .refused .strictDlc) := by
  have hstart (hi : usesBracket i = true) : s.mayStart := ⟨hready, hcs hi⟩
  cases i with
  | spiInit =>
    have hexec : exec .spiInit s = (s.enter .spiInit).spiInit.finish .nothing := if_neg (not_not.2 hready.2)
    rw [hexec]
    exact .inl (State.concludes_finish (s.enter .spiInit).spiInit_envStep.env_eq _)
  | assertSelect =>
    have hexec : exec .assertSelect s = _ := State.whenReady_of hready _
    rw [hexec]
    exact .inl (State.concludes_finish ((s.enter .assertSelect).pinWrite_envStep .cs false).env_eq _)
  | deassertSelect =>
    have hexec : exec .deassertSelect s = _ := State.whenReady_of hready _
    rw [hexec]
    exact .inl (State.concludes_finish ((s.enter .deassertSelect).pinWrite_envStep .cs true).env_eq _)
  | transfer tx =>
    have hexec : exec (.transfer tx) s = _ := State.whenReady_of hready _
    rw [hexec]
    exact .inl (State.concludes_finish ((s.enter .transfer).transfer_envStep tx).env_eq _)
  | cmdReset => exact .inl (envLaw_any.cmdReset_runs trivial (hstart rfl)).concludes
  | cmdReadRegister addr =>
    exact .inl (envLaw_any.cmdReadRegister_runs EnvLaw.fixes_any trivial (hstart rfl) addr).concludes
  | cmdWriteRegister addr val => exact .inl (envLaw_any.cmdWriteRegister_runs trivial (hstart rfl) addr val).concludes
  | cmdBitModify addr mask val =>
    exact .inl (envLaw_any.cmdBitModify_runs trivial (hstart rfl) addr mask val).concludes
  | cmdLoadTxBuffer id dlc data =>
    obtain ⟨hid, hdlc, hdata⟩ := (check_none_iff ⟨id, dlc, data⟩).1 hwf
    exact .inl (envLaw_any.cmdLoadTxBuffer_runs trivial (hstart rfl) hid hdlc hdata).concludes
  | cmdRequestToSend => exact .inl (envLaw_any.cmdRequestToSend_runs trivial (hstart rfl)).concludes
  | cmdReadRxBuffer =>
    obtain ⟨r0, idh, idl, x, y, dlcb, payload, ⟨hnone, hrefused⟩ | ⟨n, -, -, hruns⟩⟩ :=
      envLaw_any.cmdReadRxBuffer_runs EnvLaw.fixes_any trivial (hstart rfl)
    · exact .inr ⟨strict_of_rxCount_none hnone, rfl, hrefused⟩
    · exact .inl hruns.concludes
  | encodeTxBuffer frame =>
    have hexec : exec (.encodeTxBuffer frame) s = _ := State.whenReady_of hready _
    rw [hexec, toFrame_of_check hwf]
    exact .inl (State.concludes_finish rfl _)
  | decodeRxBuffer bytes =>
    obtain ⟨f, hframe⟩ | ⟨hstrict, hrefused⟩ := decodeRx_of_checkImage hwf s.cfg.rxDlcGuard
    · have hexec : exec (.decodeRxBuffer bytes) s = _ := State.whenReady_of hready _
      rw [hexec, hframe]
      exact .inl (State.concludes_finish rfl _)
    · exact .inr ⟨hstrict, rfl, exec_decodeRxBuffer_refused hready hrefused⟩
  | init target =>
    obtain ⟨r0, q0, q1, v, hruns⟩ :=
      envLaw_any.init_runs EnvLaw.fixes_any trivial (hstart rfl) (init_ne_configuration hwf)
    split_ifs at hruns
    · exact .inl hruns.concludes
    · obtain ⟨rxs, v', -, hruns⟩ := hruns
      exact .inl hruns.concludes
  | transmit frame =>
    obtain ⟨q0, q1, c, hruns⟩ :=
      envLaw_any.transmit_runs EnvLaw.fixes_any trivial (hstart rfl) (toFrame_of_check hwf)
    split_ifs at hruns
    · exact .inl hruns.concludes
    · obtain ⟨ls, r, -, hruns⟩ := hruns
      exact .inl hruns.concludes
  | receive =>
    obtain ⟨q0, q1, f, hruns⟩ := envLaw_any.receive_runs EnvLaw.fixes_any trivial (hstart rfl)
    split_ifs at hruns
    · exact .inl hruns.concludes
    · exact hruns.concludes.imp_right fun ⟨hstrict, hrefused⟩ => ⟨hstrict, rfl, hrefused⟩
  | receiveWithTimeout bound =>
    obtain ⟨ps, -, ⟨-, b, u, hwaited, -, hstep, hexec⟩ | ⟨-, q0, q1, f, -, hruns⟩⟩ :=
      envLaw_any.receiveWithTimeout_runs EnvLaw.fixes_any trivial (hstart rfl) (bound_lt_of_wf hwf)
    · rw [hexec]
      exact .inl (State.concludes_finish (hstep.env_eq.trans hwaited.env) _)
    · exact hruns.concludes.imp_right fun ⟨hstrict, hrefused⟩ => ⟨hstrict, rfl, hrefused⟩

/-- Settles O36: the account of every operation ends in a return or a refusal (`exec_concludes`). -/
theorem everyEnvironmentReturns : Obligations.EveryEnvironmentReturns := by
  unfold Obligations.EveryEnvironmentReturns
  intro i s hwf hready hcs
  obtain (hnext | hleft) | hstrict := exec_concludes hwf hready hcs
  · exact .inl hnext
  · exact .inr (.inl hleft)
  · exact .inr (.inr hstrict)

theorem State.receiveLoop_zero {s : State} (hleft : s.left = none) :
    s.receiveLoop 0 = .next (s.returned (.status .timeout)) := by
  rw [State.receiveLoop, State.finish_of_left hleft]

/-- What an operation leaves in SEQ and in the scratch space is not seen after its return. -/
theorem State.returned_of_scratch_didNothingBut (s : State) (l : Seq) (sc : Scratch) (r : Result) :
    s.didNothingBut (({ s with seq := l, scratch := sc } : State).returned r) r :=
  ⟨rfl, rfl, ⟨rfl, rfl, rfl⟩, rfl, ⟨rfl, rfl, rfl, rfl, rfl, rfl, rfl, rfl, rfl⟩, State.keepsController_of_ctl rfl rfl⟩

/-- Settles O32: with a bound of 0 the loop ends before its first poll. -/
theorem receiveWithTimeoutZero : Obligations.ReceiveWithTimeoutZero := by
  unfold Obligations.ReceiveWithTimeoutZero
  intro s hready hcs hleft
  have hexec := exec_receiveWithTimeout ⟨hready, hcs⟩ (Nat.two_pow_pos s.cfg.wBound)
  have hleft' : ((s.enter .loop).setTmo 0).left = none := hleft
  exact ⟨_, hexec.trans (State.receiveLoop_zero hleft'), 
    s.returned_of_scratch_didNothingBut .loop { s.scratch with tmo := 0 } _⟩

/-- Settles O10: `DeassertSelect` is one write of CS (`State.csWrite_returns`). -/
theorem deassertSelectDrivesHigh : Obligations.DeassertSelectDrivesHigh := by
  unfold Obligations.DeassertSelectDrivesHigh
  refine ⟨fun _ => rfl, fun s hready hstays => ?_, fun s hinited => State.whenReady_notInitialised hinited _,
    fun s hinited hseq => State.whenReady_inProgress hinited hseq _⟩
  obtain ⟨t, hret, hdone⟩ := State.csWrite_returns hstays .deassertSelect true
  exact ⟨t, (State.whenReady_of hready _).trans hret, hdone⟩

end Sys2Proof.Machine
end

section
/-! PROOF. The reference controller, rule by rule (spec/49_environment_controller_model.md R162 to R179): the registers
after a write, a request to send, a reset and each internal step; what each parser state takes and outputs; and the
byte that eight clock pulses make. -/

namespace Sys2Proof.Machine

namespace Controller

/-! ## Writes (R169, R170) -/

/-- The writes that `RegWrite` does not make: while a reset settles, to the status register, to the bit-timing
registers outside Configuration mode (R169). -/
def refusesWrite (c : Controller) (a : RegAddr) : Prop :=
  c.settling = true ∨ a = 0x0E ∨ ((a = 0x28 ∨ a = 0x29 ∨ a = 0x2A) ∧ c.mode ≠ 0b100)

theorem regWrite_of_refused {c : Controller} {a : RegAddr} (h : c.refusesWrite a) (mask v : Byte) :
    c.regWrite a mask v = c := by
  unfold regWrite
  by_cases hs : c.settling = true
  · rw [if_pos hs]
  · by_cases ha : a = 0x0E
    · rw [if_neg hs, if_pos ha]
    · rw [if_neg hs, if_neg ha, if_pos ((h.resolve_left hs).resolve_left ha)]

theorem rd_noteWrite (c : Controller) (a : RegAddr) (b : Nat) : (c.noteWrite a).rd b = c.rd b := by
  simp only [rd, noteWrite_reg]

/-- A register that takes a write merges the byte under the mask; in the transmit-control register only the bits of
0x0B are written (R169). -/
theorem rd_regWrite_of_taken {c : Controller} (hw : c.reg.wf) {a : RegAddr} (h : ¬ c.refusesWrite a) (mask v : Byte)
    (b : Nat) : (c.regWrite a mask v).rd b =
      if b = a.toNat then mergeByte (c.rd b) (if a = 0x30 then mask &&& 0x0B else mask) v else c.rd b := by
  simp only [refusesWrite, not_or] at h
  obtain ⟨hs, ha, hm⟩ := h
  rw [regWrite, if_neg hs, if_neg ha, if_neg hm]
  by_cases h30 : a = 0x30
  · subst h30
    rw [if_pos rfl, if_pos rfl, rd_wr hw]
    by_cases hb : b = 0x30 <;> simp [hb]
  · rw [if_neg h30, if_neg h30, rd_noteWrite, rd_wr hw]
    by_cases hb : b = a.toNat <;> simp [hb]

theorem mergeByte_masked (old mask v m : Byte) :
    mergeByte old (mask &&& m) v = (old &&& ~~~(mask &&& m)) ||| (v &&& mask &&& m) := by
  rw [mergeByte, BitVec.and_assoc]

theorem address_pst (c : Controller) (ib : Byte) (next : Parser) : (c.address ib next).pst = next := by
  unfold address
  split <;> rfl

theorem address_reg (c : Controller) (ib : Byte) (next : Parser) : (c.address ib next).reg = c.reg := by
  unfold address
  split <;> rfl

/-- The parser states in which nothing is output (R163): all but the data state of a read. -/
theorem output_eq_none {c : Controller} (h : ∀ ptr, c.pst ≠ .rdData ptr) : c.output = none := by
  unfold output
  split
  case h_1 ptr hpst => exact absurd hpst (h ptr)
  all_goals rfl

theorem output_of_rdData {c : Controller} {ptr : RegAddr} (h : c.pst = .rdData ptr) : c.output = c.outAt ptr := by
  unfold output outAt
  rw [h]

theorem byteStep_of_waitOpcode {c : Controller} (h : c.pst = .waitOpcode) (ib : Byte) : c.byteStep ib = c.opcode ib := by
  unfold byteStep
  rw [h]

/-- A byte that is none of the seven opcodes is noted and leads to the state that takes nothing (R164; log 12). -/
theorem opcode_of_unknown {ib : Byte} (h : ib ∉ ([0xC0, 0x03, 0x02, 0x05, 0x40, 0x81, 0x90] : List Byte))
    (c : Controller) : c.opcode ib = { c.note (.unknownOpcode ib) with pst := .unknown } := by
  simp only [List.mem_cons, List.not_mem_nil, or_false, not_or] at h
  obtain ⟨h1, h2, h3, h4, h5, h6, h7⟩ := h
  simp only [opcode, h1, h2, h3, h4, h5, h6, h7, if_false]

/-! ## The bytes of the wire (R162) -/

theorem clockRise_early {c : Controller} (h : c.edges ≠ 7) (b : Level) :
    c.clockRise b = c.onWire (c.shiftIn <<< 1 ||| BitVec.ofNat 8 b.toNat) (c.edges + 1) := by
  have h8 : ¬ c.edges + 1 = 8 := by omega
  simp only [clockRise, if_neg h8]
  rfl

theorem clockRise_last {c : Controller} (h : c.edges = 7) (b : Level) :
    c.clockRise b = (c.onWire (c.shiftIn <<< 1 ||| BitVec.ofNat 8 b.toNat) 8).byteStep
      (c.shiftIn <<< 1 ||| BitVec.ofNat 8 b.toNat) := by
  simp only [clockRise, h, if_pos]
  rfl

/-- Eight rising edges of SCK are one byte step of the byte they shift in (R162, R163). -/
theorem foldl_clockRise {c : Controller} (h : c.edges = 0) (ib : Byte) :
    (wireBits ib).foldl clockRise c = (c.onWire ib 8).byteStep ib := by
  have hearly : ∀ (x : Byte) (n : Nat) (b : Level), n ≠ 7 →
      (c.onWire x n).clockRise b = c.onWire (x <<< 1 ||| BitVec.ofNat 8 b.toNat) (n + 1) :=
    fun x n b hn => clockRise_early (c := c.onWire x n) hn b
  have hlast : ∀ (x : Byte) (b : Level), (c.onWire x 7).clockRise b =
      (c.onWire (x <<< 1 ||| BitVec.ofNat 8 b.toNat) 8).byteStep (x <<< 1 ||| BitVec.ofNat 8 b.toNat) :=
    fun x b => clockRise_last (c := c.onWire x 7) rfl b
  have hstart : c = c.onWire c.shiftIn 0 := by rw [← h]; rfl
  have hbyte := shiftedIn c.shiftIn ib
  conv_lhs => rw [hstart]
  simp only [wireBits, List.foldl_cons, List.foldl_nil]
  rw [hearly _ 0 _ (by decide), hearly _ 1 _ (by decide), hearly _ 2 _ (by decide), hearly _ 3 _ (by decide),
    hearly _ 4 _ (by decide), hearly _ 5 _ (by decide), hearly _ 6 _ (by decide), hlast, hbyte]

/-! ## The internal steps (R166, R175 to R178) -/

/-- The registers after a reset (R166). -/
theorem rd_finishReset {c : Controller} (hs : c.settling = true) (fill : Nat → Byte) {a : Nat} (ha : a < 128) :
    (c.finishReset fill).rd a = resetReg fill a := by
  rw [finishReset, if_pos hs, rd, Memory.read_ofFn _ ha]

theorem settling_finishReset (c : Controller) (fill : Nat → Byte) : (c.finishReset fill).settling = false := by
  unfold finishReset
  split
  · rfl
  · rename_i h
    simpa using h

/-- A transmission that is over (R176, R177). -/
theorem rd_sent {c : Controller} (hw : c.reg.wf) (b : Nat) : c.sent.rd b =
    if b = 0x30 then c.rd 0x30 &&& 0xF7 else if b = 0x2C then c.rd 0x2C ||| 0x04 else c.rd b := by
  have hw' := wr_wf hw (show 0x30 < 128 by decide) (c.rd 0x30 &&& 0xF7)
  rw [sent, rd_wr hw', rd_wr hw, rd_wr hw]
  by_cases h30 : b = 0x30
  · simp [h30]
  · simp [h30]

/-- A frame that finds receive buffer 0 free (R176, R178). -/
theorem rd_arrive_stored {c : Controller} (hw : c.reg.wf) (hfree : c.rxFlag = false) {image : List Byte}
    (hlen : image.length = 13) (b : Nat) : (c.arrive image).rd b =
      if 0x61 ≤ b ∧ b ≤ 0x6D then image.getD (b - 0x61) 0 else if b = 0x2C then c.rd 0x2C ||| 0x01 else c.rd b := by
  have hfits : 0x61 + image.length ≤ 128 := by omega
  have hw' := wrSeq_wf (c := c) hw hfits
  have hread := rd_wrSeq (c := c) hw hfits
  rw [arrive, hfree, if_neg (by decide), rd_wr hw', hread 0x2C, dif_neg (by omega), hread b]
  by_cases hin : 0x61 ≤ b ∧ b ≤ 0x6D
  · have hlt : b - 0x61 < image.length := by omega
    rw [if_neg (by omega), if_pos hin, dif_pos ⟨hin.1, hlt⟩, List.getD_eq_getElem _ _ hlt]
  · rw [if_neg hin, dif_neg (by omega)]

/-- A frame that finds receive buffer 0 full is lost (R176, R178). -/
theorem rd_arrive_lost {c : Controller} (hw : c.reg.wf) (hfull : c.rxFlag = true) (image : List Byte) (b : Nat) :
    (c.arrive image).rd b = if b = 0x2D then c.rd 0x2D ||| 0x40 else c.rd b := by
  rw [arrive, hfull, if_pos rfl, rd_wr hw]

end Controller

/-! ## The statements -/

/-- Settles O45: `RegWrite` by the cases of R169 (`rd_regWrite_of_taken`), the parser states by evaluation. -/
theorem regWriteRule : Obligations.RegWriteRule := by
  unfold Obligations.RegWriteRule
  refine ⟨fun c a mask v b hw => ?_, fun c h => ?_, fun c ib h => ?_, fun c ib ptr h => ?_⟩
  · by_cases hrefused : c.refusesWrite a
    · rw [Controller.regWrite_of_refused hrefused, if_pos (.inr hrefused)]
    · rw [Controller.rd_regWrite_of_taken hw hrefused]
      by_cases hb : b = a.toNat
      · refine (if_pos hb).trans (Eq.trans ?_ (if_neg (not_or.2 ⟨not_not.2 hb, hrefused⟩)).symm)
        split
        · exact Controller.mergeByte_masked _ _ _ _
        · rfl
      · rw [if_neg hb, if_pos (.inl hb)]
  · exact ⟨Controller.output_eq_none (by simp [h]), Controller.byteStep_of_waitOpcode h _,
      Controller.byteStep_of_waitOpcode h _⟩
  · have hstep : c.byteStep ib = c.address ib (.wrData (ib.setWidth 7)) := by rw [Controller.byteStep, h]
    rw [hstep]
    exact ⟨Controller.output_eq_none (by simp [h]), c.address_pst _ _, c.address_reg _ _⟩
  · have hstep : c.byteStep ib = { c.regWrite ptr 0xFF ib with pst := .wrData (ptr + 1) } := by
      rw [Controller.byteStep, h]
    rw [hstep]
    exact ⟨Controller.output_eq_none (by simp [h]), rfl, rfl⟩

/-- Settles O46: the opcode and the three parser states that follow it. -/
theorem bitModifyRule : Obligations.BitModifyRule := by
  unfold Obligations.BitModifyRule
  refine ⟨fun c h => ?_, fun c ib h => ?_, fun c ib a h => ?_, fun c ib m a h => ?_⟩
  · exact ⟨Controller.output_eq_none (by simp [h]), Controller.byteStep_of_waitOpcode h _⟩
  · have hstep : c.byteStep ib = c.address ib (.bmMask (ib.setWidth 7)) := by rw [Controller.byteStep, h]
    rw [hstep]
    exact ⟨Controller.output_eq_none (by simp [h]), c.address_pst _ _, c.address_reg _ _⟩
  · have hstep : c.byteStep ib = { c with pst := .bmData a ib } := by rw [Controller.byteStep, h]
    rw [hstep]
    exact ⟨Controller.output_eq_none (by simp [h]), rfl, rfl⟩
  · have hstep : c.byteStep ib = { c.regWrite a m ib with pst := .done } := by rw [Controller.byteStep, h]
    rw [hstep]
    exact ⟨Controller.output_eq_none (by simp [h]), rfl, rfl⟩

/-- Settles O47: the two opcodes of a read and the parser states they lead to. -/
theorem readRule : Obligations.ReadRule := by
  unfold Obligations.ReadRule
  refine ⟨fun c h => ?_, fun c ib h => ?_, fun c ib ptr h hs => ?_⟩
  · exact ⟨Controller.output_eq_none (by simp [h]), Controller.byteStep_of_waitOpcode h _,
      Controller.byteStep_of_waitOpcode h _⟩
  · have hstep : c.byteStep ib = c.address ib (.rdData (ib.setWidth 7)) := by rw [Controller.byteStep, h]
    rw [hstep]
    exact ⟨Controller.output_eq_none (by simp [h]), c.address_pst _ _, c.address_reg _ _⟩
  · have hstep : c.byteStep ib = { c with pst := .rdData (ptr + 1) } := by rw [Controller.byteStep, h]
    rw [hstep, Controller.output_of_rdData h, Controller.outAt, hs]
    exact ⟨rfl, rfl, rfl⟩

/-- Settles O48: the request to send is one write, and none while a reset settles. -/
theorem requestToSendRule : Obligations.RequestToSendRule := by
  unfold Obligations.RequestToSendRule
  refine ⟨fun c h => ⟨Controller.output_eq_none (by simp [h]), Controller.byteStep_of_waitOpcode h _⟩, fun c b hw => ?_⟩
  cases hs : c.settling with
  | true => simp [Controller.requestToSend, hs]
  | false =>
    rw [Controller.requestToSend_of hs, Controller.rd_wr hw]
    simp

/-- Settles O49: the reset writes every register (`Controller.rd_finishReset`), and a settling controller takes no write
and outputs nothing. -/
theorem resetRegisters : Obligations.ResetRegisters := by
  unfold Obligations.ResetRegisters
  refine ⟨fun c fill hs => ?_, fun c h => ?_, fun c a mask v hs => ?_⟩
  · have hrd := fun a ha => Controller.rd_finishReset hs fill (a := a) ha
    refine ⟨c.settling_finishReset fill, ?_, ?_, ?_, ?_, ?_, ?_, ?_, ?_, ?_, ?_, fun a ha hother => ?_⟩
    case refine_11 =>
      simp only [List.mem_cons, List.not_mem_nil, or_false, not_or] at hother
      obtain ⟨h1, h2, h3, h4, h5, h6, h7, h8, h9, h10⟩ := hother
      rw [hrd a ha]
      simp only [resetReg, h1, h2, h3, h4, h5, h6, h7, h8, h9, h10, or_false, if_false]
    all_goals rw [hrd _ (by decide)]; rfl
  · have hstep : c.byteStep 0xC0 = { c with settling := true, settleLeft := 10, pst := .done } :=
      Controller.byteStep_of_waitOpcode h _
    refine ⟨Controller.output_eq_none (by simp [h]), hstep, fun fill => ?_⟩
    rw [hstep, Controller.elapse, if_pos (le_refl 10)]
    exact Controller.settling_finishReset _ fill
  · refine ⟨Controller.regWrite_of_refused (.inl hs) _ _, by rw [Controller.requestToSend, if_pos hs], ?_⟩
    unfold Controller.output
    split
    · rw [if_pos hs]
    all_goals rfl

theorem modeField_merged (x y : Byte) :
    x &&& 0x1F ||| (y.extractLsb' 5 3).setWidth 8 <<< 5 = (x &&& 0x1F) ||| (y &&& 0xE0) := by
  have hy : ∀ y : Byte, (y.extractLsb' 5 3).setWidth 8 <<< 5 = y &&& 0xE0 := by decide +kernel
  rw [hy]
  rfl

/-- A mode field that is already the one requested is its own merge. -/
theorem modeField_same {x y : Byte} (h : y.extractLsb' 5 3 = x.extractLsb' 5 3) :
    (x &&& (0x1F : Byte)) ||| (y &&& 0xE0) = x := by
  have hx : ∀ x : Byte, x &&& 0x1F ||| (x.extractLsb' 5 3).setWidth 8 <<< 5 = x := by decide +kernel
  rw [← modeField_merged, h, hx]

/-- Settles O51: enabled, the mode change is one write of the status register; not enabled, that register already holds
what the write would put there, or no mode of the three is asked for. -/
theorem modeChangeStep : Obligations.ModeChangeStep := by
  unfold Obligations.ModeChangeStep
  intro c b hw
  by_cases hon : c.settling = false ∧ c.request ≠ c.mode ∧ (c.request = 0b000 ∨ c.request = 0b010 ∨ c.request = 0b100)
  · rw [Controller.changeMode, if_pos hon, Controller.rd_wr hw, Controller.request, modeField_merged]
    obtain ⟨hs, -, hcode⟩ := hon
    by_cases hb : b = 0x0E
    · rw [if_pos hb, if_pos ⟨hb, hs, hcode⟩]
    · rw [if_neg hb, if_neg fun h => hb h.1]
  · rw [Controller.changeMode, if_neg hon]
    by_cases hcond : b = 0x0E ∧ c.settling = false ∧ (c.request = 0b000 ∨ c.request = 0b010 ∨ c.request = 0b100)
    · obtain ⟨hb, hs, hcode⟩ := hcond
      have hsame : c.request = c.mode := by
        by_contra hne
        exact hon ⟨hs, hne, hcode⟩
      rw [if_pos ⟨hb, hs, hcode⟩, modeField_same hsame, hb]
    · exact (if_neg hcond).symm

end Sys2Proof.Machine
end

section
/-! PROOF. Delivery and transmission at the reference controller (spec/49_environment_controller_model.md R176 to R179). -/

namespace Sys2Proof.Machine

namespace Controller

/-! ## The image that loopback delivers (R176) -/

theorem loopImage_payload (fill : Nat → Byte) (c : Controller) {k : Nat} (hk : k < 8) :
    (c.loopImage fill).getD (5 + k) 0 =
      if k < min ((c.rd 0x35).toNat % 16) 8 then c.rd (0x36 + k) else fill (0x66 + k) := by
  have hk' : 5 + k - 5 = k := by omega
  simp only [loopImage, List.getD_eq_getElem?_getD]
  rw [List.getElem?_append_right (Nat.le_add_right 5 k), List.length_cons, List.length_cons, List.length_cons,
    List.length_cons, List.length_cons, List.length_nil, hk', List.getElem?_map, List.getElem?_range hk]
  rfl

/-- Every register after a delivery into a free receive buffer. -/
theorem rd_arrive_sent_stored {c : Controller} (hw : c.reg.wf) (hfree : c.rxFlag = false) {image : List Byte}
    (hlen : image.length = 13) (b : Nat) : (c.arrive image).sent.rd b =
      if b = 0x30 then c.rd 0x30 &&& 0xF7
      else if b = 0x2C then c.rd 0x2C ||| 0x05
      else if 0x61 ≤ b ∧ b ≤ 0x6D then image.getD (b - 0x61) 0 else c.rd b := by
  have hread := rd_arrive_stored hw hfree hlen
  have hor : c.rd 0x2C ||| 0x01 ||| 0x04 = c.rd 0x2C ||| 0x05 := BitVec.or_assoc _ _ _
  rw [rd_sent (arrive_wf hw hlen), hread 0x30, hread 0x2C, hread b]
  by_cases h30 : b = 0x30
  · simp [h30]
  · by_cases h2C : b = 0x2C
    · simpa [h2C] using hor
    · simp [h30, h2C]

/-- Every register after a delivery that finds the receive buffer full. -/
theorem rd_arrive_sent_lost {c : Controller} (hw : c.reg.wf) (hfull : c.rxFlag = true) {image : List Byte}
    (hlen : image.length = 13) (b : Nat) : (c.arrive image).sent.rd b =
      if b = 0x30 then c.rd 0x30 &&& 0xF7
      else if b = 0x2C then c.rd 0x2C ||| 0x04
      else if b = 0x2D then c.rd 0x2D ||| 0x40 else c.rd b := by
  have hread := rd_arrive_lost hw hfull image
  rw [rd_sent (arrive_wf hw hlen), hread 0x30, hread 0x2C, hread b]
  simp

/-! ## What leaves the model when it is sent (R181) -/

theorem outside_noteBus {c : Controller} (h : c.outside = none) : c.noteBus.outside =
    if (c.rd 0x32).getLsbD 3 = true then some .extendedFrame
    else if (c.rd 0x35).getLsbD 6 = true then some .remoteFrame else none := by
  unfold noteBus
  split
  · simp [note, h]
  · split
    · simp [note, h]
    · exact h

theorem rd_noteBus (c : Controller) (b : Nat) : c.noteBus.rd b = c.rd b := by
  simp only [rd, noteBus_reg]

end Controller

/-- Settles O52: a delivery is an arrival of the loopback image and the end of the transmission. -/
theorem loopbackDeliveryStep : Obligations.LoopbackDeliveryStep := by
  unfold Obligations.LoopbackDeliveryStep
  intro c fill hw hmode hpending d n
  have hd : d = (c.arrive (c.loopImage fill)).sent := if_pos ⟨hmode, hpending⟩
  have hlen := c.loopImage_length fill
  have hclears : d.rd 0x30 = c.rd 0x30 &&& 0xF7 := by
    rw [hd, Controller.rd_sent (Controller.arrive_wf hw hlen)]
    cases hflag : c.rxFlag with
    | false => rw [Controller.rd_arrive_stored hw hflag hlen]; rfl
    | true => rw [Controller.rd_arrive_lost hw hflag]; rfl
  refine ⟨hclears, fun hfree => ?_, fun hfull => ?_⟩
  · have hread : ∀ b, d.rd b = _ := fun b => hd ▸ Controller.rd_arrive_sent_stored hw hfree hlen b
    refine ⟨hread 0x61, hread 0x62, hread 0x63, hread 0x64, hread 0x65, fun k hk => ?_, hread 0x2C,
      fun a h30 h2C hbuf => ?_⟩
    · have hin : 0x61 ≤ 0x66 + k ∧ 0x66 + k ≤ 0x6D := by omega
      have hix : 0x66 + k - 0x61 = 5 + k := by omega
      rw [hread, if_neg (by omega), if_neg (by omega), if_pos hin, hix, Controller.loopImage_payload fill c hk]
    · rw [hread, if_neg h30, if_neg h2C, if_neg hbuf]
  · have hread : ∀ b, d.rd b = _ := fun b => hd ▸ Controller.rd_arrive_sent_lost hw hfull hlen b
    refine ⟨hread 0x2D, hread 0x2C, fun a h30 h2C h2D => ?_⟩
    rw [hread, if_neg h30, if_neg h2C, if_neg h2D]

/-- Settles O53: `sendNormal` and `receiveNormal` where they are enabled. -/
theorem normalModeSteps : Obligations.NormalModeSteps := by
  unfold Obligations.NormalModeSteps
  intro c hw hmode
  have hreceive : ∀ image : List Byte, c.receiveNormal image = c.arrive image := fun image => if_pos hmode
  refine ⟨fun hpending a => ?_, fun hpending houtside => ?_, fun image => ⟨fun hfree a => ?_, fun hfull a => ?_⟩⟩
  · have hsend : c.sendNormal = c.noteBus.sent := if_pos ⟨hmode, hpending⟩
    have hwb : c.noteBus.reg.wf := by rw [Controller.noteBus_reg]; exact hw
    rw [hsend, Controller.rd_sent hwb]
    simp only [Controller.rd_noteBus]
  · have hsend : c.sendNormal = c.noteBus.sent := if_pos ⟨hmode, hpending⟩
    rw [hsend]
    exact Controller.outside_noteBus houtside
  · rw [hreceive]
    exact Controller.rd_arrive_stored hw hfree image.size_toArray a
  · rw [hreceive]
    exact Controller.rd_arrive_lost hw hfull _ a

/-- Settles O54: each of the three moves asks for another mode than Configuration. -/
theorem configurationModeIsInert : Obligations.ConfigurationModeIsInert := by
  unfold Obligations.ConfigurationModeIsInert
  intro c fill m hmode hm
  have hmode' : c.mode = 0b100 := hmode
  obtain rfl | rfl | ⟨image, rfl⟩ := hm
  · show c.deliverLoopback fill = c
    rw [Controller.deliverLoopback, hmode', if_neg fun h => absurd h.1 (by decide)]
  · show c.sendNormal = c
    rw [Controller.sendNormal, hmode', if_neg fun h => absurd h.1 (by decide)]
  · show c.receiveNormal image.toList = c
    rw [Controller.receiveNormal, hmode', if_neg (by decide)]

end Sys2Proof.Machine
end

section
/-! PROOF. One transfer at the level of its eight bits (spec/40_spi_transport.md R104, R105;
spec/49_environment_controller_model.md R162 to R164): what the byte received can depend on, and what the controller has
taken at the end of the byte. -/

namespace Sys2Proof.Machine

/-! ## One bit -/

/-- MOSI carries the bit that is sent. -/
def State.bitDriven (s : State) (i : Fin 8) : State :=
  (s.setBitcnt i).lineSet .mosi (s.scratch.txsr.getLsbD i.val)

/-- The clock has risen after it. -/
def State.bitRaised (s : State) (i : Fin 8) : State := (s.bitDriven i).pinWrite .sck true

/-- One bit of a transfer up to its sample, with the clock still high. -/
def State.bitSampled (s : State) (i : Fin 8) : State :=
  (s.bitRaised i).pinRead.2.setRxsrBit i (s.bitRaised i).pinRead.1

theorem State.transferBit_eq (s : State) (i : Fin 8) : s.transferBit i = (s.bitSampled i).pinWrite .sck false := rfl

theorem State.bitDriven_ctl (s : State) (i : Fin 8) : (s.bitDriven i).ctl = s.ctl := rfl

/-- The clock line is driven high: an edge if it was low. -/
theorem State.pinWrite_sck_high (s : State) : s.pinWrite .sck true =
    if s.pinSck = true then s.lineSet .sck true else (s.lineSet .sck true).afterClockRise := by
  have hwrite : s.pinWrite .sck true = (s.lineSet .sck true).notify .sck s.pinSck true := rfl
  rw [hwrite]
  cases s.pinSck <;> rfl

theorem State.pinWrite_scratch (s : State) (p : OutLine) (v : Level) : (s.pinWrite p v).scratch = s.scratch := by
  obtain ⟨_, _, _, _, -, h⟩ := s.pinWrite_envStep p v
  rw [h]
  cases p <;> rfl

theorem State.sample_ctl (s : State) : s.sample.2.ctl = s.ctl := by
  have hdraw : s.draw.2.ctl = s.ctl := by
    unfold State.draw
    split <;> rfl
  unfold State.sample
  split
  · exact hdraw
  all_goals
    split
    · rfl
    · first | exact hdraw | rfl

theorem State.bitSampled_ctl (s : State) (i : Fin 8) : (s.bitSampled i).ctl = (s.bitRaised i).ctl :=
  State.sample_ctl _

/-! ## What a sample depends on -/

/-- Two states whose next sample is the same, and that have received the same bits so far. -/
structure State.SamplesAlike (s u : State) : Prop where
  env : u.env = s.env
  cs : u.pinCs = s.pinCs
  sck : u.pinSck = s.pinSck
  samples : u.samples = s.samples
  freeIx : u.freeIx = s.freeIx
  outByte : u.ctl.outByte = s.ctl.outByte
  edges : u.ctl.edges = s.ctl.edges
  rxsr : u.scratch.rxsr = s.scratch.rxsr

theorem State.SamplesAlike.draw {s u : State} (h : s.SamplesAlike u) :
    u.draw.1 = s.draw.1 ∧ s.draw.2.SamplesAlike u.draw.2 := by
  have hs := h.samples
  cases hbits : s.samples with
  | nil =>
    simp only [State.draw, hs, hbits, h.freeIx]
    exact ⟨trivial, h.env, h.cs, h.sck, rfl, rfl, h.outByte, h.edges, h.rxsr⟩
  | cons b rest =>
    simp only [State.draw, hs, hbits]
    exact ⟨trivial, h.env, h.cs, h.sck, rfl, h.freeIx, h.outByte, h.edges, h.rxsr⟩

theorem State.SamplesAlike.sample {s u : State} (h : s.SamplesAlike u) :
    u.sample.1 = s.sample.1 ∧ s.sample.2.SamplesAlike u.sample.2 := by
  have hdriven : u.driven = s.driven := by
    simp only [State.driven, Controller.drive, h.cs, h.sck, h.outByte, h.edges]
  cases henv : s.env with
  | oracle =>
    simp only [State.sample, h.env, henv]
    exact h.draw
  | reference =>
    simp only [State.sample, h.env, henv, hdriven]
    cases s.driven with
    | none => exact h.draw
    | some b => exact ⟨rfl, h⟩
  | simulator =>
    simp only [State.sample, h.env, henv, hdriven]
    cases s.driven with
    | none => exact ⟨rfl, h⟩
    | some b => exact ⟨rfl, h⟩

/-- A rising edge of SCK is counted alike, whatever level MOSI has (R162). -/
theorem State.SamplesAlike.afterClockRise {s u : State} (h : s.SamplesAlike u) :
    s.afterClockRise.SamplesAlike u.afterClockRise := by
  obtain ⟨henv, hcs, hsck, hsamples, hfree, hout, hedges, hrxsr⟩ := h
  have htaken : (s.setCtl (s.ctl.clockRise s.pinMosi)).SamplesAlike (u.setCtl (u.ctl.clockRise u.pinMosi)) := by
    refine ⟨henv, hcs, hsck, hsamples, hfree, ?_, ?_, hrxsr⟩
    · simp only [State.setCtl_ctl, Controller.clockRise_outByte, hout]
    · simp only [State.setCtl_ctl, Controller.clockRise_edges, hedges]
  have hstays : s.SamplesAlike u := ⟨henv, hcs, hsck, hsamples, hfree, hout, hedges, hrxsr⟩
  cases hkind : s.env with
  | oracle => simpa only [State.afterClockRise, henv, hkind] using hstays
  | reference =>
    simp only [State.afterClockRise, henv, hkind, hcs]
    split
    · exact hstays
    · exact htaken
  | simulator =>
    simp only [State.afterClockRise, henv, hkind, hcs]
    split
    · exact hstays
    · exact htaken

theorem State.SamplesAlike.bitDriven {s u : State} (h : s.SamplesAlike u) (i : Fin 8) :
    (s.bitDriven i).SamplesAlike (u.bitDriven i) :=
  ⟨h.env, h.cs, h.sck, h.samples, h.freeIx, h.outByte, h.edges, h.rxsr⟩

/-- The clock rises and is counted alike, or is high already (R162). -/
theorem State.SamplesAlike.bitRaised {s u : State} (h : s.SamplesAlike u) (i : Fin 8) :
    (s.bitRaised i).SamplesAlike (u.bitRaised i) := by
  obtain ⟨henv, hcs, hsck, hsamples, hfree, hout, hedges, hrxsr⟩ := h.bitDriven i
  have hraised : ((s.bitDriven i).lineSet .sck true).SamplesAlike ((u.bitDriven i).lineSet .sck true) :=
    ⟨henv, hcs, rfl, hsamples, hfree, hout, hedges, hrxsr⟩
  rw [State.bitRaised, State.bitRaised, State.pinWrite_sck_high, State.pinWrite_sck_high, hsck]
  split
  · exact hraised
  · exact hraised.afterClockRise

theorem State.SamplesAlike.bitSampled {s u : State} (h : s.SamplesAlike u) (i : Fin 8) :
    (s.bitSampled i).SamplesAlike (u.bitSampled i) := by
  obtain ⟨hbit, henv, hcs, hsck, hsamples, hfree, hout, hedges, hrxsr⟩ := (h.bitRaised i).sample
  refine ⟨henv, hcs, hsck, hsamples, hfree, hout, hedges, ?_⟩
  show setBit (u.bitRaised i).sample.2.scratch.rxsr i.val (u.bitRaised i).sample.1 =
    setBit (s.bitRaised i).sample.2.scratch.rxsr i.val (s.bitRaised i).sample.1
  rw [hrxsr, hbit]

/-- A falling edge of SCK inside a byte does nothing (R162). -/
theorem State.afterClockFall_inside {s : State} (h : s.ctl.edges ≠ 8) : s.afterClockFall = s := by
  unfold State.afterClockFall
  split
  · rfl
  all_goals exact if_neg fun hend => h hend.2

theorem State.pinWrite_sck_low_inside {s : State} (h : s.ctl.edges ≠ 8) :
    s.pinWrite .sck false = s.lineSet .sck false := by
  have hfall : (s.lineSet .sck false).afterClockFall = s.lineSet .sck false := State.afterClockFall_inside h
  have hwrite : s.pinWrite .sck false = (s.lineSet .sck false).notify .sck s.pinSck false := rfl
  rw [hwrite]
  cases s.pinSck with
  | false => rfl
  | true => exact hfall

/-- At most one edge is counted in a bit. -/
theorem State.edges_bitSampled_le (s : State) (i : Fin 8) : (s.bitSampled i).ctl.edges ≤ s.ctl.edges + 1 := by
  rw [State.bitSampled_ctl]
  have hrise : ∀ w : State, w.afterClockRise.ctl.edges ≤ w.ctl.edges + 1 := by
    intro w
    unfold State.afterClockRise
    split
    · exact Nat.le_succ _
    all_goals
      split
      · exact Nat.le_succ _
      · exact (Controller.clockRise_edges _ _).le
  rw [State.bitRaised, State.pinWrite_sck_high, ← s.bitDriven_ctl i]
  split
  · rw [State.lineSet_ctl]
    exact Nat.le_succ _
  · rw [← State.lineSet_ctl (s.bitDriven i) .sck true]
    exact hrise _

/-- The bits of one byte are received alike. -/
theorem State.SamplesAlike.rxsr_transferBits {s u : State} (h : s.SamplesAlike u) {l : List (Fin 8)}
    (hl : s.ctl.edges + l.length ≤ 8) :
    (l.foldl State.transferBit u).scratch.rxsr = (l.foldl State.transferBit s).scratch.rxsr := by
  induction l generalizing s u with
  | nil => exact h.rxsr
  | cons i l ih =>
    have hbit := h.bitSampled i
    have hedges := s.edges_bitSampled_le i
    simp only [List.length_cons] at hl
    rw [List.foldl_cons, List.foldl_cons, State.transferBit_eq, State.transferBit_eq]
    cases l with
    | nil => simpa only [List.foldl_nil, State.pinWrite_scratch] using hbit.rxsr
    | cons j l =>
      simp only [List.length_cons] at hl
      have hinside : (s.bitSampled i).ctl.edges ≠ 8 := by omega
      have hinside' : (u.bitSampled i).ctl.edges ≠ 8 := by rwa [hbit.edges]
      rw [State.pinWrite_sck_low_inside hinside, State.pinWrite_sck_low_inside hinside']
      refine ih (s := (s.bitSampled i).lineSet .sck false)
        ⟨hbit.env, hbit.cs, rfl, hbit.samples, hbit.freeIx, hbit.outByte, hbit.edges, hbit.rxsr⟩ ?_
      show (s.bitSampled i).ctl.edges + (l.length + 1) ≤ 8
      omega

/-- What a transfer receives between two bytes of the controller does not depend on what it sends (R105). -/
theorem State.transfer_received (s : State) (h : s.ctl.edges = 0) (tx tx' : Byte) :
    (s.transfer tx').1 = (s.transfer tx).1 :=
  State.SamplesAlike.rxsr_transferBits (s := (s.setTxsr tx).clearRxsr) (u := (s.setTxsr tx').clearRxsr)
    ⟨rfl, rfl, rfl, rfl, rfl, rfl, rfl, rfl⟩ (l := [7, 6, 5, 4, 3, 2, 1, 0]) (Nat.le_of_eq (congrArg (· + 8) h))

theorem State.ret_of_whenReady_finish {s b t : State} {r : Result} (h : s.whenReady (b.finish r) = .next t) :
    t.ret = r := by
  unfold State.whenReady at h
  split at h
  · cases h
  · split at h
    · cases h
    · exact (State.envStep.finish b.envStep_refl h).1

/-- Settles O12: both deliver the byte received, which is the same (`State.transfer_received`). -/
theorem transferResultIgnoresOperand : Obligations.TransferResultIgnoresOperand := by
  unfold Obligations.TransferResultIgnoresOperand
  intro s t t' tx tx' hedges ht ht'
  have hret : t.ret = .byte ((s.enter .transfer).transfer tx).1 := State.ret_of_whenReady_finish ht
  have hret' : t'.ret = .byte ((s.enter .transfer).transfer tx').1 := State.ret_of_whenReady_finish ht'
  rw [hret, hret', State.transfer_received (s.enter .transfer) hedges tx tx']

/-! ## The byte that the controller takes -/

/-- A controller takes part, its bracket is open and the clock is low. -/
structure State.Selected (s : State) : Prop where
  attached : s.env ≠ .oracle
  cs : s.pinCs = false
  sck : s.pinSck = false

theorem State.Selected.transferBit {s : State} (h : s.Selected) (i : Fin 8) :
    (s.transferBit i).Selected ∧ (s.transferBit i).scratch.txsr = s.scratch.txsr := by
  obtain ⟨r, _, _, _, _, -, hbit⟩ := s.transferBit_envStep i
  rw [hbit]
  exact ⟨⟨h.attached, h.cs, rfl⟩, rfl⟩

/-- The clock rises at the controller, with the bit that is sent (R162). -/
theorem State.Selected.bitSampled_ctl {s : State} (h : s.Selected) (i : Fin 8) :
    (s.bitSampled i).ctl = s.ctl.clockRise (s.scratch.txsr.getLsbD i.val) := by
  obtain ⟨hattached, hcs, hsck⟩ := h
  have hrise : ∀ w : State, w.env ≠ .oracle → w.pinCs = false → w.afterClockRise.ctl = w.ctl.clockRise w.pinMosi := by
    intro w hw hcs
    unfold State.afterClockRise
    split
    case h_1 henv => exact absurd henv hw
    all_goals rw [hcs]; rfl
  rw [State.bitSampled_ctl]
  have hlow : ¬ (s.bitDriven i).pinSck = true := by
    show ¬ s.pinSck = true
    simp [hsck]
  rw [State.bitRaised, State.pinWrite_sck_high, if_neg hlow]
  exact hrise _ hattached hcs

/-- A bit inside a byte (R162). -/
theorem State.Selected.transferBit_ctl {s : State} (h : s.Selected) (hedges : s.ctl.edges ≠ 7) (i : Fin 8) :
    (s.transferBit i).ctl = s.ctl.clockRise (s.scratch.txsr.getLsbD i.val) := by
  have hctl := h.bitSampled_ctl i
  have hinside : (s.bitSampled i).ctl.edges ≠ 8 := by
    rw [hctl, Controller.clockRise_edges]
    omega
  rw [State.transferBit_eq, State.pinWrite_sck_low_inside hinside]
  exact hctl

/-- The first bits of a byte (R162). -/
theorem State.Selected.transferBits {s : State} (h : s.Selected) {l : List (Fin 8)} (hl : s.ctl.edges + l.length ≤ 7) :
    (l.foldl State.transferBit s).Selected ∧ (l.foldl State.transferBit s).scratch.txsr = s.scratch.txsr ∧
      (l.foldl State.transferBit s).ctl =
        (l.map fun i => s.scratch.txsr.getLsbD i.val).foldl Controller.clockRise s.ctl := by
  induction l generalizing s with
  | nil => exact ⟨h, rfl, rfl⟩
  | cons i l ih =>
    simp only [List.length_cons] at hl
    obtain ⟨hselected, htxsr⟩ := h.transferBit i
    have hctl := h.transferBit_ctl (by omega) i
    have hl' : (s.transferBit i).ctl.edges + l.length ≤ 7 := by
      rw [hctl, Controller.clockRise_edges]
      omega
    obtain ⟨hselected', htxsr', hctl'⟩ := ih hselected hl'
    rw [htxsr, hctl] at hctl'
    exact ⟨hselected', htxsr'.trans htxsr, hctl'⟩

/-! ## The first thing outside the model is kept (log 12) -/

theorem Controller.outside_note {c : Controller} {w : Outside} (h : c.outside = some w) (why : Outside) :
    (c.note why).outside = some w := by
  simp only [Controller.note, h]
  rfl

theorem Controller.outside_wrSeq (c : Controller) (a : Nat) (vs : List Byte) : (c.wrSeq a vs).outside = c.outside := by
  rw [Controller.wrSeq_eq]

theorem Controller.outside_arrive (c : Controller) (image : List Byte) : (c.arrive image).outside = c.outside := by
  unfold Controller.arrive
  split
  · rfl
  · exact c.outside_wrSeq _ _

theorem Controller.outside_fire {c : Controller} {w : Outside} (h : c.outside = some w) (fill : Nat → Byte)
    (m : EnvMove) : (c.fire fill m).outside = some w := by
  cases m with
  | finishReset =>
    show (c.finishReset fill).outside = some w
    unfold Controller.finishReset
    split <;> exact h
  | changeMode =>
    show c.changeMode.outside = some w
    unfold Controller.changeMode
    split <;> exact h
  | deliverLoopback =>
    show (c.deliverLoopback fill).outside = some w
    unfold Controller.deliverLoopback
    split
    · exact (c.outside_arrive _).trans h
    · exact h
  | sendNormal =>
    show c.sendNormal.outside = some w
    unfold Controller.sendNormal
    split
    · show c.noteBus.outside = some w
      unfold Controller.noteBus
      split
      · exact Controller.outside_note h _
      · split
        · exact Controller.outside_note h _
        · exact h
    · exact h
  | receive image =>
    show (c.receiveNormal image.toList).outside = some w
    unfold Controller.receiveNormal
    split
    · exact (c.outside_arrive _).trans h
    · exact h

theorem State.outside_fireAll {s : State} {w : Outside} (h : s.ctl.outside = some w) (ms : List EnvMove) :
    (s.fireAll ms).ctl.outside = some w := by
  induction ms generalizing s with
  | nil => exact h
  | cons m ms ih => exact ih (s := s.fire m) (Controller.outside_fire h _ m)

theorem State.outside_opportunity {s : State} {w : Outside} (h : s.ctl.outside = some w) :
    s.opportunity.ctl.outside = some w := by
  unfold State.opportunity
  split
  · exact h
  all_goals
    split
    · first | exact h | exact State.outside_fireAll (by exact h) _
    · exact State.outside_fireAll (by exact h) _

/-- The end of a byte keeps it. -/
theorem State.outside_afterClockFall {s : State} {w : Outside} (h : s.ctl.outside = some w) :
    s.afterClockFall.ctl.outside = some w := by
  unfold State.afterClockFall
  split
  · exact h
  all_goals
    split
    · exact State.outside_opportunity h
    · exact h

theorem State.outside_pinWrite_sck_low {s : State} {w : Outside} (h : s.ctl.outside = some w) :
    (s.pinWrite .sck false).ctl.outside = some w := by
  have hwrite : s.pinWrite .sck false = (s.lineSet .sck false).notify .sck s.pinSck false := rfl
  have hline : (s.lineSet .sck false).ctl.outside = some w := h
  rw [hwrite]
  cases s.pinSck with
  | false => exact hline
  | true => exact State.outside_afterClockFall hline

/-- A whole byte: what its byte step leads to outside the model is there when the transfer ends. -/
theorem State.Selected.outside_transfer {s : State} (h : s.Selected) (hedges : s.ctl.edges = 0) {tx : Byte} {w : Outside}
    (hbyte : ((s.ctl.onWire tx 8).byteStep tx).outside = some w) : (s.transfer tx).2.ctl.outside = some w := by
  let u := (s.setTxsr tx).clearRxsr
  have hstart : u.Selected := ⟨h.attached, h.cs, h.sck⟩
  have htx : u.scratch.txsr = tx := rfl
  have hctl0 : u.ctl = s.ctl := rfl
  obtain ⟨hselected, htxsr, hctl⟩ := hstart.transferBits (l := [7, 6, 5, 4, 3, 2, 1]) (by simp [hctl0, hedges])
  have hlast : (s.transfer tx).2 =
      (([7, 6, 5, 4, 3, 2, 1].foldl State.transferBit u).bitSampled 0).pinWrite .sck false := rfl
  have hbits := Controller.foldl_clockRise hedges tx
  simp only [wireBits, List.foldl_cons, List.foldl_nil] at hbits
  rw [htx, hctl0] at hctl
  rw [hlast]
  refine State.outside_pinWrite_sck_low ?_
  rw [hselected.bitSampled_ctl, hctl, htxsr, htx]
  simp only [List.map_cons, List.map_nil, List.foldl_cons, List.foldl_nil]
  exact (congrArg Controller.outside hbits).trans hbyte

theorem State.finish_of_outside {s : State} {w : Outside} (hattached : s.env ≠ .oracle) (h : s.ctl.outside = some w)
    (r : Result) : s.finish r = .refused (.outsideController w) := by
  have hleft : s.left = some w := by
    unfold State.left
    split
    case h_1 henv => exact absurd henv hattached
    all_goals exact h
  simp only [State.finish, hleft]

/-- Settles O50: the wire side by evaluation and `Controller.foldl_clockRise`; an opcode without a meaning is noted by
its byte step and the note is there at the return (`State.Selected.outside_transfer`). -/
theorem bracketAndBytes : Obligations.BracketAndBytes := by
  unfold Obligations.BracketAndBytes
  refine ⟨fun _ => rfl, fun c hw => ⟨rfl, rfl, rfl, rfl, fun a => ?_⟩, fun c ib h => Controller.foldl_clockRise h ib,
    fun _ => rfl, fun c h => ⟨by simp only [Controller.drive, h], by simp only [Controller.drive, h]⟩,
    fun c ob i hout hedges => ?_, fun c ib h => ?_, fun c ib h hib => ?_,
    fun s ib hready hattached hcs hsck hpst hedges houtside hib => ?_⟩
  · have hrelease : c.release.rd a = (if c.rxclr then c.wr 0x2C (c.rd 0x2C &&& 0xFE) else c).rd a := rfl
    rw [hrelease]
    cases c.rxclr with
    | false => simp
    | true => simp [Controller.rd_wr hw]
  · have hbit : 8 - c.edges = i.val := by omega
    simp only [Controller.drive, hout, hbit, if_true]
  · refine ⟨Controller.output_eq_none fun ptr hpst => by simp [hpst] at h, ?_⟩
    obtain h | h := h <;> rw [Controller.byteStep, h]
  · rw [Controller.byteStep_of_waitOpcode h, Controller.opcode_of_unknown hib]
    exact ⟨rfl, rfl⟩
  · have hpst' : ((s.enter .transfer).ctl.onWire ib 8).pst = .waitOpcode := hpst
    have hbyte : (((s.enter .transfer).ctl.onWire ib 8).byteStep ib).outside = some (.unknownOpcode ib) := by
      rw [Controller.byteStep_of_waitOpcode hpst', Controller.opcode_of_unknown hib]
      show (s.ctl.outside <|> some (.unknownOpcode ib)) = _
      rw [houtside]
      rfl
    have hselected : (s.enter .transfer).Selected := ⟨hattached, hcs, hsck⟩
    have hout := hselected.outside_transfer hedges hbyte
    obtain ⟨_, _, _, _, -, hmoved⟩ := (s.enter .transfer).transfer_envStep ib
    have hattached' : ((s.enter .transfer).transfer ib).2.env ≠ .oracle := by
      rw [hmoved]
      exact hattached
    have hstart : exec (.transfer ib) s = s.whenReady
        (((s.enter .transfer).transfer ib).2.finish (.byte ((s.enter .transfer).transfer ib).1)) := rfl
    rw [hstart, State.whenReady_of hready]
    exact State.finish_of_outside hattached' hout _

end Sys2Proof.Machine
end

section
/-! PROOF. Register accesses and `Init` in front of the deterministic simulator (spec/41_controller_commands.md R110 to
R113, spec/43_driver_operations.md R136, spec/49_environment_controller_model.md R165, R169, R175, R180). -/

namespace Sys2Proof.Machine

/-! ## A controller with nothing to do -/

/-- Inside the model, with no reset, no mode change and no transmission under way. -/
structure Controller.Quiet (c : Controller) : Prop where
  settling : c.settling = false
  outside : c.outside = none
  request : c.request = c.mode
  pending : c.pending = false

theorem Controller.Quiet.parked {c : Controller} (h : c.Quiet) : c.parked.Quiet :=
  ⟨h.settling, h.outside, h.request, h.pending⟩

theorem Controller.Quiet.settled_eq {c : Controller} (h : c.Quiet) : c.settled = c :=
  Controller.settled_of_quiet h.settling h.request h.pending

theorem State.simIdle.mayStart {s : State} (h : s.simIdle) : s.mayStart := by
  obtain ⟨hready, ⟨hcs, -⟩, -⟩ := h
  exact ⟨hready, hcs⟩

theorem State.simIdle.forController {s : State} (h : s.simIdle) : forController s.cfg := by
  obtain ⟨-, -, -, hcfg, -⟩ := h
  exact hcfg

theorem State.simIdle.ctl_quiet {s : State} (h : s.simIdle) (hq : s.quiet) : s.ctl.Quiet := by
  obtain ⟨-, -, -, -, -, hsettling, houtside⟩ := h
  obtain ⟨hrequest, hpending⟩ := hq
  exact ⟨hsettling, houtside, hrequest, hpending⟩

/-- A register write that starts nothing more leaves the controller with nothing to do (R169). -/
theorem Controller.Quiet.regWrite {c : Controller} (h : c.Quiet) (hw : c.reg.wf) {addr : Byte} (ha : addr.toNat < 128)
    (h0F : addr ≠ 0x0F) (h30 : addr ≠ 0x30) (mask val : Byte) :
    (c.regWrite (addr.setWidth 7) mask val).parked.Quiet ∧
    ∀ a, (c.regWrite (addr.setWidth 7) mask val).rd a =
      if a = addr.toNat ∧ ¬ (addr = 0x0E ∨ ((addr = 0x28 ∨ addr = 0x29 ∨ addr = 0x2A) ∧ c.mode ≠ 0b100))
      then mergeByte (c.rd a) mask val else c.rd a := by
  obtain ⟨hrd, hsettling, houtside, hrequest, hpending⟩ :=
    c.regWrite_quiet h.settling hw h.request h.pending h.outside ha h0F h30 mask val
  exact ⟨⟨hsettling, houtside, hrequest, hpending⟩, hrd⟩

/-! ## Brackets of the block at the controller -/

section Between

variable {s u : State} {c : Controller}

/-- Format RD at a controller with nothing to do: the register's byte (R111, R165). -/
theorem State.Between.readQuiet (h : s.Between u c) (hcfg : forController s.cfg) (hq : c.Quiet) {addr : Byte}
    (ha : addr.toNat < 128) :
    (u.readRegister addr).1 = c.rd addr.toNat ∧ s.Between (u.readRegister addr).2 c.parked ∧
      (u.readRegister addr).2.scratch.fb = u.scratch.fb ∧
      (u.readRegister addr).2.scratch.target = u.scratch.target := by
  obtain ⟨hlow, haddr⟩ := address_low ha
  obtain ⟨hafter, hval, hfb, htarget⟩ := h.read hcfg hlow
  rw [hq.parked.settled_eq] at hafter
  refine ⟨?_, hafter, hfb, htarget⟩
  rw [hval, Controller.outAt, hq.settling, haddr]
  rfl

/-- Format WR (R112, R169). -/
theorem State.Between.write (h : s.Between u c) (hcfg : forController s.cfg) {addr : Byte} (ha : addr.toNat < 128)
    (val : Byte) :
    s.Between (u.writeRegister addr val) (c.regWrite (addr.setWidth 7) 0xFF val).parked.settled ∧
      (u.writeRegister addr val).scratch.fb = u.scratch.fb ∧
      (u.writeRegister addr val).scratch.target = u.scratch.target := by
  obtain ⟨hlow, -⟩ := address_low ha
  obtain ⟨-, -, hop, -⟩ := hcfg
  rw [State.writeRegister, h.cfg, hop, ← c.write_bracket hlow]
  exact h.bracket _ _

/-- Format BM (R113, R170). -/
theorem State.Between.modify (h : s.Between u c) (hcfg : forController s.cfg) {addr : Byte} (ha : addr.toNat < 128)
    (mask val : Byte) :
    s.Between (u.bitModify addr mask val) (c.regWrite (addr.setWidth 7) mask val).parked.settled ∧
      (u.bitModify addr mask val).scratch.fb = u.scratch.fb ∧
      (u.bitModify addr mask val).scratch.target = u.scratch.target := by
  obtain ⟨hlow, -⟩ := address_low ha
  obtain ⟨-, -, -, hop, -⟩ := hcfg
  rw [State.bitModify, h.cfg, hop, ← c.modify_bracket hlow]
  exact h.bracket _ _

/-- The return of an operation at a controller with nothing to do. -/
theorem State.Between.returnsQuiet (h : s.Between u c) (hcfg : forController s.cfg) (hq : c.Quiet) (r : Result) :
    ∃ t, u.finish r = .next t ∧ t.ret = r ∧ t.ctl = c ∧ t.simIdle ∧ t.quiet ∧ t.cfg = s.cfg := by
  obtain ⟨t, hnext, hret, hctl, hidle, hcfg'⟩ := h.returns hcfg hq.settling hq.outside r
  exact ⟨t, hnext, hret, hctl, hidle, by rw [State.quiet, hctl]; exact ⟨hq.request, hq.pending⟩, hcfg'⟩

end Between

/-- Settles O55: the read's bracket leaves a controller with nothing to do as it was. -/
theorem simulatorReadsRegister : Obligations.SimulatorReadsRegister := by
  unfold Obligations.SimulatorReadsRegister
  intro s addr hidle hquiet ha
  have hcfg := hidle.forController
  have hq := hidle.ctl_quiet hquiet
  obtain ⟨hval, hbetween, -⟩ := ((State.Between.start hidle).enter .cmdReadRegister).readQuiet hcfg hq ha
  obtain ⟨t, hnext, hret, hctl, hidle', hquiet', -⟩ := hbetween.returnsQuiet hcfg hq.parked (.byte (s.ctl.rd addr.toNat))
  have hexec : exec (.cmdReadRegister addr) s =
      ((s.enter .cmdReadRegister).readRegister addr).2.finish
        (.byte ((s.enter .cmdReadRegister).readRegister addr).1) := State.start_of hidle.mayStart _
  rw [hval] at hexec
  exact ⟨t, hexec.trans hnext, hret, fun a => by rw [State.reg, hctl]; rfl, hidle', hquiet'⟩

/-- Settles O56: each command is one bracket that makes one register write with nothing after it. -/
theorem simulatorWritesRegister : Obligations.SimulatorWritesRegister := by
  unfold Obligations.SimulatorWritesRegister
  intro s addr mask val hidle hquiet hw ha h0F h30 kept
  have hcfg := hidle.forController
  have hq := hidle.ctl_quiet hquiet
  constructor
  · obtain ⟨hq', hrd⟩ := hq.regWrite hw ha h0F h30 0xFF val
    obtain ⟨hbetween, -⟩ := ((State.Between.start hidle).enter .cmdWriteRegister).write hcfg ha val
    rw [hq'.settled_eq] at hbetween
    obtain ⟨t, hnext, -, hctl, hidle', hquiet', -⟩ := hbetween.returnsQuiet hcfg hq' .nothing
    refine ⟨t, (State.start_of hidle.mayStart _).trans hnext, hidle', hquiet', fun a => ?_⟩
    rw [State.reg, hctl, Controller.parked_rd, hrd, mergeByte_whole]
  · obtain ⟨hq', hrd⟩ := hq.regWrite hw ha h0F h30 mask val
    obtain ⟨hbetween, -⟩ := ((State.Between.start hidle).enter .cmdBitModify).modify hcfg ha mask val
    rw [hq'.settled_eq] at hbetween
    obtain ⟨t, hnext, -, hctl, hidle', hquiet', -⟩ := hbetween.returnsQuiet hcfg hq' .nothing
    refine ⟨t, (State.start_of hidle.mayStart _).trans hnext, hidle', hquiet', fun a => ?_⟩
    rw [State.reg, hctl, Controller.parked_rd, hrd, mergeByte]

theorem modeRequestByte_cases {cfg : Cfg} (h : forController cfg) (m : ControllerMode) :
    modeRequestByte cfg m = 0x80 ∨ modeRequestByte cfg m = 0x00 ∨ modeRequestByte cfg m = 0x40 := by
  obtain ⟨-, hm⟩ | ⟨-, hm⟩ | ⟨-, hm⟩ := modeRequestByte_of h m
  · exact .inl hm
  · exact .inr (.inl hm)
  · exact .inr (.inr hm)

/-- The bit-modify of a mode request and the mode change that follows it (`Controller.modeRequest_settled`). -/
theorem Controller.Quiet.requestMode {c : Controller} (h : c.Quiet) (hw : c.reg.wf) (hz : c.rd 0x0F &&& 0x18 = 0) {rb : Byte}
    (hrb : rb = 0x80 ∨ rb = 0x00 ∨ rb = 0x40) :
    (c.regWrite 0x0F 0xE0 rb).parked.settled.Quiet ∧
    ∀ a, (c.regWrite 0x0F 0xE0 rb).parked.settled.rd a =
      if a = 0x0E ∨ a = 0x0F then c.rd a &&& 0x1F ||| rb else c.rd a := by
  obtain ⟨-, hrd, hsettling, houtside, hrequest, hpending⟩ :=
    c.modeRequest_settled h.settling hw h.pending h.outside hz rb hrb
  exact ⟨⟨hsettling, houtside, hrequest, hpending⟩, hrd⟩

/-- Settles O57: the bracket of the bit-modify and the mode change at its last edge. -/
theorem simulatorChangesMode : Obligations.SimulatorChangesMode := by
  unfold Obligations.SimulatorChangesMode
  intro s m hidle hquiet hw hz
  have hcfg := hidle.forController
  obtain ⟨hq, hrd⟩ := (hidle.ctl_quiet hquiet).requestMode hw hz (modeRequestByte_cases hcfg m)
  obtain ⟨hbetween, -⟩ := ((State.Between.start hidle).enter .cmdBitModify).modify hcfg
    (addr := 0x0F) (by decide) 0xE0 (modeRequestByte s.cfg m)
  obtain ⟨t, hnext, -, hctl, hidle', hquiet', -⟩ := hbetween.returnsQuiet hcfg hq .nothing
  refine ⟨t, (State.start_of hidle.mayStart _).trans hnext, hidle', hquiet', fun a => ?_⟩
  rw [State.reg, hctl]
  exact hrd a

/-! ## Init -/

/-- The simulator's controller after its reset: one register space whatever was there before (R166, R180). -/
def Controller.fresh : Controller :=
  { Controller.powerOn with reg := Memory.ofFn (resetReg fun _ => 0x00) }

theorem Controller.fresh_reg : Controller.fresh.reg = Memory.ofFn (resetReg fun _ => 0x00) := by
  rw [Controller.fresh]

theorem Controller.fresh_parked : Controller.fresh.parked = Controller.fresh := by
  simp only [Controller.fresh, Controller.parked, Controller.at, Controller.powerOn]

theorem Controller.rd_fresh {a : Nat} (ha : a < 128) : Controller.fresh.rd a = resetReg (fun _ => 0x00) a := by
  rw [Controller.rd, Controller.fresh_reg, Memory.read_ofFn _ ha]

theorem Controller.fresh_wf : Controller.fresh.reg.wf := by
  rw [Controller.fresh_reg]
  exact Memory.ofFn_wf _

theorem Controller.fresh_quiet : Controller.fresh.Quiet := by
  refine ⟨rfl, rfl, ?_, ?_⟩
  · rw [Controller.request, Controller.mode, Controller.rd_fresh (by decide), Controller.rd_fresh (by decide)]
    rfl
  · rw [Controller.pending, Controller.rd_fresh (by decide)]
    rfl

/-- The reset opcode's bracket: the eager schedule completes the reset at its last edge (R166, R180). -/
theorem Controller.startReset_settled {c : Controller} (h : c.outside = none) :
    c.startReset.parked.settled = Controller.fresh := by
  have hreset : (c.startReset.parked.finishReset fun _ => 0x00) = Controller.fresh := by
    have hsettling : c.startReset.parked.settling = true := rfl
    rw [Controller.finishReset, if_pos hsettling, Controller.fresh, Controller.powerOn, Controller.mk.injEq]
    exact ⟨rfl, rfl, rfl, rfl, rfl, rfl, rfl, rfl, h⟩
  have hfresh : (Controller.fresh.finishReset fun _ => 0x00) = Controller.fresh := rfl
  have hsettled := Controller.fresh_quiet.settled_eq
  rw [Controller.settled, hfresh] at hsettled
  rw [Controller.settled, hreset, hsettled]

theorem State.Between.delay {s u : State} {c : Controller} (h : s.Between u c) (hc : c.settling = false)
    (hleft : c.settleLeft = 0) (n : Nat) :
    s.Between (u.delayMs n) c ∧ (u.delayMs n).scratch.target = u.scratch.target := by
  have hopp : (u.emit (.delayMs n)).opportunity = u.emit (.delayMs n) :=
    State.opportunity_sim (s := u.emit (.delayMs n)) h.env h.moves
  have helapse : ∀ fill, c.elapse fill n = c := fun fill => by
    rw [Controller.elapse, hleft, if_pos (Nat.zero_le n), Controller.finishReset, if_neg (by simp [hc])]
  have hdelay : u.delayMs n = { u.emit (.delayMs n) with ctl := c, freeIx := u.freeIx + 1 } := by
    have henv : (u.emit (.delayMs n)).env = .simulator := h.env
    have hctl : (u.emit (.delayMs n)).ctl = c := h.ctl
    have hfree : (u.emit (.delayMs n)).freeIx = u.freeIx := rfl
    rw [State.delayMs]
    generalize u.emit (.delayMs n) = v at hopp henv hctl hfree
    simp only [State.afterDelay, henv, hopp, hctl, helapse, hfree]
  rw [hdelay]
  exact ⟨⟨h.inited, h.cs, h.sck, h.env, h.moves, h.cfg, rfl⟩, rfl⟩

/-- Format WR as `Init` uses it: the controller has nothing to do before and after (R112, R169). -/
def Controller.written (c : Controller) (addr val : Byte) : Controller := (c.regWrite (addr.setWidth 7) 0xFF val).parked

/-- The simulator's controller after the writes of `Init` and before the mode request (R136). -/
def Controller.programmed (cfg : Cfg) : Controller :=
  (((Controller.fresh.written 0x2A cfg.cnf1Val).written 0x29 cfg.cnf2Val).written 0x28 cfg.cnf3Val).written 0x2C 0x00

/-- The simulator's controller after the mode request of `Init` (R136, R180). -/
def Controller.initialised (cfg : Cfg) (m : ControllerMode) : Controller :=
  ((Controller.programmed cfg).regWrite 0x0F 0xE0 (modeRequestByte cfg m)).parked.settled

/-- A write that `Init` makes in Configuration mode: one register takes the byte. -/
theorem Controller.written_spec {c : Controller} (h : c.Quiet) (hw : c.reg.wf) (hmode : c.mode = 0b100) {addr : Byte}
    (ha : 0x10 ≤ addr.toNat ∧ addr.toNat < 0x30) (val : Byte) :
    (c.written addr val).Quiet ∧ (c.written addr val).reg.wf ∧ (c.written addr val).mode = 0b100 ∧
      ∀ a, (c.written addr val).rd a = if a = addr.toNat then val else c.rd a := by
  have h0E : addr ≠ 0x0E := fun e => absurd ha.1 (by rw [e]; decide)
  have h0F : addr ≠ 0x0F := fun e => absurd ha.1 (by rw [e]; decide)
  have h30 : addr ≠ 0x30 := fun e => absurd ha.2 (by rw [e]; decide)
  obtain ⟨hq, hrd⟩ := h.regWrite hw (by omega) h0F h30 0xFF val
  have htaken : ¬ (addr = 0x0E ∨ ((addr = 0x28 ∨ addr = 0x29 ∨ addr = 0x2A) ∧ c.mode ≠ 0b100)) := by
    rintro (h | ⟨-, h⟩)
    · exact h0E h
    · exact h hmode
  have hrd' : ∀ a, (c.written addr val).rd a = if a = addr.toNat then val else c.rd a := fun a => by
    refine (hrd a).trans ?_
    rw [mergeByte_whole]
    simp only [htaken, not_false_iff, and_true]
  refine ⟨hq, Controller.regWrite_wf hw _ _ _, ?_, hrd'⟩
  rw [Controller.mode, hrd', if_neg (by omega)]
  exact hmode

theorem Controller.programmed_spec (cfg : Cfg) :
    (Controller.programmed cfg).Quiet ∧ (Controller.programmed cfg).reg.wf ∧
      ∀ a, (Controller.programmed cfg).rd a =
        if a = 0x2C then 0x00 else if a = 0x28 then cfg.cnf3Val else if a = 0x29 then cfg.cnf2Val
        else if a = 0x2A then cfg.cnf1Val else Controller.fresh.rd a := by
  have hmode : Controller.fresh.mode = 0b100 := by
    rw [Controller.mode, Controller.rd_fresh (by decide)]
    rfl
  obtain ⟨hq1, hw1, hm1, hrd1⟩ :=
    Controller.written_spec Controller.fresh_quiet Controller.fresh_wf hmode (addr := 0x2A) (by decide) cfg.cnf1Val
  obtain ⟨hq2, hw2, hm2, hrd2⟩ := Controller.written_spec hq1 hw1 hm1 (addr := 0x29) (by decide) cfg.cnf2Val
  obtain ⟨hq3, hw3, hm3, hrd3⟩ := Controller.written_spec hq2 hw2 hm2 (addr := 0x28) (by decide) cfg.cnf3Val
  obtain ⟨hq4, hw4, -, hrd4⟩ := Controller.written_spec hq3 hw3 hm3 (addr := 0x2C) (by decide) 0x00
  refine ⟨hq4, hw4, fun a => ?_⟩
  refine (hrd4 a).trans ?_
  rw [hrd3, hrd2, hrd1]
  rfl

theorem Controller.initialised_spec {cfg : Cfg} (hcfg : forController cfg) (m : ControllerMode) :
    (Controller.initialised cfg m).Quiet ∧
      ∀ a, (Controller.initialised cfg m).rd a =
        if a = 0x0E ∨ a = 0x0F then (Controller.programmed cfg).rd a &&& 0x1F ||| modeRequestByte cfg m
        else (Controller.programmed cfg).rd a := by
  obtain ⟨hq, hw, hrd⟩ := Controller.programmed_spec cfg
  have hz : (Controller.programmed cfg).rd 0x0F &&& 0x18 = 0 := by
    rw [hrd, if_neg (by decide), if_neg (by decide), if_neg (by decide), if_neg (by decide),
      Controller.rd_fresh (by decide)]
    rfl
  obtain ⟨hq', hrd'⟩ := hq.requestMode hw hz (modeRequestByte_cases hcfg m)
  exact ⟨hq', hrd'⟩

/-- What `Init` leaves in the registers it is about (R136, R137). -/
theorem Controller.initialised_registers {cfg : Cfg} (hcfg : forController cfg) (m : ControllerMode) :
    let c := Controller.initialised cfg m
    c.rd 0x0E = modeRequestByte cfg m ∧ c.rd 0x0F = 0x07 ||| modeRequestByte cfg m ∧ c.rd 0x2A = cfg.cnf1Val ∧
      c.rd 0x29 = cfg.cnf2Val ∧ c.rd 0x28 = cfg.cnf3Val ∧ c.rd 0x2C = 0x00 ∧ c.rd 0x30 = 0x00 := by
  intro c
  obtain ⟨-, hrd⟩ := Controller.initialised_spec hcfg m
  obtain ⟨-, -, hprogrammed⟩ := Controller.programmed_spec cfg
  have hread : ∀ a, a ≠ 0x0E → a ≠ 0x0F → c.rd a = (Controller.programmed cfg).rd a := fun a h0E h0F =>
    (hrd a).trans (if_neg (by simp [h0E, h0F]))
  have hreset : ∀ a, a < 128 → a ≠ 0x2C → a ≠ 0x28 → a ≠ 0x29 → a ≠ 0x2A →
      (Controller.programmed cfg).rd a = resetReg (fun _ => 0x00) a := fun a ha h1 h2 h3 h4 => by
    rw [hprogrammed, if_neg h1, if_neg h2, if_neg h3, if_neg h4, Controller.rd_fresh ha]
  refine ⟨?_, ?_, ?_, ?_, ?_, ?_, ?_⟩
  · rw [hrd, if_pos (.inl rfl), hreset 0x0E (by decide) (by decide) (by decide) (by decide) (by decide)]
    exact BitVec.zero_or
  · rw [hrd, if_pos (.inr rfl), hreset 0x0F (by decide) (by decide) (by decide) (by decide) (by decide)]
    rfl
  · rw [hread _ (by decide) (by decide), hprogrammed]
    rfl
  · rw [hread _ (by decide) (by decide), hprogrammed]
    rfl
  · rw [hread _ (by decide) (by decide), hprogrammed]
    rfl
  · rw [hread _ (by decide) (by decide), hprogrammed]
    rfl
  · rw [hread _ (by decide) (by decide), hreset 0x30 (by decide) (by decide) (by decide) (by decide) (by decide)]
    rfl

/-- The block between two brackets of `Init` with the target `m`. -/
structure State.InitAt (s u : State) (c : Controller) (m : ControllerMode) : Prop extends s.Between u c where
  target : u.scratch.target = m

section Init

variable {s u : State} {c : Controller} {m : ControllerMode}

theorem State.InitAt.enter (h : s.InitAt u c m) (l : Seq) : s.InitAt (u.enter l) c m :=
  ⟨h.toBetween.enter l, h.target⟩

/-- Steps PoweredOn and Settle of `Init` (R136, R166). -/
theorem State.InitAt.initReset (h : s.InitAt u c m) (hcfg : forController s.cfg) (houtside : c.outside = none) :
    s.InitAt u.initReset Controller.fresh m := by
  obtain ⟨hop, -⟩ := hcfg
  have hstart := h.enter .poweredOn
  obtain ⟨hbracket, -, htarget⟩ := hstart.toBetween.bracket 0xC0 []
  rw [Controller.reset_bracket, Controller.startReset_settled houtside] at hbracket
  obtain ⟨hdelay, htarget'⟩ := (hbracket.enter .settle).delay rfl rfl Config.resetSettleMs
  have hreset : u.initReset = (((u.enter .poweredOn).bracket [0xC0]).enter .settle).delayMs Config.resetSettleMs := by
    have hop' : (u.enter .poweredOn).cfg.opReset = 0xC0 := by rw [hstart.cfg, hop]
    rw [State.initReset, State.resetBracket, hop']
    rfl
  rw [State.enter_scratch, htarget, hstart.target] at htarget'
  rw [hreset]
  exact ⟨hdelay, htarget'⟩

/-- The status read of `Init` at a controller with nothing to do, its address given by the configuration record (R136). -/
theorem State.InitAt.readStatus (h : s.InitAt u c m) (hcfg : forController s.cfg) (hq : c.Quiet) {addr : Byte}
    (haddr : addr = s.cfg.addrCanstat) :
    (u.readRegister addr).1 = c.rd 0x0E ∧ s.InitAt (u.readRegister addr).2 c.parked m := by
  have hfields := hcfg
  obtain ⟨-, -, -, -, -, -, -, hstat, -⟩ := hfields
  rw [haddr, hstat]
  obtain ⟨hval, hread, -, htarget⟩ := h.toBetween.readQuiet hcfg hq (addr := 0x0E) (by decide)
  exact ⟨hval, hread, htarget.trans h.target⟩

/-- A write of `Init` in Configuration mode, its operands given by the configuration record (R136). -/
theorem State.InitAt.written (h : s.InitAt u c m) (hcfg : forController s.cfg) (hq : c.Quiet) (hw : c.reg.wf)
    (hmode : c.mode = 0b100) {addr a val v : Byte} (ha : 0x10 ≤ addr.toNat ∧ addr.toNat < 0x30) (haddr : a = addr)
    (hval : v = val) : s.InitAt (u.writeRegister a v) (c.written addr val) m := by
  subst haddr hval
  obtain ⟨hq', -⟩ := Controller.written_spec hq hw hmode ha v
  have hlow : a.toNat < 128 := by omega
  obtain ⟨hbetween, -, htarget⟩ := h.write hcfg hlow v
  have hsettled : (c.regWrite (a.setWidth 7) 0xFF v).parked.settled = c.written a v := hq'.settled_eq
  rw [hsettled] at hbetween
  exact ⟨hbetween, htarget.trans h.target⟩

/-- The mode request of `Init`, its operands given by the configuration record and by TARGET (R136). -/
theorem State.InitAt.requestMode (h : s.InitAt u c m) (hcfg : forController s.cfg) :
    s.InitAt (u.bitModify u.cfg.addrCanctrl u.cfg.maskReqop (modeRequestByte u.cfg u.scratch.target))
      (c.regWrite 0x0F 0xE0 (modeRequestByte s.cfg m)).parked.settled m := by
  have hfields := hcfg
  obtain ⟨-, -, -, -, -, -, -, -, hctrl, -, -, -, -, -, -, -, -, hmask, -⟩ := hfields
  rw [h.cfg, h.target, hctrl, hmask]
  obtain ⟨hbetween, -, htarget⟩ := h.modify hcfg (addr := 0x0F) (by decide) 0xE0 (modeRequestByte s.cfg m)
  exact ⟨hbetween, htarget.trans h.target⟩

/-- Steps ProgramTiming, ClearFlags and RequestMode of `Init` (R136). -/
theorem State.InitAt.initProgram (h : s.InitAt u Controller.fresh m) (hcfg : forController s.cfg) :
    s.InitAt u.initProgram (Controller.initialised s.cfg m) m := by
  have hfields := hcfg
  obtain ⟨-, -, -, -, -, -, -, -, -, hcnf1, hcnf2, hcnf3, hintf, -⟩ := hfields
  have hmode : Controller.fresh.mode = 0b100 := by
    rw [Controller.mode, Controller.rd_fresh (by decide)]
    rfl
  obtain ⟨hq1, hw1, hm1, -⟩ :=
    Controller.written_spec Controller.fresh_quiet Controller.fresh_wf hmode (addr := 0x2A) (by decide) s.cfg.cnf1Val
  obtain ⟨hq2, hw2, hm2, -⟩ := Controller.written_spec hq1 hw1 hm1 (addr := 0x29) (by decide) s.cfg.cnf2Val
  obtain ⟨hq3, hw3, hm3, -⟩ := Controller.written_spec hq2 hw2 hm2 (addr := 0x28) (by decide) s.cfg.cnf3Val
  have h0 := h.enter .programTiming
  have h1 := h0.written hcfg Controller.fresh_quiet Controller.fresh_wf hmode (addr := 0x2A) (by decide)
    ((congrArg Cfg.addrCnf1 h0.cfg).trans hcnf1) (congrArg Cfg.cnf1Val h0.cfg)
  have h2 := h1.written hcfg hq1 hw1 hm1 (addr := 0x29) (by decide)
    ((congrArg Cfg.addrCnf2 h1.cfg).trans hcnf2) (congrArg Cfg.cnf2Val h1.cfg)
  have h3 := h2.written hcfg hq2 hw2 hm2 (addr := 0x28) (by decide)
    ((congrArg Cfg.addrCnf3 h2.cfg).trans hcnf3) (congrArg Cfg.cnf3Val h2.cfg)
  have h4 := (h3.enter .clearFlags).written hcfg hq3 hw3 hm3 (addr := 0x2C) (by decide)
    ((congrArg Cfg.addrCanintf h3.cfg).trans hintf) (rfl : (0x00 : Byte) = 0x00)
  rw [State.initProgram, Controller.initialised, Controller.programmed]
  exact (h4.enter .requestMode).requestMode hcfg

end Init

/-- The status byte that reports a mode is what the mode request byte leaves in the status register (R88, R33). -/
theorem modeReported_modeRequestByte (cfg : Cfg) (m : ControllerMode) :
    modeReported cfg m (modeRequestByte cfg m) = true := by
  have hfield : ∀ code : BitVec 3, (code.setWidth 8 <<< 5).extractLsb' 5 3 = code := by decide +kernel
  rw [modeReported, modeField, modeRequestByte, hfield]
  exact beq_self_eq_true _

/-- A controller after its reset reports Configuration mode (R166). -/
theorem modeReported_fresh {cfg : Cfg} (hcfg : forController cfg) :
    modeReported cfg .configuration (Controller.fresh.rd 0x0E) = true := by
  obtain ⟨-, -, -, -, -, -, -, -, -, -, -, -, -, -, -, -, hcode, -⟩ := hcfg
  rw [Controller.rd_fresh (by decide), modeReported, modeCode, hcode]
  rfl

/-- `Init` in front of the simulator: it returns Ok and leaves one controller, whatever was there before (R136, R180). -/
theorem exec_init_sim {s : State} (hidle : s.simIdle) {m : ControllerMode} (hm : m ≠ .configuration) :
    ∃ t, exec (.init m) s = .next t ∧ t.ret = .status .ok ∧ t.ctl = (Controller.initialised s.cfg m).parked ∧
      t.simIdle ∧ t.quiet ∧ t.cfg = s.cfg := by
  have hcfg := hidle.forController
  have houtside : s.ctl.outside = none := by
    obtain ⟨-, -, -, -, -, -, h⟩ := hidle
    exact h
  obtain ⟨hq, -⟩ := Controller.initialised_spec hcfg m
  obtain ⟨hstat, -⟩ := Controller.initialised_registers hcfg m
  have hstart : s.InitAt (s.setTarget m) s.ctl m := ⟨(State.Between.start hidle).setTarget m, rfl⟩
  have hreset := hstart.initReset hcfg houtside
  obtain ⟨hval, hread⟩ := (hreset.enter .verifyConfig).readStatus hcfg Controller.fresh_quiet
    (congrArg Cfg.addrCanstat hreset.cfg)
  rw [Controller.fresh_parked] at hread
  have hprogram := hread.initProgram hcfg
  obtain ⟨hval', hread'⟩ := (hprogram.enter .verifyMode).readStatus hcfg hq
    (congrArg Cfg.addrCanstat hprogram.cfg)
  obtain ⟨t, hnext, hret, hctl, hidle', hquiet', hcfg'⟩ :=
    (hread'.toBetween.enter .doneOk).returnsQuiet hcfg hq.parked (.status .ok)
  refine ⟨t, Eq.trans ?_ hnext, hret, hctl, hidle', hquiet', hcfg'⟩
  have hreported : modeReported s.cfg m (modeRequestByte s.cfg m) = true := modeReported_modeRequestByte _ _
  rw [exec_init hidle.mayStart hm, State.initRun]
  dsimp only
  generalize (s.setTarget m).initReset = w at hreset hval hread hprogram hval' hread' ⊢
  generalize (w.enter .verifyConfig).readRegister w.cfg.addrCanstat = v at hval hread hprogram hval' hread' ⊢
  generalize v.2.initProgram = w' at hprogram hval' hread' ⊢
  generalize (w'.enter .verifyMode).readRegister w'.cfg.addrCanstat = v' at hval' hread' ⊢
  rw [hreset.cfg, hprogram.cfg, hread'.target, hval, hval', hstat, modeReported_fresh hcfg, hreported]
  rfl

/-- Settles O58: both calls leave the controller that `exec_init_sim` names. -/
theorem simulatorInitTwiceOk : Obligations.SimulatorInitTwiceOk := by
  unfold Obligations.SimulatorInitTwiceOk
  intro s m hm hidle hw
  obtain ⟨t, ht, hret, hctl, hidle', hquiet, hcfg⟩ := exec_init_sim hidle hm
  obtain ⟨u, hu, hret', hctl', -⟩ := exec_init_sim hidle' hm
  rw [hcfg] at hctl'
  refine ⟨t, u, ht, hret, hu, hret', hidle', hquiet, hctl'.trans hctl.symm, ?_⟩
  simp only [State.reg, hctl, Controller.parked_rd]
  exact Controller.initialised_registers hidle.forController m

end Sys2Proof.Machine
end

section
/-! PROOF. Frames in front of the deterministic simulator (spec/43_driver_operations.md R140, R142,
spec/49_environment_controller_model.md R165, R176, R179, R180): the loopback of a frame, and Configuration mode, where it
stays pending. -/

namespace Sys2Proof.Machine

/-! ## The burst read of receive buffer 0 -/

theorem Controller.Quiet.wr {c : Controller} (h : c.Quiet) {a : Nat} (ha : a ≠ 0x0E ∧ a ≠ 0x0F ∧ a ≠ 0x30) (v : Byte) :
    (c.wr a v).Quiet := by
  obtain ⟨h0E, h0F, h30⟩ := ha
  refine ⟨h.settling, h.outside, ?_, ?_⟩
  · rw [Controller.request, Controller.mode, c.rd_wr_of_ne h0F.symm, c.rd_wr_of_ne h0E.symm]
    exact h.request
  · rw [Controller.pending, c.rd_wr_of_ne h30.symm]
    exact h.pending

theorem Controller.Quiet.at {c : Controller} (h : c.Quiet) (p : Parser) (x : Bool) (o : Option Byte) : (c.at p x o).Quiet :=
  ⟨h.settling, h.outside, h.request, h.pending⟩

/-- The controller after a read-receive-buffer bracket: the receive flag is cleared (R162). -/
def Controller.bufferRead (c : Controller) : Controller :=
  (c.wr 0x2C (c.rd 0x2C &&& 0xFE)).at .deselected true none

theorem Controller.Quiet.bufferRead {c : Controller} (h : c.Quiet) : c.bufferRead.Quiet := (h.wr (by decide) _).at _ _ _

theorem Controller.bufferRead_wf {c : Controller} (h : c.reg.wf) : c.bufferRead.reg.wf :=
  Controller.wr_wf h (by decide) _

theorem burstAddress (j : Nat) (hj : j < 16) :
    ((0x61 : RegAddr) + BitVec.ofNat 7 5 + BitVec.ofNat 7 j).toNat = 0x66 + j := by
  interval_cases j <;> rfl

/-- The frame in receive buffer 0, its payload `n` bytes (R87, R165). -/
def Controller.bufferedFrame (c : Controller) (n : BitVec 4) : CanFrame :=
  ⟨rxId (c.rd 0x61) (c.rd 0x62), n, (List.range n.toNat).map fun j => c.rd (0x66 + j)⟩

section Between

variable {s u : State} {c : Controller}

/-- Format RB at a controller with nothing to do (R116, R165). -/
theorem State.Between.readBuffer (h : s.Between u c) (hcfg : forController s.cfg) (hq : c.Quiet) {n : BitVec 4}
    (hn : rxCount s.cfg.rxDlcGuard (c.rd 0x65) = some n) :
    ∃ w, u.readRxBuffer = .ok (c.bufferedFrame n, w) ∧ s.Between w c.bufferRead := by
  obtain ⟨-, -, -, -, -, -, hop, -⟩ := hcfg
  have hburst := fun n => c.burst_bracket u.cfg.dummyByte n hq.settling
  have hn' : rxCount u.cfg.rxDlcGuard
      (u.ctl.select.takenAll (u.cfg.opReadRx0 :: List.replicate 4 u.cfg.dummyByte)).answer = some n := by
    rw [congrArg Cfg.opReadRx0 h.cfg, congrArg Cfg.rxDlcGuard h.cfg, h.ctl, hop, (hburst 4).1]
    exact hn
  obtain ⟨xs, hne, hread⟩ := State.readRxBuffer_sim h.released hn'
  obtain ⟨y, ys, rfl⟩ := List.exists_cons_of_ne_nil hne
  have hidh : (c.select.takenAll [0x90]).answer = c.rd 0x61 := (hburst 0).1
  have hidl : (c.select.takenAll [0x90, u.cfg.dummyByte]).answer = c.rd 0x62 := (hburst 1).1
  have hpayload := (hburst 5).2.1 n.toNat
  have hrelease : (c.select.takenAll (0x90 :: List.replicate 5 u.cfg.dummyByte ++
      List.replicate n.toNat u.cfg.dummyByte)).release.settled = c.bufferRead := by
    rw [List.cons_append, List.replicate_append_replicate, (hburst (5 + n.toNat)).2.2]
    exact hq.bufferRead.settled_eq
  have hdata : ((List.range n.toNat).map fun j => c.rd ((0x61 : RegAddr) + BitVec.ofNat 7 5 + BitVec.ofNat 7 j).toNat) =
      (List.range n.toNat).map fun j => c.rd (0x66 + j) := by
    refine List.map_congr_left fun j hj => ?_
    have hn16 := n.isLt
    rw [burstAddress j (by have := List.mem_range.1 hj; omega)]
  rw [congrArg Cfg.opReadRx0 h.cfg, h.ctl, hop, hidh, hidl, hpayload, hdata, hrelease] at hread
  refine ⟨_, hread, ?_⟩
  refine ⟨?_, ?_, ?_, ?_, ?_, ?_, rfl⟩ <;> simp [h.inited, h.env, h.moves, h.cfg]

end Between

/-! ## One poll (R142) -/

theorem State.receivePoll_empty {u : State}
    (h : receiveFlag u.cfg ((u.enter .poll).readRegister u.cfg.addrCanintf).1 = false) :
    u.receivePoll = .ok (none, ((u.enter .poll).readRegister u.cfg.addrCanintf).2) := by
  rw [State.receivePoll]
  dsimp only
  rw [if_pos h]

/-- The state after the flag is cleared, where the frame `f` was read in `w`. -/
def State.flagCleared (w : State) (f : CanFrame) : State :=
  let v := (w.setFb f).enter .clearFlag
  v.bitModify v.cfg.addrCanintf v.cfg.maskRx0if 0x00

theorem State.receivePoll_frame {u w : State} {f : CanFrame}
    (h : receiveFlag u.cfg ((u.enter .poll).readRegister u.cfg.addrCanintf).1 = true)
    (hread : (((u.enter .poll).readRegister u.cfg.addrCanintf).2.enter .readFrame).readRxBuffer = .ok (f, w)) :
    u.receivePoll = .ok (some (w.flagCleared f).scratch.fb, w.flagCleared f) := by
  rw [State.receivePoll]
  dsimp only
  rw [h, if_neg (by decide), hread]
  dsimp only [State.flagCleared]

/-- The flag of receive buffer 0 as the controller holds it (R36). -/
theorem receiveFlag_eq {cfg : Cfg} (hcfg : forController cfg) (f : Byte) : receiveFlag cfg f = f.getLsbD 0 := by
  obtain ⟨-, -, -, -, -, -, -, -, -, -, -, -, -, -, -, -, -, -, -, hmask⟩ := hcfg
  rw [receiveFlag, hmask]
  revert f
  decide +kernel

section Poll

variable {s u : State} {c : Controller}

theorem State.Between.pollRead (h : s.Between u c) (hcfg : forController s.cfg) (hq : c.Quiet) :
    receiveFlag u.cfg ((u.enter .poll).readRegister u.cfg.addrCanintf).1 = c.rxFlag ∧
      s.Between ((u.enter .poll).readRegister u.cfg.addrCanintf).2 c.parked := by
  have hfields := hcfg
  obtain ⟨-, -, -, -, -, -, -, -, -, -, -, -, hintf, -⟩ := hfields
  rw [h.cfg, hintf]
  obtain ⟨hval, hafter, -⟩ := (h.enter .poll).readQuiet hcfg hq (addr := 0x2C) (by decide)
  rw [hval, receiveFlag_eq hcfg]
  exact ⟨rfl, hafter⟩

/-- A poll that finds a frame: it is read and the flag is clear afterwards. -/
theorem State.Between.pollFrame (h : s.Between u c) (hcfg : forController s.cfg) (hq : c.Quiet) (hw : c.reg.wf)
    (hflag : c.rxFlag = true) {n : BitVec 4} (hn : rxCount s.cfg.rxDlcGuard (c.rd 0x65) = some n) :
    ∃ w d, u.receivePoll = .ok (some (c.bufferedFrame n), w) ∧ s.Between w d ∧ d.Quiet ∧ d.rxFlag = false := by
  have hfields := hcfg
  obtain ⟨-, -, -, -, -, -, -, -, -, -, -, -, hintf, -, -, -, -, -, -, hmask⟩ := hfields
  obtain ⟨hset, hafter⟩ := h.pollRead hcfg hq
  obtain ⟨w, hread, hread'⟩ := (hafter.enter .readFrame).readBuffer hcfg hq.parked hn
  have hstart := (hread'.setFb (c.bufferedFrame n)).enter .clearFlag
  obtain ⟨hclear, hfb, -⟩ := hstart.modify hcfg (addr := 0x2C) (by decide) 0x01 0x00
  obtain ⟨hq', hrd⟩ := hq.parked.bufferRead.regWrite (Controller.bufferRead_wf hw) (addr := 0x2C) (by decide) (by decide)
    (by decide) 0x01 0x00
  rw [hq'.settled_eq] at hclear
  have hcleared : w.flagCleared (c.bufferedFrame n) =
      ((w.setFb (c.bufferedFrame n)).enter .clearFlag).bitModify 0x2C 0x01 0x00 := by
    rw [State.flagCleared, hstart.cfg, hintf, hmask]
  have hpoll := State.receivePoll_frame (hset.trans hflag) hread
  have hframe : c.parked.bufferedFrame n = c.bufferedFrame n := rfl
  rw [hframe, hcleared, hfb] at hpoll
  refine ⟨_, _, hpoll, hclear, hq', ?_⟩
  have hbit : ∀ x : Byte, (mergeByte x 0x01 0x00).getLsbD 0 = false := by decide +kernel
  have h2C := hrd 0x2C
  have htaken : ¬ ((0x2C : Byte) = 0x0E ∨
      (((0x2C : Byte) = 0x28 ∨ (0x2C : Byte) = 0x29 ∨ (0x2C : Byte) = 0x2A) ∧ c.parked.bufferRead.mode ≠ 0b100)) :=
    not_or.2 ⟨by decide, fun h => absurd h.1 (by decide)⟩
  rw [if_pos ⟨rfl, htaken⟩] at h2C
  rw [Controller.rxFlag, Controller.parked_rd, h2C]
  exact hbit _

end Poll

/-! ## Loopback (R176) -/

/-- The simulator's controller after a delivery to itself: with nothing else to do it is where the eager schedule
ends (R180). -/
theorem Controller.settled_loopback {c : Controller} (hsettling : c.settling = false) (hrequest : c.request = c.mode)
    (hw : c.reg.wf) (hmode : c.mode = 0b010) (hpending : c.pending = true) :
    c.settled = (c.arrive (c.loopImage fun _ => 0x00)).sent := by
  have hwa := Controller.arrive_wf hw (c.loopImage_length fun _ => 0x00)
  have hdone : ((c.arrive (c.loopImage fun _ => 0x00)).sent).pending = false := by
    have hbit : ∀ x : Byte, (x &&& 0xF7).getLsbD 3 = false := by decide +kernel
    rw [Controller.pending, Controller.rd_sent hwa]
    exact hbit _
  have hreset : (c.finishReset fun _ => 0x00) = c := by rw [Controller.finishReset, if_neg (by simp [hsettling])]
  have hchange : c.changeMode = c := by rw [Controller.changeMode, if_neg fun h => h.2.1 hrequest]
  have hdeliver : (c.deliverLoopback fun _ => 0x00) = (c.arrive (c.loopImage fun _ => 0x00)).sent :=
    if_pos ⟨hmode, hpending⟩
  rw [Controller.settled, hreset, hchange, hdeliver, Controller.sendNormal, hdone,
    if_neg fun h => absurd h.2 (by decide)]

/-- In Configuration mode with no other mode asked for nothing happens (R179). -/
theorem Controller.settled_configuration {c : Controller} (hsettling : c.settling = false) (hrequest : c.request = c.mode)
    (hmode : c.mode = 0b100) : c.settled = c := by
  have hreset : (c.finishReset fun _ => 0x00) = c := by rw [Controller.finishReset, if_neg (by simp [hsettling])]
  have hchange : c.changeMode = c := by rw [Controller.changeMode, if_neg fun h => h.2.1 hrequest]
  have hdeliver : (c.deliverLoopback fun _ => 0x00) = c := by
    rw [Controller.deliverLoopback, hmode, if_neg fun h => absurd h.1 (by decide)]
  rw [Controller.settled, hreset, hchange, hdeliver, Controller.sendNormal, hmode, if_neg fun h => absurd h.1 (by decide)]

/-- The controller between the load of a frame's image and the first internal step after it: the image is in the
transmit buffer and the pending bit is set (R140, R173). -/
def Controller.loaded (c : Controller) (image : List Byte) : Controller :=
  ((c.parked.wrSeq 0x31 image).parked.wr 0x30 ((c.parked.wrSeq 0x31 image).rd 0x30 &&& 0x8F ||| 0x08)).parked

section Loaded

variable {c : Controller} {image : List Byte}

theorem Controller.loaded_wf (hw : c.reg.wf) (hlen : image.length ≤ 13) : (c.loaded image).reg.wf :=
  Controller.wr_wf (Controller.wrSeq_wf (c := c.parked) hw (by omega)) (by decide) _

/-- The bytes of the image are in the transmit buffer. -/
theorem Controller.rd_loaded_image (hw : c.reg.wf) (hlen : image.length ≤ 13) {k : Nat} (hk : k < image.length) :
    (c.loaded image).rd (0x31 + k) = image[k] := by
  have hw' : (c.parked.wrSeq 0x31 image).parked.reg.wf := Controller.wrSeq_wf (c := c.parked) hw (by omega)
  have hix : 0x31 + k - 0x31 = k := by omega
  rw [Controller.loaded, Controller.parked_rd, Controller.rd_wr hw', if_neg (by omega), Controller.parked_rd,
    Controller.rd_wrSeq (c := c.parked) hw (by omega), dif_pos ⟨by omega, by omega⟩]
  simp only [hix]

/-- Every register outside the transmit buffer and its control register is as before. -/
theorem Controller.rd_loaded_other (hw : c.reg.wf) (hlen : image.length ≤ 13) {a : Nat}
    (ha : a < 0x30 ∨ 0x3D < a) : (c.loaded image).rd a = c.rd a := by
  have hw' : (c.parked.wrSeq 0x31 image).parked.reg.wf := Controller.wrSeq_wf (c := c.parked) hw (by omega)
  rw [Controller.loaded, Controller.parked_rd, Controller.rd_wr hw', if_neg (by omega), Controller.parked_rd,
    Controller.rd_wrSeq (c := c.parked) hw (by omega), dif_neg (by omega)]
  rfl

theorem Controller.loaded_pending (hw : c.reg.wf) (hlen : image.length ≤ 13) : (c.loaded image).pending = true := by
  have hw' : (c.parked.wrSeq 0x31 image).parked.reg.wf := Controller.wrSeq_wf (c := c.parked) hw (by omega)
  rw [Controller.pending, Controller.loaded, Controller.parked_rd, Controller.rd_wr hw', if_pos rfl]
  exact requested_pending _

theorem Controller.loaded_mode (hw : c.reg.wf) (hlen : image.length ≤ 13) :
    (c.loaded image).mode = c.mode ∧ (c.loaded image).request = c.request := by
  rw [Controller.mode, Controller.request, Controller.rd_loaded_other hw hlen (by decide),
    Controller.rd_loaded_other hw hlen (by decide)]
  exact ⟨rfl, rfl⟩

theorem Controller.loaded_settling (c : Controller) (image : List Byte) :
    (c.loaded image).settling = c.settling ∧ (c.loaded image).outside = c.outside := by
  simp only [Controller.loaded, Controller.parked_settling, Controller.parked_outside, Controller.wr_settling,
    Controller.wr_outside]
  rw [Controller.wrSeq_eq]
  exact ⟨rfl, rfl⟩

end Loaded

/-- The identifier's low byte keeps the identifier under the mask of R176. -/
theorem rxId_masked (id : BitVec 11) : rxId (idHighByte id) (idLowByte id &&& 0xEB) = id := by
  have hlow : ∀ x : Byte, (x &&& 0xEB).extractLsb' 5 3 = x.extractLsb' 5 3 := by decide +kernel
  calc rxId (idHighByte id) (idLowByte id &&& 0xEB) = rxId (idHighByte id) (idLowByte id) := by rw [rxId, rxId, hlow]
    _ = id := rxId_bytes id

theorem dlc_masked {n : BitVec 4} (h : n.toNat ≤ 8) :
    n.setWidth 8 &&& 0x4F = (n.setWidth 8 : Byte) ∧ min ((n.setWidth 8 : Byte).toNat % 16) 8 = n.toNat := by
  revert n
  decide +kernel

theorem rxCount_dlc (guard : RxDlcGuard) {n : BitVec 4} (h : n.toNat ≤ 8) : rxCount guard (n.setWidth 8) = some n := by
  have hbyte : (n.setWidth 8 : Byte).toNat = n.toNat := by
    have hn := n.isLt
    simp
    omega
  rw [rxCount_small guard (by rw [hbyte]; exact h)]
  simp

/-- The transmit buffer holds the image of a frame. -/
def Controller.holdsImage (c : Controller) (reserved : Byte) (f : CanFrame) : Prop :=
  ∀ k, (hk : k < (encodeTx reserved f).length) → c.rd (0x31 + k) = (encodeTx reserved f)[k]

/-- Delivered to itself, a frame of the domain is the frame in receive buffer 0, its flag set (R176). -/
theorem Controller.delivered_frame {c : Controller} (hw : c.reg.wf) (hfree : c.rxFlag = false) {reserved : Byte}
    {f : CanFrame} (himage : c.holdsImage reserved f) (hdlc : f.dlc.toNat ≤ 8) (hdata : f.data.length = f.dlc.toNat) :
    let d := (c.arrive (c.loopImage fun _ => 0x00)).sent
    d.rxFlag = true ∧ d.rd 0x65 = f.dlc.setWidth 8 ∧ d.bufferedFrame f.dlc = f := by
  intro d
  have hread : ∀ b, d.rd b = _ := Controller.rd_arrive_sent_stored hw hfree (c.loopImage_length fun _ => 0x00)
  have hlen : (encodeTx reserved f).length = 5 + f.data.length := by simp [encodeTx]; omega
  obtain ⟨hmask, hcount⟩ := dlc_masked hdlc
  have hlengthByte : c.rd 0x35 = f.dlc.setWidth 8 := himage 4 (by omega)
  have hflag : ∀ x : Byte, (x ||| 0x05).getLsbD 0 = true := by decide +kernel
  refine ⟨?_, ?_, ?_⟩
  · rw [Controller.rxFlag, hread 0x2C]
    exact hflag _
  · refine (hread 0x65).trans ?_
    show c.rd 0x35 &&& 0x4F = _
    rw [hlengthByte, hmask]
  · have hhigh : d.rd 0x61 = idHighByte f.id := (hread 0x61).trans (himage 0 (by omega))
    have hlow : d.rd 0x62 = idLowByte f.id &&& 0xEB := by
      refine (hread 0x62).trans ?_
      show c.rd 0x32 &&& 0xEB = _
      rw [himage 1 (by omega)]
      rfl
    have hpayload : ((List.range f.dlc.toNat).map fun j => d.rd (0x66 + j)) = f.data := by
      refine List.ext_getElem (by simp [hdata]) fun j hj hj' => ?_
      have hin : 0x61 ≤ 0x66 + j ∧ 0x66 + j ≤ 0x6D := by omega
      have hix : 0x66 + j - 0x61 = 5 + j := by omega
      have hsrc : 0x36 + j = 0x31 + (5 + j) := by omega
      rw [List.getElem_map, List.getElem_range, hread, if_neg (by omega), if_neg (by omega), if_pos hin, hix,
        Controller.loopImage_payload _ c (by omega), hlengthByte, hcount, if_pos (by omega), hsrc,
        himage (5 + j) (by omega)]
      simp only [encodeTx]
      rw [List.getElem_append_right (by simp)]
      simp
    rw [Controller.bufferedFrame, hhigh, hlow, rxId_masked, hpayload]

/-- The delivery leaves a controller with nothing to do. -/
theorem Controller.delivered_quiet {c : Controller} (hw : c.reg.wf) (hfree : c.rxFlag = false)
    (hsettling : c.settling = false) (houtside : c.outside = none) (hrequest : c.request = c.mode) {image : List Byte}
    (hlen : image.length = 13) : ((c.arrive image).sent).Quiet := by
  have hread := Controller.rd_arrive_sent_stored hw hfree hlen
  have hpending : ∀ x : Byte, (x &&& 0xF7).getLsbD 3 = false := by decide +kernel
  refine ⟨?_, (c.outside_arrive image).trans houtside, ?_, ?_⟩
  · rw [Controller.sent, Controller.wr_settling, Controller.wr_settling, Controller.arrive, hfree, if_neg (by decide),
      Controller.wr_settling, Controller.wrSeq_eq]
    exact hsettling
  · rw [Controller.request, Controller.mode, hread, hread]
    exact hrequest
  · rw [Controller.pending, hread, if_pos rfl]
    exact hpending _

/-! ## The statements -/

/-- `Receive` in front of a controller that has received nothing (R142). -/
theorem exec_receive_sim_empty {s : State} (hidle : s.simIdle) (hquiet : s.quiet) (hflag : s.ctl.rxFlag = false) :
    ∃ t, exec .receive s = .next t ∧ t.ret = .status .noMessage := by
  have hcfg := hidle.forController
  have hq := hidle.ctl_quiet hquiet
  obtain ⟨hclear, hafter⟩ := (State.Between.start hidle).pollRead hcfg hq
  obtain ⟨t, hnext, hret, -⟩ := hafter.returnsQuiet hcfg hq.parked (.status .noMessage)
  rw [exec_receive hidle.mayStart, State.receivePoll_empty (hclear.trans hflag)]
  exact ⟨t, hnext, hret⟩

/-- `Receive` in front of a controller that holds a frame (R142). -/
theorem exec_receive_sim_frame {s : State} (hidle : s.simIdle) (hquiet : s.quiet) (hw : s.ctl.reg.wf)
    (hflag : s.ctl.rxFlag = true) {n : BitVec 4} (hn : rxCount s.cfg.rxDlcGuard (s.ctl.rd 0x65) = some n) :
    ∃ t, exec .receive s = .next t ∧ t.ret = .okFrame (s.ctl.bufferedFrame n) ∧ t.simIdle ∧ t.quiet ∧
      t.ctl.rxFlag = false := by
  have hcfg := hidle.forController
  obtain ⟨w, d, hpoll, hafter, hq, hclear⟩ :=
    (State.Between.start hidle).pollFrame hcfg (hidle.ctl_quiet hquiet) hw hflag hn
  obtain ⟨t, hnext, hret, hctl, hidle', hquiet', -⟩ := hafter.returnsQuiet hcfg hq (.okFrame (s.ctl.bufferedFrame n))
  rw [exec_receive hidle.mayStart, hpoll]
  exact ⟨t, hnext, hret, hidle', hquiet', by rw [hctl]; exact hclear⟩

/-- Settles O59: the transmission delivers the frame to receive buffer 0, the first poll reads it and clears the flag. -/
theorem loopbackRoundTrip : Obligations.LoopbackRoundTrip := by
  unfold Obligations.LoopbackRoundTrip
  intro s f hidle hquiet hw hmode hfree hcheck
  obtain ⟨-, hdlc, hdata⟩ := (check_none_iff f).1 hcheck
  obtain ⟨hrequest, hpending⟩ := hquiet
  have hq := hidle.ctl_quiet ⟨hrequest, hpending⟩
  let g : CanFrame := ⟨f.id.setWidth 11, f.dlc.setWidth 4, f.data⟩
  have hlen : (encodeTx s.cfg.txReservedByte g).length ≤ 13 := encodeTx_length_le s.cfg.txReservedByte f hcheck
  let c := s.ctl.loaded (encodeTx s.cfg.txReservedByte g)
  have hwc : c.reg.wf := Controller.loaded_wf hw hlen
  have himage : c.holdsImage s.cfg.txReservedByte g := fun k hk => Controller.rd_loaded_image hw hlen hk
  obtain ⟨hmodec, hrequestc⟩ := Controller.loaded_mode hw hlen
  obtain ⟨hsettlingc, houtsidec⟩ := s.ctl.loaded_settling (encodeTx s.cfg.txReservedByte g)
  have hfreec : c.rxFlag = false := by
    rw [Controller.rxFlag, Controller.rd_loaded_other hw hlen (by decide)]
    exact hfree
  have hsettled : c.settled = _ := Controller.settled_loopback (hsettlingc.trans hq.settling)
    (hrequestc.trans (hrequest.trans hmodec.symm)) hwc (hmodec.trans hmode) (Controller.loaded_pending hw hlen)
  have hqd : c.settled.Quiet := by
    rw [hsettled]
    exact Controller.delivered_quiet hwc hfreec (hsettlingc.trans hq.settling) (houtsidec.trans hq.outside)
      (hrequestc.trans (hrequest.trans hmodec.symm)) (c.loopImage_length _)
  have hwd : c.settled.reg.wf := by
    rw [hsettled]
    exact Controller.sent_wf (Controller.arrive_wf hwc (c.loopImage_length _))
  obtain ⟨hflag, hlengthByte, hframe⟩ := Controller.delivered_frame hwc hfreec himage
    ((dlc_toNat hdlc).le.trans hdlc) (hdata.trans (dlc_toNat hdlc).symm)
  rw [← hsettled] at hflag hlengthByte hframe
  obtain ⟨t, ht, hret, hctl, hidle', hcfg⟩ :=
    transmit_sim s f hidle hpending hrequest hw hcheck hqd.settling hqd.outside
  have hctl' : t.ctl = c.settled := hctl
  have hquiet' : t.quiet := by
    rw [State.quiet, hctl']
    exact ⟨hqd.request, hqd.pending⟩
  obtain ⟨u, hu, hret', hidle'', hquiet'', hempty⟩ := exec_receive_sim_frame (n := g.dlc) hidle' hquiet'
    (by rw [hctl']; exact hwd) (by rw [hctl']; exact hflag)
    (by rw [hctl', hlengthByte]; exact rxCount_dlc _ ((dlc_toNat hdlc).le.trans hdlc))
  obtain ⟨v, hv, hret''⟩ := exec_receive_sim_empty hidle'' hquiet'' hempty
  rw [hctl', hframe] at hret'
  exact ⟨t, u, v, ht, hret, hu, hret', hv, hret''⟩

/-- Settles O60: in Configuration mode no step of the eager schedule is enabled after the load, and a second `Transmit`
reads the pending bit and returns. -/
theorem configurationModeKeepsPending : Obligations.ConfigurationModeKeepsPending := by
  unfold Obligations.ConfigurationModeKeepsPending
  refine ⟨fun s f hidle hquiet hw hmode hcheck => ?_, fun s g hstuck hcheck => ?_⟩
  · obtain ⟨hrequest, hpending⟩ := hquiet
    have hq := hidle.ctl_quiet ⟨hrequest, hpending⟩
    let image := encodeTx s.cfg.txReservedByte ⟨f.id.setWidth 11, f.dlc.setWidth 4, f.data⟩
    have hlen : image.length ≤ 13 := encodeTx_length_le s.cfg.txReservedByte f hcheck
    obtain ⟨hmodec, hrequestc⟩ := Controller.loaded_mode hw hlen
    obtain ⟨hsettlingc, houtsidec⟩ := s.ctl.loaded_settling image
    have hrequestc' := hrequestc.trans (hrequest.trans hmodec.symm)
    have hsettled : (s.ctl.loaded image).settled = s.ctl.loaded image := Controller.settled_configuration
      (hsettlingc.trans hq.settling) hrequestc' (hmodec.trans hmode)
    have hsettling' : (s.ctl.loaded image).settled.settling = false := by
      rw [hsettled]
      exact hsettlingc.trans hq.settling
    have houtside' : (s.ctl.loaded image).settled.outside = none := by
      rw [hsettled]
      exact houtsidec.trans hq.outside
    obtain ⟨t, ht, hret, hctl, hidle', -⟩ := transmit_sim s f hidle hpending hrequest hw hcheck hsettling' houtside'
    have hctl' : t.ctl = s.ctl.loaded image := Eq.trans hctl hsettled
    refine ⟨t, ht, hret, hidle', ?_⟩
    rw [hctl']
    exact ⟨hrequestc', hmodec.trans hmode, Controller.loaded_pending hw hlen⟩
  · obtain ⟨hidle, hrequest, hmode, hpending⟩ := hstuck
    have hcfg := hidle.forController
    have hfields := hcfg
    obtain ⟨-, -, -, -, -, -, -, -, -, -, -, -, -, hctrl, -, -, -, -, hmask, -⟩ := hfields
    obtain ⟨hsettling, houtside⟩ : s.ctl.settling = false ∧ s.ctl.outside = none := by
      obtain ⟨-, -, -, -, -, h⟩ := hidle
      exact h
    have hstart := ((State.Between.start hidle).setFb ⟨g.id.setWidth 11, g.dlc.setWidth 4, g.data⟩)
    obtain ⟨hafter, hval, -⟩ := (hstart.enter .checkPending).read hcfg (addr := 0x30) (by decide)
    have hparked : s.ctl.parked.settled = s.ctl.parked :=
      Controller.settled_configuration (c := s.ctl.parked) hsettling hrequest hmode
    rw [hparked] at hafter
    obtain ⟨t, hnext, hret, hctl, hidle', -⟩ := hafter.returns hcfg hsettling houtside (.status .busy)
    have hbusy : pendingBit s.cfg ((s.ctl.outAt ((0x30 : Byte).setWidth 7)).getD 0) = true := by
      have hbit : ∀ x : Byte, x.getLsbD 3 = true → (x &&& 0x08 != 0) = true := by decide +kernel
      rw [Controller.outAt, hsettling, pendingBit, hmask]
      exact hbit _ hpending
    refine ⟨t, Eq.trans ?_ hnext, hret, ⟨hidle', by rw [hctl]; exact ⟨hrequest, hmode, hpending⟩⟩,
      fun a => by rw [State.reg, hctl]; rfl⟩
    rw [exec_transmit hidle.mayStart (toFrame_of_check hcheck), State.transmitRun]
    dsimp only
    rw [State.setFb_cfg, hctrl, hval, if_pos hbusy]

end Sys2Proof.Machine
end

section
/-! PROOF. The strict length guard with prepared answers (spec/42_frame_codec.md R128, 60_exceptions.md R199 (e)): what each
transfer of a burst receives is the next byte prepared, so the DLC byte it meets is the one prepared. -/

namespace Sys2Proof.Machine

/-- The oracle answers with the levels prepared (R11). -/
structure State.Answers (u : State) (cfg : Cfg) (bits : List Level) : Prop where
  env : u.env = .oracle
  cfg : u.cfg = cfg
  samples : u.samples = bits

section Answers

variable {u : State} {cfg : Cfg} {rest : List Level}

theorem State.Answers.of_drawn {b : State} {bits : List Level} (h : b.Answers cfg (bits ++ rest)) {received : List Level}
    (hlen : received.length = bits.length) (hdrawn : b.drawn u received) : received = bits ∧ u.Answers cfg rest := by
  obtain ⟨hprefix, n, rfl⟩ := hdrawn
  rw [h.samples, hlen, List.take_left] at hprefix
  refine ⟨(hprefix.eq_of_length hlen.symm).symm, h.env, h.cfg, ?_⟩
  show b.samples.drop received.length = rest
  rw [h.samples, hlen, List.drop_left]

theorem State.Answers.pinWrite (h : u.Answers cfg rest) (p : OutLine) (v : Level) : (u.pinWrite p v).Answers cfg rest := by
  rw [State.pinWrite_oracle h.env]
  cases p <;> exact ⟨h.env, h.cfg, h.samples⟩

theorem State.Answers.enter (h : u.Answers cfg rest) (l : Seq) : (u.enter l).Answers cfg rest :=
  ⟨h.env, h.cfg, h.samples⟩

/-- A transfer receives the next byte prepared. -/
theorem State.Answers.transfer {rx : Byte} (h : u.Answers cfg (wireBits rx ++ rest)) (tx : Byte) :
    ∃ v, u.transfer tx = (rx, v) ∧ v.Answers cfg rest := by
  have hmoved : (u.moved tx (u.transfer tx).1).Answers cfg (wireBits rx ++ rest) := ⟨h.env, h.cfg, h.samples⟩
  obtain ⟨hbits, hafter⟩ := hmoved.of_drawn (by simp [wireBits]) (State.transfer_oracle h.env tx)
  have hbytes : [(u.transfer tx).1].flatMap wireBits = [rx].flatMap wireBits := by simpa using hbits
  have hrx : (u.transfer tx).1 = rx := List.singleton_inj.1 (flatMap_wireBits_injective hbytes)
  exact ⟨(u.transfer tx).2, Prod.ext hrx rfl, hafter⟩

theorem State.Answers.receiveBytes {payload : List Byte} (h : u.Answers cfg (payload.flatMap wireBits ++ rest)) :
    ∃ v, u.receiveBytes payload.length = (payload, v) ∧ v.Answers cfg rest := by
  induction payload generalizing u with
  | nil => exact ⟨u, rfl, h⟩
  | cons rx payload ih =>
    rw [List.flatMap_cons, List.append_assoc] at h
    obtain ⟨v, hrx, hafter⟩ := h.transfer u.cfg.dummyByte
    obtain ⟨w, hpayload, hend⟩ := ih hafter
    refine ⟨w, ?_, hend⟩
    rw [List.length_cons, State.receiveBytes, hrx]
    simp only [hpayload]

/-- Format RD: the third byte prepared is the result (R111). -/
theorem State.Answers.readRegister {q0 q1 f : Byte} (h : u.Answers cfg ([q0, q1, f].flatMap wireBits ++ rest))
    (addr : Byte) : ∃ v, u.readRegister addr = (f, v) ∧ v.Answers cfg rest := by
  have hbits : [q0, q1, f].flatMap wireBits ++ rest = wireBits q0 ++ (wireBits q1 ++ (wireBits f ++ rest)) := by simp
  rw [hbits] at h
  obtain ⟨v1, ht1, h1⟩ := (h.pinWrite .cs false).transfer u.cfg.opRead
  obtain ⟨v2, ht2, h2⟩ := h1.transfer addr
  obtain ⟨v3, ht3, h3⟩ := h2.transfer v2.cfg.dummyByte
  have hset : (v3.setRegval f).Answers cfg rest := ⟨h3.env, h3.cfg, h3.samples⟩
  have hread : u.readRegister addr =
      (((v3.setRegval f).pinWrite .cs true).scratch.regval, (v3.setRegval f).pinWrite .cs true) := by
    simp only [State.readRegister, State.assertSelect, State.deassertSelect, State.sendBytes, State.sendByte,
      List.foldl_cons, List.foldl_nil, ht1, ht2, ht3]
  rw [State.pinWrite_scratch] at hread
  exact ⟨_, hread, hset.pinWrite .cs true⟩

/-- Format RB: the burst meets the DLC byte prepared (R116, R128). -/
theorem State.Answers.readRxBuffer {r0 idh idl x y dlcb : Byte} {payload : List Byte}
    (h : u.Answers cfg (([r0, idh, idl, x, y, dlcb] ++ payload).flatMap wireBits ++ rest)) :
    (rxCount cfg.rxDlcGuard dlcb = none → u.readRxBuffer = .error .strictDlc) ∧
    ∀ n, rxCount cfg.rxDlcGuard dlcb = some n → payload.length = n.toNat →
      ∃ w, u.readRxBuffer = .ok (⟨rxId idh idl, n, payload⟩, w) ∧ w.Answers cfg rest := by
  have hbits : ([r0, idh, idl, x, y, dlcb] ++ payload).flatMap wireBits ++ rest =
      wireBits r0 ++ (wireBits idh ++ (wireBits idl ++ (wireBits x ++ (wireBits y ++ (wireBits dlcb ++
        (payload.flatMap wireBits ++ rest)))))) := by simp
  rw [hbits] at h
  obtain ⟨v1, ht1, h1⟩ := (h.pinWrite .cs false).transfer u.cfg.opReadRx0
  obtain ⟨v2, ht2, h2⟩ := h1.transfer v1.cfg.dummyByte
  obtain ⟨v3, ht3, h3⟩ := h2.transfer v1.cfg.dummyByte
  obtain ⟨v4, ht4, h4⟩ := h3.transfer v1.cfg.dummyByte
  obtain ⟨v5, ht5, h5⟩ := h4.transfer v1.cfg.dummyByte
  obtain ⟨v6, ht6, h6⟩ := h5.transfer v1.cfg.dummyByte
  have hguard : v1.cfg.rxDlcGuard = cfg.rxDlcGuard := congrArg Cfg.rxDlcGuard h1.cfg
  unfold State.readRxBuffer
  simp only [State.assertSelect, State.sendBytes, State.sendByte, List.foldl_cons, List.foldl_nil, ht1, ht2, ht3, ht4,
    ht5, ht6, hguard]
  refine ⟨fun hnone => by rw [hnone], fun n hcount hlen => ?_⟩
  obtain ⟨v7, hpayload, hend⟩ := h6.receiveBytes
  rw [hlen] at hpayload
  refine ⟨v7.deassertSelect, ?_, hend.pinWrite .cs true⟩
  rw [hcount]
  dsimp only
  rw [hpayload, decodeRx_of_count hcount hlen]

theorem State.Answers.finish (h : u.Answers cfg rest) (r : Result) :
    ∃ t, u.finish r = .next t ∧ t.ret = r ∧ t.samples = rest :=
  ⟨_, State.finish_of_left (State.left_oracle h.env) r, rfl, h.samples⟩

/-- The flag's clear keeps the frame in FB, and the oracle. -/
theorem State.Answers.flagCleared (h : u.Answers cfg rest) (f : CanFrame) :
    (u.flagCleared f).scratch.fb = f ∧ (u.flagCleared f).env = .oracle := by
  let v := (u.setFb f).enter .clearFlag
  have henv : v.env = .oracle := h.env
  obtain ⟨rxs, hlen, hdrawn⟩ := envLaw_oracle.bracket henv [v.cfg.opBitModify, v.cfg.addrCanintf, v.cfg.maskRx0if, 0x00]
  have hcleared : u.flagCleared f = v.bracket [v.cfg.opBitModify, v.cfg.addrCanintf, v.cfg.maskRx0if, 0x00] := rfl
  obtain ⟨r, rs, rfl⟩ := List.exists_cons_of_length_eq_add_one hlen
  obtain ⟨-, n, hafter⟩ := hdrawn
  rw [hcleared, hafter]
  simp [v, h.env]

/-- A poll that finds a frame, with the answers prepared (R142, R128). -/
theorem State.Answers.receivePoll {q0 q1 f r0 idh idl x y dlcb : Byte} {payload : List Byte}
    (h : u.Answers cfg (([q0, q1, f, r0, idh, idl, x, y, dlcb] ++ payload).flatMap wireBits ++ rest))
    (hflag : f &&& cfg.maskRx0if ≠ 0) :
    (rxCount cfg.rxDlcGuard dlcb = none → u.receivePoll = .error .strictDlc) ∧
    ∀ n, rxCount cfg.rxDlcGuard dlcb = some n → payload.length = n.toNat →
      ∃ w, u.receivePoll = .ok (some ⟨rxId idh idl, n, payload⟩, w) ∧ w.env = .oracle := by
  have hbits : ([q0, q1, f, r0, idh, idl, x, y, dlcb] ++ payload).flatMap wireBits ++ rest =
      [q0, q1, f].flatMap wireBits ++ (([r0, idh, idl, x, y, dlcb] ++ payload).flatMap wireBits ++ rest) := by simp
  rw [hbits] at h
  obtain ⟨v, hval, hafter⟩ := (h.enter .poll).readRegister u.cfg.addrCanintf
  obtain ⟨hrefused, hframe⟩ := (hafter.enter .readFrame).readRxBuffer
  have hset : receiveFlag u.cfg ((u.enter .poll).readRegister u.cfg.addrCanintf).1 = true := by
    rw [hval, h.cfg]
    exact (receiveFlag_iff cfg f).2 hflag
  refine ⟨fun hnone => ?_, fun n hcount hlen => ?_⟩
  · rw [State.receivePoll]
    dsimp only
    rw [hset, if_neg (by decide), hval, hrefused hnone]
  · obtain ⟨w, hok, hend⟩ := hframe n hcount hlen
    obtain ⟨hfb, henv⟩ := hend.flagCleared ⟨rxId idh idl, n, payload⟩
    have hresult := State.receivePoll_frame hset (by rw [hval]; exact hok)
    rw [hfb] at hresult
    exact ⟨_, hresult, henv⟩

/-- The first poll of `ReceiveWithTimeout` decides where it does not end empty (R144). -/
theorem State.receiveLoop_of_poll {o : Except Refusal (Option CanFrame × State)} (hpoll : u.receivePoll = o)
    (hfull : ∀ w, o ≠ .ok (none, w)) {n : Nat} (hn : n ≠ 0) : u.receiveLoop n = afterPoll o := by
  obtain ⟨k, rfl⟩ := Nat.exists_eq_succ_of_ne_zero hn
  rw [State.receiveLoop, hpoll]
  obtain why | ⟨_ | f, w⟩ := o
  · rfl
  · exact absurd rfl (hfull w)
  · rfl

end Answers

/-- Settles O20: each of the three operations meets the DLC byte prepared (`State.Answers.readRxBuffer`,
`State.Answers.receivePoll`). -/
theorem strictGuardOnReceivedLength : Obligations.StrictGuardOnReceivedLength := by
  unfold Obligations.StrictGuardOnReceivedLength
  rintro s q0 q1 f r0 idh idl x y dlcb payload rest bound ⟨henv, hready, hcs⟩ hstrict hflag hne hbound
  have hnone : dlcb > 8 → rxCount s.cfg.rxDlcGuard dlcb = none := fun h => by rw [hstrict, rxCount_strict_none h]
  have hsome : dlcb.toNat ≤ 8 → rxCount s.cfg.rxDlcGuard dlcb = some (dlcb.setWidth 4) := fun h => rxCount_small _ h
  refine ⟨fun hsamples => ?_, fun hsamples => ?_⟩
  · have hanswers : (s.enter .cmdReadRxBuffer).Answers s.cfg _ := ⟨henv, rfl, hsamples⟩
    obtain ⟨hrefused, hframe⟩ := hanswers.readRxBuffer
    have hexec : exec .cmdReadRxBuffer s = execCmdReadRxBuffer s := rfl
    rw [execCmdReadRxBuffer, State.start_of ⟨hready, hcs⟩] at hexec
    refine ⟨fun hlarge => ?_, fun hsmall hlen => ?_⟩
    · rw [hexec, hrefused (hnone hlarge)]
    · obtain ⟨w, hok, hend⟩ := hframe _ (hsome hsmall) (hlen.trans (dlc_toNat hsmall).symm)
      obtain ⟨t, hnext, hret, hrest⟩ := hend.finish (.frame ⟨rxId idh idl, dlcb.setWidth 4, payload⟩)
      rw [hok] at hexec
      rw [rxId_eq] at hret
      exact ⟨t, hexec.trans hnext, hret, hrest⟩
  · have hanswers : s.Answers s.cfg _ := ⟨henv, rfl, hsamples⟩
    have hlooped : ((s.enter .loop).setTmo bound).Answers s.cfg _ := ⟨henv, rfl, hsamples⟩
    obtain ⟨hrefused, hframe⟩ := hanswers.receivePoll hflag
    obtain ⟨hrefused', hframe'⟩ := hlooped.receivePoll hflag
    rw [exec_receive ⟨hready, hcs⟩, exec_receiveWithTimeout ⟨hready, hcs⟩ hbound]
    refine ⟨fun hlarge => ⟨?_, ?_⟩, fun hsmall hlen => ?_⟩
    · rw [hrefused (hnone hlarge)]
      rfl
    · exact State.receiveLoop_of_poll (hrefused' (hnone hlarge)) (fun w h => by cases h) hne
    · obtain ⟨w, hok, hw⟩ := hframe _ (hsome hsmall) (hlen.trans (dlc_toNat hsmall).symm)
      obtain ⟨w', hok', hw'⟩ := hframe' _ (hsome hsmall) (hlen.trans (dlc_toNat hsmall).symm)
      rw [rxId_eq] at hok hok'
      have hloop := State.receiveLoop_of_poll hok' (fun w h => by cases h) hne
      rw [hok, hloop]
      exact ⟨_, _, State.finish_of_left (State.left_oracle hw) _, State.finish_of_left (State.left_oracle hw') _, rfl, rfl⟩

end Sys2Proof.Machine
end
